-- ==== Sys2Proof/Word.lean ====
section
/-! DEFINITION. The few data words of the part: bytes of the links and sixteen-flag words. Every other quantity of the manual is a
whole number (00_scope.md, 5.3 Quantities) and is a Nat here. -/

namespace Sys2Proof

/-- One byte of a link (R190). -/
abbrev Byte := BitVec 8

/-- A word of sixteen flags, numbered 0 to 15 from the least significant: the sensor word, a monitor mask, a product mask (R150, R52). -/
abbrev Flags16 := BitVec 16

end Sys2Proof
end

