-- ==== Sys2Proof/Config.lean ====
section
/-! DEFINITION. What the part fixes (capacities, ceilings, ranges, codes of the manual) and the one value the manual leaves open. -/

namespace Sys2Proof.Config

/-- Capacity of the piece list (R1). -/
def maxPieces : Nat := 32
/-- Capacity of the job list (R138). -/
def maxJobs : Nat := 4
/-- D_MAX, the largest value of the descending register (R94). -/
def dMax : Nat := 99999999
/-- A_MAX = 2^48 - 1, the ceiling of the ascending register (R94). -/
def aMax : Nat := 281474976710655
/-- N_MAX, the largest sequence number (R94). -/
def nMax : Nat := 4294967295
/-- Maximum of a 16-bit saturating counter (R14, R38, R127, R130, R190, R191). -/
def counterMax : Nat := 65535
/-- Maximum of the printed, voided and spoiled counts and of a job's counts (R96, R139). -/
def countMax : Nat := 4294967295
/-- Maximum of a channel's cause count and of the secondary count (R179, R176). -/
def causeCountMax : Nat := 255
/-- Credit numbers are counted modulo 2^32 (R109). -/
def creditModulus : Nat := 4294967296
/-- Scale limit in tenths of a gram (R29). -/
def maxReading : Nat := 60000
/-- Largest stored length and height, in tenths of a millimetre (R28). -/
def maxLength : Nat := 6000
/-- Largest stored thickness, in tenths of a millimetre (R28). -/
def maxThickness : Nat := 500
/-- Largest weight a breakpoint or a product may name, in grams (R48, R60). -/
def maxGrams : Nat := 6000
/-- Number of price cells of a bank (R51). -/
def priceCells : Nat := 1536
/-- A price cell that is not offered (R51). -/
def notOffered : Nat := 65535
/-- A zone map entry that is not served (R50). -/
def notServed : Nat := 15
/-- Largest cap a valid header may hold (R47). -/
def capMax : Nat := 1000000
/-- How far past the last-used date a day may lie (R111). -/
def dateWindow : Nat := 31
/-- Modulus of the check number (R113). -/
def checkModulus : Nat := 9973
/-- Family code of IDENTIFY (R188). -/
def familyCode : Nat := 0x2C
/-- Part code of IDENTIFY (R188). -/
def partCode : Nat := 340
/-- Revision letter C as its position in A to Z (R188, R198; log 9). -/
def revisionCode : Nat := 2
/-- Largest payload length of a frame (R190). -/
def maxPayload : Nat := 60
/-- Result bytes one REPLY record carries (R198). -/
def replyPart : Nat := 55
/-- SYNC, the byte that opens a frame (R190). -/
def sync : Byte := 0xA5#8

/-- FREE VALUE (log 3): whether the write under way when power is lost, or when RESET is asserted, is kept whole or lost whole. R100
allows both and gives no choice; the argument is a counter of State, so each loss asks afresh. -/
opaque writeKept : Nat → Bool

end Sys2Proof.Config
end

