-- ==== Sys2Proof/Syntax.lean ====
section
/-! DEFINITION. The commands of the part: one constructor for each row of spec/opcode_table.json, with the fields the record, request or
event carries as it is sent (R191, R197, R199). Codes that may name nothing (a bank, a mode, a quality) stay raw numbers here and are read by
Machine/Operands.lean, because the rules say what an unknown code does. -/

namespace Sys2Proof

/-- The two serial links (R190, R193). -/
inductive Link where
  | line
  | print
deriving DecidableEq, Repr

/-- What every request begins with (R192): its request number; and whether the frame's LEN matched the request's kind (R191). -/
structure ReqHead where
  number : Nat
  lenOk : Bool
deriving DecidableEq, Repr

/-- All the fields of one product record (R48, R199). -/
structure Product where
  defined : Bool
  bandTable : Nat
  zoneMap : Nat
  maxWeight : Nat
  maxLength : Nat
  maxHeight : Nat
  maxThickness : Nat
  upgrade : Option Nat
  noReadColumn : Nat
  zeroOk : Bool
deriving DecidableEq, Repr

/-- A surcharge entry as a SURCHARGE segment carries it (R58, R199); condition and amount kind are codes. -/
structure SurchargeFields where
  mask : Flags16
  condition : Nat
  threshold : Nat
  amountKind : Nat
  amount : Nat
  last : Bool
deriving DecidableEq, Repr

/-- The start address of a PRICE_RUN segment (R59): a coordinate, a flat index, or an address form code that is neither. -/
inductive PriceStart where
  | coordinate (t b z : Nat)
  | flat (f : Nat)
  | unknownForm (code : Nat)
deriving DecidableEq, Repr

/-- The values of CONFIGURE as sent (R194, R199); the notice mode is a code. -/
structure ConfigureFields where
  vectorBase : Nat
  noticeMode : Nat
  tTake : Nat
  tResult : Nat
  maxOutstanding : Nat
  lowThreshold : Nat
deriving DecidableEq, Repr

/-- The values of JOB_ADD as sent (R140, R199); the zone mode is a code. -/
structure JobFields where
  id : Nat
  product : Nat
  count : Nat
  margin : Nat
  guardBand : Nat
  zoneMode : Nat
  column : Nat
  overrideAllowed : Bool
deriving DecidableEq, Repr

/-- The values of MONITOR_SET as sent (R159, R199); polarity, function and action are codes. -/
structure MonitorFields where
  number : Nat
  mask : Flags16
  polarity : Nat
  function : Nat
  action : Nat
deriving DecidableEq, Repr

/-- The commands, in the order of spec/opcode_table.json. -/
inductive Instr where
  -- sensor records of the line link
  | enter (tag : Nat)
  | dimension (tag length height thickness : Nat) (nonMachinable : Bool)
  | weight (tag reading quality : Nat)
  | destination (tag code : Nat) (noRead : Bool) (service : Option Nat)
  | gate (tag : Nat)
  | exit (tag : Nat)
  | remove (tag : Nat)
  | lineStatus (word : Flags16)
  -- requests of the line controller
  | configure (h : ReqHead) (v : ConfigureFields)
  | lineReset (h : ReqHead)
  | identify (h : ReqHead)
  | tableBegin (h : ReqHead) (bank tariffId : Nat)
  | headerSegment (h : ReqHead) (day mode step cap : Nat)
  | productSegment (h : ReqHead) (n : Nat) (p : Product)
  | bandTableSegment (h : ReqHead) (t : Nat) (breakpoints : List Nat)
  | zoneBlockSegment (h : ReqHead) (map first : Nat) (entries : List Nat)
  | surchargeSegment (h : ReqHead) (position : Nat) (f : SurchargeFields)
  | priceRunSegment (h : ReqHead) (start : PriceStart) (values : List Nat)
  | unknownSegmentGroup (h : ReqHead) (group : Nat)
  | tableEnd (h : ReqHead) (expected : Nat)
  /-- `mode` is 0 for IMMEDIATE; a BANK_SWITCH whose mode byte is none of the three modes (R62) also stands here, with that byte. -/
  | bankSwitchImmediate (h : ReqHead) (bank mode : Nat)
  | bankSwitchAtDate (h : ReqHead) (bank : Nat)
  | bankSwitchAtJob (h : ReqHead) (bank : Nat)
  | credit (h : ReqHead) (number amount : Nat)
  | date (h : ReqHead) (day : Nat)
  | accountQuery (h : ReqHead)
  | jobAdd (h : ReqHead) (v : JobFields)
  | jobAbort (h : ReqHead) (id : Nat)
  | monitorSet (h : ReqHead) (v : MonitorFields)
  | hold (h : ReqHead)
  | resume (h : ReqHead)
  | clearHalt (h : ReqHead)
  | fetchCapture (h : ReqHead)
  | status (h : ReqHead)
  | peek (h : ReqHead)
  | noticeEnable (h : ReqHead) (value mask : Flags16)
  | endOfService (h : ReqHead)
  /-- A request of a kind 0x40 to 0x7F that names no request (R191). -/
  | unknownRequest (number kind : Nat)
  /-- An inbound record of an invalid kind or length, as its link delivered it (R191). -/
  | unknownRecord (link : Link) (kind length : Nat)
  /-- A frame that the receive framer of the link discarded (R190). -/
  | discardedFrame (link : Link)
  -- records of the print link
  | printerState (code : Nat)
  | orderTaken (tag : Nat)
  | printResult (tag outcome : Nat)
  -- timers of the print port
  | takeTimerExpiry (tag : Nat)
  | resultTimerExpiry (tag : Nat)
  -- pins and power; POWER_ON carries the level of the SERVICE strap that it samples
  | pfwAssert
  | pfwRelease
  | resetAssert
  | powerLoss
  | powerOn (service : Bool)
  -- the accounting unit
  | commitComplete
  | confirmComplete
  | voidComplete
  | spoilComplete
  | creditComplete
  | writeBegin
  -- the commit unit, the replies that wait, the notice unit and the transmitters
  | commitStart
  | gateCommittedCheck
  | holdReply
  | lineResetReply
  | notice
  | recordTransmit (link : Link)
deriving DecidableEq, Repr

end Sys2Proof
end

