-- ==== Sys2Proof/WellFormed.lean ====
section
/-! DEFINITION. When a command's fields fit the fields of the record that carries it (R190, R191, R197, R199). A command that is not
well-formed cannot arrive on a link; the machine is total on it all the same. -/

namespace Sys2Proof

/-- The value fits a field of `n` bytes. -/
abbrev fitsBytes (n v : Nat) : Bool := v < 256 ^ n

/-- The request kinds (R191). -/
def requestKinds : List Nat :=
  [0x40, 0x41, 0x42, 0x48, 0x49, 0x4A, 0x4B, 0x50, 0x51, 0x52, 0x58, 0x59, 0x5C, 0x60, 0x61, 0x62, 0x63, 0x68, 0x69, 0x6A, 0x6B]

/-- The payload length of a sensor record kind, 0x01 to 0x08 (R191, R197). -/
def sensorLength : Nat → Option Nat
  | 0x01 => some 2
  | 0x02 => some 9
  | 0x03 => some 5
  | 0x04 => some 5
  | 0x05 => some 2
  | 0x06 => some 2
  | 0x07 => some 2
  | 0x08 => some 2
  | _ => none

/-- The payload length of an inbound print-link kind (R191, R197, R199). -/
def printLength : Nat → Option Nat
  | 0x20 => some 1
  | 0x21 => some 2
  | 0x22 => some 3
  | _ => none

/-- The records R191 discards and counts: an invalid kind, a sensor or print-link record of the wrong length, a request of length 0. -/
def isUnknownRecord : Link → Nat → Nat → Bool
  | .line, kind, len =>
    if kind < 0x40 then sensorLength kind != some len else if kind < 0x80 then len == 0 else true
  | .print, kind, len => printLength kind != some len

/-- A request head holds a one-byte request number (R192). -/
abbrev ReqHead.wf (h : ReqHead) : Bool := fitsBytes 1 h.number

def Product.wf (p : Product) : Bool :=
  fitsBytes 1 p.bandTable && fitsBytes 1 p.zoneMap && fitsBytes 2 p.maxWeight && fitsBytes 2 p.maxLength && fitsBytes 2 p.maxHeight &&
    fitsBytes 2 p.maxThickness && fitsBytes 1 (p.upgrade.getD 0) && fitsBytes 1 p.noReadColumn

def SurchargeFields.wf (f : SurchargeFields) : Bool :=
  fitsBytes 1 f.condition && fitsBytes 2 f.threshold && fitsBytes 1 f.amountKind && fitsBytes 2 f.amount

def PriceStart.wf : PriceStart → Bool
  | .coordinate t b z => fitsBytes 1 t && fitsBytes 1 b && fitsBytes 1 z
  | .flat f => fitsBytes 2 f
  | .unknownForm c => 2 ≤ c && fitsBytes 1 c

def ConfigureFields.wf (v : ConfigureFields) : Bool :=
  fitsBytes 1 v.vectorBase && fitsBytes 1 v.noticeMode && fitsBytes 2 v.tTake && fitsBytes 2 v.tResult && fitsBytes 1 v.maxOutstanding &&
    fitsBytes 4 v.lowThreshold

def JobFields.wf (v : JobFields) : Bool :=
  fitsBytes 2 v.id && fitsBytes 1 v.product && fitsBytes 2 v.count && fitsBytes 1 v.margin && fitsBytes 1 v.guardBand &&
    fitsBytes 1 v.zoneMode && fitsBytes 1 v.column

def MonitorFields.wf (v : MonitorFields) : Bool :=
  fitsBytes 1 v.number && fitsBytes 1 v.polarity && fitsBytes 1 v.function && fitsBytes 1 v.action

/-- The command's fields fit the record that carries it. -/
def Instr.WellFormed : Instr → Bool
  | .enter tag => fitsBytes 2 tag
  | .dimension tag l h t _ => fitsBytes 2 tag && fitsBytes 2 l && fitsBytes 2 h && fitsBytes 2 t
  | .weight tag r q => fitsBytes 2 tag && fitsBytes 2 r && fitsBytes 1 q
  | .destination tag code _ service => fitsBytes 2 tag && fitsBytes 1 code && fitsBytes 1 (service.getD 0)
  | .gate tag => fitsBytes 2 tag
  | .exit tag => fitsBytes 2 tag
  | .remove tag => fitsBytes 2 tag
  | .lineStatus _ => true
  | .configure h v => h.wf && v.wf
  | .lineReset h => h.wf
  | .identify h => h.wf
  | .tableBegin h bank tid => h.wf && fitsBytes 1 bank && fitsBytes 2 tid
  | .headerSegment h day mode step cap => h.wf && fitsBytes 2 day && fitsBytes 1 mode && fitsBytes 1 step && fitsBytes 4 cap
  | .productSegment h n p => h.wf && fitsBytes 1 n && p.wf
  | .bandTableSegment h t bs => h.wf && fitsBytes 1 t && bs.length ≤ 28 && bs.all (fitsBytes 2)
  | .zoneBlockSegment h m f es => h.wf && fitsBytes 1 m && fitsBytes 1 f && es.length == 32 && es.all (· < 16)
  | .surchargeSegment h pos f => h.wf && fitsBytes 1 pos && f.wf
  | .priceRunSegment h start vs => h.wf && start.wf && vs.length ≤ 26 && vs.all (fitsBytes 2)
  | .unknownSegmentGroup h group => h.wf && 6 ≤ group && fitsBytes 1 group
  | .tableEnd h expected => h.wf && fitsBytes 2 expected
  | .bankSwitchImmediate h bank mode => h.wf && fitsBytes 1 bank && (mode == 0 || 3 ≤ mode) && fitsBytes 1 mode
  | .bankSwitchAtDate h bank => h.wf && fitsBytes 1 bank
  | .bankSwitchAtJob h bank => h.wf && fitsBytes 1 bank
  | .credit h number amount => h.wf && fitsBytes 4 number && fitsBytes 4 amount
  | .date h day => h.wf && fitsBytes 2 day
  | .accountQuery h => h.wf
  | .jobAdd h v => h.wf && v.wf
  | .jobAbort h id => h.wf && fitsBytes 2 id
  | .monitorSet h v => h.wf && v.wf
  | .hold h => h.wf
  | .resume h => h.wf
  | .clearHalt h => h.wf
  | .fetchCapture h => h.wf
  | .status h => h.wf
  | .peek h => h.wf
  | .noticeEnable h _ _ => h.wf
  | .endOfService h => h.wf
  | .unknownRequest number kind => fitsBytes 1 number && 0x40 ≤ kind && kind < 0x80 && !requestKinds.contains kind
  | .unknownRecord link kind len => fitsBytes 1 kind && len ≤ Config.maxPayload && isUnknownRecord link kind len
  | .discardedFrame _ => true
  | .printerState code => fitsBytes 1 code
  | .orderTaken tag => fitsBytes 2 tag
  | .printResult tag outcome => fitsBytes 2 tag && fitsBytes 1 outcome
  | .takeTimerExpiry tag => fitsBytes 2 tag
  | .resultTimerExpiry tag => fitsBytes 2 tag
  | .pfwAssert => true
  | .pfwRelease => true
  | .resetAssert => true
  | .powerLoss => true
  | .powerOn _ => true
  | .commitComplete => true
  | .confirmComplete => true
  | .voidComplete => true
  | .spoilComplete => true
  | .creditComplete => true
  | .writeBegin => true
  | .commitStart => true
  | .gateCommittedCheck => true
  | .holdReply => true
  | .lineResetReply => true
  | .notice => true
  | .recordTransmit _ => true

end Sys2Proof
end

