-- ==== Sys2Proof/Machine/State.lean ====
section
/-! DEFINITION. Every piece of state the manual gives the part, block by block (00_scope.md, 3 Block overview), as plain data, and the
state right after the first power-on of a factory-fresh part. -/

namespace Sys2Proof.Machine

/-! ## Tables addressed by an index -/

/-- An addressed store of the tariff banks (price cells, R51; zone map entries, R50): index and value pairs, indices strictly rising, no
entry equal to what an unlisted index reads as (`Table.wf` in Machine/Tables.lean). -/
abbrev Table := List (Nat × Nat)

/-! ## Tariff banks (R45 to R52) -/

inductive BankId where
  | a
  | b
deriving DecidableEq, Repr

inductive BankState where
  | empty
  | loading
  | ready
  | active
  | invalid
deriving DecidableEq, Repr

inductive RoundingMode where
  | up
  | nearest
  | down
deriving DecidableEq, Repr

inductive Condition where
  | always
  | thickOver
  | lengthOver
  | heightOver
  | weightOver
  | nonMachinable
  | noRead
  | zoneAtLeast
deriving DecidableEq, Repr

inductive AmountKind where
  | fixed
  | percent
deriving DecidableEq, Repr

/-- A surcharge entry (R52). -/
structure Surcharge where
  mask : Flags16
  condition : Condition
  threshold : Nat
  amountKind : AmountKind
  amount : Nat
  last : Bool
deriving DecidableEq, Repr

/-- A zone map (R50): entries read 15 where none is listed, and the written mark. -/
structure ZoneMap where
  entries : Table
  written : Bool
deriving DecidableEq, Repr

/-- An undefined product with its other fields 0 and upgrade none (R48). -/
def undefinedProduct : Product :=
  { defined := false, bandTable := 0, zoneMap := 0, maxWeight := 0, maxLength := 0, maxHeight := 0, maxThickness := 0, upgrade := none,
    noReadColumn := 0, zeroOk := false }

/-- A tariff bank (R45, R47 to R52). -/
structure Bank where
  state : BankState
  tariffId : Nat
  effectiveDay : Nat
  rounding : RoundingMode
  step : Nat
  cap : Nat
  headerPresent : Bool
  products : Vector Product 16
  bandTables : Vector (List Nat) 8
  zoneMaps : Vector ZoneMap 4
  prices : Table
  surcharges : List Surcharge
deriving DecidableEq, Repr

/-- The contents TABLE_BEGIN leaves, with the tariff id and bank state given (R53). -/
def Bank.cleared (state : BankState) (tariffId : Nat) : Bank :=
  { state, tariffId, effectiveDay := 0, rounding := .up, step := 0, cap := 0, headerPresent := false
    products := Vector.replicate 16 undefinedProduct, bandTables := Vector.replicate 8 []
    zoneMaps := Vector.replicate 4 { entries := [], written := false }, prices := [], surcharges := [] }

structure Banks where
  a : Bank
  b : Bank
deriving DecidableEq, Repr

/-- Ordinary storage of a load in progress (R55). -/
structure Load where
  accepted : Nat
  flawed : Bool
deriving DecidableEq, Repr

inductive PendingMode where
  | atDate
  | atJob
deriving DecidableEq, Repr

/-- The pending switch (3.4). -/
structure PendingSwitch where
  target : BankId
  mode : PendingMode
deriving DecidableEq, Repr

/-! ## Pieces (R2 to R9) -/

inductive Quality where
  | settled
  | estimate
  | overload
  | fault
deriving DecidableEq, Repr

structure Weight where
  reading : Nat
  quality : Quality
deriving DecidableEq, Repr

structure Dimension where
  length : Nat
  height : Nat
  thickness : Nat
  nonMachinable : Bool
deriving DecidableEq, Repr

inductive Destination where
  | code (d : Nat)
  | noRead
deriving DecidableEq, Repr

/-- A piece's state; `opened` is the manual's OPEN (R4). -/
inductive PieceState where
  | opened
  | provisional
  | rated
  | committing
  | committed
  | final
deriving DecidableEq, Repr

/-- The divert reasons, in the order of their codes 0x01 to 0x15 (R7, R173). -/
inductive DivertReason where
  | overweight
  | outOfFormat
  | notServed
  | notOffered
  | overCap
  | zeroValue
  | noBank
  | noWeight
  | noDimension
  | noDestination
  | weightUnsettled
  | fundsShort
  | noDate
  | printerNotReady
  | printBacklog
  | held
  | halted
  | locked
  | noJob
  | tagConflict
  | gateMissed
deriving DecidableEq, Repr

inductive Disposition where
  | printed
  | voided
  | spoiled
  | diverted (r : DivertReason)
  | removed
deriving DecidableEq, Repr

inductive RatingOutcome where
  | incomplete
  | provisional
  | rated
  | unrateable (r : DivertReason)
deriving DecidableEq, Repr

inductive BandResult where
  | within
  | aboveTop
  | unordered
deriving DecidableEq, Repr

/-- A rating record (R89); a field is none when the rating ended before the stage that produces it. -/
structure RatingRecord where
  outcome : RatingOutcome
  bank : Option (BankId × Nat)
  effectiveWeight : Option Nat
  ratedProduct : Option Nat
  upgradeCount : Option Nat
  band : Option BandResult
  bandIndex : Option Nat
  zoneColumn : Option Nat
  noReadDefault : Option Bool
  basePrice : Option Nat
  exactSum : Option Nat
  postage : Option Nat
  rounded : Option Bool
deriving DecidableEq, Repr

/-- Commit data (R2, R6): N, P, the ascending printed value and K. -/
structure CommitData where
  n : Nat
  p : Nat
  ascending : Nat
  k : Nat
deriving DecidableEq, Repr

/-- The seven flags of R3. -/
structure PieceFlags where
  gatePassed : Bool := false
  gateCommitted : Bool := false
  exited : Bool := false
  estimateCommitted : Bool := false
  withdrawSent : Bool := false
  removeRequested : Bool := false
  tagConflict : Bool := false
deriving DecidableEq, Repr

/-- A piece record (R2). -/
structure Piece where
  tag : Nat
  job : Option Nat
  state : PieceState
  dimension : Option Dimension
  weight : Option Weight
  destination : Option Destination
  override : Option Nat
  rating : Option RatingRecord
  commitData : Option CommitData
  flags : PieceFlags
  disposition : Option Disposition
deriving DecidableEq, Repr

/-! ## Jobs (R138, R139) -/

inductive JobState where
  | waiting
  | current
  | closed
deriving DecidableEq, Repr

inductive ZoneMode where
  | read
  | fixed
deriving DecidableEq, Repr

/-- The first seven fields of a job record, fixed by JOB_ADD (R139). -/
structure JobValues where
  id : Nat
  product : Nat
  count : Nat
  margin : Nat
  guardBand : Nat
  zoneMode : ZoneMode
  column : Nat
  overrideAllowed : Bool
deriving DecidableEq, Repr

structure Job where
  slot : Nat
  values : JobValues
  state : JobState
  entered : Nat
  printed : Nat
  diverted : Nat
  inList : Nat
deriving DecidableEq, Repr

/-! ## Postage accounts (R94 to R100) -/

structure OpenOrder where
  tag : Nat
  n : Nat
  p : Nat
deriving DecidableEq, Repr

/-- The nonvolatile accounting registers, counts and open-order list (R94, R96, R97), with the serial number written at the factory. -/
structure Accounts where
  d : Nat
  e : Nat
  a : Nat
  t : Nat
  n : Nat
  creditNumber : Nat
  lastUsed : Option Nat
  printed : Nat
  voided : Nat
  spoiled : Nat
  openOrders : List OpenOrder
  serial : Nat
deriving DecidableEq, Repr

inductive CloseKind where
  | confirm
  | void
  | spoil
deriving DecidableEq, Repr

/-- The block that requested a closing write (R99). -/
inductive Requester where
  | printPort
  | commitUnit
  | lineReset
  | powerOn
deriving DecidableEq, Repr

/-- A write request of the accounting queue (R99). A CREDIT keeps the request number its reply echoes (R110). -/
inductive Write where
  | commit (tag p : Nat)
  | close (kind : CloseKind) (tag n : Nat) (by_ : Requester)
  | credit (request number amount : Nat)
deriving DecidableEq, Repr

/-! ## Commit unit and print port (R117, R125, R126) -/

inductive WithheldCause where
  | remove
  | lockout
  | lineReset
deriving DecidableEq, Repr

inductive CommitPhase where
  | commit
  | followUp
deriving DecidableEq, Repr

/-- The fields of the rating record and the estimate flag that the commit unit keeps for the print order (R120, R126). -/
structure OrderFields where
  product : Nat
  upgrades : Nat
  column : Nat
  noReadDefault : Bool
  rounded : Bool
  tariffId : Nat
  estimate : Bool
deriving DecidableEq, Repr

/-- The commit in flight (R117). -/
structure CommitSlot where
  tag : Nat
  p : Nat
  phase : CommitPhase
  withheld : Option WithheldCause
  order : OrderFields
deriving DecidableEq, Repr

/-- An entry of the outstanding-order list (R126): while `taken` is clear its take timer runs, then its result timer; `duration` is the
length in milliseconds the running timer was started with. -/
structure Order where
  tag : Nat
  n : Nat
  p : Nat
  taken : Bool
  duration : Nat
deriving DecidableEq, Repr

inductive PrinterState where
  | ready
  | notReady
deriving DecidableEq, Repr

/-! ## Condition monitors (R151) -/

inductive Polarity where
  | high
  | low
deriving DecidableEq, Repr

inductive MonitorFunction where
  | any
  | all
deriving DecidableEq, Repr

inductive MonitorAction where
  | notify
  | stop
  | halt
  | lock
deriving DecidableEq, Repr

structure MonitorSettings where
  mask : Flags16
  polarity : Polarity
  function : MonitorFunction
  action : MonitorAction
deriving DecidableEq, Repr

structure Monitor where
  settings : MonitorSettings
  previous : Bool
deriving DecidableEq, Repr

/-! ## Franking state, causes and notices (R161, R173, R176, R179) -/

inductive FrankingState where
  | unconfigured
  | running
  | held
  | halted
  | lockout
deriving DecidableEq, Repr

/-- The set of hold causes, one flag for each member (R161). -/
structure HoldCauses where
  operator : Bool
  monitor : Bool
  error : Bool
  power : Bool
deriving DecidableEq, Repr

/-- The causes of R173. -/
inductive CauseCode where
  | divert (r : DivertReason)
  | weightDisagrees
  | short
  | low
  | done
  | bankSwitched
  | tableReady
  | tableInvalid
  | lateResult
  | monitorNotify
  | monitorStop
  | monitorHalt
  | queueOverflow
  | printTakeTimeout
  | printResultTimeout
  | printUnknown
  | accountCeiling
  | monitorLock
deriving DecidableEq, Repr

/-- A cause as it is posted (R180): its code, the tag it names or none, and its detail figures, each a number or none (R197). -/
structure Cause where
  code : CauseCode
  tag : Option Nat
  detail : List (Option Nat)
deriving DecidableEq, Repr

/-- A notice channel (R179). -/
structure Channel where
  enable : Bool
  pending : Bool
  underService : Bool
  latest : Option Cause
  count : Nat
deriving DecidableEq, Repr

inductive NoticeMode where
  | pulse
  | level
deriving DecidableEq, Repr

inductive ErrorClass where
  | contributory
  | abort
deriving DecidableEq, Repr

/-- The fault capture when it is full (R176). -/
structure Capture where
  errorClass : ErrorClass
  code : CauseCode
  tag : Option Nat
  before : FrankingState
  d : Nat
  e : Nat
  pieceCount : Nat
  detail : List (Option Nat)
  secondary : Nat
deriving DecidableEq, Repr

/-! ## Configuration values (R194) and counters -/

structure Settings where
  vectorBase : Nat
  noticeMode : NoticeMode
  tTake : Nat
  tResult : Nat
  maxOutstanding : Nat
  lowThreshold : Nat
deriving DecidableEq, Repr

/-- The defaults after power-on (R194). -/
def Settings.default : Settings :=
  { vectorBase := 0, noticeMode := .pulse, tTake := 50, tResult := 800, maxOutstanding := 2, lowThreshold := 0 }

/-- The six saturating counters of R186. -/
structure Counters where
  discardedFrames : Nat
  unknownRecords : Nat
  orphans : Nat
  lateMeasurements : Nat
  lateRecords : Nat
  lateResults : Nat
deriving DecidableEq, Repr

/-! ## Records the part sends (R8, R126, R135, R154, R182, R192) -/

inductive ReplyOutcome where
  | accepted
  | clamped
  | refused
deriving DecidableEq, Repr

/-- The REPLY reasons, in the order of their codes 1 to 19 (R197). -/
inductive Reason where
  | badValue
  | busy
  | notLoading
  | bankActive
  | notReadyBank
  | noDate
  | notYetEffective
  | creditSequence
  | creditLimit
  | dateBackward
  | dateTooFar
  | jobListFull
  | jobIdInUse
  | unknownJob
  | notConfigured
  | lockedOut
  | badState
  | captureUnread
  | unknownRequest
deriving DecidableEq, Repr

/-- The figures of ACCOUNT_QUERY (R114). -/
structure AccountReport where
  accounts : Accounts
  creditInFlight : Bool
  mailingDate : Option Nat
  lockoutFlag : Bool
  lowThreshold : Nat
deriving DecidableEq, Repr

structure BankReport where
  state : BankState
  tariffId : Nat
  effectiveDay : Nat
deriving DecidableEq, Repr

/-- The reported channel of STATUS and PEEK (R186). -/
structure ChannelReport where
  number : Nat
  latest : Option Cause
  count : Nat
deriving DecidableEq, Repr

/-- The report of STATUS and PEEK (R186). -/
structure StatusReport where
  franking : FrankingState
  causes : HoldCauses
  captureFull : Bool
  channels : Vector Channel 8
  gne : Bool
  gneSaved : Bool
  noticeMode : NoticeMode
  vectorBase : Nat
  pieceCount : Nat
  outstanding : Nat
  commitTag : Option Nat
  printer : PrinterState
  bankA : BankReport
  bankB : BankReport
  pendingSwitch : Option PendingSwitch
  headJob : Option Job
  jobCount : Nat
  sensorWord : Flags16
  monitors : Vector Monitor 4
  counters : Counters
  reported : Option ChannelReport
deriving DecidableEq, Repr

/-- The results of a reply, one form for each request that gives results. -/
inductive Results where
  | nothing
  | configured (v : Settings)
  | lineReset (spoils : Nat) (franking : FrankingState)
  | identity (serial : Nat)
  | tableBegun (cancelled : Bool)
  | segment (accepted : Nat) (flawed : Bool)
  | loadReady (tariffId accepted : Nat)
  | loadInvalid (check accepted : Nat)
  | switchedNow (tariffId : Nat)
  | switchedAtDate
  | switchPending
  | credited (d t number : Nat)
  | accounts (r : AccountReport)
  | jobAdded (slot : Nat) (state : JobState) (productUndefined : Bool)
  | jobAborted (before : JobState) (done : Bool) (remaining : Nat)
  | monitor (m : MonitorSettings) (result : Bool)
  | franking (f : FrankingState) (c : HoldCauses)
  | capture (c : Option Capture)
  | status (r : StatusReport)
  | enables (channels : Vector Channel 8) (gne : Bool)
  | serviceEnded (channel : Nat) (gne : Bool)
deriving DecidableEq, Repr

/-- A reply (R192): the request's number and kind echoed, the outcome, the reason of a refusal, the results. -/
structure Reply where
  number : Nat
  kind : Nat
  outcome : ReplyOutcome
  reason : Option Reason
  results : Results
deriving DecidableEq, Repr

/-- What a DISPOSITION record reports (R8): `outcome` none is REFUSED (R12). -/
structure DispositionRecord where
  tag : Nat
  outcome : Option Disposition
  job : Option Nat
  money : Option (Nat × Nat)
  gatePassed : Bool
  estimateCommitted : Bool
  tagConflict : Bool
deriving DecidableEq, Repr

/-- A record of the line link (R191, outbound): one part of a reply, a notice, a disposition, or a stop request with its source. -/
inductive LineRecord where
  | reply (r : Reply) (part : Nat)
  | notice (vector channel : Nat) (cause : Option Cause) (count : Nat)
  | disposition (d : DispositionRecord)
  | stopMonitors (monitors : List Nat) (word : Flags16)
  | stopOverflow (tag : Nat)
deriving DecidableEq, Repr

/-- What PRINT_ORDER carries (R126). -/
structure PrintOrder where
  tag : Nat
  n : Nat
  p : Nat
  date : Nat
  ascending : Nat
  k : Nat
  fields : OrderFields
deriving DecidableEq, Repr

inductive PrintRecord where
  | order (o : PrintOrder)
  | withdraw (tag n : Nat)
deriving DecidableEq, Repr

/-! ## Links, pins and power -/

inductive FramerPhase where
  | hunt
  | length
  | body
  | check
deriving DecidableEq, Repr

/-- A receive framer (R190): its state and the bytes it has collected since SYNC. -/
structure Framer where
  phase : FramerPhase
  bytes : List Byte
deriving DecidableEq, Repr

/-- The line-link transmitter (R193): the records waiting in the order handed over, and the frame last put on the link. -/
structure LineTx where
  waiting : List LineRecord
  frame : List Byte
deriving DecidableEq, Repr

structure PrintTx where
  waiting : List PrintRecord
  frame : List Byte
deriving DecidableEq, Repr

/-- A LINE_RESET whose reply waits (R196): request number, the SPOIL writes the reset led to, how many have not completed, and the
franking state after the reset. -/
structure ResetWait where
  request : Nat
  spoils : Nat
  remaining : Nat
  franking : FrankingState
deriving DecidableEq, Repr

/-- The levels of the three pins, each true when asserted (00_scope.md 2, R200); `service` is the level sampled at the last power-on. -/
structure Pins where
  reset : Bool
  service : Bool
  pfw : Bool
deriving DecidableEq, Repr

/-- Whether the part works, is held by RESET, or has lost power (R100, R200). -/
inductive Power where
  | on
  | inReset
  | off
deriving DecidableEq, Repr

/-! ## The state -/

/-- The state of the part. Nonvolatile: `banks`, `accounts`, `lockoutFlag` (00_scope.md 3.2). -/
structure State where
  /-- The commands that wait, first in, first out (the model's own; the interface of the package). -/
  pending : List Instr
  power : Power
  pins : Pins
  /-- Counter of the free value Config.writeKept (the model's own; log 3). -/
  freeIndex : Nat
  -- line port and transmitters (R190 to R196)
  lineFramer : Framer
  printFramer : Framer
  lineTx : LineTx
  printTx : PrintTx
  resetWait : Option ResetWait
  counters : Counters
  settings : Settings
  -- piece list (R1)
  pieces : List Piece
  -- tariff store and rating unit (R45, R55, R70)
  banks : Banks
  load : Load
  pendingSwitch : Option PendingSwitch
  ratingRef : Option BankId
  -- postage accounts (R94 to R100)
  accounts : Accounts
  lockoutFlag : Bool
  queue : List Write
  writeBegun : Bool
  -- commit unit (R117)
  slot : Option CommitSlot
  mailingDate : Option Nat
  fundsMark : Option Nat
  -- print port (R125, R126)
  printer : PrinterState
  orders : List Order
  -- job list (R138)
  jobs : List Job
  -- condition monitors (R150, R151)
  monitors : Vector Monitor 4
  sensorWord : Flags16
  -- franking state and error unit (R161, R166, R176)
  franking : FrankingState
  causes : HoldCauses
  capture : Option Capture
  holdWaiting : List Nat
  -- notice unit (R179)
  channels : Vector Channel 8
  gne : Bool
  gneSaved : Bool
deriving DecidableEq, Repr

/-- Why the machine stops with a fault. Empty: the manual names no event at which the part stops working, and gives every event of its
table an effect; nothing raises a fault (safe). -/
inductive Fault where
deriving DecidableEq, Repr

/-- Why the machine refuses a command. -/
inductive Refusal where
  /-- Raised only by an arm of exec whose command has no meaning yet; no arm raises it now. Safe: the run stops. -/
  | notModelled (mnemonic : String)
deriving DecidableEq, Repr

/-- A channel after power-on (R189); channel 0's enable reads as set (R179). -/
def Channel.fresh (enable : Bool) : Channel :=
  { enable, pending := false, underService := false, latest := none, count := 0 }

/-- A monitor after power-on (R151). -/
def Monitor.fresh : Monitor :=
  { settings := { mask := 0, polarity := .high, function := .any, action := .notify }, previous := false }

/-- The factory values of the accounts (R94, R96, R97). The serial number is a value of the part that the manual leaves to the factory: 0
here (log 4). -/
def Accounts.factory : Accounts :=
  { d := 0, e := 0, a := 0, t := 0, n := 0, creditNumber := 0, lastUsed := none, printed := 0, voided := 0, spoiled := 0, openOrders := [],
    serial := 0 }

/-- The part right after its first power-on: the nonvolatile store as the factory left it (R45, R94 to R98), everything else as the rules
give it after power-on, neither strap nor warning pin asserted (log 4, log 5). -/
def State.reset : State :=
  { pending := [], power := .on, pins := { reset := false, service := false, pfw := false }, freeIndex := 0
    lineFramer := { phase := .hunt, bytes := [] }, printFramer := { phase := .hunt, bytes := [] }
    lineTx := { waiting := [], frame := [] }, printTx := { waiting := [], frame := [] }
    resetWait := none
    counters := { discardedFrames := 0, unknownRecords := 0, orphans := 0, lateMeasurements := 0, lateRecords := 0, lateResults := 0 }
    settings := .default
    pieces := []
    banks := { a := .cleared .empty 0, b := .cleared .empty 0 }
    load := { accepted := 0, flawed := false }, pendingSwitch := none, ratingRef := none
    accounts := .factory, lockoutFlag := false, queue := [], writeBegun := false
    slot := none, mailingDate := none, fundsMark := none
    printer := .notReady, orders := []
    jobs := []
    monitors := Vector.replicate 4 .fresh, sensorWord := 0
    franking := .unconfigured, causes := { operator := false, monitor := false, error := false, power := false }
    capture := none, holdWaiting := []
    channels := #v[.fresh true, .fresh false, .fresh false, .fresh false, .fresh false, .fresh false, .fresh false, .fresh false]
    gne := false, gneSaved := false }

end Sys2Proof.Machine
end

