-- ==== Sys2Proof/Machine/Operands.lean ====
section
/-! DEFINITION. Reading the codes and quantities that commands carry (clamps, enumerated values, presence; R28, R29, R197, R199) and the
codes the part sends (R173, R197, R198). -/

namespace Sys2Proof.Machine

/-! ## Clamps -/

/-- The nearest value of the range lo to hi (00_scope.md 5.6, Clamped). -/
def clamp (lo hi v : Nat) : Nat := if v < lo then lo else if hi < v then hi else v

/-- A DIMENSION record's values as they are stored (R28). -/
def Dimension.ofSent (length height thickness : Nat) (nonMachinable : Bool) : Dimension :=
  { length := min length Config.maxLength, height := min height Config.maxLength, thickness := min thickness Config.maxThickness
    nonMachinable }

/-! ## Codes received -/

/-- A WEIGHT quality; a value that is none of the four is FAULT (R29, R197). -/
def Quality.ofCode : Nat → Quality
  | 0 => .settled
  | 1 => .estimate
  | 2 => .overload
  | _ => .fault

/-- The prepared reading of a WEIGHT record (R29). -/
def Weight.prepared (reading quality : Nat) : Weight :=
  if Config.maxReading < reading then { reading := Config.maxReading, quality := .overload }
  else { reading, quality := .ofCode quality }

def BankId.ofCode : Nat → Option BankId
  | 0 => some .a
  | 1 => some .b
  | _ => none

/-- A HEADER rounding mode; codes 3 to 255 name no mode (R197). -/
def RoundingMode.ofCode : Nat → Option RoundingMode
  | 0 => some .up
  | 1 => some .nearest
  | 2 => some .down
  | _ => none

def Condition.ofCode : Nat → Option Condition
  | 0 => some .always
  | 1 => some .thickOver
  | 2 => some .lengthOver
  | 3 => some .heightOver
  | 4 => some .weightOver
  | 5 => some .nonMachinable
  | 6 => some .noRead
  | 7 => some .zoneAtLeast
  | _ => none

def AmountKind.ofCode : Nat → Option AmountKind
  | 0 => some .fixed
  | 1 => some .percent
  | _ => none

/-- The entry a SURCHARGE segment carries, or none when its condition or amount kind is none of those of R52 (R58). -/
def Surcharge.ofFields (f : SurchargeFields) : Option Surcharge :=
  match Condition.ofCode f.condition, AmountKind.ofCode f.amountKind with
  | some c, some k => some { mask := f.mask, condition := c, threshold := f.threshold, amountKind := k, amount := f.amount, last := f.last }
  | _, _ => none

def NoticeMode.ofCode : Nat → Option NoticeMode
  | 0 => some .pulse
  | 1 => some .level
  | _ => none

def ZoneMode.ofCode : Nat → Option ZoneMode
  | 0 => some .read
  | 1 => some .fixed
  | _ => none

def MonitorSettings.ofFields (f : MonitorFields) : Option MonitorSettings :=
  let polarity : Option Polarity := match f.polarity with | 0 => some .high | 1 => some .low | _ => none
  let function : Option MonitorFunction := match f.function with | 0 => some .any | 1 => some .all | _ => none
  let action : Option MonitorAction :=
    match f.action with | 0 => some .notify | 1 => some .stop | 2 => some .halt | 3 => some .lock | _ => none
  match polarity, function, action with
  | some p, some fn, some a => some { mask := f.mask, polarity := p, function := fn, action := a }
  | _, _, _ => none

/-- A PRINTER_STATE value that is neither code is NOT_READY (R125). -/
def PrinterState.ofCode : Nat → PrinterState
  | 0 => .ready
  | _ => .notReady

/-- The closing write a PRINT_RESULT outcome asks for: PRINTED, NOT_PRINTED, and UNKNOWN for any other value (R128). -/
def CloseKind.ofResult : Nat → CloseKind
  | 0 => .confirm
  | 1 => .void
  | _ => .spoil

/-- The outcome code a late result reports: a value that is none of the three is UNKNOWN (R128, R130). -/
def resultCode (outcome : Nat) : Nat := min outcome 2

/-- A service field above 15 is taken as absent (R33). -/
def serviceProduct : Option Nat → Option Nat
  | some n => if n ≤ 15 then some n else none
  | none => none

/-! ## Codes sent -/

/-- The request kinds (R191). -/
inductive RequestKind where
  | configure
  | lineReset
  | identify
  | tableBegin
  | tableSegment
  | tableEnd
  | bankSwitch
  | credit
  | date
  | accountQuery
  | jobAdd
  | jobAbort
  | monitorSet
  | hold
  | resume
  | clearHalt
  | fetchCapture
  | status
  | peek
  | noticeEnable
  | endOfService
deriving DecidableEq, Repr

def RequestKind.code : RequestKind → Nat
  | .configure => 0x40
  | .lineReset => 0x41
  | .identify => 0x42
  | .tableBegin => 0x48
  | .tableSegment => 0x49
  | .tableEnd => 0x4A
  | .bankSwitch => 0x4B
  | .credit => 0x50
  | .date => 0x51
  | .accountQuery => 0x52
  | .jobAdd => 0x58
  | .jobAbort => 0x59
  | .monitorSet => 0x5C
  | .hold => 0x60
  | .resume => 0x61
  | .clearHalt => 0x62
  | .fetchCapture => 0x63
  | .status => 0x68
  | .peek => 0x69
  | .noticeEnable => 0x6A
  | .endOfService => 0x6B

/-- The codes 0x01 to 0x15 of the divert reasons (R173). -/
def DivertReason.code : DivertReason → Nat
  | .overweight => 0x01
  | .outOfFormat => 0x02
  | .notServed => 0x03
  | .notOffered => 0x04
  | .overCap => 0x05
  | .zeroValue => 0x06
  | .noBank => 0x07
  | .noWeight => 0x08
  | .noDimension => 0x09
  | .noDestination => 0x0A
  | .weightUnsettled => 0x0B
  | .fundsShort => 0x0C
  | .noDate => 0x0D
  | .printerNotReady => 0x0E
  | .printBacklog => 0x0F
  | .held => 0x10
  | .halted => 0x11
  | .locked => 0x12
  | .noJob => 0x13
  | .tagConflict => 0x14
  | .gateMissed => 0x15

/-- The cause codes (R173). -/
def CauseCode.code : CauseCode → Nat
  | .divert r => r.code
  | .weightDisagrees => 0x16
  | .short => 0x17
  | .low => 0x30
  | .done => 0x31
  | .bankSwitched => 0x32
  | .tableReady => 0x33
  | .tableInvalid => 0x34
  | .lateResult => 0x35
  | .monitorNotify => 0x40
  | .monitorStop => 0x41
  | .monitorHalt => 0x42
  | .queueOverflow => 0x50
  | .printTakeTimeout => 0x51
  | .printResultTimeout => 0x52
  | .printUnknown => 0x53
  | .accountCeiling => 0x60
  | .monitorLock => 0x61

/-- The channel each cause is posted on (R173): 0 ACCOUNT, 1 HALT, 2 LINE, 3 FUNDS, 4 PRINT, 5 PIECE, 6 TARIFF, 7 JOB (R179). -/
def CauseCode.channel : CauseCode → Fin 8
  | .divert .fundsShort => 3
  | .divert _ => 5
  | .weightDisagrees => 5
  | .short => 3
  | .low => 3
  | .done => 7
  | .bankSwitched => 6
  | .tableReady => 6
  | .tableInvalid => 6
  | .lateResult => 4
  | .monitorNotify => 2
  | .monitorStop => 2
  | .monitorHalt => 1
  | .queueOverflow => 1
  | .printTakeTimeout => 1
  | .printResultTimeout => 1
  | .printUnknown => 1
  | .accountCeiling => 0
  | .monitorLock => 0

/-- The REPLY reason codes (R197). -/
def Reason.code : Reason → Nat
  | .badValue => 1
  | .busy => 2
  | .notLoading => 3
  | .bankActive => 4
  | .notReadyBank => 5
  | .noDate => 6
  | .notYetEffective => 7
  | .creditSequence => 8
  | .creditLimit => 9
  | .dateBackward => 10
  | .dateTooFar => 11
  | .jobListFull => 12
  | .jobIdInUse => 13
  | .unknownJob => 14
  | .notConfigured => 15
  | .lockedOut => 16
  | .badState => 17
  | .captureUnread => 18
  | .unknownRequest => 19

def ReplyOutcome.code : ReplyOutcome → Nat
  | .accepted => 0
  | .clamped => 1
  | .refused => 2

def BankId.code : BankId → Nat
  | .a => 0
  | .b => 1

def BankState.code : BankState → Nat
  | .empty => 0
  | .loading => 1
  | .ready => 2
  | .active => 3
  | .invalid => 4

def FrankingState.code : FrankingState → Nat
  | .unconfigured => 0
  | .running => 1
  | .held => 2
  | .halted => 3
  | .lockout => 4

def JobState.code : JobState → Nat
  | .waiting => 0
  | .current => 1
  | .closed => 2

def NoticeMode.code : NoticeMode → Nat
  | .pulse => 0
  | .level => 1

def PrinterState.code : PrinterState → Nat
  | .ready => 0
  | .notReady => 1

/-- The BANK_SWITCH mode codes (R199). -/
def PendingMode.code : PendingMode → Nat
  | .atDate => 1
  | .atJob => 2

def ErrorClass.code : ErrorClass → Nat
  | .contributory => 0
  | .abort => 1

def Polarity.code : Polarity → Nat
  | .high => 0
  | .low => 1

def MonitorFunction.code : MonitorFunction → Nat
  | .any => 0
  | .all => 1

def MonitorAction.code : MonitorAction → Nat
  | .notify => 0
  | .stop => 1
  | .halt => 2
  | .lock => 3

/-- The DISPOSITION outcome codes, 5 for REFUSED (R197). -/
def dispositionCode : Option Disposition → Nat
  | some .printed => 0
  | some .voided => 1
  | some .spoiled => 2
  | some (.diverted _) => 3
  | some .removed => 4
  | none => 5

end Sys2Proof.Machine
end

