-- ==== Sys2Proof/Machine/Flags.lean ====
section
/-! DEFINITION. Flags and counts: saturating counters (00_scope.md 5.5), the set of hold causes and the franking state that follows it
(R161), and flag sets as bytes (R198). -/

namespace Sys2Proof.Machine

/-- A counter that stops at its maximum (00_scope.md 5.5). -/
def satSucc (top n : Nat) : Nat := min (n + 1) top

/-! ## The set of hold causes (R161) -/

def HoldCauses.none : HoldCauses := { operator := false, monitor := false, error := false, power := false }

def HoldCauses.isEmpty (c : HoldCauses) : Bool := !(c.operator || c.monitor || c.error || c.power)

/-- What RESUME leaves: OPERATOR, MONITOR and ERROR removed (R167). -/
def HoldCauses.resumed (c : HoldCauses) : HoldCauses := { HoldCauses.none with power := c.power }

/-- What CLEAR_HALT and a line reset set: OPERATOR, with POWER while the PFW pin is asserted (R169, R171). -/
def HoldCauses.operatorWith (pfw : Bool) : HoldCauses := { HoldCauses.none with operator := true, power := pfw }

/-- Outside UNCONFIGURED, HALTED and LOCKOUT the franking state follows the set (R161). -/
def FrankingState.follow (f : FrankingState) (c : HoldCauses) : FrankingState :=
  match f with
  | .running => if c.isEmpty then .running else .held
  | .held => if c.isEmpty then .running else .held
  | .unconfigured => .unconfigured
  | .halted => .halted
  | .lockout => .lockout

/-! ## Flags as bits (R198) -/

/-- The value of a list of flags sent as bits in list order from bit 0. -/
def bits : List Bool → Nat
  | [] => 0
  | b :: bs => b.toNat + 2 * bits bs

def HoldCauses.byte (c : HoldCauses) : Nat := bits [c.operator, c.monitor, c.error, c.power]

end Sys2Proof.Machine
end

