-- ==== Sys2Proof/Machine/Tables.lean ====
section
/-! DEFINITION. The indexed stores of a bank in one canonical form, and the bank's contents read and written through them (R48 to R52). -/

namespace Sys2Proof.Machine

/-- The value at an index; `dflt` where none is listed. -/
def Table.get (dflt : Nat) : Table → Nat → Nat
  | [], _ => dflt
  | (k, v) :: rest, i => if i = k then v else Table.get dflt rest i

/-- Write one value. Writing the default removes the entry, so that equal contents are equal data. -/
def Table.set (dflt : Nat) : Table → Nat → Nat → Table
  | [], i, v => if v = dflt then [] else [(i, v)]
  | (k, w) :: rest, i, v =>
    if i < k then (if v = dflt then (k, w) :: rest else (i, v) :: (k, w) :: rest)
    else if i = k then (if v = dflt then rest else (i, v) :: rest)
    else (k, w) :: Table.set dflt rest i v

/-- Write successive values from an index on. -/
def Table.setRun (dflt : Nat) (t : Table) (i : Nat) : List Nat → Table
  | [] => t
  | v :: vs => Table.setRun dflt (Table.set dflt t i v) (i + 1) vs

/-- The canonical form: indices strictly rising, no entry equal to the default. -/
abbrev Table.wf (dflt : Nat) (t : Table) : Prop :=
  t.Pairwise (fun x y => x.1 < y.1) ∧ ∀ e ∈ t, e.2 ≠ dflt

/-! ## The contents of a bank -/

def Bank.product (b : Bank) (n : Nat) : Product := (b.products[n]?).getD undefinedProduct

def Bank.bandTable (b : Bank) (t : Nat) : List Nat := (b.bandTables[t]?).getD []

def Bank.zoneMap (b : Bank) (m : Nat) : ZoneMap := (b.zoneMaps[m]?).getD { entries := [], written := false }

/-- Entry d of a zone map (R50). -/
def ZoneMap.entry (m : ZoneMap) (d : Nat) : Nat := Table.get Config.notServed m.entries d

/-- The flat index of the price cell (t, b, z), b counted from 1 (R51). -/
def flatIndex (t b z : Nat) : Nat := (t * 24 + (b - 1)) * 8 + z

/-- The price cell at a flat index (R51). -/
def Bank.cell (b : Bank) (f : Nat) : Nat := Table.get Config.notOffered b.prices f

/-- The canonical form of a bank's stores. -/
abbrev Bank.wf (b : Bank) : Prop :=
  Table.wf Config.notOffered b.prices ∧ ∀ m ∈ b.zoneMaps.toList, Table.wf Config.notServed m.entries

def Banks.get (bs : Banks) : BankId → Bank
  | .a => bs.a
  | .b => bs.b

def Banks.set (bs : Banks) (id : BankId) (b : Bank) : Banks :=
  match id with
  | .a => { bs with a := b }
  | .b => { bs with b := b }

def BankId.other : BankId → BankId
  | .a => .b
  | .b => .a

/-- The bank in a given state, bank A looked at first. -/
def Banks.inState (bs : Banks) (st : BankState) : Option BankId :=
  if bs.a.state = st then some .a else if bs.b.state = st then some .b else none

/-- The ACTIVE bank (R45). -/
def Banks.active (bs : Banks) : Option BankId := bs.inState .active

/-- The LOADING bank (R55). -/
def Banks.loading (bs : Banks) : Option BankId := bs.inState .loading

/-- A bank with its state changed. -/
def Banks.setState (bs : Banks) (id : BankId) (st : BankState) : Banks := bs.set id { bs.get id with state := st }

end Sys2Proof.Machine
end

