-- ==== Sys2Proof/Machine/Rating.lean ====
section
/-! DEFINITION. The rating unit (Chapter 4): the three tests and the eight stages, as one function of the piece's inputs, the job's values
and a bank (R92). All figures are whole numbers; the exact sum is in thousandths of a minor unit (R83). -/

namespace Sys2Proof.Machine

/-- The piece's group of inputs (R72). -/
structure RatingInputs where
  weight : Option Weight
  dimension : Option Dimension
  destination : Option Destination
  override : Option Nat
deriving DecidableEq, Repr

def Piece.inputs (p : Piece) : RatingInputs :=
  { weight := p.weight, dimension := p.dimension, destination := p.destination, override := p.override }

/-- The first required input that is missing, as the gate names it: weight, dimension, then in zone mode READ the destination (R16, R34).
A weight of quality FAULT counts as missing (R30). -/
def missingInput (i : RatingInputs) (zone : ZoneMode) : Option DivertReason :=
  match i.weight with
  | none => some .noWeight
  | some w =>
    if w.quality = .fault then some .noWeight
    else if i.dimension.isNone then some .noDimension
    else if zone = .read ∧ i.destination.isNone then some .noDestination
    else none

/-- Stage 1 (R74): ceil((w + m) / 10). -/
def effectiveWeight (w m : Nat) : Nat := (w + m + 9) / 10

/-- The starting product of stage 2 (R75). -/
def startingProduct (i : RatingInputs) (j : JobValues) : Nat :=
  if j.overrideAllowed then i.override.getD j.product else j.product

/-- The format check of stage 2 (R76). -/
def formatFits (p : Product) (weff : Nat) (d : Dimension) : Bool :=
  weff ≤ p.maxWeight && d.length ≤ p.maxLength && d.height ≤ p.maxHeight && d.thickness ≤ p.maxThickness

/-- The upgrade chain of stage 2 (R76, R77): `left` upgrades may still be made from product `n`, `k` have been made. Answers whether a
product passed, the last product checked and the upgrades made. -/
def formatWalk (b : Bank) (weff : Nat) (d : Dimension) (left n k : Nat) : Bool × Nat × Nat :=
  if formatFits (b.product n) weff d then (true, n, k)
  else
    match (b.product n).upgrade, left with
    | some m, left + 1 => formatWalk b weff d left m (k + 1)
    | some _, 0 => (false, n, k)
    | none, _ => (false, n, k)

/-- Stage 3 (R78): the smallest band, counted from 1, whose breakpoint is not below the effective weight; none is ABOVE_TOP. -/
def bandOf : List Nat → Nat → Option Nat
  | [], _ => none
  | b :: bs, weff => if weff ≤ b then some 1 else (bandOf bs weff).map (· + 1)

/-- Stage 4 (R79, R80): the zone column and the no-read-default flag; none is NOT_SERVED. -/
def zoneOf (b : Bank) (p : Product) (j : JobValues) (dest : Option Destination) : Option (Nat × Bool) :=
  match j.zoneMode with
  | .fixed => some (j.column, false)
  | .read =>
    match dest with
    | some (.code d) =>
      let z := (b.zoneMap p.zoneMap).entry d
      if z = Config.notServed then none else some (z, false)
    | some .noRead => some (p.noReadColumn, true)
    | none => none

/-- The condition of a surcharge entry (R82). -/
def Surcharge.holds (s : Surcharge) (weff z : Nat) (d : Dimension) (dest : Option Destination) : Bool :=
  match s.condition with
  | .always => true
  | .thickOver => s.threshold < d.thickness
  | .lengthOver => s.threshold < d.length
  | .heightOver => s.threshold < d.height
  | .weightOver => s.threshold < weff
  | .nonMachinable => d.nonMachinable
  | .noRead => dest == some .noRead
  | .zoneAtLeast => s.threshold ≤ z

/-- An entry applies when the rated product's mask flag is set and its condition holds (R82). -/
def Surcharge.applies (s : Surcharge) (product weff z : Nat) (d : Dimension) (dest : Option Destination) : Bool :=
  s.mask.getLsbD product && s.holds weff z d dest

/-- What an applying entry adds, in thousandths, on the base price c (R83). -/
def Surcharge.adds (s : Surcharge) (c : Nat) : Nat :=
  match s.amountKind with
  | .fixed => 1000 * s.amount
  | .percent => c * s.amount

/-- Stage 6 (R83): the walk of the surcharge list, `sum` the exact sum so far. -/
def surchargeWalk (c product weff z : Nat) (d : Dimension) (dest : Option Destination) (sum : Nat) : List Surcharge → Nat
  | [] => sum
  | s :: rest =>
    if s.applies product weff z d dest then
      if s.last then sum + s.adds c else surchargeWalk c product weff z d dest (sum + s.adds c) rest
    else surchargeWalk c product weff z d dest sum rest

/-- Stage 7 (R85): the sum S rounded to the step q, in minor units. -/
def roundSum (mode : RoundingMode) (q s : Nat) : Nat :=
  let u := 1000 * q
  match mode with
  | .down => s / u * q
  | .up => (s + (u - 1)) / u * q
  | .nearest => (s + 500 * q) / u * q

/-- The ROUNDED flag (R86). -/
def isRounded (q s : Nat) : Bool := s % (1000 * q) != 0

/-- A rating record with no field but its outcome and bank (R89). -/
def RatingRecord.bare (outcome : RatingOutcome) (bank : Option (BankId × Nat)) : RatingRecord :=
  { outcome, bank, effectiveWeight := none, ratedProduct := none, upgradeCount := none, band := none, bandIndex := none, zoneColumn := none
    noReadDefault := none, basePrice := none, exactSum := none, postage := none, rounded := none }

/-- Stage 8 (R87): the outcome from the postage. -/
def limitsOutcome (b : Bank) (p : Product) (q : Quality) (postage : Nat) : RatingOutcome :=
  if b.cap < postage then .unrateable .overCap
  else if postage = 0 ∧ p.zeroOk = false then .unrateable .zeroValue
  else if q = .estimate then .provisional
  else .rated

/-- Stages 5 to 8 (R81 to R87), from a record that holds the fields of the stages before. -/
def priceStages (b : Bank) (p : Product) (product weff band z : Nat) (d : Dimension) (dest : Option Destination) (q : Quality)
    (r : RatingRecord) : RatingRecord :=
  let c := b.cell (flatIndex p.bandTable band z)
  if c = Config.notOffered then { r with outcome := .unrateable .notOffered }
  else
    let s := surchargeWalk c product weff z d dest (1000 * c) b.surcharges
    let postage := roundSum b.rounding b.step s
    { r with basePrice := some c, exactSum := some s, postage := some postage, rounded := some (isRounded b.step s)
             outcome := limitsOutcome b p q postage }

/-- Stages 3 to 8 (R78 to R87) on the rated product. -/
def bandStages (b : Bank) (j : JobValues) (product weff : Nat) (d : Dimension) (dest : Option Destination) (q : Quality)
    (r : RatingRecord) : RatingRecord :=
  let p := b.product product
  match bandOf (b.bandTable p.bandTable) weff with
  | none => { r with band := some .aboveTop, outcome := .unrateable .overweight }
  | some i =>
    let r := { r with band := some .within, bandIndex := some i }
    match zoneOf b p j dest with
    | none => { r with outcome := .unrateable .notServed }
    | some (z, default) => priceStages b p product weff i z d dest q { r with zoneColumn := some z, noReadDefault := some default }

/-- The overload test of R73 and the stages of section 4.2, against a bank. -/
def rateInBank (i : RatingInputs) (w : Weight) (d : Dimension) (j : JobValues) (id : BankId) (b : Bank) : RatingRecord :=
  let weff := effectiveWeight w.reading j.margin
  let start := startingProduct i j
  let r := { RatingRecord.bare (.unrateable .outOfFormat) (some (id, b.tariffId)) with
    effectiveWeight := some weff, ratedProduct := some start, upgradeCount := some 0 }
  if w.quality = .overload then { r with outcome := .unrateable .overweight, band := some .unordered }
  else if (b.product start).defined = false then r
  else
    let (fits, n, k) := formatWalk b weff d 3 start 0
    let r := { r with ratedProduct := some n, upgradeCount := some k }
    if fits then bandStages b j n weff d i.destination w.quality r else r

/-- A rating (R73, R88). `bank` is the bank rated against, none when there is none to rate against (R73 test 2); an INCOMPLETE record
names it with its tariff id (R89). -/
def rate (i : RatingInputs) (j : JobValues) (bank : Option (BankId × Bank)) : RatingRecord :=
  if (missingInput i j.zoneMode).isSome then .bare .incomplete (bank.map fun x => (x.1, x.2.tariffId))
  else
    match bank with
    | none => .bare (.unrateable .noBank) none
    | some (id, b) =>
      match i.weight, i.dimension with
      | some w, some d => rateInBank i w d j id b
      | _, _ => .bare .incomplete (some (id, b.tariffId))

/-- The estimate guard (R39): G above 0 and 10 B - (w + m) at least G. -/
def guardPasses (w m g b : Nat) : Bool := 0 < g && w + m + g ≤ 10 * b

end Sys2Proof.Machine
end

