-- ==== Sys2Proof/Machine/Wire.lean ====
section
/-! DEFINITION. The bytes of the records the part sends: the frame (R190, R193), the reply results (R198) and the record layouts
(R197, R199). -/

namespace Sys2Proof.Machine

/-! ## Numbers and the frame check -/

/-- An unsigned number in `w` bytes, most significant byte first (R197). -/
def be : Nat → Nat → List Byte
  | 0, _ => []
  | w + 1, v => BitVec.ofNat 8 (v / 256 ^ w) :: be w v

/-- One bit of the CRC-16 with polynomial x^16 + x^12 + x^5 + 1, most significant bit first (R190). -/
def crcBit (crc : BitVec 16) (bit : Bool) : BitVec 16 :=
  let shifted := crc <<< 1
  if crc.msb != bit then shifted ^^^ 0x1021#16 else shifted

def crcByte (crc : BitVec 16) (b : Byte) : BitVec 16 :=
  [7, 6, 5, 4, 3, 2, 1, 0].foldl (fun c i => crcBit c (b.getLsbD i)) crc

/-- The frame check over LEN, KIND and the payload (R190). -/
def frameCheck (bytes : List Byte) : BitVec 16 := bytes.foldl crcByte 0xFFFF#16

/-- A frame: SYNC, LEN, KIND, the payload and the check, high byte first (R190, R193, R197). -/
def frame (kind : Nat) (payload : List Byte) : List Byte :=
  let covered := be 1 payload.length ++ be 1 kind ++ payload
  Config.sync :: covered ++ be 2 (frameCheck covered).toNat

/-! ## Conventions of R198 -/

def flagByte (b : Bool) : List Byte := be 1 b.toNat

/-- A number that may be none: a presence byte, then the number, or zeros. -/
def optional (w : Nat) : Option Nat → List Byte
  | some v => be 1 1 ++ be w v
  | none => be 1 0 ++ be w 0

/-- A detail figure of 4 bytes; one that is none is sent as 0 (R197). -/
def figure (f : Option Nat) : List Byte := be 4 (f.getD 0)

/-- Bytes 2 to 6 of the NOTICE layout: the code, the presence flags, the tag and the cause count (R197). -/
def causeHead (c : Cause) (count : Nat) : List Byte :=
  be 1 c.code.code ++ be 1 (bits (c.tag.isSome :: c.detail.map Option.isSome)) ++ be 2 (c.tag.getD 0) ++ be 1 count

/-- A cause in a reply (R198). A latest cause carries no presence byte of its own, and one that is none is sent as zeros: the model's choice (log 9). -/
def causeBytes : Option Cause → Nat → List Byte
  | some c, count => causeHead c count ++ be 1 c.detail.length ++ c.detail.flatMap figure
  | none, _ => be 6 0

/-! ## Reply results (R198) -/

def settingsBytes (m : MonitorSettings) : List Byte :=
  be 2 m.mask.toNat ++ be 1 m.polarity.code ++ be 1 m.function.code ++ be 1 m.action.code

def accountBytes (r : AccountReport) : List Byte :=
  let a := r.accounts
  be 4 a.d ++ be 3 a.e ++ be 6 a.a ++ be 7 a.t ++ be 4 a.n ++ be 4 a.creditNumber ++ flagByte r.creditInFlight ++ optional 2 a.lastUsed ++
    optional 2 r.mailingDate ++ be 4 a.printed ++ be 4 a.voided ++ be 4 a.spoiled ++ be 1 a.openOrders.length ++
    a.openOrders.flatMap (fun o => be 2 o.tag ++ be 4 o.n ++ be 3 o.p) ++ flagByte r.lockoutFlag ++ be 4 r.lowThreshold ++ be 4 a.serial

/-- The fault capture; an empty record is a presence byte 0 and zeros (R177, R198; log 9). -/
def captureBytes : Option Capture → List Byte
  | none => be 17 0
  | some c =>
    be 1 1 ++ be 1 c.errorClass.code ++ be 1 c.code.code ++ optional 2 c.tag ++ be 1 c.before.code ++ be 4 c.d ++ be 3 c.e ++
      be 1 c.pieceCount ++ be 1 c.detail.length ++ c.detail.flatMap figure ++ be 1 c.secondary

def bankBytes (b : BankReport) : List Byte := be 1 b.state.code ++ be 2 b.tariffId ++ be 2 b.effectiveDay

/-- The head job record: the three counts that R186 lists, without the pieces in list, the fourth count of R146 (the model's choice, log 25). -/
def headJobBytes : Option Job → List Byte
  | none => be 17 0
  | some j => be 1 1 ++ be 2 j.values.id ++ be 1 j.slot ++ be 1 j.state.code ++ be 4 j.entered ++ be 4 j.printed ++ be 4 j.diverted

def pendingSwitchBytes : Option PendingSwitch → List Byte
  | none => be 3 0
  | some p => be 1 1 ++ be 1 p.target.code ++ be 1 p.mode.code

/-- The reported channel (R186): the presence byte of the whole group, the number, the latest cause without a presence byte of its own, and the count (the
model's choice, log 9). -/
def reportedBytes : Option ChannelReport → List Byte
  | none => be 9 0
  | some r => be 1 1 ++ be 1 r.number ++ causeBytes r.latest r.count ++ be 1 r.count

def statusBytes (r : StatusReport) : List Byte :=
  be 1 r.franking.code ++ be 1 r.causes.byte ++ flagByte r.captureFull ++ be 1 (bits (r.channels.toList.map Channel.enable)) ++
    be 1 (bits (r.channels.toList.map Channel.pending)) ++ be 1 (bits (r.channels.toList.map Channel.underService)) ++ flagByte r.gne ++
    flagByte r.gneSaved ++ be 1 r.noticeMode.code ++ be 1 r.vectorBase ++ be 1 r.pieceCount ++ be 1 r.outstanding ++
    flagByte r.commitTag.isSome ++ optional 2 r.commitTag ++ be 1 r.printer.code ++ bankBytes r.bankA ++ bankBytes r.bankB ++
    pendingSwitchBytes r.pendingSwitch ++ headJobBytes r.headJob ++ be 1 r.jobCount ++ be 2 r.sensorWord.toNat ++
    r.monitors.toList.flatMap (fun m => settingsBytes m.settings ++ flagByte m.previous) ++ be 2 r.counters.discardedFrames ++
    be 2 r.counters.unknownRecords ++ be 2 r.counters.orphans ++ be 2 r.counters.lateMeasurements ++ be 2 r.counters.lateRecords ++
    be 2 r.counters.lateResults ++ reportedBytes r.reported

/-- The results of a reply in the order the request's rule lists them (R198). The model's choices (log 9): TABLE_END's result is READY 0 or INVALID 1,
by its place among R61's two results and not among R45's bank states; BANK_SWITCH's result is SWITCHED 0 or PENDING 1, which R63 to R65 name and no rule
lists; PRODUCT_UNDEFINED of JOB_ADD is one flag byte, 0 or 1; of IDENTIFY's values,
whose ranges R188 does not give, the family code is one byte and the part code two, and the revision letter is its position in A to Z. -/
def Results.bytes : Results → List Byte
  | .nothing => []
  | .configured v =>
    be 1 v.vectorBase ++ be 1 v.noticeMode.code ++ be 2 v.tTake ++ be 2 v.tResult ++ be 1 v.maxOutstanding ++ be 4 v.lowThreshold
  | .lineReset spoils f => be 1 spoils ++ be 1 f.code
  | .identity serial => be 1 Config.familyCode ++ be 2 Config.partCode ++ be 1 Config.revisionCode ++ be 4 serial
  | .tableBegun cancelled => flagByte cancelled
  | .segment accepted flawed => be 2 accepted ++ flagByte flawed
  | .loadReady tid accepted => be 1 0 ++ be 2 tid ++ be 2 accepted
  | .loadInvalid check accepted => be 1 1 ++ be 1 check ++ be 2 accepted
  | .switchedNow tid => be 1 0 ++ be 2 tid
  | .switchedAtDate => be 1 0
  | .switchPending => be 1 1
  | .credited d t number => be 4 d ++ be 7 t ++ be 4 number
  | .accounts r => accountBytes r
  | .jobAdded slot state undef => be 1 slot ++ be 1 state.code ++ flagByte undef
  | .jobAborted before done remaining => be 1 before.code ++ flagByte done ++ be 2 remaining
  | .monitor m result => settingsBytes m ++ flagByte result
  | .franking f c => be 1 f.code ++ be 1 c.byte
  | .capture c => captureBytes c
  | .status r => statusBytes r
  | .enables channels gne => be 1 (bits (channels.toList.map Channel.enable)) ++ flagByte gne
  | .serviceEnded channel gne => be 1 channel ++ flagByte gne

/-- How many REPLY records a reply is sent as (R198). -/
def Reply.parts (r : Reply) : Nat := max 1 ((r.results.bytes.length + (Config.replyPart - 1)) / Config.replyPart)

/-! ## Payloads -/

/-- Part k of a reply (R197, R198). -/
def Reply.payload (r : Reply) (k : Nat) : List Byte :=
  be 1 r.number ++ be 1 r.kind ++ be 1 r.outcome.code ++ be 1 ((r.reason.map Reason.code).getD 0) ++
    be 1 (if k + 1 = r.parts then 128 + k else k) ++ (r.results.bytes.drop (Config.replyPart * k)).take Config.replyPart

def DispositionRecord.payload (d : DispositionRecord) : List Byte :=
  let reason := match d.outcome with | some (.diverted r) => r.code | _ => 0
  be 2 d.tag ++ be 1 (dispositionCode d.outcome) ++ be 1 reason ++
    be 1 (bits [d.gatePassed, d.estimateCommitted, d.tagConflict, d.job.isSome, d.money.isSome]) ++ be 2 (d.job.getD 0) ++
    be 4 ((d.money.map Prod.fst).getD 0) ++ be 4 ((d.money.map Prod.snd).getD 0)

/-- Bytes 2 onward of a NOTICE; a channel with no latest cause, which is never pending, would send zeros (the model's choice, log 9). -/
def noticeBody : Option Cause → Nat → List Byte
  | some c, count => causeHead c count ++ c.detail.flatMap figure
  | none, count => be 4 0 ++ be 1 count

def LineRecord.kind : LineRecord → Nat
  | .reply _ _ => 0x80
  | .notice _ _ _ _ => 0x81
  | .disposition _ => 0x82
  | .stopMonitors _ _ => 0x83
  | .stopOverflow _ => 0x83

def LineRecord.payload : LineRecord → List Byte
  | .reply r part => r.payload part
  | .notice vector channel cause count => be 1 vector ++ be 1 channel ++ noticeBody cause count
  | .disposition d => d.payload
  | .stopMonitors ms word => be 1 0 ++ be 1 (bits ([0, 1, 2, 3].map fun i => ms.contains i)) ++ be 2 word.toNat ++ be 2 0
  | .stopOverflow tag => be 1 1 ++ be 1 0 ++ be 2 0 ++ be 2 tag

def PrintRecord.kind : PrintRecord → Nat
  | .order _ => 0xA0
  | .withdraw _ _ => 0xA1

def PrintOrder.payload (o : PrintOrder) : List Byte :=
  be 2 o.tag ++ be 4 o.n ++ be 4 o.p ++ be 2 o.date ++ be 6 o.ascending ++ be 2 o.k ++ be 1 o.fields.product ++ be 1 o.fields.upgrades ++
    be 1 o.fields.column ++ be 1 (bits [o.fields.noReadDefault, o.fields.rounded, o.fields.estimate]) ++ be 2 o.fields.tariffId

def PrintRecord.payload : PrintRecord → List Byte
  | .order o => o.payload
  | .withdraw tag n => be 2 tag ++ be 4 n

end Sys2Proof.Machine
end

