-- ==== Sys2Proof/Machine/Receive.lean ====
section
/-! DEFINITION. How bytes of a link become commands: the receive framer (R190) and the routing and layouts of inbound records, read and written
(R191, R197, R199). `State.receive` is the outside world's way in: it takes one byte and puts the commands that the byte completes at the end of the queue. -/

namespace Sys2Proof.Machine

/-! ## The framer (R190) -/

/-- What a byte completes: a record whose frame check matched, or a discarded frame with the bytes that followed its SYNC. -/
inductive FrameEvent where
  | record (kind : Nat) (payload : List Byte)
  | discarded (bytes : List Byte)
deriving DecidableEq, Repr

def Framer.idle : Framer := { phase := .hunt, bytes := [] }

/-- LEN of the frame being collected. -/
def Framer.len (f : Framer) : Nat := (f.bytes.headD 0).toNat

/-- The framer at the end of CHECK: LEN, KIND, payload and two check bytes are collected (R190). -/
def Framer.conclude (bytes : List Byte) : FrameEvent :=
  let covered := bytes.dropLast.dropLast
  if be 2 (frameCheck covered).toNat = bytes.drop covered.length then .record ((covered.drop 1).headD 0).toNat (covered.drop 2)
  else .discarded bytes

/-- One byte at the framer (R190). -/
def Framer.feed (f : Framer) (b : Byte) : Framer × Option FrameEvent :=
  match f.phase with
  | .hunt => if b = Config.sync then ({ phase := .length, bytes := [] }, none) else (.idle, none)
  | .length => if Config.maxPayload < b.toNat then (.idle, some (.discarded [b])) else ({ phase := .body, bytes := [b] }, none)
  | .body =>
    let bytes := f.bytes ++ [b]
    ({ phase := if bytes.length = f.len + 2 then .check else .body, bytes }, none)
  | .check =>
    let bytes := f.bytes ++ [b]
    if bytes.length = f.len + 4 then (.idle, some (Framer.conclude bytes)) else ({ phase := .check, bytes }, none)

/-- Bytes at the framer; after a discard the hunt resumes with the byte that followed the discarded SYNC (R190). `fuel` bounds the bytes
looked at, the ones looked at again counted. -/
def Framer.feedAll : Nat → Framer → List Byte → Framer × List FrameEvent
  | 0, f, _ => (f, [])
  | _ + 1, f, [] => (f, [])
  | fuel + 1, f, b :: bs =>
    match f.feed b with
    | (f', none) => Framer.feedAll fuel f' bs
    | (f', some (.record k p)) =>
      let (g, es) := Framer.feedAll fuel f' bs
      (g, .record k p :: es)
    | (f', some (.discarded again)) =>
      let (g, es) := Framer.feedAll fuel f' (again ++ bs)
      (g, .discarded again :: es)

/-! ## Layouts of inbound records (R197, R199) -/

/-- The unsigned number in `w` bytes at offset `i` of a payload. -/
def field (p : List Byte) (i w : Nat) : Nat := ((p.drop i).take w).foldl (fun v b => v * 256 + b.toNat) 0

def flagAt (p : List Byte) (i bit : Nat) : Bool := ((p.drop i).headD 0).getLsbD bit

def flags16 (p : List Byte) (i : Nat) : Flags16 := BitVec.ofNat 16 (field p i 2)

/-- `count` two-byte values from offset `i`. -/
def values2 (p : List Byte) (i : Nat) : Nat → List Nat
  | 0 => []
  | count + 1 => field p i 2 :: values2 p (i + 2) count

/-- Zone entries, two to a byte, the entry for the lower code in the high four bits (R199). -/
def nibbles (p : List Byte) (i : Nat) : Nat → List Nat
  | 0 => []
  | count + 1 => field p i 1 / 16 :: field p i 1 % 16 :: nibbles p (i + 1) count

/-- A sensor record of its kind's length (R197). Bits of a flags byte that R197 gives no meaning are not looked at (the model's choice, log 26). -/
def decodeSensor (kind : Nat) (p : List Byte) : Instr :=
  let tag := field p 0 2
  match kind with
  | 0x01 => .enter tag
  | 0x02 => .dimension tag (field p 2 2) (field p 4 2) (field p 6 2) (flagAt p 8 0)
  | 0x03 => .weight tag (field p 2 2) (field p 4 1)
  | 0x04 => .destination tag (field p 2 1) (flagAt p 3 0) (if flagAt p 3 1 then some (field p 4 1) else none)
  | 0x05 => .gate tag
  | 0x06 => .exit tag
  | 0x07 => .remove tag
  | 0x08 => .lineStatus (flags16 p 0)
  | k => .unknownRecord .line k p.length

/-- A TABLE_SEGMENT (R55, R197, R199). One with no group byte is taken as a segment whose LEN does not match, and byte 5 of a
PRICE_RUN of flat form, which R197 gives as zero, is not looked at (the model's choices, log 11), nor are the bits of a flags byte that R199 gives no
meaning (log 26). -/
def decodeSegment (p : List Byte) : Instr :=
  let head (len : Nat) : ReqHead := { number := field p 0 1, lenOk := p.length == len }
  if p.length < 2 then .headerSegment (head 10) 0 0 0 0
  else
    match field p 1 1 with
    | 0 => .headerSegment (head 10) (field p 2 2) (field p 4 1) (field p 5 1) (field p 6 4)
    | 1 =>
      .productSegment (head 16) (field p 2 1)
        { defined := flagAt p 3 0, zeroOk := flagAt p 3 1, bandTable := field p 4 1, zoneMap := field p 5 1, maxWeight := field p 6 2
          maxLength := field p 8 2, maxHeight := field p 10 2, maxThickness := field p 12 2
          upgrade := if flagAt p 3 2 then some (field p 14 1) else none, noReadColumn := field p 15 1 }
    | 2 => .bandTableSegment (head (4 + 2 * field p 3 1)) (field p 2 1) (values2 p 4 (min (field p 3 1) 28))
    | 3 => .zoneBlockSegment (head 20) (field p 2 1) (field p 3 1) (nibbles p 4 16)
    | 4 =>
      .surchargeSegment (head 12) (field p 2 1)
        { mask := flags16 p 3, condition := field p 5 1, threshold := field p 6 2, amountKind := field p 8 1, amount := field p 9 2
          last := flagAt p 11 0 }
    | 5 =>
      let start : PriceStart :=
        match field p 2 1 with
        | 0 => .coordinate (field p 3 1) (field p 4 1) (field p 5 1)
        | 1 => .flat (field p 3 2)
        | c => .unknownForm c
      .priceRunSegment (head (7 + 2 * field p 6 1)) start (values2 p 7 (min (field p 6 1) 26))
    | g => .unknownSegmentGroup { number := field p 0 1, lenOk := true } g

/-- A request, of a kind 0x40 to 0x7F and at least one payload byte (R191, R192, R199). Bits of a flags field that R199
gives no meaning are not looked at (the model's choice, log 26). -/
def decodeRequest (kind : Nat) (p : List Byte) : Instr :=
  let head (len : Nat) : ReqHead := { number := field p 0 1, lenOk := p.length == len }
  match kind with
  | 0x40 =>
    .configure (head 12)
      { vectorBase := field p 1 1, noticeMode := field p 2 1, tTake := field p 3 2, tResult := field p 5 2, maxOutstanding := field p 7 1
        lowThreshold := field p 8 4 }
  | 0x41 => .lineReset (head 1)
  | 0x42 => .identify (head 1)
  | 0x48 => .tableBegin (head 4) (field p 1 1) (field p 2 2)
  | 0x49 => decodeSegment p
  | 0x4A => .tableEnd (head 3) (field p 1 2)
  | 0x4B =>
    match field p 2 1 with
    | 1 => .bankSwitchAtDate (head 3) (field p 1 1)
    | 2 => .bankSwitchAtJob (head 3) (field p 1 1)
    | m => .bankSwitchImmediate (head 3) (field p 1 1) m
  | 0x50 => .credit (head 9) (field p 1 4) (field p 5 4)
  | 0x51 => .date (head 3) (field p 1 2)
  | 0x52 => .accountQuery (head 1)
  | 0x58 =>
    .jobAdd (head 11)
      { id := field p 1 2, product := field p 3 1, count := field p 4 2, margin := field p 6 1, guardBand := field p 7 1
        zoneMode := field p 8 1, column := field p 9 1, overrideAllowed := flagAt p 10 0 }
  | 0x59 => .jobAbort (head 3) (field p 1 2)
  | 0x5C =>
    .monitorSet (head 7)
      { number := field p 1 1, mask := flags16 p 2, polarity := field p 4 1, function := field p 5 1, action := field p 6 1 }
  | 0x60 => .hold (head 1)
  | 0x61 => .resume (head 1)
  | 0x62 => .clearHalt (head 1)
  | 0x63 => .fetchCapture (head 1)
  | 0x68 => .status (head 1)
  | 0x69 => .peek (head 1)
  | 0x6A => .noticeEnable (head 5) (flags16 p 1) (flags16 p 3)
  | 0x6B => .endOfService (head 1)
  | k => .unknownRequest (field p 0 1) k

/-- A print-link record of its kind's length (R197, R199). -/
def decodePrint (kind : Nat) (p : List Byte) : Instr :=
  match kind with
  | 0x20 => .printerState (field p 0 1)
  | 0x21 => .orderTaken (field p 0 2)
  | 0x22 => .printResult (field p 0 2) (field p 2 1)
  | k => .unknownRecord .print k p.length

/-- The command that a record with a good frame check is (R191). -/
def decodeRecord (link : Link) (kind : Nat) (p : List Byte) : Instr :=
  if isUnknownRecord link kind p.length then .unknownRecord link kind p.length
  else
    match link with
    | .line => if kind < 0x40 then decodeSensor kind p else decodeRequest kind p
    | .print => decodePrint kind p

def decodeEvent (link : Link) : FrameEvent → Instr
  | .record kind p => decodeRecord link kind p
  | .discarded _ => .discardedFrame link

/-! ## The records as their senders lay them out (R191, R197, R199) -/

/-- A request of matching LEN: its number, then the bytes that follow it (R192). A head that says the LEN does not match names no one payload. -/
def requestRecord (h : ReqHead) (kind : Nat) (rest : List Byte) : Option (Link × Nat × List Byte) :=
  if h.lenOk then some (.line, kind, be 1 h.number ++ rest) else none

/-- Zone entries, two to a byte, the first of each two in the high four bits (R199). -/
def packedNibbles : List Nat → List Byte
  | a :: b :: es => be 1 (a * 16 + b) ++ packedNibbles es
  | _ => []

/-- Bytes 2 onward of a PRICE_RUN up to its count (R197). -/
def priceStartBytes : PriceStart → List Byte
  | .coordinate t b z => be 1 0 ++ be 1 t ++ be 1 b ++ be 1 z
  | .flat f => be 1 1 ++ be 2 f ++ be 1 0
  | .unknownForm c => be 1 c ++ be 3 0

/-- The record that carries a command: its link, its kind and its payload. Only commands that arrive on a link have one. -/
def recordOf : Instr → Option (Link × Nat × List Byte)
  | .enter tag => some (.line, 0x01, be 2 tag)
  | .dimension tag l h t nm => some (.line, 0x02, be 2 tag ++ be 2 l ++ be 2 h ++ be 2 t ++ be 1 (bits [nm]))
  | .weight tag reading quality => some (.line, 0x03, be 2 tag ++ be 2 reading ++ be 1 quality)
  | .destination tag code noRead service =>
    some (.line, 0x04, be 2 tag ++ be 1 code ++ be 1 (bits [noRead, service.isSome]) ++ be 1 (service.getD 0))
  | .gate tag => some (.line, 0x05, be 2 tag)
  | .exit tag => some (.line, 0x06, be 2 tag)
  | .remove tag => some (.line, 0x07, be 2 tag)
  | .lineStatus word => some (.line, 0x08, be 2 word.toNat)
  | .configure h v =>
    requestRecord h 0x40
      (be 1 v.vectorBase ++ be 1 v.noticeMode ++ be 2 v.tTake ++ be 2 v.tResult ++ be 1 v.maxOutstanding ++ be 4 v.lowThreshold)
  | .lineReset h => requestRecord h 0x41 []
  | .identify h => requestRecord h 0x42 []
  | .tableBegin h bank tid => requestRecord h 0x48 (be 1 bank ++ be 2 tid)
  | .headerSegment h day mode step cap => requestRecord h 0x49 (be 1 0 ++ be 2 day ++ be 1 mode ++ be 1 step ++ be 4 cap)
  | .productSegment h n p =>
    requestRecord h 0x49
      (be 1 1 ++ be 1 n ++ be 1 (bits [p.defined, p.zeroOk, p.upgrade.isSome]) ++ be 1 p.bandTable ++ be 1 p.zoneMap ++ be 2 p.maxWeight ++
        be 2 p.maxLength ++ be 2 p.maxHeight ++ be 2 p.maxThickness ++ be 1 (p.upgrade.getD 0) ++ be 1 p.noReadColumn)
  | .bandTableSegment h t bs => requestRecord h 0x49 (be 1 2 ++ be 1 t ++ be 1 bs.length ++ bs.flatMap (be 2))
  | .zoneBlockSegment h m first es => requestRecord h 0x49 (be 1 3 ++ be 1 m ++ be 1 first ++ packedNibbles es)
  | .surchargeSegment h position f =>
    requestRecord h 0x49
      (be 1 4 ++ be 1 position ++ be 2 f.mask.toNat ++ be 1 f.condition ++ be 2 f.threshold ++ be 1 f.amountKind ++ be 2 f.amount ++
        be 1 (bits [f.last]))
  | .priceRunSegment h start vs => requestRecord h 0x49 (be 1 5 ++ priceStartBytes start ++ be 1 vs.length ++ vs.flatMap (be 2))
  | .unknownSegmentGroup h group => requestRecord h 0x49 (be 1 group)
  | .tableEnd h expected => requestRecord h 0x4A (be 2 expected)
  | .bankSwitchImmediate h bank mode => requestRecord h 0x4B (be 1 bank ++ be 1 mode)
  | .bankSwitchAtDate h bank => requestRecord h 0x4B (be 1 bank ++ be 1 1)
  | .bankSwitchAtJob h bank => requestRecord h 0x4B (be 1 bank ++ be 1 2)
  | .credit h number amount => requestRecord h 0x50 (be 4 number ++ be 4 amount)
  | .date h day => requestRecord h 0x51 (be 2 day)
  | .accountQuery h => requestRecord h 0x52 []
  | .jobAdd h v =>
    requestRecord h 0x58
      (be 2 v.id ++ be 1 v.product ++ be 2 v.count ++ be 1 v.margin ++ be 1 v.guardBand ++ be 1 v.zoneMode ++ be 1 v.column ++
        be 1 (bits [v.overrideAllowed]))
  | .jobAbort h id => requestRecord h 0x59 (be 2 id)
  | .monitorSet h v =>
    requestRecord h 0x5C (be 1 v.number ++ be 2 v.mask.toNat ++ be 1 v.polarity ++ be 1 v.function ++ be 1 v.action)
  | .hold h => requestRecord h 0x60 []
  | .resume h => requestRecord h 0x61 []
  | .clearHalt h => requestRecord h 0x62 []
  | .fetchCapture h => requestRecord h 0x63 []
  | .status h => requestRecord h 0x68 []
  | .peek h => requestRecord h 0x69 []
  | .noticeEnable h value mask => requestRecord h 0x6A (be 2 value.toNat ++ be 2 mask.toNat)
  | .endOfService h => requestRecord h 0x6B []
  | .unknownRequest number kind => some (.line, kind, be 1 number)
  | .unknownRecord link kind length => some (link, kind, List.replicate length 0)
  | .printerState code => some (.print, 0x20, be 1 code)
  | .orderTaken tag => some (.print, 0x21, be 2 tag)
  | .printResult tag outcome => some (.print, 0x22, be 2 tag ++ be 1 outcome)
  | _ => none

/-! ## Bytes arriving -/

def State.framer (s : State) : Link → Framer
  | .line => s.lineFramer
  | .print => s.printFramer

def State.setFramer (s : State) (link : Link) (f : Framer) : State :=
  match link with
  | .line => { s with lineFramer := f }
  | .print => { s with printFramer := f }

/-- Bytes looked at for one byte received: a discarded frame leaves at most 64 bytes to look at again, each later discard fewer. -/
def receiveFuel : Nat := 4096

/-- A byte arrives on a link (R190). A part that is held in reset or has lost power takes none (R200). -/
def State.receive (s : State) (link : Link) (b : Byte) : State :=
  if s.power = .on then
    let (f, es) := Framer.feedAll receiveFuel (s.framer link) [b]
    { s.setFramer link f with pending := s.pending ++ es.map (decodeEvent link) }
  else s

end Sys2Proof.Machine
end

