-- ==== Sys2Proof/Machine/Ops.lean ====
section
/-! DEFINITION. The operations the blocks share: handing records to the transmitters (R193), posting causes and the sending test (R180 to
R182), errors and the fault capture (R174 to R176), the counts of jobs (R143, R144), and the end and removal of a piece (R9, R10). -/

namespace Sys2Proof.Machine

/-! ## Every command -/

/-- A command taken by the part: a part that is held in reset or has lost power takes no record and runs no timer (R200), so nothing
changes. -/
def State.taken (s : State) (f : State → State) : Host.Outcome State Fault Refusal :=
  .next (if s.power = .on then f s else s)

/-! ## Sending (R193) -/

def State.sendLine (s : State) (r : LineRecord) : State := { s with lineTx := { s.lineTx with waiting := s.lineTx.waiting ++ [r] } }

def State.sendPrint (s : State) (r : PrintRecord) : State := { s with printTx := { s.printTx with waiting := s.printTx.waiting ++ [r] } }

/-- The parts of a reply are handed over together (R198). -/
def State.sendReply (s : State) (r : Reply) : State :=
  { s with lineTx := { s.lineTx with waiting := s.lineTx.waiting ++ (List.range r.parts).map (LineRecord.reply r) } }

/-- A reply ACCEPTED or CLAMPED with its results (R192). -/
def State.accept (s : State) (number : Nat) (k : RequestKind) (results : Results) : State :=
  s.sendReply { number, kind := k.code, outcome := .accepted, reason := none, results }

def State.acceptClamped (s : State) (number : Nat) (k : RequestKind) (clamped : Bool) (results : Results) : State :=
  s.sendReply { number, kind := k.code, outcome := if clamped then .clamped else .accepted, reason := none, results }

/-- A reply REFUSED with its reason (R192). -/
def State.refuse (s : State) (number kind : Nat) (r : Reason) (results : Results := .nothing) : State :=
  s.sendReply { number, kind, outcome := .refused, reason := some r, results }

/-! ## Requests and the franking state (R163, R191) -/

/-- The table of R163. -/
def RequestKind.stateRefusal : RequestKind → FrankingState → Option Reason
  | .configure, .lockout => some .lockedOut
  | .configure, _ => none
  | .status, _ => none
  | .peek, _ => none
  | .identify, _ => none
  | .accountQuery, _ => none
  | .fetchCapture, .unconfigured => some .notConfigured
  | .fetchCapture, _ => none
  | .endOfService, .unconfigured => some .notConfigured
  | .endOfService, _ => none
  | _, .unconfigured => some .notConfigured
  | _, .lockout => some .lockedOut
  | _, _ => none

/-- A TABLE_SEGMENT whose LEN does not match sets the flawed mark while a bank is loading in RUNNING, HELD or HALTED (R191). -/
def State.flawByLength (s : State) (k : RequestKind) : State :=
  if k = .tableSegment ∧ s.banks.loading.isSome ∧ k.stateRefusal s.franking = none then { s with load := { s.load with flawed := true } } else s

/-- A request is taken: first its LEN (R191), then the franking state (R163), then its owner's rule. -/
def State.request (s : State) (h : ReqHead) (k : RequestKind) (owner : State → State) : State :=
  if h.lenOk = false then (s.flawByLength k).refuse h.number k.code .badValue
  else
    match k.stateRefusal s.franking with
    | some r => s.refuse h.number k.code r
    | none => owner s

/-! ## Notices (R179 to R183) -/

/-- The channels in order of priority (R179). -/
def channelOrder : List (Fin 8) := [0, 1, 2, 3, 4, 5, 6, 7]

/-- No channel numbered c or lower is under service (R181). -/
def State.unblocked (s : State) (c : Fin 8) : Bool :=
  channelOrder.all fun k => decide (c < k) || !s.channels[k].underService

/-- A channel is ready to be sent (R181). -/
def State.channelReady (s : State) (c : Fin 8) : Bool :=
  s.channels[c].pending && s.unblocked c && (decide (c = 0) || (s.channels[c].enable && s.gne))

/-- The vector: the vector base with its three low bits cleared, plus the channel (R182). -/
def noticeVector (base : Nat) (c : Fin 8) : Nat := base / 8 * 8 + c.val

/-- What sending does to the channel sent (R182, R183). -/
def Channel.sent (ch : Channel) : NoticeMode → Channel
  | .pulse => { ch with underService := true, pending := false, count := 0 }
  | .level => { ch with underService := true }

/-- Sending channel c (R182). -/
def State.sendNotice (s : State) (c : Fin 8) : State :=
  let ch := s.channels[c]
  let s := s.sendLine (.notice (noticeVector s.settings.vectorBase c) c.val ch.latest ch.count)
  let s := { s with channels := s.channels.set c (ch.sent s.settings.noticeMode) }
  if c = 0 then { s with gneSaved := s.gne, gne := false } else s

/-- The sending test (R181): the lowest-numbered ready channel is sent. One send is the whole test: a channel sent keeps itself and every
higher-numbered one from being sent, and no lower-numbered one was ready. -/
def State.sendingTest (s : State) : State :=
  match channelOrder.find? s.channelReady with
  | none => s
  | some c => s.sendNotice c

/-- What a posting does to its channel (R180). -/
def Channel.posted (ch : Channel) (c : Cause) : Channel :=
  { ch with latest := some c, count := satSucc Config.causeCountMax ch.count, pending := true }

/-- A block posts a cause (R180) on the channel of its code (R173). -/
def State.post (s : State) (code : CauseCode) (tag : Option Nat) (detail : List (Option Nat)) : State :=
  let c := code.channel
  State.sendingTest { s with channels := s.channels.set c (s.channels[c].posted { code, tag, detail }) }

/-! ## The franking state and errors (R161, R170, R174 to R176) -/

/-- The set of hold causes changes and the franking state follows it (R161). -/
def State.setCauses (s : State) (c : HoldCauses) : State := { s with causes := c, franking := s.franking.follow c }

/-- An error fills an empty capture, or is counted as secondary (R176). -/
def State.captureError (s : State) (cls : ErrorClass) (code : CauseCode) (tag : Option Nat) (before : FrankingState)
    (detail : List (Option Nat)) : State :=
  match s.capture with
  | some c => { s with capture := some { c with secondary := satSucc Config.causeCountMax c.secondary } }
  | none =>
    { s with
      capture := some { errorClass := cls, code, tag, before, d := s.accounts.d, e := s.accounts.e, pieceCount := s.pieces.length, detail
                        secondary := 0 } }

/-- What a contributory error does to the franking state and the hold causes (the table of R174). -/
def State.contribute (s : State) : State :=
  match s.franking with
  | .running => s.setCauses { s.causes with error := true }
  | .held => if s.causes.error then { s with franking := .halted } else s.setCauses { s.causes with error := true }
  | .halted => s
  | .lockout => s
  | .unconfigured => s

/-- A contributory error is raised (R174). -/
def State.raiseContributory (s : State) (code : CauseCode) (tag : Option Nat) (detail : List (Option Nat)) : State :=
  (s.contribute.captureError .contributory code tag s.franking detail).post code tag detail

/-- Entry to LOCKOUT (R170): the lockout flag is written first (R98); the hold causes are kept. -/
def State.enterLockout (s : State) : State :=
  match s.franking with
  | .running => { s with lockoutFlag := true, franking := .lockout }
  | .held => { s with lockoutFlag := true, franking := .lockout }
  | .halted => { s with lockoutFlag := true, franking := .lockout }
  | .lockout => s
  | .unconfigured => s

/-- An abort error is raised (R175). -/
def State.raiseAbort (s : State) (code : CauseCode) (tag : Option Nat) (detail : List (Option Nat)) : State :=
  (s.enterLockout.captureError .abort code tag s.franking detail).post code tag detail

/-! ## Pieces and jobs found (R1, R138) -/

def PieceState.settled : PieceState → Bool
  | .opened => false
  | .provisional => false
  | .rated => false
  | .committing => true
  | .committed => true
  | .final => true

/-- The record that holds a tag (R1). -/
def State.piece? (s : State) (tag : Nat) : Option Piece := s.pieces.find? (·.tag == tag)

/-- The record that holds a tag is changed. -/
def State.updatePiece (s : State) (tag : Nat) (f : Piece → Piece) : State :=
  { s with pieces := s.pieces.map fun p => if p.tag == tag then f p else p }

/-- The job in a slot (R138). -/
def State.job? (s : State) (slot : Nat) : Option Job := s.jobs.find? (·.slot == slot)

def State.updateJob (s : State) (slot : Nat) (f : Job → Job) : State :=
  { s with jobs := s.jobs.map fun j => if j.slot == slot then f j else j }

/-- The job a piece refers to (R2). -/
def State.jobOf (s : State) (p : Piece) : Option Job := p.job.bind s.job?

/-! ## Counting into a job (R143, R144) -/

/-- Whether the job in a slot is done (R144). -/
def Job.done (j : Job) : Bool := decide (j.state = .closed) && j.inList == 0

/-- The test for a done job: the record is removed, its slot freed, and DONE is posted (R144). -/
def State.testDone (s : State) (slot : Nat) (tag : Option Nat) : State :=
  match s.job? slot with
  | none => s
  | some j =>
    if j.done then
      State.post { s with jobs := s.jobs.filter (·.slot != slot) } .done tag [some j.values.id, some j.entered, some j.printed, some j.diverted]
    else s

/-- A disposition is counted into the piece's job (R9 step 4, R143). -/
def Job.count (j : Job) : Disposition → Job
  | .printed => { j with printed := satSucc Config.countMax j.printed }
  | .voided => { j with diverted := satSucc Config.countMax j.diverted }
  | .spoiled => { j with diverted := satSucc Config.countMax j.diverted }
  | .diverted _ => { j with diverted := satSucc Config.countMax j.diverted }
  | .removed => { j with diverted := satSucc Config.countMax j.diverted }

def State.countDisposition (s : State) (job : Option Nat) (d : Disposition) : State :=
  match job with
  | none => s
  | some slot => s.updateJob slot (·.count d)

/-! ## The end and the removal of a piece (R9, R10) -/

/-- The record leaves the list and its job is told (R10, R143, R144). -/
def State.removePiece (s : State) (tag : Nat) : State :=
  match s.piece? tag with
  | none => s
  | some p =>
    let s := { s with pieces := s.pieces.filter (·.tag != tag) }
    match p.job with
    | none => s
    | some slot => (s.updateJob slot fun j => { j with inList := j.inList - 1 }).testDone slot (some tag)

/-- What a DISPOSITION of a piece carries (R8). -/
def Piece.report (p : Piece) (jobId : Option Nat) (d : Disposition) : DispositionRecord :=
  { tag := p.tag, outcome := some d, job := jobId, money := p.commitData.map fun c => (c.n, c.p), gatePassed := p.flags.gatePassed
    estimateCommitted := p.flags.estimateCommitted, tagConflict := p.flags.tagConflict }

/-- A piece record made FINAL with a disposition; the gate-committed flag is cleared (R3, R9 step 1). -/
def Piece.ended (p : Piece) (d : Disposition) : Piece :=
  { p with state := .final, disposition := some d, flags := { p.flags with gateCommitted := false } }

/-- The piece fault cause of a divert (R9 step 3). -/
def State.postDivert (s : State) (tag : Nat) : Disposition → State
  | .diverted r => s.post (.divert r) (some tag) []
  | .printed => s
  | .voided => s
  | .spoiled => s
  | .removed => s

/-- A piece becomes FINAL (R9, its five steps in order). -/
def State.finalize (s : State) (tag : Nat) (d : Disposition) : State :=
  match s.piece? tag with
  | none => s
  | some p =>
    let s := s.updatePiece tag (·.ended d)
    let s := s.sendLine (.disposition (p.report ((s.jobOf p).map (·.values.id)) d))
    let s := s.postDivert tag d
    let s := s.countDisposition p.job d
    if p.flags.exited || p.flags.removeRequested then s.removePiece tag else s

/-! ## Counters -/

/-- A sensor record that cannot be placed (R14). -/
def State.orphan (s : State) : State :=
  { s with counters := { s.counters with orphans := satSucc Config.counterMax s.counters.orphans } }

/-- A late measurement (R38). -/
def State.lateMeasurement (s : State) : State :=
  { s with counters := { s.counters with lateMeasurements := satSucc Config.counterMax s.counters.lateMeasurements } }

/-- A late ORDER_TAKEN (R127). -/
def State.lateRecord (s : State) : State :=
  { s with counters := { s.counters with lateRecords := satSucc Config.counterMax s.counters.lateRecords } }

/-! ## The accounting queue (R99) and the replies that wait (R166, R196) -/

def Write.closes (n : Nat) : Write → Bool
  | .close _ _ m _ => m == n
  | .commit _ _ => false
  | .credit _ _ _ => false

/-- A closing request is taken for an open order whose N has no closing request queued; any other is dropped (R99). -/
def State.closeTaken (s : State) (n : Nat) : Bool := s.accounts.openOrders.any (·.n == n) && !s.queue.any (Write.closes n)

/-- A closing write is requested (R99). -/
def State.requestClose (s : State) (kind : CloseKind) (tag n : Nat) (by_ : Requester) : State :=
  if s.closeTaken n then { s with queue := s.queue ++ [.close kind tag n by_] } else s

/-- Every HOLD reply that waits is sent, in the order the requests were accepted (R166). -/
def State.answerHolds (s : State) : State :=
  { s.holdWaiting.foldl (fun s number => s.accept number .hold (.franking s.franking s.causes)) s with holdWaiting := [] }

/-- The LINE_RESET reply is sent once no SPOIL write it waits for is left (R196). -/
def State.answerReset (s : State) : State :=
  match s.resetWait with
  | some w => if w.remaining = 0 then State.accept { s with resetWait := none } w.request .lineReset (.lineReset w.spoils w.franking) else s
  | none => s

/-- One of the SPOIL writes that the LINE_RESET reply waits for has completed (R196). -/
def State.resetSpoilDone (s : State) : State :=
  State.answerReset { s with resetWait := s.resetWait.map fun w => { w with remaining := w.remaining - 1 } }

/-- The commit slot is emptied, and the HOLD replies that wait for it are sent (R117, R166). -/
def State.emptySlot (s : State) : State := State.answerHolds { s with slot := none }

end Sys2Proof.Machine
end

