-- ==== Sys2Proof/Machine/CommitOps.lean ====
section
/-! DEFINITION. The commit unit's conditions, the start of a commit and its ceiling check, the attempt at a gate and the fresh test of the
candidate (R106, R107, R117 to R121). -/

namespace Sys2Proof.Machine

/-- The postage of a piece's rating record (R90). -/
def Piece.postage (p : Piece) : Nat := (p.rating.bind (·.postage)).getD 0

/-- The candidate: the oldest piece that is not settled (R118). -/
def State.candidate (s : State) : Option Piece := s.pieces.find? fun p => !p.state.settled

/-- The records nearer the head of the list than the one that holds the tag. -/
def State.ahead (s : State) (tag : Nat) : List Piece := s.pieces.takeWhile (·.tag != tag)

/-- The first unmet condition of R118: one with a reason (1, 2, 4, 5, 6), the belt order (3), or a commit in flight (7). -/
inductive Unmet where
  | reason (r : DivertReason)
  | beltOrder
  | inFlight
deriving DecidableEq, Repr

/-- The reason of condition 1 outside RUNNING (R118). In UNCONFIGURED no piece is held, so no test is made; HELD stands there. -/
def FrankingState.gateReason : FrankingState → Option DivertReason
  | .running => none
  | .held => some .held
  | .halted => some .halted
  | .lockout => some .locked
  | .unconfigured => some .held

/-- The first unmet condition for a piece, in the order of R118; none when every condition holds. -/
def State.firstUnmet (s : State) (p : Piece) : Option Unmet :=
  match s.franking.gateReason with
  | some r => some (.reason r)
  | none =>
    if s.mailingDate.isNone then some (.reason .noDate)
    else if !(s.ahead p.tag).all (·.state.settled) then some .beltOrder
    else if s.printer = .notReady then some (.reason .printerNotReady)
    else if s.settings.maxOutstanding ≤ s.orders.length + s.slot.isSome.toNat then some (.reason .printBacklog)
    else if s.accounts.d < p.postage then some (.reason .fundsShort)
    else if s.slot.isSome then some .inFlight
    else none

/-- The ceiling check (R107): none when it passes, else which ceiling failed (A 0, N 1, both 2; R176, R198). -/
def Accounts.ceilingFailure (a : Accounts) (p : Nat) : Option Nat :=
  match decide (Config.aMax < a.a + a.e + p), decide (a.n = Config.nMax) with
  | false, false => none
  | true, false => some 0
  | false, true => some 1
  | true, true => some 2

/-- The fields the commit unit keeps for the print order (R120, R126); one that the rating record lacks counts as 0 or clear (log 14). -/
def Piece.orderFields (p : Piece) : OrderFields :=
  let r := p.rating.getD (.bare .incomplete none)
  { product := r.ratedProduct.getD 0, upgrades := r.upgradeCount.getD 0, column := r.zoneColumn.getD 0
    noReadDefault := r.noReadDefault.getD false, rounded := r.rounded.getD false, tariffId := (r.bank.map Prod.snd).getD 0
    estimate := p.flags.estimateCommitted }

/-- A piece whose COMMIT write has been requested (R6). -/
def Piece.committing (p : Piece) : Piece := { p with state := .committing, flags := { p.flags with gateCommitted := false } }

/-- The COMMIT is taken into the accounting queue (R120, the check passes). -/
def State.takeCommit (s : State) (p : Piece) : State :=
  State.updatePiece
    { s with
      queue := s.queue ++ [.commit p.tag p.postage]
      slot := some { tag := p.tag, p := p.postage, phase := .commit, withheld := none, order := p.orderFields }
      fundsMark := none }
    p.tag Piece.committing

/-- The start of a commit (R120) with the ceiling check of R107. -/
def State.startCommit (s : State) (p : Piece) : State :=
  match s.accounts.ceilingFailure p.postage with
  | none => s.takeCommit p
  | some which => (s.raiseAbort .accountCeiling (some p.tag) [some p.postage, some which]).finalize p.tag (.diverted .locked)

/-- The attempt at a gate decision, and at the check of a gate-committed piece (R17, R121). A piece found short of funds here is diverted, with no SHORT
and no funds-wait mark (the model's choice beside R106, log 24). -/
def State.attemptAtGate (s : State) (tag : Nat) : State :=
  match s.piece? tag with
  | none => s
  | some p =>
    match s.firstUnmet p with
    | none => s.startCommit p
    | some .inFlight => s.updatePiece tag fun p => { p with flags := { p.flags with gateCommitted := true } }
    | some (.reason r) => s.finalize tag (.diverted r)
    | some .beltOrder => s

/-- SHORT is raised once for a waiting piece (R106). -/
def State.noteShort (s : State) (p : Piece) : State :=
  if s.fundsMark = some p.tag then s
  else State.post { s with fundsMark := some p.tag } .short (some p.tag) [some p.postage, some s.accounts.d]

/-- The commit unit's fresh tests (R119). A test that settles its candidate is itself one of the events of R119, so the next candidate is
tested after it; `fuel` bounds the candidates. A gate-committed candidate found with the slot empty is checked as at its gate (R121). -/
def State.testCandidates : Nat → State → State
  | 0, s => s
  | fuel + 1, s =>
    match s.candidate with
    | none => s
    | some p =>
      if p.state != .rated then s
      else if p.flags.gateCommitted && s.slot.isNone then State.testCandidates fuel (s.attemptAtGate p.tag)
      else
        match s.firstUnmet p with
        | none => State.testCandidates fuel (s.startCommit p)
        | some (.reason .fundsShort) => s.noteShort p
        | some _ => s

/-- The commit unit tests its candidate afresh (R119); each test settles at least one piece or is the last. -/
def State.commitTest (s : State) : State := State.testCandidates (s.pieces.length + 1) s

/-! ## What passes to the commit unit (the table of R119) -/

/-- A new rating of a piece, given as it stood before, is an event of R119: it was RATED when it was rated again, or it has become RATED, has become
settled, or has left the list. -/
def State.tells (s : State) (before : Piece) : Bool :=
  decide (before.state = .rated) ||
    match s.piece? before.tag with
    | none => true
    | some p => p.state.settled || decide (p.state = .rated)

/-- The new ratings of the pieces, given as they stood before, pass to the commit unit where one of them is an event of R119. -/
def State.passRatings (s : State) (before : List Piece) : State := if before.any s.tells then s.commitTest else s

/-- The pieces that a bank switch rates again (R66 step 4). -/
def State.unsettled (s : State) : List Piece := s.pieces.filter fun p => !p.state.settled

/-- The pieces rated again between two states by a pending switch that was taken there; none when it was not. -/
def State.ratedBySwitch (before after : State) : List Piece :=
  if before.pendingSwitch.isSome && after.pendingSwitch.isNone then before.unsettled else []

/-- The franking state passes to the commit unit when it becomes RUNNING (R119). -/
def State.passRunning (s : State) (before : FrankingState) : State :=
  if before ≠ .running ∧ s.franking = .running then s.commitTest else s

end Sys2Proof.Machine
end

