-- ==== Sys2Proof/Machine/PieceOps.lean ====
section
/-! DEFINITION. What the piece list does with a piece: the gate sweep and the gate decision (R15 to R18), a new rating (R5, R19), the
measurement records (R27 to R33, R38) and the comparison after a commit on an estimate (R41 to R43). -/

namespace Sys2Proof.Machine

/-! ## The gate (R15 to R18, R39) -/

/-- The sweep of the pieces ahead (R15): every unsettled record nearer the head is made FINAL, GATE_MISSED, from the head on. -/
def State.sweep (s : State) (tag : Nat) : State :=
  (((s.ahead tag).filter fun p => !p.state.settled).map (·.tag)).foldl (fun s t => s.finalize t (.diverted .gateMissed)) s

/-- B of the estimate guard (R39): breakpoint i of the rated product's band table, i the band index of the piece's rating record, in the
bank the record names. -/
def State.guardBreakpoint (s : State) (r : RatingRecord) : Nat :=
  match r.bank, r.ratedProduct, r.bandIndex with
  | some (id, _), some n, some i =>
    let b := s.banks.get id
    ((b.bandTable (b.product n).bandTable)[i - 1]?).getD 0
  | _, _, _ => 0

/-- The estimate guard for a piece under its job (R39). -/
def State.guard (s : State) (p : Piece) : Bool :=
  match p.weight, p.rating, s.jobOf p with
  | some w, some r, some j => guardPasses w.reading j.values.margin j.values.guardBand (s.guardBreakpoint r)
  | _, _, _ => false

/-- The gate decision of a piece, without the sweep (R16, R17, R18). -/
def State.gateDecision (s : State) (tag : Nat) : State :=
  let s := s.updatePiece tag fun p => { p with flags := { p.flags with gatePassed := true } }
  match s.piece? tag with
  | none => s
  | some p =>
    match p.state with
    | .opened =>
      match (s.jobOf p).bind fun j => missingInput p.inputs j.values.zoneMode with
      | some r => s.finalize tag (.diverted r)
      | none => s
    | .provisional =>
      if s.guard p then
        State.attemptAtGate
          (s.updatePiece tag fun p => { p with state := .rated, flags := { p.flags with estimateCommitted := true } }) tag
      else s.finalize tag (.diverted .weightUnsettled)
    | .rated => s.attemptAtGate tag
    | .committing => s
    | .committed => s
    | .final => s

/-- The whole GATE treatment: the sweep, then the piece's own decision (R15, R16). -/
def State.gateTreatment (s : State) (tag : Nat) : State := (s.sweep tag).gateDecision tag

/-! ## A new rating (R5, R19, R70, R71) -/

/-- The bank the rating unit rates against (R70, R72). -/
def State.activeBank (s : State) : Option (BankId × Bank) := s.ratingRef.map fun id => (id, s.banks.get id)

/-- A piece with a new rating, whatever its outcome: the record is stored, and a rating made on a SETTLED weight clears estimate-committed (R5, R19,
R35, R37; log 22). -/
def Piece.newlyRated (p : Piece) (r : RatingRecord) : Piece :=
  { p with
    rating := some r
    flags := { p.flags with estimateCommitted := p.flags.estimateCommitted && decide (p.weight.map (·.quality) ≠ some .settled) } }

/-- A piece with a new rating of outcome INCOMPLETE or PROVISIONAL: its state follows, and it leaves its gate commit (R3, R5). -/
def Piece.reopened (p : Piece) (r : RatingRecord) (st : PieceState) : Piece :=
  { p.newlyRated r with state := st, flags := { (p.newlyRated r).flags with gateCommitted := false } }

/-- A piece with a new rating of outcome RATED: it keeps its place and its gate commit; the rating was made on a SETTLED weight, so the
estimate-committed flag is cleared (R3, R5, R19). -/
def Piece.rerated (p : Piece) (r : RatingRecord) : Piece :=
  { p with rating := some r, state := .rated, flags := { p.flags with estimateCommitted := false } }

/-- What a new rating does to the piece (R5); a gate-committed piece left OPEN or PROVISIONAL has its gate decision taken again at once,
without a sweep (R19). -/
def State.applyRating (s : State) (p : Piece) (r : RatingRecord) : State :=
  match r.outcome with
  | .unrateable reason => (s.updatePiece p.tag (·.newlyRated r)).finalize p.tag (.diverted reason)
  | .rated => s.updatePiece p.tag (·.rerated r)
  | .incomplete =>
    let s := s.updatePiece p.tag (·.reopened r .opened)
    if p.flags.gateCommitted then s.gateDecision p.tag else s
  | .provisional =>
    let s := s.updatePiece p.tag (·.reopened r .provisional)
    if p.flags.gateCommitted then s.gateDecision p.tag else s

/-- The piece that holds a tag is rated again if it is not settled (R5, R71). -/
def State.rateAgain (s : State) (tag : Nat) : State :=
  match s.piece? tag with
  | none => s
  | some p =>
    if p.state.settled then s
    else
      match s.jobOf p with
      | none => s
      | some j => s.applyRating p (rate p.inputs j.values s.activeBank)

/-- Every OPEN, PROVISIONAL and RATED piece is rated again, from the head of the list toward the tail (R66 step 4). An OPEN piece that has had no
measurement is rated with the others and stores the INCOMPLETE record (the model's choice between R66 and R71, log 23). -/
def State.rateAll (s : State) : State :=
  ((s.pieces.filter fun p => !p.state.settled).map (·.tag)).foldl State.rateAgain s

/-! ## Measurement records (R27 to R33, R38) -/

/-- A weight replaces the stored one in every case but an ESTIMATE onto SETTLED or OVERLOAD (R31). -/
def replaceWeight (stored : Option Weight) (new : Weight) : Option Weight :=
  match stored with
  | some w => if new.quality = .estimate ∧ (w.quality = .settled ∨ w.quality = .overload) then some w else some new
  | none => some new

/-- A destination replaces the stored one in every case but a NO_READ onto a code (R32). -/
def replaceDestination (stored : Option Destination) (new : Destination) : Option Destination :=
  match stored, new with
  | some (.code d), .noRead => some (.code d)
  | _, n => some n

/-- A service field of a product 0 to 15 replaces the override; any other leaves it (R33). -/
def replaceOverride (stored service : Option Nat) : Option Nat :=
  match serviceProduct service with
  | some n => some n
  | none => stored

/-- A measurement record for a tag (R27): an orphan where no record holds the tag or the part is UNCONFIGURED (R14), applied and rated when
the piece is unsettled, else handled by `late`. The new rating passes to the commit unit (R119). -/
def State.measurement (s : State) (tag : Nat) (apply : Piece → Piece) (late : State → Piece → State) : State :=
  if s.franking = .unconfigured then s.orphan
  else
    match s.piece? tag with
    | none => s.orphan
    | some p =>
      if p.state.settled then late s p else ((s.updatePiece tag apply).rateAgain tag).passRatings [p]

/-! ## Comparison after a commit on an estimate (R41 to R43) -/

/-- The piece's COMMIT write has been requested (R41). -/
def Piece.commitRequested (p : Piece) : Bool :=
  match p.state with
  | .committing => true
  | .committed => true
  | .final => p.commitData.isSome
  | .opened => false
  | .provisional => false
  | .rated => false

/-- The conditions of R41 for a prepared reading. -/
def Piece.comparable (p : Piece) (w : Weight) : Bool :=
  p.flags.estimateCommitted && p.commitRequested && decide (p.weight.map (·.quality) = some .estimate) &&
    (decide (w.quality = .settled) || decide (w.quality = .overload))

/-- The bank of the comparison rating (R42): the bank the rating record names, while ACTIVE or READY and of the same tariff id. -/
def State.comparisonBank (s : State) (r : RatingRecord) : Option (BankId × Bank) :=
  match r.bank with
  | none => none
  | some (id, tid) =>
    let b := s.banks.get id
    if (b.state = .active ∨ b.state = .ready) ∧ b.tariffId = tid then some (id, b) else none

/-- The detail of WEIGHT_DISAGREES, or none when P' equals P (R43): P, then P', or none and the unrateable reason. -/
def disagreement (p : Nat) (r : RatingRecord) : Option (List (Option Nat)) :=
  match r.outcome with
  | .unrateable reason => some [some p, none, some reason.code]
  | _ => if r.postage = some p then none else some [some p, r.postage]

/-- The check of a settled weight after a commit on an estimate (R41 to R43). -/
def State.compareWeight (s : State) (p : Piece) (w : Weight) : State :=
  let s := s.updatePiece p.tag fun p => { p with weight := some w }
  match p.rating, s.jobOf p with
  | some r, some j =>
    match disagreement p.postage (rate { p.inputs with weight := some w } j.values (s.comparisonBank r)) with
    | some detail => s.post .weightDisagrees (some p.tag) detail
    | none => s
  | _, _ => s

/-- A WEIGHT record for a settled piece (R38, R41). -/
def State.lateWeight (w : Weight) (s : State) (p : Piece) : State := if p.comparable w then s.compareWeight p w else s.lateMeasurement

end Sys2Proof.Machine
end

