-- ==== Sys2Proof/Machine/TariffOps.lean ====
section
/-! DEFINITION. A bank switch (R66), the job that becomes current with its AT_JOB switch (R65, R141), the segments of a load (R55 to R59) and
the validation of a bank (R60). -/

namespace Sys2Proof.Machine

/-! ## Switching (R66) -/

def State.bankReport (s : State) (id : BankId) : BankReport :=
  let b := s.banks.get id
  { state := b.state, tariffId := b.tariffId, effectiveDay := b.effectiveDay }

/-- The bank states a switch leaves: the target ACTIVE, the bank that was ACTIVE READY (R66 step 1). -/
def Banks.switched (bs : Banks) (target : BankId) : Banks :=
  match bs.active with
  | some old => (bs.setState old .ready).setState target .active
  | none => bs.setState target .active

/-- The detail of BANK_SWITCHED: the new bank and tariff id, and those it replaced or none (R66 step 5). -/
def Banks.switchDetail (bs : Banks) (target : BankId) : List (Option Nat) :=
  [some target.code, some (bs.get target).tariffId, bs.active.map BankId.code, bs.active.map fun o => (bs.get o).tariffId]

/-- A bank switch (R66, its five steps in order). The trap names the tag of the piece whose ENTER took the switch, or none (R172). -/
def State.switchTo (s : State) (target : BankId) (tag : Option Nat) : State :=
  let switched : State := { s with banks := s.banks.switched target, pendingSwitch := none, ratingRef := some target }
  switched.rateAll.post .bankSwitched tag (s.banks.switchDetail target)

/-- A pending AT_JOB switch is taken as a job becomes CURRENT (R65, R141), at the ENTER of a tag or at a JOB_ADD. -/
def State.takeJobSwitch (s : State) (tag : Option Nat) : State :=
  match s.pendingSwitch with
  | some { target, mode := .atJob } => s.switchTo target tag
  | some { target := _, mode := .atDate } => s
  | none => s

/-- A pending AT_DATE switch whose target's effective day the current date has reached is taken (R64). -/
def State.takeDateSwitch (s : State) (day : Nat) : State :=
  match s.pendingSwitch with
  | some { target, mode := .atDate } => if (s.banks.get target).effectiveDay ≤ day then s.switchTo target none else s
  | some { target := _, mode := .atJob } => s
  | none => s

/-! ## The current job (R141, R142) -/

def State.currentJob (s : State) : Option Job := s.jobs.find? fun j => decide (j.state = .current)

/-- The head WAITING record becomes CURRENT when no record is CURRENT, and takes a pending AT_JOB switch (R141), at the ENTER of a tag or at a
JOB_ADD. -/
def State.makeJobCurrent (s : State) (tag : Option Nat) : State :=
  match s.currentJob with
  | some _ => s
  | none =>
    match s.jobs.find? fun j => decide (j.state = .waiting) with
    | none => s
    | some j => (s.updateJob j.slot fun j => { j with state := .current }).takeJobSwitch tag

/-- A job with one more piece assigned, closed when its count is reached (R142). -/
def Job.assigned (j : Job) : Job :=
  let entered := satSucc Config.countMax j.entered
  { j with entered, inList := j.inList + 1, state := if j.values.count ≠ 0 ∧ entered = j.values.count then .closed else j.state }

/-! ## Loading (R53 to R59) -/

/-- A segment's contents written into the loading bank, or none when the segment is out of range (R55). -/
abbrev SegmentWrite := Bank → Option Bank

/-- A TABLE_SEGMENT at the tariff store (R55). -/
def State.segment (s : State) (number : Nat) (write : SegmentWrite) : State :=
  let reply (s : State) (o : Option Reason) : State :=
    s.sendReply
      { number, kind := RequestKind.tableSegment.code, outcome := if o.isSome then .refused else .accepted, reason := o
        results := .segment s.load.accepted s.load.flawed }
  match s.banks.loading with
  | none => reply s (some .notLoading)
  | some id =>
    match write (s.banks.get id) with
    | none => reply { s with load := { s.load with flawed := true } } (some .badValue)
    | some b =>
      reply { s with banks := s.banks.set id b, load := { s.load with accepted := satSucc Config.counterMax s.load.accepted } } none

/-- HEADER (R56). -/
def writeHeader (day mode step cap : Nat) : SegmentWrite := fun b =>
  match RoundingMode.ofCode mode with
  | none => none
  | some m => some { b with effectiveDay := day, rounding := m, step, cap, headerPresent := true }

/-- The ranges of a product's fields (R48, R56). -/
def productInRange (p : Product) : Bool :=
  p.bandTable ≤ 7 && p.zoneMap ≤ 3 && p.maxWeight ≤ Config.maxGrams && (!p.defined || 1 ≤ p.maxWeight) &&
    p.maxLength ≤ Config.maxLength && p.maxHeight ≤ Config.maxLength && p.maxThickness ≤ Config.maxThickness &&
    p.upgrade.all (· ≤ 15) && p.noReadColumn ≤ 7

/-- PRODUCT (R56). -/
def writeProduct (n : Nat) (p : Product) : SegmentWrite := fun b =>
  if n ≤ 15 ∧ productInRange p then some { b with products := b.products.setIfInBounds n p } else none

/-- BAND_TABLE (R57). -/
def writeBandTable (t : Nat) (breakpoints : List Nat) : SegmentWrite := fun b =>
  if t ≤ 7 ∧ breakpoints.length ≤ 24 then some { b with bandTables := b.bandTables.setIfInBounds t breakpoints } else none

/-- ZONE_BLOCK (R57). -/
def writeZoneBlock (m first : Nat) (entries : List Nat) : SegmentWrite := fun b =>
  if m ≤ 3 ∧ first ≤ 224 then
    let z := b.zoneMap m
    some
      { b with zoneMaps := b.zoneMaps.setIfInBounds m { entries := Table.setRun Config.notServed z.entries first entries, written := true } }
  else none

/-- SURCHARGE (R58): a position equal to the number of entries appends, one below it replaces. -/
def writeSurcharge (position : Nat) (f : SurchargeFields) : SegmentWrite := fun b =>
  match Surcharge.ofFields f with
  | none => none
  | some e =>
    if 15 < position ∨ b.surcharges.length < position then none
    else if position = b.surcharges.length then some { b with surcharges := b.surcharges ++ [e] }
    else some { b with surcharges := b.surcharges.set position e }

/-- The flat index a PRICE_RUN starts at, none when its address is out of range (R59). -/
def priceIndex : PriceStart → Option Nat
  | .coordinate t b z => if t ≤ 7 ∧ 1 ≤ b ∧ b ≤ 24 ∧ z ≤ 7 then some (flatIndex t b z) else none
  | .flat f => if f < Config.priceCells then some f else none
  | .unknownForm _ => none

/-- PRICE_RUN (R59). -/
def writePriceRun (start : PriceStart) (values : List Nat) : SegmentWrite := fun b =>
  match priceIndex start with
  | none => none
  | some f =>
    if 1 ≤ values.length ∧ values.length ≤ 24 ∧ f + values.length ≤ Config.priceCells then
      some { b with prices := Table.setRun Config.notOffered b.prices f values }
    else none

/-! ## Validation (R60) -/

/-- A list of breakpoints is in order: each is 1 to 6,000 and greater than the one before it (check 6). -/
def breakpointsRise (below : Nat) : List Nat → Bool
  | [] => true
  | x :: xs => below < x && x ≤ Config.maxGrams && breakpointsRise x xs

/-- Whether every defined product passes a test. -/
def Bank.allDefined (b : Bank) (test : Product → Bool) : Bool :=
  b.products.toList.all fun p => !p.defined || test p

/-- The nine checks in order, each true when it passes (R60). -/
def Bank.checks (b : Bank) (load : Load) (expected : Nat) : List Bool :=
  [ !load.flawed
  , expected == load.accepted
  , b.headerPresent && [1, 2, 5, 10, 20, 50, 100].contains b.step && 1 ≤ b.cap && b.cap ≤ Config.capMax
  , b.products.toList.any (·.defined)
  , b.allDefined fun p => !(b.bandTable p.bandTable).isEmpty && (b.zoneMap p.zoneMap).written
  , b.bandTables.toList.all (breakpointsRise 0)
  , b.zoneMaps.toList.all fun m => m.entries.all fun e => e.2 ≤ 7 || e.2 == Config.notServed
  , b.allDefined fun p => p.upgrade.all fun n => (b.product n).defined
  , b.surcharges.all fun e => decide (e.amountKind = .fixed) || e.amount ≤ 1000 ]

/-- The number of the first failing check, 1 to 9, or none when all pass (R60). -/
def Bank.firstFailure (b : Bank) (load : Load) (expected : Nat) : Option Nat :=
  ((b.checks load expected).findIdx? (· == false)).map (· + 1)

end Sys2Proof.Machine
end

