-- ==== Sys2Proof/Machine/JobList.lean ====
section
/-! DEFINITION. The job list's requests: JOB_ADD and JOB_ABORT (Chapter 7). -/

namespace Sys2Proof.Machine

/-- The lowest-numbered free slot (R138). -/
def State.freeSlot (s : State) : Nat := ((List.range Config.maxJobs).find? fun k => (s.job? k).isNone).getD 0

/-- The values of a JOB_ADD, margin and guard clamped, or none when one of them is out of range (R140). -/
def JobValues.ofFields (v : JobFields) : Option JobValues :=
  match ZoneMode.ofCode v.zoneMode with
  | none => none
  | some z =>
    if 15 < v.product ∨ 7 < v.column then none
    else
      some
        { id := v.id, product := v.product, count := v.count, margin := clamp 0 50 v.margin, guardBand := clamp 0 200 v.guardBand
          zoneMode := z, column := v.column, overrideAllowed := v.overrideAllowed }

/-- A record that JOB_ADD appends (R140). -/
def Job.waiting (slot : Nat) (v : JobValues) : Job :=
  { slot, values := v, state := .waiting, entered := 0, printed := 0, diverted := 0, inList := 0 }

/-- The warning PRODUCT_UNDEFINED: the product is not defined in the active bank, or no bank is ACTIVE (R140). -/
def State.productUndefined (s : State) (product : Nat) : Bool :=
  match s.banks.active with
  | none => true
  | some id => !((s.banks.get id).product product).defined

/-- An accepted JOB_ADD (R140, R141): append, let the head WAITING record become current, reply. The new ratings of a switch taken with it pass
to the commit unit (R67, R119). -/
def State.addJob (s : State) (number : Nat) (v : JobValues) (clamped : Bool) : State :=
  let slot := s.freeSlot
  let warning := s.productUndefined v.product
  let current := State.makeJobCurrent { s with jobs := s.jobs ++ [Job.waiting slot v] } none
  let state := ((current.job? slot).map (·.state)).getD .waiting
  (current.acceptClamped number .jobAdd clamped (.jobAdded slot state warning)).passRatings (s.ratedBySwitch current)

/-- JOB_ADD (R140). -/
def execJobAdd (h : ReqHead) (v : JobFields) (s : State) : Host.Outcome State Fault Refusal :=
  s.taken fun s =>
    s.request h .jobAdd fun s =>
      match JobValues.ofFields v with
      | none => s.refuse h.number RequestKind.jobAdd.code .badValue
      | some j =>
        if s.jobs.any (·.values.id == v.id) then s.refuse h.number RequestKind.jobAdd.code .jobIdInUse
        else if Config.maxJobs ≤ s.jobs.length then s.refuse h.number RequestKind.jobAdd.code .jobListFull
        else s.addJob h.number j (decide (50 < v.margin) || decide (200 < v.guardBand))

/-- The remaining count of a job (R145). -/
def Job.remaining (j : Job) : Nat := if j.values.count = 0 then 0 else j.values.count - j.entered

/-- JOB_ABORT on the record that holds the id (R145): CURRENT and WAITING become CLOSED, and the closing is tested for a done job (R144). -/
def State.abortJob (s : State) (number : Nat) (j : Job) : State :=
  let s :=
    match j.state with
    | .closed => s
    | .current => (s.updateJob j.slot fun j => { j with state := .closed }).testDone j.slot none
    | .waiting => (s.updateJob j.slot fun j => { j with state := .closed }).testDone j.slot none
  s.accept number .jobAbort (.jobAborted j.state (s.job? j.slot).isNone j.remaining)

/-- JOB_ABORT (R145). -/
def execJobAbort (h : ReqHead) (id : Nat) (s : State) : Host.Outcome State Fault Refusal :=
  s.taken fun s =>
    s.request h .jobAbort fun s =>
      match s.jobs.find? (·.values.id == id) with
      | none => s.refuse h.number RequestKind.jobAbort.code .unknownJob
      | some j => s.abortJob h.number j

end Sys2Proof.Machine
end

