-- ==== Sys2Proof/Machine/Sensors.lean ====
section
/-! DEFINITION. The sensor records about pieces: ENTER, DIMENSION, WEIGHT, DESTINATION, GATE, EXIT and REMOVE (Chapters 1 and 2). -/

namespace Sys2Proof.Machine

/-! ## ENTER (R11 to R13) -/

/-- A record created by an accepted ENTER (R2). -/
def Piece.entered (tag : Nat) (job : Option Nat) : Piece :=
  { tag, job, state := .opened, dimension := none, weight := none, destination := none, override := none, rating := none, commitData := none
    flags := {}, disposition := none }

/-- The DISPOSITION of an ENTER that could not be placed (R8, R12). -/
def refusedEntry (tag : Nat) : DispositionRecord :=
  { tag, outcome := none, job := none, money := none, gatePassed := false, estimateCommitted := false, tagConflict := false }

/-- An ENTER to a full list (R12). -/
def State.refuseEntry (s : State) (tag : Nat) : State :=
  ((s.sendLine (.stopOverflow tag)).sendLine (.disposition (refusedEntry tag))).raiseContributory .queueOverflow (some tag) []

/-- An ENTER that names a tag already held (R13). An unsettled piece that it ends passes to the commit unit (R119). -/
def State.tagConflict (s : State) (p : Piece) : State :=
  let s := s.updatePiece p.tag fun p => { p with flags := { p.flags with tagConflict := true } }
  if p.state.settled then s.post (.divert .tagConflict) (some p.tag) [] else (s.finalize p.tag (.diverted .tagConflict)).commitTest

/-- An accepted ENTER (R11, R141, R142): a waiting job may become current, then the piece is appended under the current job; with no current
job it is made FINAL, NO_JOB. The new ratings of a switch taken with it, or the piece made FINAL, pass to the commit unit (R119). -/
def State.placeEntry (s : State) (tag : Nat) : State :=
  let current := s.makeJobCurrent (some tag)
  match current.currentJob with
  | some j =>
    let assigned := current.updateJob j.slot Job.assigned
    State.passRatings { assigned with pieces := assigned.pieces ++ [Piece.entered tag (some j.slot)] } (s.ratedBySwitch current)
  | none => (State.finalize { current with pieces := current.pieces ++ [Piece.entered tag none] } tag (.diverted .noJob)).commitTest

/-- ENTER at the piece list: the capacity test comes first (R12), then the tag (R13). -/
def State.enter (s : State) (tag : Nat) : State :=
  if s.franking = .unconfigured then s.orphan
  else if Config.maxPieces ≤ s.pieces.length then s.refuseEntry tag
  else
    match s.piece? tag with
    | some p => s.tagConflict p
    | none => s.placeEntry tag

/-- ENTER (R11). -/
def execEnter (tag : Nat) (s : State) : Host.Outcome State Fault Refusal := s.taken (·.enter tag)

/-! ## The measurement records (R28, R29, R32) -/

/-- DIMENSION (R28): all four values replace the dimension field together. -/
def execDimension (tag length height thickness : Nat) (nonMachinable : Bool) (s : State) : Host.Outcome State Fault Refusal :=
  s.taken fun s =>
    s.measurement tag (fun p => { p with dimension := some (.ofSent length height thickness nonMachinable) }) fun s _ => s.lateMeasurement

/-- WEIGHT (R29, R31): the prepared reading goes through the replacement test; on a settled piece it may be compared (R41). -/
def execWeight (tag reading quality : Nat) (s : State) : Host.Outcome State Fault Refusal :=
  s.taken fun s =>
    let w := Weight.prepared reading quality
    s.measurement tag (fun p => { p with weight := replaceWeight p.weight w }) (State.lateWeight w)

/-- DESTINATION (R32, R33): the destination and the service field are applied together, each under its own rule. -/
def execDestination (tag code : Nat) (noRead : Bool) (service : Option Nat) (s : State) : Host.Outcome State Fault Refusal :=
  s.taken fun s =>
    let d := if noRead then Destination.noRead else Destination.code code
    s.measurement tag
      (fun p => { p with destination := replaceDestination p.destination d, override := replaceOverride p.override service })
      fun s _ => s.lateMeasurement

/-! ## GATE, EXIT and REMOVE (R15 to R23) -/

/-- A sensor record about a tracked piece: an orphan where no record holds the tag or the part is UNCONFIGURED (R14). It passes to the commit
unit where `told` says that it settles a piece or takes one out of the list (R119). -/
def State.pieceEvent (s : State) (tag : Nat) (told : State → Piece → Bool) (f : State → Piece → State) : State :=
  if s.franking = .unconfigured then s.orphan
  else
    match s.piece? tag with
    | none => s.orphan
    | some p => if told s p then (f s p).commitTest else f s p

/-- A GATE settles a piece when the piece or one ahead of it is not settled (R15, R16). -/
def State.gateTells (s : State) (p : Piece) : Bool := !p.state.settled || (s.ahead p.tag).any fun q => !q.state.settled

/-- An EXIT or a REMOVE settles or removes a piece unless its money is being moved: a COMMITTING or COMMITTED piece stays in the list (R20 to R23). -/
def Piece.endsAtExit (p : Piece) : Bool := decide (p.state ≠ .committing) && decide (p.state ≠ .committed)

/-- GATE (R15, R16). -/
def execGate (tag : Nat) (s : State) : Host.Outcome State Fault Refusal :=
  s.taken fun s => s.pieceEvent tag State.gateTells fun s _ => s.gateTreatment tag

/-- The end of an EXIT, on the piece as the GATE treatment left it (R20): one left gate-committed is GATE_MISSED and removed, a FINAL one is
removed, a COMMITTING or COMMITTED one receives the exited flag. -/
def State.leaveLine (s : State) (tag : Nat) : State :=
  match s.piece? tag with
  | none => s
  | some p =>
    match p.state with
    | .opened => (s.finalize tag (.diverted .gateMissed)).removePiece tag
    | .provisional => (s.finalize tag (.diverted .gateMissed)).removePiece tag
    | .rated => (s.finalize tag (.diverted .gateMissed)).removePiece tag
    | .final => s.removePiece tag
    | .committing => s.updatePiece tag fun p => { p with flags := { p.flags with exited := true } }
    | .committed => s.updatePiece tag fun p => { p with flags := { p.flags with exited := true } }

/-- EXIT (R20). -/
def execExit (tag : Nat) (s : State) : Host.Outcome State Fault Refusal :=
  s.taken fun s =>
    s.pieceEvent tag (fun _ p => p.endsAtExit) fun s p => if p.state.settled then s.leaveLine tag else (s.gateTreatment tag).leaveLine tag

/-- The WITHDRAW of a COMMITTED piece, sent at most once (R23, R135). -/
def State.withdraw (s : State) (p : Piece) : State :=
  match p.flags.withdrawSent, p.commitData with
  | false, some c =>
    (s.sendPrint (.withdraw p.tag c.n)).updatePiece p.tag fun p => { p with flags := { p.flags with withdrawSent := true } }
  | _, _ => s

/-- An operator's REMOVE on a piece (R21 to R23). -/
def State.operatorRemove (s : State) (p : Piece) : State :=
  let asked (s : State) : State := s.updatePiece p.tag fun p => { p with flags := { p.flags with removeRequested := true } }
  match p.state with
  | .opened => (s.finalize p.tag .removed).removePiece p.tag
  | .provisional => (s.finalize p.tag .removed).removePiece p.tag
  | .rated => (s.finalize p.tag .removed).removePiece p.tag
  | .final => s.removePiece p.tag
  | .committing => asked s
  | .committed => (asked s).withdraw p

/-- REMOVE (R21). -/
def execRemove (tag : Nat) (s : State) : Host.Outcome State Fault Refusal :=
  s.taken fun s => s.pieceEvent tag (fun _ p => p.endsAtExit) State.operatorRemove

end Sys2Proof.Machine
end

