-- ==== Sys2Proof/Machine/LineConditions.lean ====
section
/-! DEFINITION. The condition monitors: LINE_STATUS and MONITOR_SET (Chapter 8). -/

namespace Sys2Proof.Machine

/-- The watched flags that equal the polarity (R152). -/
def MonitorSettings.matching (m : MonitorSettings) (word : Flags16) : Flags16 :=
  match m.polarity with
  | .high => m.mask &&& word
  | .low => m.mask &&& ~~~word

/-- The result of a monitor for a sensor word (R152): a mask all clear is false for every word. -/
def MonitorSettings.result (m : MonitorSettings) (word : Flags16) : Bool :=
  match m.function with
  | .any => m.matching word != 0#16
  | .all => m.mask != 0#16 && m.matching word == m.mask

/-- A monitor acts when its new result is true and its previous result is false (R153 step 3). -/
def Monitor.acts (m : Monitor) (word : Flags16) : Bool := m.settings.result word && !m.previous

def monitorOrder : List (Fin 4) := [0, 1, 2, 3]

/-- The monitors that act at a word, in number order (R153). -/
def actingMonitors (ms : Vector Monitor 4) (word : Flags16) : List (Fin 4) := monitorOrder.filter fun i => ms[i].acts word

/-- Whether an action calls for a STOP_REQUEST (R153 step 5). -/
def MonitorAction.stops : MonitorAction → Bool
  | .notify => false
  | .stop => true
  | .halt => true
  | .lock => true

/-- A monitor HALT at the franking state (R157). -/
def State.monitorHalt (s : State) : State :=
  match s.franking with
  | .running => { s with franking := .halted }
  | .held => { s with franking := .halted }
  | .halted => s
  | .lockout => s
  | .unconfigured => s

/-- The action of one acting monitor (R155 to R158). -/
def State.monitorAction (s : State) (word : Flags16) (number : Nat) : MonitorAction → State
  | .notify => s.post .monitorNotify none [some number, some word.toNat]
  | .stop => (s.setCauses { s.causes with monitor := true }).post .monitorStop none [some number, some word.toNat]
  | .halt => s.monitorHalt.post .monitorHalt none [some number, some word.toNat]
  | .lock => s.raiseAbort .monitorLock none [some number, some word.toNat]

/-- One STOP_REQUEST that lists the acting monitors whose action calls for it (R153 step 5, R154). -/
def State.requestStop (s : State) (word : Flags16) (listed : List Nat) : State :=
  if listed.isEmpty then s else s.sendLine (.stopMonitors listed word)

/-- A sensor word taken by the monitors (R153, its six steps in order). -/
def State.takeWord (s : State) (word : Flags16) : State :=
  let before := s.monitors
  let acting := actingMonitors before word
  let s : State := { s with sensorWord := word, monitors := before.map fun m => { m with previous := m.settings.result word } }
  let s := s.requestStop word ((acting.filter fun i => before[i].settings.action.stops).map (·.val))
  acting.foldl (fun s i => s.monitorAction word i.val before[i].settings.action) s

/-- LINE_STATUS (R150, R153): discarded and counted as an orphan in UNCONFIGURED. -/
def execLineStatus (word : Flags16) (s : State) : Host.Outcome State Fault Refusal :=
  s.taken fun s => if s.franking = .unconfigured then s.orphan else s.takeWord word

/-- MONITOR_SET (R159): the four settings are replaced and the previous result set false; the reply forecasts the result for the last word. -/
def execMonitorSet (h : ReqHead) (v : MonitorFields) (s : State) : Host.Outcome State Fault Refusal :=
  s.taken fun s =>
    s.request h .monitorSet fun s =>
      match MonitorSettings.ofFields v with
      | some m =>
        if v.number ≤ 3 then
          State.accept { s with monitors := s.monitors.setIfInBounds v.number { settings := m, previous := false } } h.number .monitorSet
            (.monitor m (m.result s.sensorWord))
        else s.refuse h.number RequestKind.monitorSet.code .badValue
      | none => s.refuse h.number RequestKind.monitorSet.code .badValue

end Sys2Proof.Machine
end

