-- ==== Sys2Proof/Machine/PostageAccounts.lean ====
section
/-! DEFINITION. The postage accounts: the five writes and their completions, CREDIT, ACCOUNT_QUERY and the begin of a write (Chapter 5,
R122, R123). -/

namespace Sys2Proof.Machine

/-! ## The effects of the writes on the registers (R101 to R105) -/

/-- COMMIT (R101 steps 1, 2, 3 and 6). -/
def Accounts.commitWrite (a : Accounts) (tag p : Nat) (date : Option Nat) : Accounts :=
  { a with
    d := a.d - p, e := a.e + p, n := a.n + 1, lastUsed := date.orElse fun _ => a.lastUsed
    openOrders := a.openOrders ++ [{ tag, n := a.n + 1, p }] }

/-- The open order with a sequence number (R97). -/
def Accounts.openOrder? (a : Accounts) (n : Nat) : Option OpenOrder := a.openOrders.find? (·.n == n)

def Accounts.closed (a : Accounts) (n : Nat) : List OpenOrder := a.openOrders.filter (·.n != n)

/-- CONFIRM, VOID and SPOIL of an open order (R102 to R104); no open order with the N, no change. -/
def Accounts.closeWrite (a : Accounts) (kind : CloseKind) (n : Nat) : Accounts :=
  match a.openOrder? n with
  | none => a
  | some o =>
    match kind with
    | .confirm => { a with e := a.e - o.p, a := a.a + o.p, printed := satSucc Config.countMax a.printed, openOrders := a.closed n }
    | .void => { a with e := a.e - o.p, d := a.d + o.p, voided := satSucc Config.countMax a.voided, openOrders := a.closed n }
    | .spoil => { a with e := a.e - o.p, a := a.a + o.p, spoiled := satSucc Config.countMax a.spoiled, openOrders := a.closed n }

/-- CREDIT (R105). -/
def Accounts.creditWrite (a : Accounts) (number amount : Nat) : Accounts :=
  { a with d := a.d + amount, t := a.t + amount, creditNumber := number }

/-- The whole effect of a write on the registers, counts, list and date it touches (R100 step 1). -/
def Accounts.apply (a : Accounts) (date : Option Nat) : Write → Accounts
  | .commit tag p => a.commitWrite tag p date
  | .close kind _ n _ => a.closeWrite kind n
  | .credit _ number amount => a.creditWrite number amount

/-- The check number (R113). -/
def checkNumber (p n date serial ascending : Nat) : Nat :=
  (7 * p + 3 * (n % 100000) + 11 * date + serial % 10000 + ascending % 100000) % Config.checkModulus

/-- Steps 1 and 2 of a completion (R100): the registers change and the write leaves the queue. -/
def State.performHead (s : State) (w : Write) (rest : List Write) : State :=
  { s with accounts := s.accounts.apply s.mailingDate w, queue := rest, writeBegun := false }

/-- The next write in the queue begins, if there is one (R100 step 5). -/
def State.beginNext (s : State) : State := { s with writeBegun := !s.queue.isEmpty }

/-! ## COMMIT (R101, R108, R122, R123) -/

/-- The case that withholds the order of the commit in the slot, tested in the order of R123; none when the order is sent. -/
def State.withheldCase (s : State) (slot : CommitSlot) : Option WithheldCause :=
  if slot.withheld = some .lineReset then some .lineReset
  else if ((s.piece? slot.tag).map (·.flags.removeRequested)).getD false then some .remove
  else if s.franking = .lockout then some .lockout
  else none

def WithheldCause.closing : WithheldCause → CloseKind
  | .lineReset => .spoil
  | .remove => .void
  | .lockout => .void

/-- The commit data of the COMMITTING record that holds the tag (R6). -/
def State.fillCommitData (s : State) (tag : Nat) (c : CommitData) : State :=
  s.updatePiece tag fun p => if p.state = .committing then { p with commitData := some c } else p

/-- The order of the commit is withheld and its closing write requested (R123). -/
def State.withhold (s : State) (slot : CommitSlot) (c : CommitData) (w : WithheldCause) : State :=
  let s : State := { s with slot := some { slot with phase := .followUp, withheld := some w } }
  let s := if w = .lineReset then s else s.fillCommitData slot.tag c
  s.requestClose w.closing slot.tag c.n .commitUnit

/-- The print order is sent and its entry appended with its take timer started (R122 step 1, R126). -/
def State.sendOrder (s : State) (slot : CommitSlot) (c : CommitData) (date : Nat) : State :=
  let s := s.sendPrint (.order { tag := slot.tag, n := c.n, p := c.p, date, ascending := c.ascending, k := c.k, fields := slot.order })
  { s with orders := s.orders ++ [{ tag := slot.tag, n := c.n, p := c.p, taken := false, duration := s.settings.tTake }] }

/-- The piece becomes COMMITTED (R6, R122 step 2). -/
def State.markCommitted (s : State) (tag : Nat) : State :=
  s.updatePiece tag fun p => if p.state = .committing then { p with state := .committed } else p

/-- The commit unit takes a completed COMMIT (R122, R123). -/
def State.handCommit (s : State) (c : CommitData) (date : Nat) : State :=
  match s.slot with
  | none => s
  | some slot =>
    match s.withheldCase slot with
    | some w => s.withhold slot c w
    | none => ((((s.sendOrder slot c date).fillCommitData slot.tag c).markCommitted slot.tag).emptySlot).commitTest

/-- LOW at a crossing of the low-funds threshold (R108). -/
def State.postLow (s : State) (tag before after : Nat) : State :=
  if s.settings.lowThreshold ≤ before ∧ after < s.settings.lowThreshold then
    s.post .low (some tag) [some after, some s.settings.lowThreshold]
  else s

/-- What the completed COMMIT hands over: N, P, the ascending printed value and K (R101). The date is set whenever a COMMIT is queued; 0 stands
for an unset date, which no run reaches here. -/
def State.commitResult (s : State) (p : Nat) : CommitData :=
  let a := s.accounts
  let n := a.n + 1
  let ascending := a.a + (a.e + p)
  { n, p, ascending, k := checkNumber p n (s.mailingDate.getD 0) a.serial ascending }

/-- The completion of a COMMIT write (R100, R101, R108). -/
def State.completeCommit (s : State) (tag p : Nat) (rest : List Write) : State :=
  let performed := s.performHead (.commit tag p) rest
  let handed := performed.handCommit (s.commitResult p) (s.mailingDate.getD 0)
  (handed.postLow tag s.accounts.d performed.accounts.d).beginNext

/-- COMMIT_COMPLETE (R122); no effect when the write at the head of the queue is not a COMMIT (log 6). -/
def execCommitComplete (s : State) : Host.Outcome State Fault Refusal :=
  s.taken fun s =>
    match s.queue with
    | .commit tag p :: rest => s.completeCommit tag p rest
    | .close _ _ _ _ :: _ => s
    | .credit _ _ _ :: _ => s
    | [] => s

/-! ## CONFIRM, VOID and SPOIL (R102 to R104, R123, R129) -/

/-- The disposition a closing write gives: by the write (R129), or by the slot's withheld cause when the commit unit requested it (R123). -/
def State.closingDisposition (s : State) (kind : CloseKind) (by_ : Requester) : Option Disposition :=
  let byWrite : Disposition := match kind with | .confirm => .printed | .void => .voided | .spoil => .spoiled
  match by_, s.slot.bind (·.withheld) with
  | .commitUnit, some .remove => some .removed
  | .commitUnit, some .lockout => some (.diverted .locked)
  | .commitUnit, some .lineReset => none
  | _, _ => some byWrite

/-- The closing write is applied to the record whose commit data holds its N (R6). -/
def State.finalizeByNumber (s : State) (n : Nat) (d : Option Disposition) : State :=
  match s.pieces.find? fun p => p.commitData.map (·.n) == some n, d with
  | some p, some d => s.finalize p.tag d
  | _, _ => s

/-- Whether a closing write is one of the SPOIL writes the LINE_RESET reply waits for (R196). -/
def State.resetWaitsFor (s : State) (by_ : Requester) : Bool :=
  match by_, s.slot.bind (·.withheld) with
  | .lineReset, _ => true
  | .commitUnit, some .lineReset => true
  | _, _ => false

/-- The slot as a closing write leaves it at its completion: the commit unit's own write empties it (R117). -/
def State.slotAfterClose (s : State) (by_ : Requester) : Option CommitSlot := if by_ = .commitUnit then none else s.slot

/-- The record that a closing write ends leaves the list with it (R9 step 5, R10). -/
def State.leavesAtClose (s : State) (n : Nat) : Bool :=
  (s.pieces.find? fun p => p.commitData.map (·.n) == some n).any fun p => p.flags.exited || p.flags.removeRequested

/-- A closing write's completion is an event of R119: a VOID, a write that empties the commit slot, or one at which a record leaves the list. -/
def State.closeTells (s : State) (kind : CloseKind) (n : Nat) (by_ : Requester) : Bool :=
  decide (kind = .void) || decide (by_ = .commitUnit) || s.leavesAtClose n

/-- The completion of a closing write (R100, R102 to R104): a commit-unit write empties the slot, the piece ends, HOLD is answered (R117), then
a line reset's SPOIL is counted off (R196), then the commit unit tests afresh where R119 has it told. That the piece's DISPOSITION and its cause go
to the transmitter before the HOLD replies that wait is the model's choice, as the order of the other records here (log 15). -/
def State.completeClose (s : State) (kind : CloseKind) (tag n : Nat) (by_ : Requester) (rest : List Write) : State :=
  let performed : State := { s.performHead (.close kind tag n by_) rest with slot := s.slotAfterClose by_ }
  let ended := performed.finalizeByNumber n (s.closingDisposition kind by_)
  let answered := if by_ = .commitUnit then ended.answerHolds else ended
  let counted := if s.resetWaitsFor by_ then answered.resetSpoilDone else answered
  (if s.closeTells kind n by_ then counted.commitTest else counted).beginNext

/-- A completion of one kind of closing write; no effect when the write at the head of the queue is of another kind (log 6). -/
def State.closeComplete (s : State) (kind : CloseKind) : State :=
  match s.queue with
  | .close k tag n by_ :: rest => if k = kind then s.completeClose k tag n by_ rest else s
  | .commit _ _ :: _ => s
  | .credit _ _ _ :: _ => s
  | [] => s

/-- CONFIRM_COMPLETE (R102). -/
def execConfirmComplete (s : State) : Host.Outcome State Fault Refusal := s.taken fun s => s.closeComplete .confirm

/-- VOID_COMPLETE (R103). -/
def execVoidComplete (s : State) : Host.Outcome State Fault Refusal := s.taken fun s => s.closeComplete .void

/-- SPOIL_COMPLETE (R104). -/
def execSpoilComplete (s : State) : Host.Outcome State Fault Refusal := s.taken fun s => s.closeComplete .spoil

/-! ## CREDIT (R105, R109, R110) -/

/-- A CREDIT is in flight (R109, R110). -/
def Write.isCredit : Write → Bool
  | .credit _ _ _ => true
  | .commit _ _ => false
  | .close _ _ _ _ => false

def State.creditInFlight (s : State) : Bool := s.queue.any Write.isCredit

/-- The first test of R109 that a CREDIT fails, after the franking state's. -/
def State.creditRefusal (s : State) (number amount : Nat) : Option Reason :=
  if s.creditInFlight then some .busy
  else if amount = 0 then some .badValue
  else if number ≠ (s.accounts.creditNumber + 1) % Config.creditModulus then some .creditSequence
  else if Config.dMax < s.accounts.d + s.accounts.e + amount then some .creditLimit
  else none

/-- CREDIT (R109): its reply waits for the write's completion (R110). -/
def execCredit (h : ReqHead) (number amount : Nat) (s : State) : Host.Outcome State Fault Refusal :=
  s.taken fun s =>
    s.request h .credit fun s =>
      match s.creditRefusal number amount with
      | some r => s.refuse h.number RequestKind.credit.code r
      | none => { s with queue := s.queue ++ [.credit h.number number amount] }

/-- The completion of a CREDIT write (R100, R105, R110): the reply, then the commit unit is told that D has risen. -/
def State.completeCredit (s : State) (request number amount : Nat) (rest : List Write) : State :=
  let performed := s.performHead (.credit request number amount) rest
  let a := performed.accounts
  ((performed.accept request .credit (.credited a.d a.t a.creditNumber)).commitTest).beginNext

/-- CREDIT_COMPLETE (R105); no effect when the write at the head of the queue is not a CREDIT (log 6). -/
def execCreditComplete (s : State) : Host.Outcome State Fault Refusal :=
  s.taken fun s =>
    match s.queue with
    | .credit request number amount :: rest => s.completeCredit request number amount rest
    | .commit _ _ :: _ => s
    | .close _ _ _ _ :: _ => s
    | [] => s

/-! ## WRITE_BEGIN and ACCOUNT_QUERY (R100, R114) -/

/-- WRITE_BEGIN (R100): the write at the head of the queue is under way. -/
def execWriteBegin (s : State) : Host.Outcome State Fault Refusal := s.taken State.beginNext

def State.accountReport (s : State) : AccountReport :=
  { accounts := s.accounts, creditInFlight := s.creditInFlight, mailingDate := s.mailingDate, lockoutFlag := s.lockoutFlag
    lowThreshold := s.settings.lowThreshold }

/-- ACCOUNT_QUERY (R114). -/
def execAccountQuery (h : ReqHead) (s : State) : Host.Outcome State Fault Refusal :=
  s.taken fun s => s.request h .accountQuery fun s => s.accept h.number .accountQuery (.accounts s.accountReport)

end Sys2Proof.Machine
end

