-- ==== Sys2Proof/Machine/CommitUnit.lean ====
section
/-! DEFINITION. The commit unit's commands: DATE, and its own steps COMMIT_START and GATE_COMMITTED_CHECK (R111, R119 to R121). -/

namespace Sys2Proof.Machine

/-- The reason that refuses a day (R111). -/
def dateRefusal (lastUsed : Option Nat) (day : Nat) : Option Reason :=
  match lastUsed with
  | none => none
  | some last => if day < last then some .dateBackward else if last + Config.dateWindow < day then some .dateTooFar else none

/-- DATE (R111): the date is set, a pending AT_DATE switch that is due is taken, then the reply is sent; the commit unit then tests afresh
(R119). -/
def execDate (h : ReqHead) (day : Nat) (s : State) : Host.Outcome State Fault Refusal :=
  s.taken fun s =>
    s.request h .date fun s =>
      match dateRefusal s.accounts.lastUsed day with
      | some r => s.refuse h.number RequestKind.date.code r
      | none => ((State.takeDateSwitch { s with mailingDate := some day } day).accept h.number .date .nothing).commitTest

/-- COMMIT_START (R119, R120): the commit unit's test of its candidate. -/
def execCommitStart (s : State) : Host.Outcome State Fault Refusal := s.taken State.commitTest

/-- The check of a gate-committed piece once the slot is empty (R19, R121), and the tests that follow it (R119). -/
def State.checkGateCommitted (s : State) : State :=
  match s.candidate with
  | none => s
  | some p =>
    if decide (p.state = .rated) && p.flags.gateCommitted && s.slot.isNone then (s.attemptAtGate p.tag).commitTest else s

/-- GATE_COMMITTED_CHECK (R121). -/
def execGateCommittedCheck (s : State) : Host.Outcome State Fault Refusal := s.taken State.checkGateCommitted

end Sys2Proof.Machine
end

