-- ==== Sys2Proof/Machine/FrankingUnit.lean ====
section
/-! DEFINITION. The franking state and error unit's requests and pin: HOLD, RESUME, CLEAR_HALT, FETCH_CAPTURE, the waiting HOLD reply and PFW
(Chapter 9). -/

namespace Sys2Proof.Machine

/-- HOLD (R166): OPERATOR is added; the reply waits until no commit is in flight. -/
def execHold (h : ReqHead) (s : State) : Host.Outcome State Fault Refusal :=
  s.taken fun s =>
    s.request h .hold fun s =>
      let s := s.setCauses { s.causes with operator := true }
      if s.slot.isNone then s.accept h.number .hold (.franking s.franking s.causes)
      else { s with holdWaiting := s.holdWaiting ++ [h.number] }

/-- HOLD_REPLY (R166): the waiting replies are sent once the commit slot is empty. -/
def execHoldReply (s : State) : Host.Outcome State Fault Refusal := s.taken fun s => if s.slot.isNone then s.answerHolds else s

/-- RESUME (R167): taken in HELD; a return to RUNNING passes to the commit unit (R119). -/
def execResume (h : ReqHead) (s : State) : Host.Outcome State Fault Refusal :=
  s.taken fun s =>
    s.request h .resume fun s =>
      if s.franking = .held then
        let s := s.setCauses s.causes.resumed
        (s.accept h.number .resume (.franking s.franking s.causes)).passRunning .held
      else s.refuse h.number RequestKind.resume.code .badState

/-- CLEAR_HALT (R169): the state test comes before the capture test. -/
def execClearHalt (h : ReqHead) (s : State) : Host.Outcome State Fault Refusal :=
  s.taken fun s =>
    s.request h .clearHalt fun s =>
      if s.franking ≠ .halted then s.refuse h.number RequestKind.clearHalt.code .badState
      else if s.capture.isSome then s.refuse h.number RequestKind.clearHalt.code .captureUnread
      else
        let s : State := { s with franking := .held, causes := .operatorWith s.pins.pfw }
        s.accept h.number .clearHalt (.franking s.franking s.causes)

/-- FETCH_CAPTURE (R177): the reply carries the capture, which becomes empty. -/
def execFetchCapture (h : ReqHead) (s : State) : Host.Outcome State Fault Refusal :=
  s.taken fun s =>
    s.request h .fetchCapture fun s => State.accept { s with capture := none } h.number .fetchCapture (.capture s.capture)

/-- PFW asserted (R168). The pin's level changes whether or not the part works. -/
def execPfwAssert (s : State) : Host.Outcome State Fault Refusal :=
  let s : State := { s with pins := { s.pins with pfw := true } }
  s.taken fun s => s.setCauses { s.causes with power := true }

/-- PFW released (R168); a return to RUNNING passes to the commit unit (R119). -/
def execPfwRelease (s : State) : Host.Outcome State Fault Refusal :=
  let s : State := { s with pins := { s.pins with pfw := false } }
  s.taken fun s => (s.setCauses { s.causes with power := false }).passRunning s.franking

end Sys2Proof.Machine
end

