-- ==== Sys2Proof/Machine/NoticeUnit.lean ====
section
/-! DEFINITION. The notice unit's requests: STATUS, PEEK, NOTICE_ENABLE, END_OF_SERVICE, and its own step NOTICE (Chapter 10). -/

namespace Sys2Proof.Machine

/-- The reported channel: the lowest-numbered pending one (R186). -/
def State.reportedChannel (s : State) : Option (Fin 8) := channelOrder.find? fun c => s.channels[c].pending

/-- The report of STATUS and PEEK (R186). -/
def State.report (s : State) : StatusReport :=
  { franking := s.franking, causes := s.causes, captureFull := s.capture.isSome, channels := s.channels, gne := s.gne, gneSaved := s.gneSaved
    noticeMode := s.settings.noticeMode, vectorBase := s.settings.vectorBase, pieceCount := s.pieces.length, outstanding := s.orders.length
    commitTag := s.slot.map (·.tag), printer := s.printer, bankA := s.bankReport .a, bankB := s.bankReport .b
    pendingSwitch := s.pendingSwitch, headJob := s.jobs.head?, jobCount := s.jobs.length, sensorWord := s.sensorWord, monitors := s.monitors
    counters := s.counters
    reported := s.reportedChannel.map fun c => { number := c.val, latest := s.channels[c].latest, count := s.channels[c].count } }

/-- The reported channel's pending flag is cleared and its count set to 0 (R187). -/
def State.consumeReported (s : State) : State :=
  match s.reportedChannel with
  | none => s
  | some c => { s with channels := s.channels.set c { s.channels[c] with pending := false, count := 0 } }

/-- STATUS (R186, R187). -/
def execStatus (h : ReqHead) (s : State) : Host.Outcome State Fault Refusal :=
  s.taken fun s => s.request h .status fun s => s.consumeReported.accept h.number .status (.status s.report)

/-- PEEK (R186, R187): the same report, nothing consumed. -/
def execPeek (h : ReqHead) (s : State) : Host.Outcome State Fault Refusal :=
  s.taken fun s => s.request h .peek fun s => s.accept h.number .peek (.status s.report)

/-- The enable of a channel under a NOTICE_ENABLE; channel 0's is fixed (R179, R185). -/
def enabledBy (value mask : Flags16) (c : Nat) (old : Bool) : Bool := if c ≠ 0 ∧ mask.getLsbD c then value.getLsbD c else old

/-- The writes of NOTICE_ENABLE: the masked enables of channels 1 to 7, and GNE at position 8 (R185). -/
def State.writeEnables (s : State) (value mask : Flags16) : State :=
  { s with
    channels := s.channels.mapFinIdx fun c ch _ => { ch with enable := enabledBy value mask c ch.enable }
    gne := if mask.getLsbD 8 then value.getLsbD 8 else s.gne }

/-- NOTICE_ENABLE (R185): the write, the reply, then the sending test. -/
def execNoticeEnable (h : ReqHead) (value mask : Flags16) (s : State) : Host.Outcome State Fault Refusal :=
  s.taken fun s =>
    s.request h .noticeEnable fun s =>
      let s := s.writeEnables value mask
      (s.accept h.number .noticeEnable (.enables s.channels s.gne)).sendingTest

/-- The highest-priority channel under service (R184). -/
def State.servedChannel (s : State) : Option (Fin 8) := channelOrder.find? fun c => s.channels[c].underService

/-- The end of a channel's service (R184 steps 1 and 2). -/
def State.endService (s : State) (c : Fin 8) : State :=
  { s with
    channels := s.channels.set c { s.channels[c] with underService := false }
    gne := if c = 0 then s.gneSaved else s.gne }

/-- END_OF_SERVICE (R184). -/
def execEndOfService (h : ReqHead) (s : State) : Host.Outcome State Fault Refusal :=
  s.taken fun s =>
    s.request h .endOfService fun s =>
      match s.servedChannel with
      | none => s.refuse h.number RequestKind.endOfService.code .badState
      | some c =>
        let s := s.endService c
        (s.accept h.number .endOfService (.serviceEnded c.val s.gne)).sendingTest

/-- NOTICE (R181, R182): the sending test. -/
def execNotice (s : State) : Host.Outcome State Fault Refusal := s.taken State.sendingTest

end Sys2Proof.Machine
end

