-- ==== Sys2Proof/Machine/PrintPort.lean ====
section
/-! DEFINITION. The print port's records and timers: PRINTER_STATE, ORDER_TAKEN, PRINT_RESULT and the two expiries (R125 to R133). -/

namespace Sys2Proof.Machine

/-- PRINTER_STATE (R125), in every franking state; the commit unit is told when the state becomes READY. -/
def execPrinterState (code : Nat) (s : State) : Host.Outcome State Fault Refusal :=
  s.taken fun s =>
    let s' : State := { s with printer := .ofCode code }
    if PrinterState.ofCode code = .ready ∧ s.printer ≠ .ready then s'.commitTest else s'

/-- The outstanding entry that holds a tag (R126). -/
def State.order? (s : State) (tag : Nat) : Option Order := s.orders.find? (·.tag == tag)

/-- ORDER_TAKEN (R127): the take timer stops and the result timer starts, or the record is late. -/
def execOrderTaken (tag : Nat) (s : State) : Host.Outcome State Fault Refusal :=
  s.taken fun s =>
    match s.order? tag with
    | none => s.lateRecord
    | some o =>
      if o.taken then s.lateRecord
      else
        { s with orders := s.orders.map fun o => if o.tag == tag then { o with taken := true, duration := s.settings.tResult } else o }

/-- An entry leaves the outstanding-order list and its closing write is requested (R128, R131). The entry is known by its N, which no other
entry holds (R126). -/
def State.closeOrder (s : State) (o : Order) (kind : CloseKind) : State :=
  State.requestClose { s with orders := s.orders.filter (·.n != o.n) } kind o.tag o.n .printPort

/-- A late result (R130). -/
def State.lateResult (s : State) (tag outcome : Nat) : State :=
  State.post { s with counters := { s.counters with lateResults := satSucc Config.counterMax s.counters.lateResults } } .lateResult (some tag)
    [some (resultCode outcome)]

/-- PRINT_RESULT (R128): the closing write, for UNKNOWN the error PRINT_UNKNOWN, then the commit unit is told. -/
def execPrintResult (tag outcome : Nat) (s : State) : Host.Outcome State Fault Refusal :=
  s.taken fun s =>
    match s.order? tag with
    | none => s.lateResult tag outcome
    | some o =>
      let kind := CloseKind.ofResult outcome
      let s := s.closeOrder o kind
      (if kind = .spoil then s.raiseContributory .printUnknown (some tag) [some o.n] else s).commitTest

/-- A timer's expiry on an entry (R131): the SPOIL, the error, then the commit unit is told. -/
def State.timeout (s : State) (o : Order) (code : CauseCode) : State :=
  ((s.closeOrder o .spoil).raiseContributory code (some o.tag) [some o.n]).commitTest

/-- TAKE_TIMER_EXPIRY (R131); no effect where no entry's take timer runs for the tag (R133). -/
def execTakeTimerExpiry (tag : Nat) (s : State) : Host.Outcome State Fault Refusal :=
  s.taken fun s =>
    match s.order? tag with
    | none => s
    | some o => if o.taken then s else s.timeout o .printTakeTimeout

/-- RESULT_TIMER_EXPIRY (R132); no effect where no entry's result timer runs for the tag (R133). -/
def execResultTimerExpiry (tag : Nat) (s : State) : Host.Outcome State Fault Refusal :=
  s.taken fun s =>
    match s.order? tag with
    | none => s
    | some o => if o.taken then s.timeout o .printResultTimeout else s

end Sys2Proof.Machine
end

