-- ==== Sys2Proof/Machine/LinePort.lean ====
section
/-! DEFINITION. The line port: CONFIGURE, LINE_RESET and its reply, IDENTIFY, the records it refuses or discards, and the transmitters
(Chapter 11). -/

namespace Sys2Proof.Machine

/-! ## CONFIGURE (R194) -/

/-- The six values as stored (R194). -/
def Settings.ofFields (v : ConfigureFields) (mode : NoticeMode) : Settings :=
  { vectorBase := v.vectorBase, noticeMode := mode, tTake := clamp 5 500 v.tTake, tResult := clamp 50 5000 v.tResult
    maxOutstanding := clamp 1 4 v.maxOutstanding, lowThreshold := clamp 0 Config.dMax v.lowThreshold }

/-- Whether a value was clamped (R194). -/
def Settings.clampedFrom (st : Settings) (v : ConfigureFields) : Bool :=
  st.tTake != v.tTake || st.tResult != v.tResult || st.maxOutstanding != v.maxOutstanding || st.lowThreshold != v.lowThreshold

/-- An accepted CONFIGURE takes the part out of UNCONFIGURED: RUNNING, or HELD while the set of hold causes is not empty (R165). -/
def FrankingState.configured (f : FrankingState) (c : HoldCauses) : FrankingState :=
  match f with
  | .unconfigured => if c.isEmpty then .running else .held
  | .running => .running
  | .held => .held
  | .halted => .halted
  | .lockout => .lockout

/-- An accepted CONFIGURE (R165, R194): the values, the reply, the sending test when the mode changed; a changed maximum, or a part that became
RUNNING, passes to the commit unit (R119). -/
def State.configure (s : State) (number : Nat) (v : ConfigureFields) (mode : NoticeMode) : State :=
  let st := Settings.ofFields v mode
  let s' : State := { s with settings := st, franking := s.franking.configured s.causes }
  let s' := s'.acceptClamped number .configure (st.clampedFrom v) (.configured st)
  let s' := if s.settings.noticeMode ≠ mode then s'.sendingTest else s'
  if s.settings.maxOutstanding ≠ st.maxOutstanding then s'.commitTest else s'.passRunning s.franking

/-- CONFIGURE (R194). -/
def execConfigure (h : ReqHead) (v : ConfigureFields) (s : State) : Host.Outcome State Fault Refusal :=
  s.taken fun s =>
    s.request h .configure fun s =>
      match NoticeMode.ofCode v.noticeMode with
      | none => s.refuse h.number RequestKind.configure.code .badValue
      | some mode => s.configure h.number v mode

/-! ## LINE_RESET (R195, R196) -/

/-- A commit in phase COMMIT is marked with withheld cause LINE_RESET (R123, R136). -/
def CommitSlot.resetMarked (c : CommitSlot) : CommitSlot :=
  match c.phase with
  | .commit => { c with withheld := some .lineReset }
  | .followUp => c

/-- The commit slot holds a commit in phase COMMIT (R196). -/
def State.commitPhase (s : State) : Bool := decide (s.slot.map (·.phase) = some .commit)

/-- The SPOIL writes a line reset leads to: one for each outstanding order, and the one that follows a commit in phase COMMIT (R196). -/
def State.resetSpoils (s : State) : Nat := (s.orders.filter fun o => s.closeTaken o.n).length + s.commitPhase.toNat

/-- The print port's part of a line reset (R136): in list order, every entry is removed and its SPOIL requested. -/
def State.resetOrders (s : State) : State :=
  s.orders.foldl (fun s o => s.requestClose .spoil o.tag o.n .lineReset) { s with orders := [] }

/-- A channel after a line reset (R189). -/
def Channel.lineReset (ch : Channel) : Channel := { ch with pending := false, underService := false, latest := none, count := 0 }

/-- The franking state and hold causes after a line reset (R171). -/
def State.resetFranking (s : State) : State :=
  match s.franking with
  | .running => { s with franking := .held, causes := .operatorWith s.pins.pfw }
  | .held => { s with franking := .held, causes := .operatorWith s.pins.pfw }
  | .halted => s
  | .lockout => s
  | .unconfigured => s

/-- The work of an accepted LINE_RESET at every block (R195). -/
def State.resetLine (s : State) : State :=
  let s := State.resetOrders { s with pieces := [], jobs := [] }
  State.resetFranking
    { s with
      slot := s.slot.map CommitSlot.resetMarked
      fundsMark := none
      channels := s.channels.map Channel.lineReset
      pendingSwitch := none }

/-- LINE_RESET (R195, R196): refused BUSY while the reply of an earlier one waits; the reply is sent at once when it led to no SPOIL write. -/
def execLineReset (h : ReqHead) (s : State) : Host.Outcome State Fault Refusal :=
  s.taken fun s =>
    s.request h .lineReset fun s =>
      if s.resetWait.isSome then s.refuse h.number RequestKind.lineReset.code .busy
      else
        let spoils := s.resetSpoils
        let s := s.resetLine
        State.answerReset { s with resetWait := some { request := h.number, spoils, remaining := spoils, franking := s.franking } }

/-- LINE_RESET_REPLY (R196): the waiting reply is sent once its SPOIL writes have completed. -/
def execLineResetReply (s : State) : Host.Outcome State Fault Refusal := s.taken State.answerReset

/-! ## IDENTIFY, and what is refused or discarded (R188, R190, R191) -/

/-- IDENTIFY (R188). -/
def execIdentify (h : ReqHead) (s : State) : Host.Outcome State Fault Refusal :=
  s.taken fun s => s.request h .identify fun s => s.accept h.number .identify (.identity s.accounts.serial)

/-- A request of a kind that names no request, refused in every state (R191, R163). -/
def execUnknownRequest (number kind : Nat) (s : State) : Host.Outcome State Fault Refusal :=
  s.taken fun s => s.refuse number kind .unknownRequest

/-- A record of an invalid kind or length (R191). -/
def execUnknownRecord (_link : Link) (_kind _length : Nat) (s : State) : Host.Outcome State Fault Refusal :=
  s.taken fun s => { s with counters := { s.counters with unknownRecords := satSucc Config.counterMax s.counters.unknownRecords } }

/-- A discarded frame (R190); the framer has resumed hunting when the command is queued (State.receive; log 10). -/
def execDiscardedFrame (_link : Link) (s : State) : Host.Outcome State Fault Refusal :=
  s.taken fun s => { s with counters := { s.counters with discardedFrames := satSucc Config.counterMax s.counters.discardedFrames } }

/-! ## The transmitters (R193) -/

def State.transmitLine (s : State) : State :=
  match s.lineTx.waiting with
  | [] => s
  | r :: rest => { s with lineTx := { waiting := rest, frame := frame r.kind r.payload } }

def State.transmitPrint (s : State) : State :=
  match s.printTx.waiting with
  | [] => s
  | r :: rest => { s with printTx := { waiting := rest, frame := frame r.kind r.payload } }

/-- RECORD_TRANSMIT (R193): the next record waiting is put on the link as one frame. -/
def execRecordTransmit (link : Link) (s : State) : Host.Outcome State Fault Refusal :=
  s.taken fun s => match link with | .line => s.transmitLine | .print => s.transmitPrint

end Sys2Proof.Machine
end

