-- ==== Sys2Proof/Machine/PowerOn.lean ====
section
/-! DEFINITION. RESET, loss of power and power-on (R100, R115, R164, R168, R200). -/

namespace Sys2Proof.Machine

/-- The fate of the write under way when power is lost or RESET asserted (R100, R200): its complete effect, or none. Which is a free value
(Config.writeKept, log 3). The requests behind it are lost with the queue. -/
def State.settleWrite (s : State) : State :=
  match s.writeBegun, s.queue with
  | true, w :: _ =>
    { s with
      accounts := if Config.writeKept s.freeIndex then s.accounts.apply s.mailingDate w else s.accounts
      freeIndex := s.freeIndex + 1, queue := [], writeBegun := false }
  | _, _ => { s with queue := [], writeBegun := false }

/-- Everything but the nonvolatile store at its value after power-on (00_scope.md 3.2); the pins, the commands that wait and the model's counter
stand. -/
def State.volatileLost (s : State) (power : Power) : State :=
  { State.reset with
    pending := s.pending, power, pins := s.pins, freeIndex := s.freeIndex, banks := s.banks, accounts := s.accounts, lockoutFlag := s.lockoutFlag }

/-- RESET held low (R200): the part stops; the write under way is settled as at a loss of power. -/
def execResetAssert (s : State) : Host.Outcome State Fault Refusal :=
  let s : State := { s with pins := { s.pins with reset := true } }
  .next (match s.power with
    | .on => { s.settleWrite with power := .inReset }
    | .inReset => s
    | .off => s)

/-- Loss of power (R100): the queue, the waiting replies and all ordinary storage are lost. -/
def execPowerLoss (s : State) : Host.Outcome State Fault Refusal := .next (s.settleWrite.volatileLost .off)

/-- A bank that is LOADING becomes INVALID at power-on (R68). -/
def Bank.poweredOn (b : Bank) : Bank := if b.state = .loading then { b with state := .invalid } else b

/-- The SPOIL writes queued at power-on, oldest open order first (R115 step 3). -/
def Accounts.powerOnSpoils (a : Accounts) : List Write := a.openOrders.map fun o => .close .spoil o.tag o.n .powerOn

/-- Power-on (R115, R164, R68, R70, R168): SERVICE is sampled, the lockout flag read or cleared, the franking state taken from it, and the open
orders' SPOIL writes queued. -/
def State.powerOn (s : State) (service : Bool) : State :=
  let s := s.settleWrite.volatileLost .on
  let flag := s.lockoutFlag && !service
  let banks : Banks := { a := s.banks.a.poweredOn, b := s.banks.b.poweredOn }
  { s with
    pins := { s.pins with reset := false, service }
    lockoutFlag := flag
    franking := if flag then .lockout else .unconfigured
    causes := { HoldCauses.none with power := s.pins.pfw }
    banks, ratingRef := banks.active
    queue := s.accounts.powerOnSpoils }

/-- POWER_ON (R115, R200): also the release of RESET. A part that still works loses its power first. -/
def execPowerOn (service : Bool) (s : State) : Host.Outcome State Fault Refusal := .next (s.powerOn service)

end Sys2Proof.Machine
end

