-- ==== Sys2Proof/Machine/TariffStore.lean ====
section
/-! DEFINITION. The tariff store's requests: TABLE_BEGIN, the TABLE_SEGMENT groups, TABLE_END and BANK_SWITCH (Chapter 3). -/

namespace Sys2Proof.Machine

/-- The named bank becomes LOADING and is cleared; a pending switch to it is cancelled (R53). -/
def State.beginLoad (s : State) (id : BankId) (tariffId : Nat) : State :=
  { s with
    banks := s.banks.set id (.cleared .loading tariffId)
    load := { accepted := 0, flawed := false }
    pendingSwitch := if s.pendingSwitch.map (·.target) = some id then none else s.pendingSwitch }

/-- TABLE_BEGIN (R53, R54). -/
def execTableBegin (h : ReqHead) (bank tariffId : Nat) (s : State) : Host.Outcome State Fault Refusal :=
  s.taken fun s =>
    s.request h .tableBegin fun s =>
      match BankId.ofCode bank with
      | none => s.refuse h.number RequestKind.tableBegin.code .badValue
      | some id =>
        if (s.banks.get id).state = .active then s.refuse h.number RequestKind.tableBegin.code .bankActive
        else if (s.banks.get id.other).state = .loading then s.refuse h.number RequestKind.tableBegin.code .busy
        else
          (s.beginLoad id tariffId).accept h.number .tableBegin (.tableBegun (decide (s.pendingSwitch.map (·.target) = some id)))

/-- TABLE_SEGMENT of group HEADER (R56). -/
def execHeaderSegment (h : ReqHead) (day mode step cap : Nat) (s : State) : Host.Outcome State Fault Refusal :=
  s.taken fun s => s.request h .tableSegment fun s => s.segment h.number (writeHeader day mode step cap)

/-- TABLE_SEGMENT of group PRODUCT (R56). -/
def execProductSegment (h : ReqHead) (n : Nat) (p : Product) (s : State) : Host.Outcome State Fault Refusal :=
  s.taken fun s => s.request h .tableSegment fun s => s.segment h.number (writeProduct n p)

/-- TABLE_SEGMENT of group BAND_TABLE (R57). -/
def execBandTableSegment (h : ReqHead) (t : Nat) (breakpoints : List Nat) (s : State) : Host.Outcome State Fault Refusal :=
  s.taken fun s => s.request h .tableSegment fun s => s.segment h.number (writeBandTable t breakpoints)

/-- TABLE_SEGMENT of group ZONE_BLOCK (R57). -/
def execZoneBlockSegment (h : ReqHead) (map first : Nat) (entries : List Nat) (s : State) : Host.Outcome State Fault Refusal :=
  s.taken fun s => s.request h .tableSegment fun s => s.segment h.number (writeZoneBlock map first entries)

/-- TABLE_SEGMENT of group SURCHARGE (R58). -/
def execSurchargeSegment (h : ReqHead) (position : Nat) (f : SurchargeFields) (s : State) : Host.Outcome State Fault Refusal :=
  s.taken fun s => s.request h .tableSegment fun s => s.segment h.number (writeSurcharge position f)

/-- TABLE_SEGMENT of group PRICE_RUN (R59). -/
def execPriceRunSegment (h : ReqHead) (start : PriceStart) (values : List Nat) (s : State) : Host.Outcome State Fault Refusal :=
  s.taken fun s => s.request h .tableSegment fun s => s.segment h.number (writePriceRun start values)

/-- A TABLE_SEGMENT of no known group, whatever its LEN (R55, R199). -/
def execUnknownSegmentGroup (h : ReqHead) (_group : Nat) (s : State) : Host.Outcome State Fault Refusal :=
  s.taken fun s => s.request { h with lenOk := true } .tableSegment fun s => s.segment h.number fun _ => none

/-- The end of a load (R61): the bank state, then the reply, then the trap. -/
def State.endLoad (s : State) (number : Nat) (id : BankId) (expected : Nat) : State :=
  let b := s.banks.get id
  match b.firstFailure s.load expected with
  | none =>
    (State.accept { s with banks := s.banks.setState id .ready } number .tableEnd (.loadReady b.tariffId s.load.accepted)).post
      .tableReady none []
  | some check =>
    (State.accept { s with banks := s.banks.setState id .invalid } number .tableEnd (.loadInvalid check s.load.accepted)).post
      .tableInvalid none [some check]

/-- TABLE_END (R60, R61). -/
def execTableEnd (h : ReqHead) (expected : Nat) (s : State) : Host.Outcome State Fault Refusal :=
  s.taken fun s =>
    s.request h .tableEnd fun s =>
      match s.banks.loading with
      | none => s.refuse h.number RequestKind.tableEnd.code .notLoading
      | some id => s.endLoad h.number id expected

/-- The tests of R62 common to the three modes, then the mode's own work on the target. -/
def State.bankSwitch (s : State) (number bank : Nat) (work : State → BankId → State) : State :=
  match BankId.ofCode bank with
  | none => s.refuse number RequestKind.bankSwitch.code .badValue
  | some id =>
    match (s.banks.get id).state with
    | .active => s.refuse number RequestKind.bankSwitch.code .bankActive
    | .ready => work s id
    | .empty => s.refuse number RequestKind.bankSwitch.code .notReadyBank
    | .loading => s.refuse number RequestKind.bankSwitch.code .notReadyBank
    | .invalid => s.refuse number RequestKind.bankSwitch.code .notReadyBank

/-- A switch taken at once: any pending switch is cleared, the banks are switched, and the reply is sent after BANK_SWITCHED (R63). The new
ratings pass to the commit unit (R67, R119). -/
def State.switchNow (s : State) (number : Nat) (id : BankId) (results : Results) : State :=
  ((s.switchTo id none).accept number .bankSwitch results).passRatings s.unsettled

/-- IMMEDIATE on a READY target (R62, R63). -/
def State.switchImmediate (s : State) (number : Nat) (id : BankId) : State :=
  match s.mailingDate with
  | none => s.refuse number RequestKind.bankSwitch.code .noDate
  | some day =>
    if day < (s.banks.get id).effectiveDay then s.refuse number RequestKind.bankSwitch.code .notYetEffective
    else s.switchNow number id (.switchedNow (s.banks.get id).tariffId)

/-- BANK_SWITCH of mode IMMEDIATE, or of a mode byte that names no mode, which is refused first (R62, R63). -/
def execBankSwitchImmediate (h : ReqHead) (bank mode : Nat) (s : State) : Host.Outcome State Fault Refusal :=
  s.taken fun s =>
    s.request h .bankSwitch fun s =>
      if mode ≠ 0 then s.refuse h.number RequestKind.bankSwitch.code .badValue
      else s.bankSwitch h.number bank fun s id => s.switchImmediate h.number id

/-- A request that becomes the pending switch, replacing any (R64, R65). -/
def State.pendSwitch (s : State) (number : Nat) (id : BankId) (mode : PendingMode) : State :=
  State.accept { s with pendingSwitch := some { target := id, mode } } number .bankSwitch .switchPending

/-- BANK_SWITCH of mode AT_DATE (R64). -/
def execBankSwitchAtDate (h : ReqHead) (bank : Nat) (s : State) : Host.Outcome State Fault Refusal :=
  s.taken fun s =>
    s.request h .bankSwitch fun s =>
      s.bankSwitch h.number bank fun s id =>
        if s.mailingDate.any fun day => decide ((s.banks.get id).effectiveDay ≤ day) then s.switchNow h.number id .switchedAtDate
        else s.pendSwitch h.number id .atDate

/-- BANK_SWITCH of mode AT_JOB (R65). -/
def execBankSwitchAtJob (h : ReqHead) (bank : Nat) (s : State) : Host.Outcome State Fault Refusal :=
  s.taken fun s => s.request h .bankSwitch fun s => s.bankSwitch h.number bank fun s id => s.pendSwitch h.number id .atJob

end Sys2Proof.Machine
end

