-- ==== Sys2Proof/Machine/Dispatch.lean ====
section
/-! DEFINITION. The meaning of every command: one arm for each row of spec/opcode_table.json. -/

namespace Sys2Proof.Machine

def exec (i : Instr) (s : State) : Host.Outcome State Fault Refusal :=
  match i with
  | .enter tag => Sys2Proof.Machine.execEnter tag s
  | .dimension tag length height thickness nonMachinable => Sys2Proof.Machine.execDimension tag length height thickness nonMachinable s
  | .weight tag reading quality => Sys2Proof.Machine.execWeight tag reading quality s
  | .destination tag code noRead service => Sys2Proof.Machine.execDestination tag code noRead service s
  | .gate tag => Sys2Proof.Machine.execGate tag s
  | .exit tag => Sys2Proof.Machine.execExit tag s
  | .remove tag => Sys2Proof.Machine.execRemove tag s
  | .lineStatus word => Sys2Proof.Machine.execLineStatus word s
  | .configure h v => Sys2Proof.Machine.execConfigure h v s
  | .lineReset h => Sys2Proof.Machine.execLineReset h s
  | .identify h => Sys2Proof.Machine.execIdentify h s
  | .tableBegin h bank tariffId => Sys2Proof.Machine.execTableBegin h bank tariffId s
  | .headerSegment h day mode step cap => Sys2Proof.Machine.execHeaderSegment h day mode step cap s
  | .productSegment h n p => Sys2Proof.Machine.execProductSegment h n p s
  | .bandTableSegment h t breakpoints => Sys2Proof.Machine.execBandTableSegment h t breakpoints s
  | .zoneBlockSegment h map first entries => Sys2Proof.Machine.execZoneBlockSegment h map first entries s
  | .surchargeSegment h position f => Sys2Proof.Machine.execSurchargeSegment h position f s
  | .priceRunSegment h start values => Sys2Proof.Machine.execPriceRunSegment h start values s
  | .unknownSegmentGroup h group => Sys2Proof.Machine.execUnknownSegmentGroup h group s
  | .tableEnd h expected => Sys2Proof.Machine.execTableEnd h expected s
  | .bankSwitchImmediate h bank mode => Sys2Proof.Machine.execBankSwitchImmediate h bank mode s
  | .bankSwitchAtDate h bank => Sys2Proof.Machine.execBankSwitchAtDate h bank s
  | .bankSwitchAtJob h bank => Sys2Proof.Machine.execBankSwitchAtJob h bank s
  | .credit h number amount => Sys2Proof.Machine.execCredit h number amount s
  | .date h day => Sys2Proof.Machine.execDate h day s
  | .accountQuery h => Sys2Proof.Machine.execAccountQuery h s
  | .jobAdd h v => Sys2Proof.Machine.execJobAdd h v s
  | .jobAbort h id => Sys2Proof.Machine.execJobAbort h id s
  | .monitorSet h v => Sys2Proof.Machine.execMonitorSet h v s
  | .hold h => Sys2Proof.Machine.execHold h s
  | .resume h => Sys2Proof.Machine.execResume h s
  | .clearHalt h => Sys2Proof.Machine.execClearHalt h s
  | .fetchCapture h => Sys2Proof.Machine.execFetchCapture h s
  | .status h => Sys2Proof.Machine.execStatus h s
  | .peek h => Sys2Proof.Machine.execPeek h s
  | .noticeEnable h value mask => Sys2Proof.Machine.execNoticeEnable h value mask s
  | .endOfService h => Sys2Proof.Machine.execEndOfService h s
  | .unknownRequest number kind => Sys2Proof.Machine.execUnknownRequest number kind s
  | .unknownRecord link kind length => Sys2Proof.Machine.execUnknownRecord link kind length s
  | .discardedFrame link => Sys2Proof.Machine.execDiscardedFrame link s
  | .printerState code => Sys2Proof.Machine.execPrinterState code s
  | .orderTaken tag => Sys2Proof.Machine.execOrderTaken tag s
  | .printResult tag outcome => Sys2Proof.Machine.execPrintResult tag outcome s
  | .takeTimerExpiry tag => Sys2Proof.Machine.execTakeTimerExpiry tag s
  | .resultTimerExpiry tag => Sys2Proof.Machine.execResultTimerExpiry tag s
  | .pfwAssert => Sys2Proof.Machine.execPfwAssert s
  | .pfwRelease => Sys2Proof.Machine.execPfwRelease s
  | .resetAssert => Sys2Proof.Machine.execResetAssert s
  | .powerLoss => Sys2Proof.Machine.execPowerLoss s
  | .powerOn service => Sys2Proof.Machine.execPowerOn service s
  | .commitComplete => Sys2Proof.Machine.execCommitComplete s
  | .confirmComplete => Sys2Proof.Machine.execConfirmComplete s
  | .voidComplete => Sys2Proof.Machine.execVoidComplete s
  | .spoilComplete => Sys2Proof.Machine.execSpoilComplete s
  | .creditComplete => Sys2Proof.Machine.execCreditComplete s
  | .writeBegin => Sys2Proof.Machine.execWriteBegin s
  | .commitStart => Sys2Proof.Machine.execCommitStart s
  | .gateCommittedCheck => Sys2Proof.Machine.execGateCommittedCheck s
  | .holdReply => Sys2Proof.Machine.execHoldReply s
  | .lineResetReply => Sys2Proof.Machine.execLineResetReply s
  | .notice => Sys2Proof.Machine.execNotice s
  | .recordTransmit link => Sys2Proof.Machine.execRecordTransmit link s

end Sys2Proof.Machine
end

