-- ==== Sys2Proof/Safety.lean ====
section
/-! DEFINITION. What the rules say holds at all times, as properties of one state: the money laws and the accounting queue, the open orders,
the franking state and its causes, the piece and job lists, the tariff banks, the notice channels. A state no run reaches may break them. -/

namespace Sys2Proof.Machine

/-! ## Money (R94, R95, R97, R99, R117) -/

/-- The postage a queued COMMIT will take; 0 for any other write. -/
def Write.commitAmount : Write → Nat
  | .commit _ p => p
  | .close _ _ _ _ => 0
  | .credit _ _ _ => 0

/-- The amount a queued CREDIT will add; 0 for any other write. -/
def Write.creditAmount : Write → Nat
  | .credit _ _ amount => amount
  | .commit _ _ => 0
  | .close _ _ _ _ => 0

def Write.isCommit : Write → Bool
  | .commit _ _ => true
  | .close _ _ _ _ => false
  | .credit _ _ _ => false

/-- A closing write that the commit unit requested (R123). -/
def Write.isFollowUp : Write → Bool
  | .close _ _ _ .commitUnit => true
  | .close _ _ _ _ => false
  | .commit _ _ => false
  | .credit _ _ _ => false

/-- The sequence number a closing write names. -/
def Write.closing? : Write → Option Nat
  | .close _ _ n _ => some n
  | .commit _ _ => none
  | .credit _ _ _ => none

def Write.creditNumber? : Write → Option Nat
  | .credit _ number _ => some number
  | .commit _ _ => none
  | .close _ _ _ _ => none

/-- The sequence numbers that have a closing write queued (R99). -/
def closings (q : List Write) : List Nat := q.filterMap Write.closing?

/-- The registers and the open-order list between writes: the laws of R95, the ranges of R94 and R96, the order of R97. -/
structure Accounts.Lawful (a : Accounts) : Prop where
  balance : a.d + a.e + a.a = a.t
  pending : a.e = (a.openOrders.map (·.p)).sum
  funds : a.d + a.e ≤ Config.dMax
  ceiling : a.a + a.e ≤ Config.aMax
  numbered : a.n ≤ Config.nMax
  sequence : (a.openOrders.map (·.n)).Pairwise (· < ·)
  issued : ∀ o ∈ a.openOrders, o.n ≤ a.n
  credited : a.creditNumber < Config.creditModulus
  counted : a.printed ≤ Config.countMax ∧ a.voided ≤ Config.countMax ∧ a.spoiled ≤ Config.countMax

/-- The accounts and the writes that wait: the checks made before a write was queued still hold for it (R95, R101), the queue holds at most one
CREDIT (R109) and one write of the commit unit, as its slot says (R117), and one closing write for an open order (R99). -/
structure State.AccountsSafe (s : State) : Prop where
  lawful : s.accounts.Lawful
  covered : (s.queue.map Write.commitAmount).sum ≤ s.accounts.d
  ascending : s.accounts.a + s.accounts.e + (s.queue.map Write.commitAmount).sum ≤ Config.aMax
  numbers : s.accounts.n + s.queue.countP Write.isCommit ≤ Config.nMax
  credits : s.accounts.d + s.accounts.e + (s.queue.map Write.creditAmount).sum ≤ Config.dMax
  oneCredit : s.queue.countP Write.isCredit ≤ 1
  creditNumbers : ∀ w ∈ s.queue, ∀ k, w.creditNumber? = some k → k < Config.creditModulus
  commits : s.queue.countP Write.isCommit ≤ (decide (s.slot.map (·.phase) = some .commit)).toNat
  followUps : s.queue.countP Write.isFollowUp ≤ (decide (s.slot.map (·.phase) = some .followUp)).toNat
  closedOnce : (closings s.queue).Nodup
  open_ : ∀ n ∈ closings s.queue, n ∈ s.accounts.openOrders.map (·.n)

/-! ## Open and outstanding orders (R97, R99, R126) -/

/-- The open orders that no closing write of `q` will close. -/
def Accounts.unclosed (a : Accounts) (q : List Write) : List OpenOrder := a.openOrders.filter fun o => !(closings q).contains o.n

/-- The bounds of R97, R99 and R126: at most 4 open orders and at most 4 outstanding orders, the commit in flight counted; a COMMIT that waits will
find at most 3 open orders. While the part works, every open order is outstanding or is being closed; while it does not, no write waits (R100). -/
structure State.OrderBounds (s : State) : Prop where
  maximum : 1 ≤ s.settings.maxOutstanding ∧ s.settings.maxOutstanding ≤ 4
  outstanding : s.orders.length + s.slot.isSome.toNat ≤ 4
  sequence : (s.orders.map (·.n)).Pairwise (· < ·)
  issued : ∀ o ∈ s.orders, o.n ≤ s.accounts.n
  bounded : s.accounts.openOrders.length ≤ 4
  room : ∀ pre w post, s.queue = pre ++ w :: post → w.isCommit = true → (s.accounts.unclosed pre).length ≤ 3
  idle : s.power ≠ .on → s.queue = []
  accounted : s.power = .on → ∀ n ∈ s.accounts.openOrders.map (·.n), n ∈ s.orders.map (·.n) ∨ n ∈ closings s.queue

/-- No record of the list holds the N of a closing write in the queue that power-on or a line reset requested. -/
def NoRecordHolds (q : List Write) (ps : List Piece) : Prop :=
  ∀ kind tag n by_, .close kind tag n by_ ∈ q → by_ = .powerOn ∨ by_ = .lineReset → ∀ p ∈ ps, p.commitData.map (·.n) ≠ some n

/-- No two outstanding orders hold the same tag, and none has its closing write queued (R126, R128): each is the order of a COMMITTED record, by tag and
N (R6). The commit in flight is that of a COMMITTING record until a line reset takes the record away (R120, R123). An unsettled record has no commit
data (R6). A closing write that power-on or a line reset requested names an N that no record holds, whatever has been entered since (R6, R24, R25). -/
structure State.OrderPieces (s : State) : Prop where
  tags : (s.orders.map (·.tag)).Nodup
  unclosed : ∀ o ∈ s.orders, o.n ∉ closings s.queue
  committed : ∀ o ∈ s.orders, ∃ p ∈ s.pieces, p.tag = o.tag ∧ p.state = .committed ∧ p.commitData.map (·.n) = some o.n
  committing : ∀ c, s.slot = some c → c.phase = .commit → c.withheld ≠ some .lineReset →
    ∃ p ∈ s.pieces, p.tag = c.tag ∧ p.state = .committing ∧ p.commitData = none
  uncommitted : ∀ p ∈ s.pieces, p.state.settled = false → p.commitData = none
  discarded : NoRecordHolds s.queue s.pieces

/-- The open and the outstanding orders: their bounds, and the records they belong to. -/
structure State.OrdersSafe (s : State) : Prop extends s.OrderBounds, s.OrderPieces

/-! ## The franking state (R161, R168, R170, R14) -/

/-- While the part works: the franking state follows the set of hold causes (R161), POWER is present while PFW is asserted (R168), the lockout flag is
set in LOCKOUT and in no other state (R98, R170), and in UNCONFIGURED nothing is tracked (R14). -/
structure State.FrankingSafe (s : State) : Prop where
  running : s.power = .on → s.franking = .running → s.causes.isEmpty = true
  held : s.power = .on → s.franking = .held → s.causes.isEmpty = false
  warning : s.power = .on → s.causes.power = s.pins.pfw
  locked : s.power = .on → s.lockoutFlag = decide (s.franking = .lockout)
  untracked : s.power = .on → s.franking = .unconfigured → s.pieces = [] ∧ s.jobs = [] ∧ s.orders = [] ∧ s.slot = none

/-! ## The piece list and the job list (R1, R138, R141) -/

/-- A job in state CURRENT. -/
def Job.isCurrent (j : Job) : Bool := decide (j.state = .current)

/-- The bounds of the lists: at most 32 pieces of distinct tags (R1); at most 4 jobs in distinct slots 0 to 3 with distinct ids (R138, R140), at most
one of them CURRENT (R141). A job's pieces in list is the number of records that refer to it (R139, R143), the job a record refers to is in the list
(R2), and no job that is done is (R144). -/
structure State.ListsSafe (s : State) : Prop where
  pieces : s.pieces.length ≤ Config.maxPieces
  tags : (s.pieces.map (·.tag)).Nodup
  jobs : s.jobs.length ≤ Config.maxJobs
  slots : (s.jobs.map (·.slot)).Nodup
  slotRange : ∀ j ∈ s.jobs, j.slot < Config.maxJobs
  ids : (s.jobs.map (·.values.id)).Nodup
  current : (s.jobs.filter Job.isCurrent).length ≤ 1
  counted : ∀ j ∈ s.jobs, j.inList = (s.pieces.map (·.job)).count (some j.slot)
  referred : ∀ slot, some slot ∈ s.pieces.map (·.job) → slot ∈ s.jobs.map (·.slot)
  undone : ∀ j ∈ s.jobs, j.done = false

/-! ## The tariff banks (R45, R49 to R52, R70) -/

/-- A bank's contents in canonical form and within the capacities of R49 to R52. -/
structure Bank.Sound (b : Bank) : Prop where
  prices : Table.wf Config.notOffered b.prices
  cells : ∀ e ∈ b.prices, e.1 < Config.priceCells
  zones : ∀ m ∈ b.zoneMaps.toList, Table.wf Config.notServed m.entries
  bands : ∀ t ∈ b.bandTables.toList, t.length ≤ 24
  surcharges : b.surcharges.length ≤ 16

/-- Both banks are sound; at most one is ACTIVE (R45) and at most one LOADING (R54); the rating unit's reference names the ACTIVE bank (R70); a
pending switch names a READY bank (R62, R53). -/
structure State.TariffSafe (s : State) : Prop where
  sound : s.banks.a.Sound ∧ s.banks.b.Sound
  oneActive : ¬(s.banks.a.state = .active ∧ s.banks.b.state = .active)
  oneLoading : ¬(s.banks.a.state = .loading ∧ s.banks.b.state = .loading)
  reference : s.power ≠ .off → s.ratingRef = s.banks.active
  target : ∀ x, s.pendingSwitch = some x → (s.banks.get x.target).state = .ready

/-! ## The notice channels (R181) -/

/-- No channel is ready to be sent. -/
def State.NoneReady (s : State) : Prop := ∀ c, s.channelReady c = false

/-! ## Which commands do what: the words the statements about commands use -/

/-- The request that a command is: its head and its kind (R191). A TABLE_SEGMENT of no known group is taken by the tariff store whatever its LEN
(R199), so its head stands here as one that matches. -/
def requestOf : Instr → Option (ReqHead × RequestKind)
  | .configure h _ => some (h, .configure)
  | .lineReset h => some (h, .lineReset)
  | .identify h => some (h, .identify)
  | .tableBegin h _ _ => some (h, .tableBegin)
  | .headerSegment h _ _ _ _ => some (h, .tableSegment)
  | .productSegment h _ _ => some (h, .tableSegment)
  | .bandTableSegment h _ _ => some (h, .tableSegment)
  | .zoneBlockSegment h _ _ _ => some (h, .tableSegment)
  | .surchargeSegment h _ _ => some (h, .tableSegment)
  | .priceRunSegment h _ _ => some (h, .tableSegment)
  | .unknownSegmentGroup h _ => some ({ h with lenOk := true }, .tableSegment)
  | .tableEnd h _ => some (h, .tableEnd)
  | .bankSwitchImmediate h _ _ => some (h, .bankSwitch)
  | .bankSwitchAtDate h _ => some (h, .bankSwitch)
  | .bankSwitchAtJob h _ => some (h, .bankSwitch)
  | .credit h _ _ => some (h, .credit)
  | .date h _ => some (h, .date)
  | .accountQuery h => some (h, .accountQuery)
  | .jobAdd h _ => some (h, .jobAdd)
  | .jobAbort h _ => some (h, .jobAbort)
  | .monitorSet h _ => some (h, .monitorSet)
  | .hold h => some (h, .hold)
  | .resume h => some (h, .resume)
  | .clearHalt h => some (h, .clearHalt)
  | .fetchCapture h => some (h, .fetchCapture)
  | .status h => some (h, .status)
  | .peek h => some (h, .peek)
  | .noticeEnable h _ _ => some (h, .noticeEnable)
  | .endOfService h => some (h, .endOfService)
  | _ => none

/-- The tag of a sensor record about a piece (R14). -/
def pieceTag : Instr → Option Nat
  | .enter tag => some tag
  | .dimension tag _ _ _ _ => some tag
  | .weight tag _ _ => some tag
  | .destination tag _ _ _ => some tag
  | .gate tag => some tag
  | .exit tag => some tag
  | .remove tag => some tag
  | _ => none

/-- The franking states in which the table of R163 refuses no request. -/
def State.serving (s : State) : Bool :=
  decide (s.franking = .running) || decide (s.franking = .held) || decide (s.franking = .halted)

/-- A request reaches its owner: the part works, LEN matches the kind (R191), and the franking state does not refuse it (R163). -/
structure State.Takes (s : State) (h : ReqHead) (k : RequestKind) : Prop where
  working : s.power = .on
  length : h.lenOk = true
  state : k.stateRefusal s.franking = none

/-- Loss of power and power-on, which replace everything in ordinary storage (00_scope.md 3.2). -/
def losesOrdinary : Instr → Bool
  | .powerLoss => true
  | .powerOn _ => true
  | _ => false

/-- The events that settle the write under way and drop the queue (R100, R200). -/
def stopsWrites : Instr → Bool
  | .resetAssert => true
  | c => losesOrdinary c

/-- The completions of the five writes (R100). -/
def completesWrite : Instr → Bool
  | .commitComplete => true
  | .confirmComplete => true
  | .voidComplete => true
  | .spoilComplete => true
  | .creditComplete => true
  | _ => false

/-- The commands that pass to the commit unit, or that are its own (R119, R121). -/
def testsCandidate : Instr → Bool
  | .configure _ _ => true
  | .bankSwitchImmediate _ _ _ => true
  | .bankSwitchAtDate _ _ => true
  | .bankSwitchAtJob _ _ => true
  | .date _ _ => true
  | .jobAdd _ _ => true
  | .resume _ => true
  | .printerState _ => true
  | .printResult _ _ => true
  | .takeTimerExpiry _ => true
  | .resultTimerExpiry _ => true
  | .pfwRelease => true
  | .commitStart => true
  | .gateCommittedCheck => true
  | c => (pieceTag c).isSome || completesWrite c

/-- LINE_RESET. -/
def isLineReset : Instr → Bool
  | .lineReset _ => true
  | _ => false

/-- The commands that may take a bank switch (R62 to R65, R141). -/
def maySwitch : Instr → Bool
  | .enter _ => true
  | .bankSwitchImmediate _ _ _ => true
  | .bankSwitchAtDate _ _ => true
  | .bankSwitchAtJob _ _ => true
  | .date _ _ => true
  | .jobAdd _ _ => true
  | _ => false

/-- The TABLE_SEGMENT rows (R55). -/
def isSegment (c : Instr) : Bool := (requestOf c).any fun x => decide (x.2 = .tableSegment)

/-- PRINT_RESULT and the two expiries, by which an order leaves the outstanding-order list (R128, R131, R132). -/
def endsOrder : Instr → Bool
  | .printResult _ _ => true
  | .takeTimerExpiry _ => true
  | .resultTimerExpiry _ => true
  | _ => false

end Sys2Proof.Machine
end

