-- ==== Sys2Proof/Certificates/Slice0/Obligations.lean ====
section
/-! DEFINITION. The statements for the provers: what a step is, what holds at all times, what each command changes and leaves, and what each
command does when it has its own effect. A next state that ends in `commitTest` is the state written before it, tested afresh by the commit
unit, which is told of the events of R119 and of nothing else; what that test does is stated in `CommitUnitStartsACommit`, and when the new ratings
of pieces are such events in `MeasurementsAreApplied`. -/

open Sys2Proof Sys2Proof.Machine

/-! ## The machine -/

/-- A step takes the command at the front of the queue: it is that command's effect on the state with the queue's rest. With no command waiting the part
idles (the model's choice, log 1). -/
def Obligations.StepTakesTheFront : Prop :=
  (∀ (c : Instr) (q : List Instr) (s : State), step { s with pending := c :: q } = exec c { s with pending := q }) ∧
  (∀ s : State, s.pending = [] → step s = .next s)

/-- Every command ends in a next state, in every state of the part, and leaves the commands that wait as they were. -/
def Obligations.EveryCommandEndsInNext : Prop := ∀ (c : Instr) (s : State), ∃ t, exec c s = .next t ∧ t.pending = s.pending

/-- The part after the first power-on of a factory-fresh part: the values the rules give, the two banks EMPTY among them (R45). That no hold cause is
present is the model's choice (log 5): PFW is not asserted at that power-on, for R164 adds POWER where it is. -/
def Obligations.ResetValues : Prop :=
  let s := State.reset
  let a := s.accounts
  (s.pieces = [] ∧ s.jobs = [] ∧ s.orders = [] ∧ s.queue = [] ∧ s.slot = none ∧ s.mailingDate = none ∧ s.fundsMark = none) ∧
    (s.settings.vectorBase = 0 ∧ s.settings.noticeMode = .pulse ∧ s.settings.tTake = 50 ∧ s.settings.tResult = 800 ∧
      s.settings.maxOutstanding = 2 ∧ s.settings.lowThreshold = 0) ∧
    (s.printer = .notReady ∧ s.sensorWord = 0 ∧ s.franking = .unconfigured ∧ s.causes.isEmpty = true ∧ s.capture = none) ∧
    (∀ i : Fin 4, s.monitors[i].settings.mask = 0 ∧ s.monitors[i].settings.polarity = .high ∧ s.monitors[i].settings.function = .any ∧
      s.monitors[i].settings.action = .notify ∧ s.monitors[i].previous = false) ∧
    (∀ c : Fin 8, s.channels[c].enable = decide (c = 0) ∧ s.channels[c].pending = false ∧ s.channels[c].underService = false ∧
      s.channels[c].latest = none ∧ s.channels[c].count = 0) ∧
    (s.gne = false ∧ s.gneSaved = false ∧ s.resetWait = none ∧ s.holdWaiting = [] ∧ s.lockoutFlag = false) ∧
    (a.d = 0 ∧ a.e = 0 ∧ a.a = 0 ∧ a.t = 0 ∧ a.n = 0 ∧ a.creditNumber = 0 ∧ a.lastUsed = none ∧ a.printed = 0 ∧ a.voided = 0 ∧
      a.spoiled = 0 ∧ a.openOrders = []) ∧
    (s.banks.a.state = .empty ∧ s.banks.b.state = .empty ∧ s.pendingSwitch = none ∧ s.ratingRef = none ∧ s.load.accepted = 0 ∧
      s.load.flawed = false) ∧
    (s.counters.discardedFrames = 0 ∧ s.counters.unknownRecords = 0 ∧ s.counters.orphans = 0 ∧ s.counters.lateMeasurements = 0 ∧
      s.counters.lateRecords = 0 ∧ s.counters.lateResults = 0) ∧
    (s.lineFramer.phase = .hunt ∧ s.lineFramer.bytes = [] ∧ s.printFramer.phase = .hunt ∧ s.printFramer.bytes = [])

/-- The invariants hold right after reset. -/
def Obligations.SafeAtReset : Prop :=
  State.reset.AccountsSafe ∧ State.reset.OrdersSafe ∧ State.reset.FrankingSafe ∧ State.reset.ListsSafe ∧ State.reset.TariffSafe ∧
    State.reset.NoneReady

/-- A part held in reset or without power takes nothing (R200): a command changes it only if it is an event of the pins or of the power. PFW's level
is followed all the same, and nothing else changes with it. -/
def Obligations.NothingTakenWithoutPower : Prop :=
  ∀ s : State, s.power ≠ .on →
    (∀ c : Instr, c ≠ .pfwAssert → c ≠ .pfwRelease → c ≠ .resetAssert → losesOrdinary c = false → exec c s = .next s) ∧
    exec .pfwAssert s = .next { s with pins := { s.pins with pfw := true } } ∧
    exec .pfwRelease s = .next { s with pins := { s.pins with pfw := false } }

/-! ## What every step keeps -/

/-- The money laws of R95 and the bounds of the accounting queue. -/
def Obligations.StepKeepsTheMoneyLaws : Prop := ∀ s t : State, s.AccountsSafe → step s = .next t → t.AccountsSafe

/-- The bounds of the open-order list, the outstanding-order list and the commit in flight (R97, R99, R126). No two outstanding orders hold the same tag
or the same N, each is the order of a COMMITTED record, and none has a closing write queued (R126, R128, R6); the commit in flight is that of a COMMITTING
record until a line reset takes the record away (R120); no record holds the N of a closing write that power-on or a line reset requested (R6, R115, R136).
The accounting queue holds at most 6 writes (R99). -/
def Obligations.StepKeepsTheOrderBounds : Prop :=
  (∀ s t : State, s.AccountsSafe → s.ListsSafe → s.OrdersSafe → step s = .next t → t.OrdersSafe) ∧
  (∀ s : State, s.AccountsSafe → s.OrdersSafe → s.queue.length ≤ 6)

/-- The franking state follows the set of hold causes, POWER follows the PFW pin, the lockout flag follows LOCKOUT (R161, R168, R98). -/
def Obligations.StepKeepsTheFrankingState : Prop := ∀ s t : State, s.FrankingSafe → step s = .next t → t.FrankingSafe

/-- The bounds of the piece list and the job list (R1, R138, R141). A job's pieces in list is the number of records that refer to it (R139, R143), the
job a record refers to is in the list (R2), and no job that is done is in the list (R144). -/
def Obligations.StepKeepsTheLists : Prop := ∀ s t : State, s.ListsSafe → step s = .next t → t.ListsSafe

/-- The capacities and states of the two tariff banks (R45, R49 to R52, R54, R70). -/
def Obligations.StepKeepsTheTariff : Prop := ∀ s t : State, s.TariffSafe → step s = .next t → t.TariffSafe

/-- No channel is left ready to be sent (R181). -/
def Obligations.StepLeavesNoChannelReady : Prop := ∀ s t : State, s.NoneReady → step s = .next t → t.NoneReady

/-- The accounts change at the completion of the write at the head of the queue and at no other command, but for the write that a loss of power or
RESET cuts short (R94, R100), and then as that write gives (R101 to R105); A and T never fall, and N rises by one at the most (R95 law 2). -/
def Obligations.AccountsChangeOnlyByTheHeadWrite : Prop :=
  (∀ (a : Accounts) (day : Nat),
    (∀ tag p, a.apply (some day) (.commit tag p) =
      { a with
        d := a.d - p, e := a.e + p, n := a.n + 1, lastUsed := some day, openOrders := a.openOrders ++ [{ tag, n := a.n + 1, p }] }) ∧
    (∀ request number amount, a.apply (some day) (.credit request number amount) =
      { a with d := a.d + amount, t := a.t + amount, creditNumber := number }) ∧
    (∀ tag n by_ o, a.openOrders.find? (·.n == n) = some o →
      let left := a.openOrders.filter (·.n != n)
      a.apply (some day) (.close .confirm tag n by_) =
        { a with e := a.e - o.p, a := a.a + o.p, printed := min (a.printed + 1) 4294967295, openOrders := left } ∧
      a.apply (some day) (.close .void tag n by_) =
        { a with e := a.e - o.p, d := a.d + o.p, voided := min (a.voided + 1) 4294967295, openOrders := left } ∧
      a.apply (some day) (.close .spoil tag n by_) =
        { a with e := a.e - o.p, a := a.a + o.p, spoiled := min (a.spoiled + 1) 4294967295, openOrders := left })) ∧
  ∀ (c : Instr) (s t : State), exec c s = .next t →
    (t.accounts = s.accounts ∨
      ((completesWrite c || stopsWrites c) = true ∧ ∃ w rest, s.queue = w :: rest ∧ t.accounts = s.accounts.apply s.mailingDate w)) ∧
    s.accounts.a ≤ t.accounts.a ∧ s.accounts.t ≤ t.accounts.t ∧ (t.accounts.n = s.accounts.n ∨ t.accounts.n = s.accounts.n + 1) ∧
    (∀ w rest, s.queue = w :: rest → w.isCommit = false → t.accounts.n = s.accounts.n)

/-! ## The bytes of the links -/

/-- Bytes become commands (R190, R191, R192, R197, R199): a frame received byte by byte from HUNT puts the command of its record at the end of the queue,
whatever well-formed command the record carries; a byte that is no SYNC is dropped; a LEN above 60 and a check that does not match put DISCARDED_FRAME there
and hunt on with the byte after the SYNC. A request's number is its first byte, and its LEN is matched with its kind's. A part that does not work takes no
byte (R200). That the bytes become commands in the queue, outside a step, is the model's choice (log 10), and so is what a payload that no command's
fields fit becomes (log 11) and that a flags bit of no meaning is not looked at (log 26). -/
def Obligations.FramesBecomeCommands : Prop :=
  let received (s : State) (link : Link) (bytes : List Byte) : State := bytes.foldl (fun u b => u.receive link b) s
  let queued (s : State) (c : Instr) : State := { s with pending := s.pending ++ [c] }
  (∀ (link : Link) (s : State), s.power = .on → s.framer link = { phase := .hunt, bytes := [] } →
    (∀ (c : Instr) (kind : Nat) (payload : List Byte), c.WellFormed = true → recordOf c = some (link, kind, payload) →
      received s link (frame kind payload) = queued s c) ∧
    (∀ (kind : Nat) (payload : List Byte), kind < 256 → payload.length ≤ 60 →
      received s link (frame kind payload) = queued s (decodeRecord link kind payload)) ∧
    (∀ b : Byte, b ≠ 0xA5#8 → s.receive link b = s) ∧
    (∀ length : Byte, 60 < length.toNat → received s link [0xA5#8, length] = received (queued s (.discardedFrame link)) link [length]) ∧
    (∀ (kind : Byte) (payload check : List Byte), payload.length ≤ 60 →
      let covered := be 1 payload.length ++ [kind] ++ payload
      check.length = 2 → check ≠ be 2 (frameCheck covered).toNat →
        received s link ([0xA5#8] ++ covered ++ check) = received (queued s (.discardedFrame link)) link (covered ++ check))) ∧
  (∀ (link : Link) (b : Byte) (s : State), s.power ≠ .on → s.receive link b = s) ∧
  (∀ (k : RequestKind) (first : Byte) (rest : List Byte), k ≠ .tableSegment →
    let length : Nat :=
      match k with
      | .configure => 12
      | .tableBegin => 4
      | .tableEnd => 3
      | .bankSwitch => 3
      | .credit => 9
      | .date => 3
      | .jobAdd => 11
      | .jobAbort => 3
      | .monitorSet => 7
      | .noticeEnable => 5
      | _ => 1
    requestOf (decodeRecord .line k.code (first :: rest)) = some ({ number := first.toNat, lenOk := decide (rest.length + 1 = length) }, k))

/-! ## Frames: which commands may change which state -/

/-- The accounts' side: the queue, the commit in flight, the date and the marks. -/
def Obligations.FrameOfCommitsAndMoney : Prop :=
  ∀ (c : Instr) (s t : State), exec c s = .next t →
    ((completesWrite c || stopsWrites c) = false → t.accounts = s.accounts) ∧
    ((completesWrite c || stopsWrites c || decide (c = .writeBegin)) = false → t.writeBegun = s.writeBegun) ∧
    (stopsWrites c = false → t.freeIndex = s.freeIndex) ∧
    ((testsCandidate c || isLineReset c || stopsWrites c || (requestOf c).any (·.2 == .credit)) = false → t.queue = s.queue) ∧
    ((testsCandidate c || isLineReset c || losesOrdinary c) = false → t.slot = s.slot ∧ t.fundsMark = s.fundsMark) ∧
    (((requestOf c).any (·.2 == .date) || losesOrdinary c) = false → t.mailingDate = s.mailingDate) ∧
    ((∀ w, c ≠ .lineStatus w) → testsCandidate c = false → losesOrdinary c = false → t.lockoutFlag = s.lockoutFlag)

/-- The piece list, the job list, the print port and the counters. -/
def Obligations.FrameOfPiecesAndOrders : Prop :=
  ∀ (c : Instr) (s t : State), exec c s = .next t →
    ((testsCandidate c || isLineReset c || losesOrdinary c) = false → t.pieces = s.pieces) ∧
    ((testsCandidate c || isLineReset c || losesOrdinary c || (requestOf c).any (·.2 == .jobAbort)) = false → t.jobs = s.jobs) ∧
    ((∀ tag, c ≠ .orderTaken tag) → endsOrder c = false → c ≠ .commitComplete → isLineReset c = false → losesOrdinary c = false →
      t.orders = s.orders) ∧
    ((∀ code, c ≠ .printerState code) → losesOrdinary c = false → t.printer = s.printer) ∧
    ((∀ tag, c ≠ .remove tag) → c ≠ .commitComplete → (∀ l, c ≠ .recordTransmit l) → losesOrdinary c = false → t.printTx = s.printTx) ∧
    (pieceTag c = none → (∀ w, c ≠ .lineStatus w) → (∀ l k n, c ≠ .unknownRecord l k n) → (∀ l, c ≠ .discardedFrame l) →
      (∀ tag, c ≠ .orderTaken tag) → endsOrder c = false → losesOrdinary c = false → t.counters = s.counters)

/-- The tariff banks, the load in progress, the pending switch and the rating unit's reference. -/
def Obligations.FrameOfTheTariff : Prop :=
  ∀ (c : Instr) (s t : State), exec c s = .next t →
    (maySwitch c = false → isSegment c = false → (∀ h b i, c ≠ .tableBegin h b i) → (∀ h e, c ≠ .tableEnd h e) → (∀ b, c ≠ .powerOn b) →
      t.banks = s.banks) ∧
    (isSegment c = false → (∀ h b i, c ≠ .tableBegin h b i) → losesOrdinary c = false → t.load = s.load) ∧
    (maySwitch c = false → (∀ h b i, c ≠ .tableBegin h b i) → isLineReset c = false → losesOrdinary c = false →
      t.pendingSwitch = s.pendingSwitch) ∧
    (maySwitch c = false → losesOrdinary c = false → t.ratingRef = s.ratingRef)

/-- The franking state, the hold causes, the fault capture, the monitors and the configuration. -/
def Obligations.FrameOfTheFrankingState : Prop :=
  ∀ (c : Instr) (s t : State), exec c s = .next t →
    (testsCandidate c = false → (∀ w, c ≠ .lineStatus w) → isLineReset c = false → (∀ h, c ≠ .hold h) → (∀ h, c ≠ .clearHalt h) → c ≠ .pfwAssert →
      losesOrdinary c = false → t.franking = s.franking) ∧
    ((∀ g, c ≠ .enter g) → (∀ w, c ≠ .lineStatus w) → isLineReset c = false → (∀ h, c ≠ .hold h) → (∀ h, c ≠ .resume h) →
      (∀ h, c ≠ .clearHalt h) → endsOrder c = false → c ≠ .pfwAssert → c ≠ .pfwRelease → losesOrdinary c = false → t.causes = s.causes) ∧
    (testsCandidate c = false → (∀ w, c ≠ .lineStatus w) → (∀ h, c ≠ .fetchCapture h) → losesOrdinary c = false → t.capture = s.capture) ∧
    ((∀ w, c ≠ .lineStatus w) → (∀ h v, c ≠ .monitorSet h v) → losesOrdinary c = false → t.monitors = s.monitors ∧ t.sensorWord = s.sensorWord) ∧
    ((∀ h v, c ≠ .configure h v) → losesOrdinary c = false → t.settings = s.settings)

/-- The notice channels, the records the part sends, the replies that wait, the framers, the pins and the power. -/
def Obligations.FrameOfNoticesAndLinks : Prop :=
  ∀ (c : Instr) (s t : State), exec c s = .next t →
    (testsCandidate c = false → (∀ w, c ≠ .lineStatus w) → isLineReset c = false → (∀ h e, c ≠ .tableEnd h e) → (∀ h i, c ≠ .jobAbort h i) →
      (∀ h, c ≠ .status h) → (∀ h v m, c ≠ .noticeEnable h v m) → (∀ h, c ≠ .endOfService h) → c ≠ .notice → losesOrdinary c = false →
      t.channels = s.channels ∧ t.gne = s.gne ∧ t.gneSaved = s.gneSaved) ∧
    ((requestOf c = none ∧ testsCandidate c = false ∧ (∀ w, c ≠ .lineStatus w) ∧ (∀ n k, c ≠ .unknownRequest n k) ∧ c ≠ .notice ∧ c ≠ .holdReply ∧
      c ≠ .lineResetReply ∧ (∀ l, c ≠ .recordTransmit l) ∧ losesOrdinary c = false) → t.lineTx = s.lineTx) ∧
    (isLineReset c = false → (∀ h, c ≠ .hold h) → completesWrite c = false → c ≠ .holdReply → c ≠ .lineResetReply → losesOrdinary c = false →
      t.holdWaiting = s.holdWaiting ∧ t.resetWait = s.resetWait) ∧
    (losesOrdinary c = false → t.lineFramer = s.lineFramer ∧ t.printFramer = s.printFramer) ∧
    (c ≠ .pfwAssert → c ≠ .pfwRelease → c ≠ .resetAssert → losesOrdinary c = false → t.pins = s.pins) ∧
    (stopsWrites c = false → t.power = s.power)

/-! ## Requests and the franking state -/

/-- The table of R163: the requests refused for the franking state, and no others; a request of no known kind is refused in every state. A refusal
changes nothing but the record sent. -/
def Obligations.RequestsAreTestedAgainstTheFrankingState : Prop :=
  (∀ (c : Instr) (h : ReqHead) (k : RequestKind) (s : State), requestOf c = some (h, k) → s.power = .on → h.lenOk = true →
    (s.franking = .unconfigured → k ∉ [RequestKind.configure, .status, .peek, .identify, .accountQuery] →
      exec c s = .next (s.refuse h.number k.code .notConfigured)) ∧
    (s.franking = .lockout → k ∉ [RequestKind.status, .peek, .identify, .accountQuery, .fetchCapture, .endOfService] →
      exec c s = .next (s.refuse h.number k.code .lockedOut)) ∧
    (s.serving = true → s.Takes h k) ∧
    (k ∈ [RequestKind.status, .peek, .identify, .accountQuery] → s.Takes h k) ∧
    (s.franking = .unconfigured → k = .configure → s.Takes h k) ∧
    (s.franking = .lockout → k ∈ [RequestKind.fetchCapture, .endOfService] → s.Takes h k)) ∧
  (∀ (number kind : Nat) (s : State), s.power = .on → exec (.unknownRequest number kind) s = .next (s.refuse number kind .unknownRequest))

/-- A request whose LEN does not match its kind is refused BAD_VALUE before the franking state is looked at; a TABLE_SEGMENT so refused sets the
flawed mark while a bank is loading in RUNNING, HELD or HALTED (R191). -/
def Obligations.WrongLengthIsRefused : Prop :=
  ∀ (c : Instr) (h : ReqHead) (k : RequestKind) (s : State), requestOf c = some (h, k) → s.power = .on → h.lenOk = false →
    (k = .tableSegment → s.banks.loading.isSome = true → s.serving = true →
      exec c s = .next (State.refuse { s with load := { s.load with flawed := true } } h.number k.code .badValue)) ∧
    (k ≠ .tableSegment ∨ s.banks.loading = none ∨ s.serving = false → exec c s = .next (s.refuse h.number k.code .badValue))

/-! ## The piece list -/

/-- ENTER (R11, R12, R13, R65, R141, R142). The commit unit is told of a piece that ends and of the new ratings of a switch taken with the ENTER, and of
nothing else here (R119). -/
def Obligations.EnterPlacesAPiece : Prop :=
  ∀ (tag : Nat) (s : State), s.power = .on → s.franking ≠ .unconfigured →
    let fresh (job : Option Nat) : Piece :=
      { tag, job, state := .opened, dimension := none, weight := none, destination := none, override := none, rating := none, commitData := none
        flags := { gatePassed := false, gateCommitted := false, exited := false, estimateCommitted := false, withdrawSent := false
                   removeRequested := false, tagConflict := false }
        disposition := none }
    let assigned (j : Job) : Job :=
      { j with
        entered := min (j.entered + 1) Config.countMax, inList := j.inList + 1
        state := if j.values.count ≠ 0 ∧ min (j.entered + 1) Config.countMax = j.values.count then .closed else j.state }
    let place (u : State) (j : Job) : State :=
      { u with pieces := u.pieces ++ [fresh (some j.slot)], jobs := u.jobs.map fun x => if x.slot == j.slot then assigned x else x }
    (32 ≤ s.pieces.length →
      exec (.enter tag) s =
        .next
          (State.raiseContributory
            ((s.sendLine (.stopOverflow tag)).sendLine
              (.disposition { tag, outcome := none, job := none, money := none, gatePassed := false, estimateCommitted := false, tagConflict := false }))
            .queueOverflow (some tag) [])) ∧
    (s.pieces.length < 32 → ∀ p, s.piece? tag = some p →
      let u := s.updatePiece tag fun p => { p with flags := { p.flags with tagConflict := true } }
      (p.state.settled = true → exec (.enter tag) s = .next (u.post (.divert .tagConflict) (some tag) [])) ∧
      (p.state.settled = false → exec (.enter tag) s = .next (u.finalize tag (.diverted .tagConflict)).commitTest)) ∧
    (s.pieces.length < 32 → s.piece? tag = none → ∀ j, s.currentJob = some j → exec (.enter tag) s = .next (place s j)) ∧
    (s.pieces.length < 32 → s.piece? tag = none → s.currentJob = none → ∀ j, s.jobs.find? (fun j => decide (j.state = .waiting)) = some j →
      let promoted : State := { s with jobs := s.jobs.map fun x => if x.slot == j.slot then { x with state := .current } else x }
      ((∀ x, s.pendingSwitch = some x → x.mode = .atDate) → exec (.enter tag) s = .next (place promoted j)) ∧
      (∀ target, s.ListsSafe → s.pendingSwitch = some { target, mode := .atJob } →
        exec (.enter tag) s =
          .next ((place (promoted.switchTo target (some tag)) j).passRatings (s.pieces.filter fun p => !p.state.settled)))) ∧
    (s.pieces.length < 32 → s.piece? tag = none → (∀ j ∈ s.jobs, j.state = .closed) →
      exec (.enter tag) s =
        .next (State.commitTest (State.finalize { s with pieces := s.pieces ++ [fresh none] } tag (.diverted .noJob))))

/-- A sensor record about a piece that no record stands for is counted and discarded, and so is every sensor record in UNCONFIGURED (R14, R150). -/
def Obligations.OrphansAreCounted : Prop :=
  ∀ s : State, s.power = .on →
    let counted : State := { s with counters := { s.counters with orphans := min (s.counters.orphans + 1) 65535 } }
    (∀ (c : Instr) (tag : Nat), pieceTag c = some tag → c ≠ .enter tag → s.piece? tag = none → exec c s = .next counted) ∧
    (∀ (c : Instr) (tag : Nat), pieceTag c = some tag → s.franking = .unconfigured → exec c s = .next counted) ∧
    (∀ word, s.franking = .unconfigured → exec (.lineStatus word) s = .next counted)

/-- A measurement of an unsettled piece is stored under its rule, and the piece is rated again (R27 to R29, R31 to R33). New ratings pass to the commit unit
where a piece was RATED when it was rated again, or has become RATED, settled, or left the list (R119). -/
def Obligations.MeasurementsAreApplied : Prop :=
  (∀ (tag : Nat) (p : Piece) (s : State), s.power = .on → s.franking ≠ .unconfigured → s.piece? tag = some p → p.state.settled = false →
    let rated (f : Piece → Piece) : State := ((s.updatePiece tag f).rateAgain tag).passRatings [p]
    (∀ length height thickness nonMachinable,
      exec (.dimension tag length height thickness nonMachinable) s =
        .next (rated fun p =>
          { p with dimension := some { length := min length 6000, height := min height 6000, thickness := min thickness 500, nonMachinable } })) ∧
    (∀ reading quality,
      let w : Weight :=
        if 60000 < reading then { reading := 60000, quality := .overload }
        else
          { reading, quality := if quality = 0 then .settled else if quality = 1 then .estimate else if quality = 2 then .overload else .fault }
      exec (.weight tag reading quality) s =
        .next (rated fun p =>
          if w.quality = .estimate ∧ (p.weight.map (·.quality) = some .settled ∨ p.weight.map (·.quality) = some .overload) then p
          else { p with weight := some w })) ∧
    (∀ code noRead service,
      exec (.destination tag code noRead service) s =
        .next (rated fun p =>
          { p with
            destination := if noRead = true then some (p.destination.getD .noRead) else some (.code code)
            override := if service.any (· ≤ 15) then service else p.override }))) ∧
  (∀ (before : List Piece) (s : State),
    let told := ∃ p ∈ before, p.state = .rated ∨ ∀ q, s.piece? p.tag = some q → q.state = .rated ∨ q.state.settled = true
    (told → s.passRatings before = s.commitTest) ∧ (¬told → s.passRatings before = s))

/-- A new rating replaces the record and sets the state of an unsettled piece, and one on a SETTLED weight clears estimate-committed, whatever its outcome
(R19, R35, R37; R3's table names only the outcome RATED: log 22); a gate-committed piece that it leaves OPEN or PROVISIONAL has its gate decision taken
again at once (R5, R19). A settled piece is not rated. -/
def Obligations.RatingSetsTheState : Prop :=
  ∀ (p : Piece) (j : Job) (s : State), s.piece? p.tag = some p → s.jobOf p = some j →
    let r := rate p.inputs j.values s.activeBank
    let kept (q : Piece) : Bool := q.flags.estimateCommitted && decide (q.weight.map (·.quality) ≠ some .settled)
    let reopened (st : PieceState) : State :=
      s.updatePiece p.tag fun q =>
        { q with rating := some r, state := st, flags := { q.flags with estimateCommitted := kept q, gateCommitted := false } }
    (p.state.settled = true → s.rateAgain p.tag = s) ∧
    (p.state.settled = false →
      (∀ reason, r.outcome = .unrateable reason →
        s.rateAgain p.tag =
          (s.updatePiece p.tag fun q => { q with rating := some r, flags := { q.flags with estimateCommitted := kept q } }).finalize p.tag
            (.diverted reason)) ∧
      (r.outcome = .rated →
        s.rateAgain p.tag =
          s.updatePiece p.tag fun q => { q with rating := some r, state := .rated, flags := { q.flags with estimateCommitted := false } }) ∧
      (r.outcome = .incomplete →
        s.rateAgain p.tag = if p.flags.gateCommitted then (reopened .opened).gateDecision p.tag else reopened .opened) ∧
      (r.outcome = .provisional →
        s.rateAgain p.tag = if p.flags.gateCommitted then (reopened .provisional).gateDecision p.tag else reopened .provisional))

/-- A measurement of a settled piece is late and only counted, but for a settled or overloaded weight after a commit on an estimate, which is stored and
compared (R38, R41, R43), in the bank that the rating record names while it is ACTIVE or READY and holds the same tariff id (R42). The third figure of an
unrateable comparison's detail, the reason's code, is the model's choice (log 9): R43 names two. -/
def Obligations.LateMeasurementsAreCounted : Prop :=
  (∀ (r : RatingRecord) (s : State),
    (r.bank = none → s.comparisonBank r = none) ∧
    (∀ id tariffId, r.bank = some (id, tariffId) →
      let b := s.banks.get id
      let stands := (b.state = .active ∨ b.state = .ready) ∧ b.tariffId = tariffId
      (stands → s.comparisonBank r = some (id, b)) ∧ (¬stands → s.comparisonBank r = none))) ∧
  ∀ (tag : Nat) (p : Piece) (s : State), s.power = .on → s.franking ≠ .unconfigured → s.piece? tag = some p → p.state.settled = true →
    let late : State := { s with counters := { s.counters with lateMeasurements := min (s.counters.lateMeasurements + 1) 65535 } }
    (∀ l h t nm, exec (.dimension tag l h t nm) s = .next late) ∧
    (∀ code noRead service, exec (.destination tag code noRead service) s = .next late) ∧
    (∀ reading quality,
      let w := Weight.prepared reading quality
      let compared :=
        p.flags.estimateCommitted = true ∧ (p.state = .final → p.commitData.isSome = true) ∧ p.weight.map (·.quality) = some .estimate ∧
          (w.quality = .settled ∨ w.quality = .overload)
      let stored : State := s.updatePiece tag fun q => { q with weight := some w }
      (¬compared → exec (.weight tag reading quality) s = .next late) ∧
      (compared → ∀ r j, p.rating = some r → s.jobOf p = some j →
        let again := rate { p.inputs with weight := some w } j.values (s.comparisonBank r)
        (s.comparisonBank r = none → p.dimension.isSome = true → (j.values.zoneMode = .read → p.destination.isSome = true) →
          again.outcome = .unrateable .noBank) ∧
        (again.postage = some p.postage → (∀ reason, again.outcome ≠ .unrateable reason) → exec (.weight tag reading quality) s = .next stored) ∧
        (∀ p', again.postage = some p' → p' ≠ p.postage → (∀ reason, again.outcome ≠ .unrateable reason) →
          exec (.weight tag reading quality) s = .next (stored.post .weightDisagrees (some tag) [some p.postage, some p'])) ∧
        (∀ reason, again.outcome = .unrateable reason →
          exec (.weight tag reading quality) s =
            .next (stored.post .weightDisagrees (some tag) [some p.postage, none, some reason.code]))))

/-- The sweep of a GATE (R15): the records ahead of a tag's record are those nearer the head; each of them that is not settled ends DIVERTED, GATE_MISSED,
from the head on, its DISPOSITION sent, its gate-passed flag as it was, and its record kept unless it carries exited or remove-requested; the settled ones
and the named one stay as they were. -/
def Obligations.SweepSettlesAllAhead : Prop :=
  (∀ (tag : Nat) (p : Piece) (pre post : List Piece) (s : State), s.pieces = pre ++ p :: post → p.tag = tag → (∀ q ∈ pre, q.tag ≠ tag) →
    s.ahead tag = pre) ∧
  (∀ (tag : Nat) (s : State), s.ListsSafe →
    let swept := (s.ahead tag).filter fun p => !p.state.settled
    let report (p : Piece) : DispositionRecord :=
      { tag := p.tag, outcome := some (.diverted .gateMissed), job := (s.jobOf p).map (·.values.id), money := p.commitData.map fun c => (c.n, c.p)
        gatePassed := p.flags.gatePassed, estimateCommitted := p.flags.estimateCommitted, tagConflict := p.flags.tagConflict }
    let dispositions (u : State) : List DispositionRecord := u.lineTx.waiting.filterMap fun r => match r with | .disposition d => some d | _ => none
    s.sweep tag = (swept.map (·.tag)).foldl (fun u t => u.finalize t (.diverted .gateMissed)) s ∧
    dispositions (s.sweep tag) = dispositions s ++ swept.map report ∧
    (∀ p ∈ swept,
      ((p.flags.exited || p.flags.removeRequested) = false →
        (s.sweep tag).piece? p.tag =
          some { p with state := .final, disposition := some (.diverted .gateMissed), flags := { p.flags with gateCommitted := false } }) ∧
      ((p.flags.exited || p.flags.removeRequested) = true → (s.sweep tag).piece? p.tag = none)) ∧
    (∀ p ∈ (s.sweep tag).ahead tag, p.state.settled = true) ∧ (s.sweep tag).piece? tag = s.piece? tag ∧
    ∀ p ∈ s.pieces, p.state.settled = true → p ∈ (s.sweep tag).pieces)

/-- The first unmet condition in the order of R118, the first missing input in the order of R16, the estimate guard of R39, and GATE: it sets gate-passed
and the piece's state decides (R16, R17, R18, R121); with unsettled pieces ahead the sweep goes first (R15). That a piece short of funds is diverted here
without a SHORT posted is the model's choice (log 24). -/
def Obligations.GateDecides : Prop :=
  (∀ (p : Piece) (s : State),
    let dated := s.mailingDate.isSome = true
    let first := ∀ q ∈ s.ahead p.tag, q.state.settled = true
    let ready := s.printer = .ready
    let room := s.orders.length + (if s.slot.isSome then 1 else 0) < s.settings.maxOutstanding
    let funded := p.postage ≤ s.accounts.d
    (s.franking = .held → s.firstUnmet p = some (.reason .held)) ∧
    (s.franking = .halted → s.firstUnmet p = some (.reason .halted)) ∧
    (s.franking = .lockout → s.firstUnmet p = some (.reason .locked)) ∧
    (s.franking = .running →
      (¬dated → s.firstUnmet p = some (.reason .noDate)) ∧
      (dated → ¬first → s.firstUnmet p = some .beltOrder) ∧
      (dated → first → ¬ready → s.firstUnmet p = some (.reason .printerNotReady)) ∧
      (dated → first → ready → ¬room → s.firstUnmet p = some (.reason .printBacklog)) ∧
      (dated → first → ready → room → ¬funded → s.firstUnmet p = some (.reason .fundsShort)) ∧
      (dated → first → ready → room → funded → s.slot.isSome = true → s.firstUnmet p = some .inFlight) ∧
      (dated → first → ready → room → funded → s.slot = none → s.firstUnmet p = none))) ∧
  (∀ (i : RatingInputs) (zone : ZoneMode),
    let weighed := ∃ w, i.weight = some w ∧ w.quality ≠ .fault
    let measured := i.dimension.isSome = true
    let addressed := zone = .read → i.destination.isSome = true
    (¬weighed → missingInput i zone = some .noWeight) ∧
    (weighed → ¬measured → missingInput i zone = some .noDimension) ∧
    (weighed → measured → ¬addressed → missingInput i zone = some .noDestination) ∧
    (weighed → measured → addressed → missingInput i zone = none)) ∧
  (∀ (p : Piece) (s : State),
    s.guard p = true ↔
      ∃ w r j id tariffId product band upper, p.weight = some w ∧ p.rating = some r ∧ s.jobOf p = some j ∧ r.bank = some (id, tariffId) ∧
        r.ratedProduct = some product ∧ r.bandIndex = some band ∧
        ((s.banks.get id).bandTable ((s.banks.get id).product product).bandTable)[band - 1]? = some upper ∧
        0 < j.values.guardBand ∧ (j.values.guardBand : Int) ≤ 10 * upper - (w.reading + j.values.margin)) ∧
  (∀ (tag : Nat) (p : Piece) (s : State), s.piece? tag = some p →
    let passed (q : Piece) : Piece := { q with flags := { q.flags with gatePassed := true } }
    let u := s.updatePiece tag passed
    let attempt (u : State) (q : Piece) : State :=
      match u.firstUnmet q with
      | none => u.startCommit q
      | some .inFlight => u.updatePiece tag fun q => { q with flags := { q.flags with gateCommitted := true } }
      | some (.reason r) => u.finalize tag (.diverted r)
      | some .beltOrder => u
    let rated (q : Piece) : Piece := { q with state := .rated, flags := { q.flags with estimateCommitted := true } }
    ((p.state.settled = true → s.gateDecision tag = u) ∧
      (p.state = .opened → ∀ j r, s.jobOf p = some j → missingInput p.inputs j.values.zoneMode = some r →
        s.gateDecision tag = u.finalize tag (.diverted r)) ∧
      (p.state = .provisional → s.guard p = false → s.gateDecision tag = u.finalize tag (.diverted .weightUnsettled)) ∧
      (p.state = .provisional → s.guard p = true → s.gateDecision tag = attempt (u.updatePiece tag rated) (rated (passed p))) ∧
      (p.state = .rated → s.gateDecision tag = attempt u (passed p))) ∧
    (s.power = .on → s.franking ≠ .unconfigured →
      ((∃ q ∈ s.ahead tag, q.state.settled = false) →
        exec (.gate tag) s = .next ((s.sweep tag).gateDecision tag).commitTest ∧
        (s.ListsSafe → p.state.settled = true → exec (.gate tag) s = .next ((s.sweep tag).updatePiece tag passed).commitTest) ∧
        (s.ListsSafe → p.state.settled = false → exec (.gate tag) s = exec (.gate tag) (s.sweep tag))) ∧
      ((∀ q ∈ s.ahead tag, q.state.settled = true) →
        (p.state.settled = true → exec (.gate tag) s = .next u) ∧
        (p.state = .opened → ∀ j r, s.jobOf p = some j → missingInput p.inputs j.values.zoneMode = some r →
          exec (.gate tag) s = .next (u.finalize tag (.diverted r)).commitTest) ∧
        (p.state = .provisional → s.guard p = false → exec (.gate tag) s = .next (u.finalize tag (.diverted .weightUnsettled)).commitTest) ∧
        (p.state = .provisional → s.guard p = true →
          exec (.gate tag) s = .next (attempt (u.updatePiece tag rated) (rated (passed p))).commitTest) ∧
        (p.state = .rated → exec (.gate tag) s = .next (attempt u (passed p)).commitTest))))

/-- EXIT (R20): an unsettled piece is first treated as at its gate; the record is then removed, or kept with the exited flag until it
becomes FINAL. A piece that is only marked is no event for the commit unit (R119). -/
def Obligations.ExitLeavesTheLine : Prop :=
  ∀ (tag : Nat) (p : Piece) (s : State), s.power = .on → s.franking ≠ .unconfigured → s.piece? tag = some p →
    let exited (s : State) : State := s.updatePiece tag fun q => { q with flags := { q.flags with exited := true } }
    (p.state = .final → exec (.exit tag) s = .next (s.removePiece tag).commitTest) ∧
    (p.state = .committing ∨ p.state = .committed → exec (.exit tag) s = .next (exited s)) ∧
    (p.state.settled = false → ∀ q, ((s.sweep tag).gateDecision tag).piece? tag = some q →
      let g := (s.sweep tag).gateDecision tag
      (q.state = .final → exec (.exit tag) s = .next (g.removePiece tag).commitTest) ∧
      (q.state = .committing → exec (.exit tag) s = .next (exited g).commitTest) ∧
      (q.state.settled = false → exec (.exit tag) s = .next ((g.finalize tag (.diverted .gateMissed)).removePiece tag).commitTest))

/-- REMOVE (R21, R22, R23, R135). A piece that is only marked is no event for the commit unit (R119). -/
def Obligations.RemoveByState : Prop :=
  ∀ (tag : Nat) (p : Piece) (s : State), s.power = .on → s.franking ≠ .unconfigured → s.piece? tag = some p →
    let asked : State := s.updatePiece tag fun q => { q with flags := { q.flags with removeRequested := true } }
    (p.state.settled = false → exec (.remove tag) s = .next ((s.finalize tag .removed).removePiece tag).commitTest) ∧
    (p.state = .final → exec (.remove tag) s = .next (s.removePiece tag).commitTest) ∧
    (p.state = .committing → exec (.remove tag) s = .next asked) ∧
    (p.state = .committed → p.flags.withdrawSent = true → exec (.remove tag) s = .next asked) ∧
    (p.state = .committed → p.flags.withdrawSent = false → ∀ c, p.commitData = some c →
      exec (.remove tag) s =
        .next ((asked.sendPrint (.withdraw tag c.n)).updatePiece tag fun q => { q with flags := { q.flags with withdrawSent := true } }))

/-- The end of a piece (R8, R9): its record, the one DISPOSITION sent ahead of everything else, the cause of a divert on FUNDS or PIECE, the count of its
job, and its removal when the exited or the remove-requested flag is set. The removal of a record (R10, R143, R144), which EXIT, REMOVE and the end of a
piece make: its job holds one piece fewer, and a CLOSED job left with none leaves the list, with DONE posted for the piece removed. -/
def Obligations.EndOfAPiece : Prop :=
  (∀ (tag : Nat) (d : Disposition) (p : Piece) (s : State), s.piece? tag = some p →
    let t := s.finalize tag d
    let report : DispositionRecord :=
      { tag, outcome := some d, job := (s.jobOf p).map (·.values.id), money := p.commitData.map fun c => (c.n, c.p)
        gatePassed := p.flags.gatePassed, estimateCommitted := p.flags.estimateCommitted, tagConflict := p.flags.tagConflict }
    let counted (j : Job) : Job :=
      if d = .printed then { j with printed := min (j.printed + 1) 4294967295 } else { j with diverted := min (j.diverted + 1) 4294967295 }
    s.lineTx.waiting ++ [.disposition report] <+: t.lineTx.waiting ∧
    (∀ r, d = .diverted r → t.channels[(if r = .fundsShort then 3 else 5 : Fin 8)].latest = some { code := .divert r, tag := some tag, detail := [] }) ∧
    ((p.flags.exited || p.flags.removeRequested) = true →
      t.piece? tag = none ∧ t.pieces = s.pieces.filter (·.tag != tag) ∧ (p.job = none → t.jobs = s.jobs) ∧
      ∀ slot j, p.job = some slot → s.jobs.find? (·.slot == slot) = some j →
        (j.state = .closed ∧ j.inList ≤ 1 →
          t.jobs = s.jobs.filter (·.slot != slot) ∧
            t.channels[(7 : Fin 8)].latest =
              some { code := .done, tag := some tag
                     detail := [some j.values.id, some j.entered, some (counted j).printed, some (counted j).diverted] }) ∧
        (¬(j.state = .closed ∧ j.inList ≤ 1) →
          t.jobs = s.jobs.map fun x => if x.slot == slot then { counted x with inList := x.inList - 1 } else x)) ∧
    ((p.flags.exited || p.flags.removeRequested) = false →
      t.piece? tag = some { p with state := .final, disposition := some d, flags := { p.flags with gateCommitted := false } } ∧
      t.jobs = (match p.job with
        | none => s.jobs
        | some slot => s.jobs.map fun j => if j.slot == slot then counted j else j))) ∧
  (∀ (tag : Nat) (p : Piece) (s : State), s.piece? tag = some p →
    let left : State := { s with pieces := s.pieces.filter (·.tag != tag) }
    (p.job = none → s.removePiece tag = left) ∧
    (∀ slot j, p.job = some slot → s.jobs.find? (·.slot == slot) = some j →
      (j.state = .closed ∧ j.inList ≤ 1 →
        s.removePiece tag =
          State.post { left with jobs := s.jobs.filter (·.slot != slot) } .done (some tag)
            [some j.values.id, some j.entered, some j.printed, some j.diverted]) ∧
      (¬(j.state = .closed ∧ j.inList ≤ 1) →
        s.removePiece tag = { left with jobs := s.jobs.map fun x => if x.slot == slot then { x with inList := x.inList - 1 } else x })))

/-! ## Rating -/

/-- The first tests of a rating (R73, R30), what a rated or provisional postage may be (R85, R87), and the stages: the starting product (R75), the format
check and its upgrade chain of at most three (R76, R77), the band (R78), the zone column (R79, R80), the price cell (R81), the surcharge walk and the exact
sum (R82, R83), the rounding (R85, R86) and the limits (R87). -/
def Obligations.RatingTestsAndStages : Prop :=
  (∀ (i : RatingInputs) (j : JobValues) (bank : Option (BankId × Bank)),
    let r := rate i j bank
    let missing := i.weight.all (fun w => decide (w.quality = .fault)) = true ∨ i.dimension = none ∨ (j.zoneMode = .read ∧ i.destination = none)
    (r.outcome = .incomplete ↔ missing) ∧
    (¬missing → bank = none → r.outcome = .unrateable .noBank) ∧
    (∀ id b w, ¬missing → bank = some (id, b) → i.weight = some w →
      (w.quality = .overload → r.outcome = .unrateable .overweight ∧ r.band = some .unordered) ∧
      (r.outcome = .rated → w.quality = .settled) ∧ (r.outcome = .provisional → w.quality = .estimate) ∧
      (r.outcome = .rated ∨ r.outcome = .provisional →
        ∃ n p, r.ratedProduct = some n ∧ r.postage = some p ∧ p ≤ b.cap ∧ b.step ∣ p ∧ (p = 0 → (b.product n).zeroOk = true)) ∧
      (∀ k, r.upgradeCount = some k → k ≤ 3) ∧
      r.effectiveWeight = some ((w.reading + j.margin + 9) / 10))) ∧
  (∀ (i : RatingInputs) (j : JobValues) (id : BankId) (b : Bank) (w : Weight) (d : Dimension),
    i.weight = some w → w.quality ≠ .fault → w.quality ≠ .overload → i.dimension = some d → (j.zoneMode = .read → i.destination.isSome = true) →
    let r := rate i j (some (id, b))
    let weff := (w.reading + j.margin + 9) / 10
    let start := if j.overrideAllowed then i.override.getD j.product else j.product
    let fits (n : Nat) : Prop :=
      weff ≤ (b.product n).maxWeight ∧ d.length ≤ (b.product n).maxLength ∧ d.height ≤ (b.product n).maxHeight ∧ d.thickness ≤ (b.product n).maxThickness
    ((b.product start).defined = false → r.outcome = .unrateable .outOfFormat ∧ r.ratedProduct = some start ∧ r.upgradeCount = some 0) ∧
    ((b.product start).defined = true →
      ∃ (n k : Nat) (chain : Nat → Nat), chain 0 = start ∧ chain k = n ∧ k ≤ 3 ∧ r.ratedProduct = some n ∧ r.upgradeCount = some k ∧
        (∀ m, m < k → ¬fits (chain m) ∧ (b.product (chain m)).upgrade = some (chain (m + 1))) ∧
        (¬fits n → (k = 3 ∨ (b.product n).upgrade = none) ∧ r.outcome = .unrateable .outOfFormat) ∧
        (fits n →
          let p := b.product n
          (bandOf (b.bandTable p.bandTable) weff = none → r.band = some .aboveTop ∧ r.outcome = .unrateable .overweight) ∧
          (∀ band, bandOf (b.bandTable p.bandTable) weff = some band →
            r.band = some .within ∧ r.bandIndex = some band ∧
            (∀ code, j.zoneMode = .read → i.destination = some (.code code) → (b.zoneMap p.zoneMap).entry code = 15 →
              r.outcome = .unrateable .notServed) ∧
            (∀ z byDefault,
              (j.zoneMode = .fixed ∧ z = j.column ∧ byDefault = false) ∨
                (j.zoneMode = .read ∧ i.destination = some .noRead ∧ z = p.noReadColumn ∧ byDefault = true) ∨
                (j.zoneMode = .read ∧ (∃ code, i.destination = some (.code code) ∧ (b.zoneMap p.zoneMap).entry code = z) ∧ z ≠ 15 ∧ byDefault = false) →
              let c := b.cell ((p.bandTable * 24 + (band - 1)) * 8 + z)
              let holds (e : Surcharge) : Bool :=
                match e.condition with
                | .always => true
                | .thickOver => decide (e.threshold < d.thickness)
                | .lengthOver => decide (e.threshold < d.length)
                | .heightOver => decide (e.threshold < d.height)
                | .weightOver => decide (e.threshold < weff)
                | .nonMachinable => d.nonMachinable
                | .noRead => decide (i.destination = some .noRead)
                | .zoneAtLeast => decide (e.threshold ≤ z)
              let applying := b.surcharges.filter fun e => e.mask.getLsbD n && holds e
              let taken := applying.takeWhile (fun e => !e.last) ++ (applying.dropWhile fun e => !e.last).take 1
              let sum := 1000 * c + (taken.map fun e => if e.amountKind = .fixed then 1000 * e.amount else c * e.amount).sum
              let postage := roundSum b.rounding b.step sum
              r.zoneColumn = some z ∧ r.noReadDefault = some byDefault ∧
              (c = 65535 → r.outcome = .unrateable .notOffered) ∧
              (c ≠ 65535 →
                r.basePrice = some c ∧ r.exactSum = some sum ∧ r.postage = some postage ∧ r.rounded = some (isRounded b.step sum) ∧
                (b.cap < postage → r.outcome = .unrateable .overCap) ∧
                (postage ≤ b.cap → postage = 0 → p.zeroOk = false → r.outcome = .unrateable .zeroValue) ∧
                (postage ≤ b.cap → postage ≠ 0 ∨ p.zeroOk = true → r.outcome = if w.quality = .estimate then .provisional else .rated)))))))

/-- The arithmetic of the stages: the effective weight is the least whole gram that holds reading and margin (R74), the band is the first whose
breakpoint is not below it (R78), and the rounded postage is the multiple of the step that the mode names (R85), the ROUNDED flag saying whether it
differs from the sum (R86). -/
def Obligations.WeightBandAndRounding : Prop :=
  (∀ w m, w + m ≤ 10 * effectiveWeight w m ∧ 10 * effectiveWeight w m < w + m + 10) ∧
  (∀ w m, w ≤ 60000 → m ≤ 50 → effectiveWeight w m ≤ 6005) ∧
  (∀ bs weff i, bandOf bs weff = some i ↔ 1 ≤ i ∧ (∃ b, bs[i - 1]? = some b ∧ weff ≤ b) ∧ ∀ k b, k < i - 1 → bs[k]? = some b → b < weff) ∧
  (∀ bs weff, bandOf bs weff = none ↔ ∀ b ∈ bs, b < weff) ∧
  (∀ q s, 0 < q →
    (∀ mode, q ∣ roundSum mode q s) ∧
    (1000 * roundSum .down q s ≤ s ∧ s < 1000 * roundSum .down q s + 1000 * q) ∧
    (s ≤ 1000 * roundSum .up q s ∧ 1000 * roundSum .up q s < s + 1000 * q) ∧
    (1000 * roundSum .nearest q s ≤ s + 500 * q ∧ s + 500 * q < 1000 * roundSum .nearest q s + 1000 * q) ∧
    (isRounded q s = true ↔ ¬1000 * q ∣ s) ∧
    (isRounded q s = false → ∀ mode, 1000 * roundSum mode q s = s))

/-- A price cell's coordinate and its flat index name each other (R51); TABLE_BEGIN leaves every cell not offered and every zone entry not served (R53);
a run of values is read back where it was written and nowhere else (R57, R59). -/
def Obligations.TablesReadBack : Prop :=
  (∀ t b z, t ≤ 7 → 1 ≤ b → b ≤ 24 → z ≤ 7 →
    flatIndex t b z < 1536 ∧ flatIndex t b z / 192 = t ∧ flatIndex t b z % 192 / 8 + 1 = b ∧ flatIndex t b z % 8 = z) ∧
  (∀ f, f < 1536 → flatIndex (f / 192) (f % 192 / 8 + 1) (f % 8) = f) ∧
  (∀ st tid f m d, (Bank.cleared st tid).cell f = 65535 ∧ ((Bank.cleared st tid).zoneMap m).entry d = 15) ∧
  (∀ dflt t start values, Table.wf dflt t →
    Table.wf dflt (Table.setRun dflt t start values) ∧
      ∀ i, Table.get dflt (Table.setRun dflt t start values) i =
        if start ≤ i then (values[i - start]?).getD (Table.get dflt t i) else Table.get dflt t i)

/-! ## The tariff store -/

/-- TABLE_BEGIN (R53, R54). -/
def Obligations.TableBeginStartsALoad : Prop :=
  ∀ (h : ReqHead) (bank tid : Nat) (s : State), s.Takes h .tableBegin →
    (2 ≤ bank → exec (.tableBegin h bank tid) s = .next (s.refuse h.number 0x48 .badValue)) ∧
    (∀ id, BankId.ofCode bank = some id →
      ((s.banks.get id).state = .active → exec (.tableBegin h bank tid) s = .next (s.refuse h.number 0x48 .bankActive)) ∧
      ((s.banks.get id).state ≠ .active → (s.banks.get id.other).state = .loading →
        exec (.tableBegin h bank tid) s = .next (s.refuse h.number 0x48 .busy)) ∧
      ((s.banks.get id).state ≠ .active → (s.banks.get id.other).state ≠ .loading →
        let cancelled := s.pendingSwitch.map (·.target) = some id
        let cleared : Bank :=
          { state := .loading, tariffId := tid, effectiveDay := 0, rounding := .up, step := 0, cap := 0, headerPresent := false
            products := Vector.replicate 16 undefinedProduct, bandTables := Vector.replicate 8 []
            zoneMaps := Vector.replicate 4 { entries := [], written := false }, prices := [], surcharges := [] }
        exec (.tableBegin h bank tid) s =
          .next (State.accept
            { s with
              banks := s.banks.set id cleared, load := { accepted := 0, flawed := false }
              pendingSwitch := if cancelled then none else s.pendingSwitch }
            h.number .tableBegin (.tableBegun (decide cancelled)))))

/-- TABLE_END (R60, R61): the bank becomes READY when the nine checks pass, INVALID with the number of the first that fails otherwise. That the reply is
sent before TABLE_READY or TABLE_INVALID is posted is the model's choice (log 12). -/
def Obligations.TableEndValidates : Prop :=
  ∀ (h : ReqHead) (expected : Nat) (s : State), s.Takes h .tableEnd →
    (s.banks.loading = none → exec (.tableEnd h expected) s = .next (s.refuse h.number 0x4A .notLoading)) ∧
    (∀ id, s.banks.loading = some id →
      let b := s.banks.get id
      let passes (check : Nat) : Prop :=
        match check with
        | 1 => s.load.flawed = false
        | 2 => expected = s.load.accepted
        | 3 => b.headerPresent = true ∧ b.step ∈ [1, 2, 5, 10, 20, 50, 100] ∧ 1 ≤ b.cap ∧ b.cap ≤ 1000000
        | 4 => ∃ p ∈ b.products.toList, p.defined = true
        | 5 => ∀ p ∈ b.products.toList, p.defined = true → b.bandTable p.bandTable ≠ [] ∧ (b.zoneMap p.zoneMap).written = true
        | 6 => ∀ t ∈ b.bandTables.toList, t.Pairwise (· < ·) ∧ ∀ x ∈ t, 1 ≤ x ∧ x ≤ 6000
        | 7 => ∀ m ∈ b.zoneMaps.toList, ∀ e ∈ m.entries, e.2 ≤ 7 ∨ e.2 = 15
        | 8 => ∀ p ∈ b.products.toList, p.defined = true → ∀ n, p.upgrade = some n → (b.product n).defined = true
        | 9 => ∀ e ∈ b.surcharges, e.amountKind = .percent → e.amount ≤ 1000
        | _ => True
      (b.firstFailure s.load expected = none →
        exec (.tableEnd h expected) s =
          .next ((State.accept { s with banks := s.banks.set id { b with state := .ready } } h.number .tableEnd
            (.loadReady b.tariffId s.load.accepted)).post .tableReady none [])) ∧
      (∀ check, b.firstFailure s.load expected = some check →
        exec (.tableEnd h expected) s =
          .next ((State.accept { s with banks := s.banks.set id { b with state := .invalid } } h.number .tableEnd
            (.loadInvalid check s.load.accepted)).post .tableInvalid none [some check])) ∧
      (∀ k, b.firstFailure s.load expected = some k ↔ (1 ≤ k ∧ k ≤ 9) ∧ ¬passes k ∧ ∀ i, 1 ≤ i → i < k → passes i) ∧
      (b.firstFailure s.load expected = none ↔ ∀ i, 1 ≤ i → i ≤ 9 → passes i))

/-- An accepted TABLE_SEGMENT (R55 to R59): what each group writes into the loading bank; the segment is counted, and the reply carries the count and
the flawed mark. -/
def Obligations.SegmentsAreWritten : Prop :=
  ∀ (h : ReqHead) (s : State) (id : BankId), s.Takes h .tableSegment → s.banks.loading = some id →
    let b := s.banks.get id
    let count := min (s.load.accepted + 1) 65535
    let written (b : Bank) : Host.Outcome State Fault Refusal :=
      .next (State.accept { s with banks := s.banks.set id b, load := { s.load with accepted := count } } h.number .tableSegment
        (.segment count s.load.flawed))
    (∀ day mode step cap m, [RoundingMode.up, .nearest, .down][mode]? = some m →
      exec (.headerSegment h day mode step cap) s =
        written { b with effectiveDay := day, rounding := m, step := step, cap := cap, headerPresent := true }) ∧
    (∀ n p, n ≤ 15 →
      p.bandTable ≤ 7 ∧ p.zoneMap ≤ 3 ∧ (if p.defined then 1 else 0) ≤ p.maxWeight ∧ p.maxWeight ≤ 6000 ∧ p.maxLength ≤ 6000 ∧ p.maxHeight ≤ 6000 ∧
        p.maxThickness ≤ 500 ∧ (∀ u, p.upgrade = some u → u ≤ 15) ∧ p.noReadColumn ≤ 7 →
      exec (.productSegment h n p) s = written { b with products := b.products.setIfInBounds n p }) ∧
    (∀ t bs, t ≤ 7 → bs.length ≤ 24 → exec (.bandTableSegment h t bs) s = written { b with bandTables := b.bandTables.setIfInBounds t bs }) ∧
    (∀ m first es, m ≤ 3 → first ≤ 224 →
      exec (.zoneBlockSegment h m first es) s =
        written
          { b with zoneMaps := b.zoneMaps.setIfInBounds m { entries := Table.setRun 15 (b.zoneMap m).entries first es, written := true } }) ∧
    (∀ position f condition kind,
      [Condition.always, .thickOver, .lengthOver, .heightOver, .weightOver, .nonMachinable, .noRead, .zoneAtLeast][f.condition]? = some condition →
      [AmountKind.fixed, .percent][f.amountKind]? = some kind → position ≤ 15 → position ≤ b.surcharges.length →
      let e : Surcharge := { mask := f.mask, condition, threshold := f.threshold, amountKind := kind, amount := f.amount, last := f.last }
      exec (.surchargeSegment h position f) s =
        written { b with surcharges := if position = b.surcharges.length then b.surcharges ++ [e] else b.surcharges.set position e }) ∧
    (∀ start vs f, 1 ≤ vs.length → vs.length ≤ 24 → f + vs.length ≤ 1536 →
      (start = .flat f ∨ ∃ t b z, start = .coordinate t b z ∧ t ≤ 7 ∧ 1 ≤ b ∧ b ≤ 24 ∧ z ≤ 7 ∧ f = (t * 24 + (b - 1)) * 8 + z) →
      exec (.priceRunSegment h start vs) s = written { b with prices := Table.setRun 65535 b.prices f vs })

/-- A TABLE_SEGMENT that is not accepted (R55 to R59): refused NOT_LOADING with no bank loading, else out of range, refused BAD_VALUE with the flawed
mark set and nothing written. -/
def Obligations.SegmentsOutOfRange : Prop :=
  ∀ (h : ReqHead) (s : State), s.Takes h .tableSegment →
    (∀ c, isSegment c = true → requestOf c = some (h, .tableSegment) → s.banks.loading = none →
      exec c s = .next (s.refuse h.number 0x49 .notLoading (.segment s.load.accepted s.load.flawed))) ∧
    (∀ id, s.banks.loading = some id →
      let b := s.banks.get id
      let flawed : Host.Outcome State Fault Refusal :=
        .next (State.refuse { s with load := { s.load with flawed := true } } h.number 0x49 .badValue (.segment s.load.accepted true))
      (∀ day mode step cap, 3 ≤ mode → exec (.headerSegment h day mode step cap) s = flawed) ∧
      (∀ n p,
        let inRange :=
          p.bandTable ≤ 7 ∧ p.zoneMap ≤ 3 ∧ (if p.defined then 1 else 0) ≤ p.maxWeight ∧ p.maxWeight ≤ 6000 ∧ p.maxLength ≤ 6000 ∧ p.maxHeight ≤ 6000 ∧
            p.maxThickness ≤ 500 ∧ (∀ u, p.upgrade = some u → u ≤ 15) ∧ p.noReadColumn ≤ 7
        15 < n ∨ ¬inRange → exec (.productSegment h n p) s = flawed) ∧
      (∀ t bs, 7 < t ∨ 24 < bs.length → exec (.bandTableSegment h t bs) s = flawed) ∧
      (∀ m first es, 3 < m ∨ 224 < first → exec (.zoneBlockSegment h m first es) s = flawed) ∧
      (∀ position f, 7 < f.condition ∨ 1 < f.amountKind ∨ 15 < position ∨ b.surcharges.length < position →
        exec (.surchargeSegment h position f) s = flawed) ∧
      (∀ start vs,
        let outside :=
          (∃ t b z, start = .coordinate t b z ∧ (7 < t ∨ b < 1 ∨ 24 < b ∨ 7 < z ∨ 1536 < (t * 24 + (b - 1)) * 8 + z + vs.length)) ∨
            (∃ f, start = .flat f ∧ (1535 < f ∨ 1536 < f + vs.length)) ∨ ∃ c, start = .unknownForm c
        vs = [] ∨ 24 < vs.length ∨ outside → exec (.priceRunSegment h start vs) s = flawed) ∧
      (∀ group, exec (.unknownSegmentGroup h group) s = flawed))

/-- BANK_SWITCH (R62 to R65): the refusals in their order, a switch taken at once, and a switch that waits. That the reply SWITCHED of
AT_DATE carries no tariff id is the model's choice (log 9), and so is that a mode of no meaning, carried in BANK_SWITCH_IMMEDIATE, is refused before the
other tests, with the modes 1 and 2, which have commands of their own, refused there too (log 11). -/
def Obligations.BankSwitchRequests : Prop :=
  ∀ (h : ReqHead) (bank : Nat) (s : State), s.Takes h .bankSwitch →
    (∀ mode, mode ≠ 0 → exec (.bankSwitchImmediate h bank mode) s = .next (s.refuse h.number 0x4B .badValue)) ∧
    (∀ c ∈ [Instr.bankSwitchImmediate h bank 0, .bankSwitchAtDate h bank, .bankSwitchAtJob h bank],
      (2 ≤ bank → exec c s = .next (s.refuse h.number 0x4B .badValue)) ∧
      (∀ id, BankId.ofCode bank = some id → (s.banks.get id).state = .active → exec c s = .next (s.refuse h.number 0x4B .bankActive)) ∧
      (∀ id, BankId.ofCode bank = some id → (s.banks.get id).state ∉ [BankState.active, .ready] →
        exec c s = .next (s.refuse h.number 0x4B .notReadyBank))) ∧
    (∀ id, BankId.ofCode bank = some id → (s.banks.get id).state = .ready →
      let pending (mode : PendingMode) : Host.Outcome State Fault Refusal :=
        .next (State.accept { s with pendingSwitch := some { target := id, mode } } h.number .bankSwitch .switchPending)
      let unsettled := s.pieces.filter fun p => !p.state.settled
      let due := s.mailingDate.any fun day => decide ((s.banks.get id).effectiveDay ≤ day)
      (s.mailingDate = none → exec (.bankSwitchImmediate h bank 0) s = .next (s.refuse h.number 0x4B .noDate)) ∧
      (s.mailingDate.isSome = true → due = false → exec (.bankSwitchImmediate h bank 0) s = .next (s.refuse h.number 0x4B .notYetEffective)) ∧
      (due = true →
        exec (.bankSwitchImmediate h bank 0) s =
          .next (((s.switchTo id none).accept h.number .bankSwitch (.switchedNow (s.banks.get id).tariffId)).passRatings unsettled)) ∧
      (due = true →
        exec (.bankSwitchAtDate h bank) s =
          .next (((s.switchTo id none).accept h.number .bankSwitch .switchedAtDate).passRatings unsettled)) ∧
      (due = false → exec (.bankSwitchAtDate h bank) s = pending .atDate) ∧
      exec (.bankSwitchAtJob h bank) s = pending .atJob)

/-- A bank switch (R66): the target becomes ACTIVE and the bank that was ACTIVE READY, the pending switch is cleared, the rating unit is told, every
unsettled piece is rated again from the head on, and BANK_SWITCHED is posted, with the tag of the piece whose ENTER took the switch (R172). The head WAITING
job becomes CURRENT where none is, and takes a pending AT_JOB switch (R65, R141). That an OPEN piece without a measurement is rated with the others is the
model's choice (log 23). -/
def Obligations.BankSwitchWork : Prop :=
  (∀ (target : BankId) (tag : Option Nat) (s : State), (s.banks.get target).state ≠ .active → ¬(s.banks.a.state = .active ∧ s.banks.b.state = .active) →
    let t := s.switchTo target tag
    ((t.banks.get target).state = .active ∧
      (t.banks.get target.other).state =
        (if (s.banks.get target.other).state = .active then .ready else (s.banks.get target.other).state) ∧
      t.pendingSwitch = none ∧ t.ratingRef = some target) ∧
    (let switched : State :=
        { s with
          banks :=
            (s.banks.set target { s.banks.get target with state := .active }).set target.other
              { s.banks.get target.other with
                state := if (s.banks.get target.other).state = .active then .ready else (s.banks.get target.other).state }
          pendingSwitch := none, ratingRef := some target }
      let old := if (s.banks.get target.other).state = .active then some target.other else none
      t = State.post (((s.pieces.filter fun p => !p.state.settled).map (·.tag)).foldl State.rateAgain switched) .bankSwitched tag
        [some target.code, some (s.banks.get target).tariffId, old.map BankId.code, old.map fun o => (s.banks.get o).tariffId])) ∧
  (∀ (tag : Option Nat) (s : State),
    (s.currentJob.isSome = true ∨ s.jobs.find? (fun j => decide (j.state = .waiting)) = none → s.makeJobCurrent tag = s) ∧
    (∀ j, s.currentJob = none → s.jobs.find? (fun j => decide (j.state = .waiting)) = some j →
      let promoted : State := { s with jobs := s.jobs.map fun x => if x.slot == j.slot then { x with state := .current } else x }
      ((∀ x, s.pendingSwitch = some x → x.mode = .atDate) → s.makeJobCurrent tag = promoted) ∧
      (∀ target, s.pendingSwitch = some { target, mode := .atJob } → s.makeJobCurrent tag = promoted.switchTo target tag) ∧
      (s.ListsSafe → (s.makeJobCurrent tag).currentJob.map (·.slot) = some j.slot)))

/-! ## The job list -/

/-- JOB_ADD (R140, R141, R65): the head WAITING record, the new one or one ahead of it, becomes CURRENT where no record is. -/
def Obligations.JobAddAppendsAJob : Prop :=
  ∀ (h : ReqHead) (v : JobFields) (s : State), s.Takes h .jobAdd →
    (15 < v.product ∨ 7 < v.column ∨ 1 < v.zoneMode → exec (.jobAdd h v) s = .next (s.refuse h.number 0x58 .badValue)) ∧
    (v.product ≤ 15 → v.column ≤ 7 → ∀ z, ZoneMode.ofCode v.zoneMode = some z →
      ((∃ j ∈ s.jobs, j.values.id = v.id) → exec (.jobAdd h v) s = .next (s.refuse h.number 0x58 .jobIdInUse)) ∧
      ((∀ j ∈ s.jobs, j.values.id ≠ v.id) → 4 ≤ s.jobs.length → exec (.jobAdd h v) s = .next (s.refuse h.number 0x58 .jobListFull)) ∧
      ((∀ j ∈ s.jobs, j.values.id ≠ v.id) → s.jobs.length < 4 →
        ∀ slot, slot < 4 → (∀ j ∈ s.jobs, j.slot ≠ slot) → (∀ k, k < slot → ∃ j ∈ s.jobs, j.slot = k) →
        let alone := s.currentJob = none ∧ ∀ j ∈ s.jobs, j.state ≠ .waiting
        let record : Job :=
          { slot, state := .waiting, entered := 0, printed := 0, diverted := 0, inList := 0
            values :=
              { id := v.id, product := v.product, count := v.count, margin := min v.margin 50, guardBand := min v.guardBand 200, zoneMode := z
                column := v.column, overrideAllowed := v.overrideAllowed } }
        let clamped := decide (50 < v.margin) || decide (200 < v.guardBand)
        let replied (u : State) (state : JobState) : State :=
          u.acceptClamped h.number .jobAdd clamped (.jobAdded slot state (s.banks.active.all fun id => !((s.banks.get id).product v.product).defined))
        let promoted (j : Job) : List Job := s.jobs.map fun x => if x.slot == j.slot then { x with state := .current } else x
        let unsettled := s.pieces.filter fun p => !p.state.settled
        let noSwitch := ∀ x, s.pendingSwitch = some x → x.mode = .atDate
        (s.currentJob.isSome = true → exec (.jobAdd h v) s = .next (replied { s with jobs := s.jobs ++ [record] } .waiting)) ∧
        (alone → noSwitch → exec (.jobAdd h v) s = .next (replied { s with jobs := s.jobs ++ [{ record with state := .current }] } .current)) ∧
        (∀ target, alone → s.pendingSwitch = some { target, mode := .atJob } →
          exec (.jobAdd h v) s =
            .next ((replied (State.switchTo { s with jobs := s.jobs ++ [{ record with state := .current }] } target none) .current).passRatings
              unsettled)) ∧
        (∀ j, s.currentJob = none → s.jobs.find? (fun j => decide (j.state = .waiting)) = some j →
          (noSwitch → exec (.jobAdd h v) s = .next (replied { s with jobs := promoted j ++ [record] } .waiting)) ∧
          (∀ target, s.pendingSwitch = some { target, mode := .atJob } →
            exec (.jobAdd h v) s =
              .next ((replied (State.switchTo { s with jobs := promoted j ++ [record] } target none) .waiting).passRatings unsettled)))))

/-- JOB_ABORT (R145, R144). -/
def Obligations.JobAbortClosesAJob : Prop :=
  ∀ (h : ReqHead) (id : Nat) (s : State), s.ListsSafe → s.Takes h .jobAbort →
    ((∀ j ∈ s.jobs, j.values.id ≠ id) → exec (.jobAbort h id) s = .next (s.refuse h.number 0x59 .unknownJob)) ∧
    (∀ j ∈ s.jobs, j.values.id = id →
      let remaining := if j.values.count = 0 then 0 else j.values.count - j.entered
      let closed : State := { s with jobs := s.jobs.map fun x => if x.slot == j.slot then { x with state := .closed } else x }
      (j.state = .closed → exec (.jobAbort h id) s = .next (s.accept h.number .jobAbort (.jobAborted .closed false remaining))) ∧
      (j.state ≠ .closed → j.inList ≠ 0 →
        exec (.jobAbort h id) s = .next (closed.accept h.number .jobAbort (.jobAborted j.state false remaining))) ∧
      (j.state ≠ .closed → j.inList = 0 →
        exec (.jobAbort h id) s =
          .next ((State.post { s with jobs := s.jobs.filter fun x => x.slot != j.slot } .done none
            [some j.values.id, some j.entered, some j.printed, some j.diverted]).accept h.number .jobAbort
              (.jobAborted j.state true remaining))))

/-! ## The condition monitors -/

/-- The result of a monitor (R152): its mask has a flag set, and some (ANY) or every (ALL) watched flag equals the polarity. A monitor that watches one
flag gives one result under both; one that watches none never acts, and power-on leaves all four so. -/
def Obligations.MonitorResult : Prop :=
  (∀ (m : MonitorSettings) (word : Flags16),
    let watched (i : Nat) : Prop := i < 16 ∧ m.mask.getLsbD i = true
    let equals (i : Nat) : Prop := word.getLsbD i = decide (m.polarity = .high)
    (m.function = .any → (m.result word = true ↔ ∃ i, watched i ∧ equals i)) ∧
    (m.function = .all → (m.result word = true ↔ (∃ i, watched i) ∧ ∀ i, watched i → equals i)) ∧
    (m.mask = 0#16 → m.result word = false ∧ ∀ previous, Monitor.acts { settings := m, previous } word = false) ∧
    (∀ i, watched i → (∀ k, watched k → k = i) → m.result word = decide (word.getLsbD i = decide (m.polarity = .high)))) ∧
  (∀ (s : State) (service : Bool) (t : State), exec (.powerOn service) s = .next t → ∀ i : Fin 4, t.monitors[i].settings.mask = 0#16)

/-- LINE_STATUS (R150, R153 to R158): the word and the results are kept; one STOP_REQUEST lists the acting monitors of action STOP, HALT or LOCK; the
actions are carried out in number order; LOCK wins over HALT and HALT over STOP. -/
def Obligations.LineStatusIsEvaluated : Prop :=
  ∀ (word : Flags16) (s : State), s.power = .on → s.franking ≠ .unconfigured →
    let acting := ([0, 1, 2, 3] : List (Fin 4)).filter fun i => s.monitors[i].settings.result word && !s.monitors[i].previous
    let stopping := acting.filter fun i => decide (s.monitors[i].settings.action ≠ .notify)
    let evaluated : State :=
      { s with sensorWord := word, monitors := s.monitors.map fun m => { m with previous := m.settings.result word } }
    let stopped : State := if stopping = [] then evaluated else evaluated.sendLine (.stopMonitors (stopping.map (·.val)) word)
    (∃ t, exec (.lineStatus word) s = .next t ∧ t.sensorWord = word ∧ t.monitors = evaluated.monitors ∧
      ((∃ i ∈ acting, s.monitors[i].settings.action = .lock) → t.franking = .lockout ∧ (s.franking = .lockout ∨ t.lockoutFlag = true)) ∧
      ((∀ i ∈ acting, s.monitors[i].settings.action ≠ .lock) → (∃ i ∈ acting, s.monitors[i].settings.action = .halt) →
        t.franking = if s.franking = .lockout then .lockout else .halted) ∧
      ((∃ i ∈ acting, s.monitors[i].settings.action = .stop) → t.causes = { s.causes with monitor := true })) ∧
    (acting = [] → exec (.lineStatus word) s = .next evaluated) ∧
    (let act (u : State) (i : Fin 4) : State :=
        let figures := [some i.val, some word.toNat]
        match s.monitors[i].settings.action with
        | .notify => u.post .monitorNotify none figures
        | .stop => (u.setCauses { u.causes with monitor := true }).post .monitorStop none figures
        | .halt => State.post { u with franking := if u.franking = .lockout then .lockout else .halted } .monitorHalt none figures
        | .lock => u.raiseAbort .monitorLock none figures
      exec (.lineStatus word) s = .next (acting.foldl act stopped))

/-- MONITOR_SET (R159): the four settings are replaced, the previous result is false, and the reply forecasts the result for the last word. -/
def Obligations.MonitorSetReplacesSettings : Prop :=
  ∀ (h : ReqHead) (v : MonitorFields) (s : State), s.Takes h .monitorSet →
    (3 < v.number ∨ 1 < v.polarity ∨ 1 < v.function ∨ 3 < v.action →
      exec (.monitorSet h v) s = .next (s.refuse h.number 0x5C .badValue)) ∧
    (∀ (i : Fin 4) (m : MonitorSettings), v.number = i.val → m.mask = v.mask → m.polarity.code = v.polarity → m.function.code = v.function →
      m.action.code = v.action →
      exec (.monitorSet h v) s =
        .next (State.accept { s with monitors := s.monitors.set i { settings := m, previous := false } } h.number .monitorSet
          (.monitor m (m.result s.sensorWord))))

/-! ## The franking state, errors and the pins -/

/-- HOLD, RESUME and CLEAR_HALT (R166, R167, R169), and the reply of a HOLD that waited. A return to RUNNING is told to the commit unit (R119). -/
def Obligations.HoldResumeClear : Prop :=
  ∀ (h : ReqHead) (s : State),
    let held : State :=
      { s with causes := { s.causes with operator := true }, franking := if s.franking = .running then .held else s.franking }
    (s.Takes h .hold → s.slot = none →
      exec (.hold h) s = .next (held.accept h.number .hold (.franking held.franking held.causes))) ∧
    (s.Takes h .hold → s.slot.isSome = true → exec (.hold h) s = .next { held with holdWaiting := s.holdWaiting ++ [h.number] }) ∧
    (s.power = .on → s.slot = none →
      exec .holdReply s =
        .next
          { s.holdWaiting.foldl (fun u number => u.accept number .hold (.franking s.franking s.causes)) s with holdWaiting := [] }) ∧
    (s.power = .on → s.slot.isSome = true → exec .holdReply s = .next s) ∧
    (s.Takes h .resume → s.franking ≠ .held → exec (.resume h) s = .next (s.refuse h.number 0x61 .badState)) ∧
    (s.Takes h .resume → s.franking = .held →
      let causes : HoldCauses := { operator := false, monitor := false, error := false, power := s.causes.power }
      let franking : FrankingState := if s.causes.power then .held else .running
      let released := State.accept { s with causes, franking } h.number .resume (.franking franking causes)
      exec (.resume h) s = .next (if s.causes.power then released else released.commitTest)) ∧
    (s.Takes h .clearHalt → s.franking ≠ .halted → exec (.clearHalt h) s = .next (s.refuse h.number 0x62 .badState)) ∧
    (s.Takes h .clearHalt → s.franking = .halted → s.capture.isSome = true →
      exec (.clearHalt h) s = .next (s.refuse h.number 0x62 .captureUnread)) ∧
    (s.Takes h .clearHalt → s.franking = .halted → s.capture = none →
      let causes : HoldCauses := { operator := true, monitor := false, error := false, power := s.pins.pfw }
      exec (.clearHalt h) s = .next (State.accept { s with causes, franking := .held } h.number .clearHalt (.franking .held causes)))

/-- FETCH_CAPTURE (R177): the reply carries the capture, which becomes empty; no other request empties it; CLEAR_HALT is then no longer refused
CAPTURE_UNREAD. -/
def Obligations.FetchCaptureEmptiesTheCapture : Prop :=
  (∀ (h : ReqHead) (s : State), s.Takes h .fetchCapture →
    exec (.fetchCapture h) s = .next (State.accept { s with capture := none } h.number .fetchCapture (.capture s.capture))) ∧
  (∀ (h : ReqHead) (s : State), s.power = .on → h.lenOk = true → s.franking ∈ [FrankingState.running, .held, .halted, .lockout] →
    s.Takes h .fetchCapture) ∧
  (∀ (c : Instr) (k : ReqHead × RequestKind) (s t : State), requestOf c = some k → k.2 ≠ .fetchCapture → s.capture.isSome = true →
    exec c s = .next t → t.capture.isSome = true) ∧
  (∀ (h h' : ReqHead) (s t u : State), s.Takes h .fetchCapture → s.Takes h' .clearHalt → s.franking = .halted →
    exec (.fetchCapture h) s = .next t → exec (.clearHalt h') t = .next u → u.franking = .held)

/-- The errors (R174 to R176, R170): what a contributory and an abort error do to the franking state, the causes, the lockout flag and the capture; the
cause is posted last. -/
def Obligations.ErrorsActByClass : Prop :=
  ∀ (code : CauseCode) (tag : Option Nat) (detail : List (Option Nat)) (s : State),
    let captured (cls : ErrorClass) : Capture :=
      match s.capture with
      | some c => { c with secondary := min (c.secondary + 1) 255 }
      | none =>
        { errorClass := cls, code, tag, before := s.franking, d := s.accounts.d, e := s.accounts.e, pieceCount := s.pieces.length, detail
          secondary := 0 }
    let held : State := { s with causes := { s.causes with error := true }, franking := .held }
    let run (u : State) : State := State.post { u with capture := some (captured .contributory) } code tag detail
    let lock (u : State) : State := State.post { u with capture := some (captured .abort) } code tag detail
    (s.franking = .running → s.raiseContributory code tag detail = run held) ∧
    (s.franking = .held → s.causes.error = false → s.raiseContributory code tag detail = run held) ∧
    (s.franking = .held → s.causes.error = true → s.raiseContributory code tag detail = run { s with franking := .halted }) ∧
    (s.franking = .halted ∨ s.franking = .lockout → s.raiseContributory code tag detail = run s) ∧
    (s.serving = true → s.raiseAbort code tag detail = lock { s with lockoutFlag := true, franking := .lockout }) ∧
    (s.franking = .lockout → s.raiseAbort code tag detail = lock s)

/-- The PFW pin (R168): POWER is in the set of hold causes exactly while the pin is asserted; RUNNING and HELD follow the set, and a return to RUNNING
is told to the commit unit (R119). -/
def Obligations.PfwFollowsThePin : Prop :=
  ∀ s : State, s.power = .on →
    let follows (empty : Bool) : FrankingState :=
      if s.franking = .running ∨ s.franking = .held then (if empty then .running else .held) else s.franking
    let others := s.causes.operator || s.causes.monitor || s.causes.error
    let released : State :=
      { s with pins := { s.pins with pfw := false }, causes := { s.causes with power := false }, franking := follows !others }
    exec .pfwAssert s =
      .next { s with pins := { s.pins with pfw := true }, causes := { s.causes with power := true }, franking := follows false } ∧
    exec .pfwRelease s =
      .next (if s.franking = .held ∧ others = false then released.commitTest else released)

/-- RESET, loss of power and power-on (R100, R115, R164, R168, R68, R200): the write under way has its whole effect or none, the queue is lost, the
nonvolatile store is kept; at power-on the lockout flag and SERVICE decide the state and every open order gets a SPOIL, oldest first. What a part in reset and one
without power hold, and that a part which still works loses its power before a POWER_ON, are the model's choices (log 8). -/
def Obligations.PowerEvents : Prop :=
  ∀ s : State,
    let settled (a : Accounts) : Prop :=
      a = s.accounts ∨ (s.writeBegun = true ∧ ∃ w rest, s.queue = w :: rest ∧ a = s.accounts.apply s.mailingDate w)
    (s.power = .on → ∃ a i, settled a ∧
      exec .resetAssert s =
        .next
          { s with
            pins := { s.pins with reset := true }, accounts := a, freeIndex := i, queue := [], writeBegun := false, power := .inReset }) ∧
    (s.power ≠ .on → exec .resetAssert s = .next { s with pins := { s.pins with reset := true } }) ∧
    (∃ a i, settled a ∧
      exec .powerLoss s =
        .next
          { State.reset with
            pending := s.pending, pins := s.pins, freeIndex := i, banks := s.banks, accounts := a, lockoutFlag := s.lockoutFlag
            power := .off }) ∧
    (∀ service, ∃ a i, settled a ∧
      let invalidated (b : Bank) : Bank := if b.state = .loading then { b with state := .invalid } else b
      let banks : Banks := { a := invalidated s.banks.a, b := invalidated s.banks.b }
      let lockout := s.lockoutFlag && !service
      exec (.powerOn service) s =
        .next
          { State.reset with
            pending := s.pending, freeIndex := i, accounts := a, banks, power := .on
            pins := { reset := false, service, pfw := s.pins.pfw }
            ratingRef := if s.banks.a.state = .active then some .a else if s.banks.b.state = .active then some .b else none
            lockoutFlag := lockout
            franking := if lockout then .lockout else .unconfigured
            causes := { operator := false, monitor := false, error := false, power := s.pins.pfw }
            queue := a.openOrders.map fun o => .close .spoil o.tag o.n .powerOn })

/-! ## The postage accounts -/

/-- CREDIT and DATE taken (R109, R111): the tests in their order; the CREDIT's reply waits for its write. -/
def Obligations.CreditAndDateRequests : Prop :=
  (∀ (h : ReqHead) (number amount : Nat) (s : State), s.Takes h .credit →
    let a := s.accounts
    let busy := ∃ w ∈ s.queue, w.isCredit = true
    (busy → exec (.credit h number amount) s = .next (s.refuse h.number 0x50 .busy)) ∧
    (¬busy → amount = 0 → exec (.credit h number amount) s = .next (s.refuse h.number 0x50 .badValue)) ∧
    (¬busy → amount ≠ 0 → number ≠ (a.creditNumber + 1) % 4294967296 →
      exec (.credit h number amount) s = .next (s.refuse h.number 0x50 .creditSequence)) ∧
    (¬busy → amount ≠ 0 → number = (a.creditNumber + 1) % 4294967296 → 99999999 < a.d + a.e + amount →
      exec (.credit h number amount) s = .next (s.refuse h.number 0x50 .creditLimit)) ∧
    (¬busy → amount ≠ 0 → number = (a.creditNumber + 1) % 4294967296 → a.d + a.e + amount ≤ 99999999 →
      exec (.credit h number amount) s = .next { s with queue := s.queue ++ [.credit h.number number amount] })) ∧
  (∀ (h : ReqHead) (day : Nat) (s : State), s.Takes h .date →
    let dated : State := { s with mailingDate := some day }
    (∀ last, s.accounts.lastUsed = some last → day < last → exec (.date h day) s = .next (s.refuse h.number 0x51 .dateBackward)) ∧
    (∀ last, s.accounts.lastUsed = some last → last + 31 < day → exec (.date h day) s = .next (s.refuse h.number 0x51 .dateTooFar)) ∧
    ((∀ last, s.accounts.lastUsed = some last → last ≤ day ∧ day ≤ last + 31) →
      ((∀ x, s.pendingSwitch = some x → x.mode = .atJob ∨ day < (s.banks.get x.target).effectiveDay) →
        exec (.date h day) s = .next (dated.accept h.number .date .nothing).commitTest) ∧
      (∀ x, s.pendingSwitch = some x → x.mode = .atDate → (s.banks.get x.target).effectiveDay ≤ day →
        exec (.date h day) s = .next ((dated.switchTo x.target none).accept h.number .date .nothing).commitTest)))

/-- CREDIT_COMPLETE (R105): D and T rise by the amount, the credit number becomes the number carried, the reply is sent, the commit unit is told; no order
is opened and E, A and N stand. The next write begins. -/
def Obligations.CreditCompletes : Prop :=
  ∀ (request number amount : Nat) (rest : List Write) (s : State), s.power = .on → s.queue = .credit request number amount :: rest →
    let a := s.accounts
    let credited : Accounts := { a with d := a.d + amount, t := a.t + amount, creditNumber := number }
    let told : State :=
      State.commitTest (State.accept { s with accounts := credited, queue := rest, writeBegun := false } request .credit
        (.credited (a.d + amount) (a.t + amount) number))
    credited.e = a.e ∧ credited.a = a.a ∧ credited.n = a.n ∧ credited.openOrders = a.openOrders ∧
      exec .creditComplete s = .next { told with writeBegun := !told.queue.isEmpty }

/-- COMMIT_COMPLETE (R101, R108, R113, R122, R123): the registers, the print order or the closing write of an order withheld, LOW at a crossing of the
threshold, and the next write. No closing write of the new N waits in the queue of a state that the invariant describes, so that of an order withheld is
always taken (R99). That the HOLD replies stand before the records of the candidate test, and LOW after them, is the model's choice (log 15). -/
def Obligations.CommitCompletes : Prop :=
  ∀ (tag p day : Nat) (rest : List Write) (slot : CommitSlot) (s : State), s.power = .on → s.queue = .commit tag p :: rest →
    s.slot = some slot → s.mailingDate = some day →
    let a := s.accounts
    let n := a.n + 1
    let k := (7 * p + 3 * (n % 100000) + 11 * day + a.serial % 10000 + (a.a + (a.e + p)) % 100000) % 9973
    let debited : Accounts :=
      { a with d := a.d - p, e := a.e + p, n, lastUsed := some day, openOrders := a.openOrders ++ [{ tag, n, p }] }
    let performed : State := { s with accounts := debited, queue := rest, writeBegun := false }
    let data : CommitData := { n, p, ascending := a.a + (a.e + p), k }
    let filled (st : PieceState) (u : State) : State :=
      u.updatePiece slot.tag fun q => if q.state = .committing then { q with commitData := some data, state := st } else q
    let finish (u : State) : State :=
      let v := if s.settings.lowThreshold ≤ a.d ∧ a.d - p < s.settings.lowThreshold then
          u.post .low (some tag) [some (a.d - p), some s.settings.lowThreshold]
        else u
      { v with writeBegun := !v.queue.isEmpty }
    let removed := ((s.piece? slot.tag).map (·.flags.removeRequested)) = some true
    let queued (kind : CloseKind) (q : List Write) : List Write :=
      if q.any fun w => match w with | .close _ _ m _ => m == n | _ => false then q else q ++ [.close kind slot.tag n .commitUnit]
    let withheld (u : State) (w : WithheldCause) (kind : CloseKind) : State :=
      { u with slot := some { slot with phase := .followUp, withheld := some w }, queue := queued kind rest }
    (s.AccountsSafe → ∀ kind, queued kind rest = rest ++ [.close kind slot.tag n .commitUnit]) ∧
    (slot.withheld = some .lineReset → exec .commitComplete s = .next (finish (withheld performed .lineReset .spoil))) ∧
    (slot.withheld ≠ some .lineReset → removed →
      exec .commitComplete s = .next (finish (withheld (filled .committing performed) .remove .void))) ∧
    (slot.withheld ≠ some .lineReset → ¬removed → s.franking = .lockout →
      exec .commitComplete s = .next (finish (withheld (filled .committing performed) .lockout .void))) ∧
    (slot.withheld ≠ some .lineReset → ¬removed → s.franking ≠ .lockout →
      let ordered : State :=
        { (filled .committed performed).sendPrint
            (.order { tag := slot.tag, n, p, date := day, ascending := data.ascending, k, fields := slot.order }) with
          orders := s.orders ++ [{ tag := slot.tag, n, p, taken := false, duration := s.settings.tTake }], slot := none, holdWaiting := [] }
      let answered := s.holdWaiting.foldl (fun u number => u.accept number .hold (.franking s.franking s.causes)) ordered
      exec .commitComplete s = .next (finish answered.commitTest)) ∧
    k ≤ 9972

/-- CONFIRM_COMPLETE, VOID_COMPLETE and SPOIL_COMPLETE (R102, R103, R104, R117, R123, R129): the money of the open order moves as its write gives; the
piece that holds the N ends; a write of the commit unit empties the slot and answers the HOLD requests that wait; a SPOIL that a LINE_RESET reply waits for
is counted off, and the last sends the reply (R116, R196). The commit unit is told of a VOID, of a slot emptied and of a record that leaves the
list (R119). With the invariant that `StepKeepsTheOrderBounds` keeps, a write of power-on or of a line reset finds no piece that holds the N (R6). The order
of the piece's records, the HOLD replies, the LINE_RESET reply and the candidate test is the model's choice (log 15). -/
def Obligations.ClosingWritesComplete : Prop :=
  ∀ (kind : CloseKind) (tag n : Nat) (by_ : Requester) (rest : List Write) (o : OpenOrder) (s : State), s.power = .on →
    s.queue = .close kind tag n by_ :: rest → s.accounts.openOrders.find? (·.n == n) = some o →
    let a := s.accounts
    let orders := a.openOrders.filter (·.n != n)
    let closed : Accounts :=
      match kind with
      | .confirm => { a with e := a.e - o.p, a := a.a + o.p, printed := min (a.printed + 1) 4294967295, openOrders := orders }
      | .void => { a with e := a.e - o.p, d := a.d + o.p, voided := min (a.voided + 1) 4294967295, openOrders := orders }
      | .spoil => { a with e := a.e - o.p, a := a.a + o.p, spoiled := min (a.spoiled + 1) 4294967295, openOrders := orders }
    let command : Instr := match kind with | .confirm => .confirmComplete | .void => .voidComplete | .spoil => .spoilComplete
    let performed : State := { s with accounts := closed, queue := rest, writeBegun := false }
    let finish (u : State) : State := { u with writeBegun := !u.queue.isEmpty }
    let ended (u : State) (d : Disposition) : State :=
      match s.pieces.find? fun q => q.commitData.map (·.n) == some n with
      | none => u
      | some q => u.finalize q.tag d
    let byWrite : Disposition := match kind with | .confirm => .printed | .void => .voided | .spoil => .spoiled
    let answered (u : State) : State :=
      { u.holdWaiting.foldl (fun u number => u.accept number .hold (.franking u.franking u.causes)) u with holdWaiting := [] }
    let spoilDone (u : State) : State :=
      match u.resetWait with
      | none => u
      | some w =>
        if w.remaining ≤ 1 then State.accept { u with resetWait := none } w.request .lineReset (.lineReset w.spoils w.franking)
        else { u with resetWait := some { w with remaining := w.remaining - 1 } }
    let told :=
      kind = .void ∨ ∃ q, s.pieces.find? (fun q => q.commitData.map (·.n) == some n) = some q ∧ (q.flags.exited || q.flags.removeRequested) = true
    (by_ = .printPort ∨ by_ = .powerOn →
      (told → exec command s = .next (finish (ended performed byWrite).commitTest)) ∧
      (¬told → exec command s = .next (finish (ended performed byWrite)))) ∧
    (by_ = .lineReset →
      (told → exec command s = .next (finish (spoilDone (ended performed byWrite)).commitTest)) ∧
      (¬told → exec command s = .next (finish (spoilDone (ended performed byWrite))))) ∧
    (by_ ≠ .commitUnit → (∀ q ∈ s.pieces, q.commitData.map (·.n) ≠ some n) →
      let counted := if by_ = .lineReset then spoilDone performed else performed
      exec command s = .next (finish (if kind = .void then counted.commitTest else counted))) ∧
    (s.OrdersSafe → by_ = .powerOn ∨ by_ = .lineReset → ∀ q ∈ s.pieces, q.commitData.map (·.n) ≠ some n) ∧
    (∀ slot, by_ = .commitUnit → s.slot = some slot →
      let emptied : State := { performed with slot := none }
      (slot.withheld = some .remove → exec command s = .next (finish (answered (ended emptied .removed)).commitTest)) ∧
      (slot.withheld = some .lockout → exec command s = .next (finish (answered (ended emptied (.diverted .locked))).commitTest)) ∧
      (slot.withheld = some .lineReset → exec command s = .next (finish (spoilDone (answered emptied)).commitTest)))

/-- The start of a commit with its ceiling check, which on a failure diverts the piece LOCKED and raises ACCOUNT_CEILING with P and the ceiling that failed
(R107, R120, R176), and the fields of the piece that the slot keeps for the print order (R120, R126); the commit unit's test of its candidate, and its own two
steps (R106, R118 to R121): a RATED candidate that meets every condition starts its commit, and the next candidate is tested; one short of funds is posted
SHORT once, any other waits; a gate-committed one, once the slot is empty, is attempted as at its gate, and the next candidate is tested; WRITE_BEGIN begins
the write at the head of the queue (R100). The model's choices: the figure of the ceiling that failed, A 0, N 1 and both 2 (log 9); a piece short of funds at a
gate or gate-committed attempt is diverted with no SHORT posted (log 24); a field that the rating record lacks counts as 0 or clear (log 14). -/
def Obligations.CommitUnitStartsACommit : Prop :=
  let kept (p : Piece) : OrderFields :=
    { product := (p.rating.bind (·.ratedProduct)).getD 0, upgrades := (p.rating.bind (·.upgradeCount)).getD 0
      column := (p.rating.bind (·.zoneColumn)).getD 0, noReadDefault := (p.rating.bind (·.noReadDefault)).getD false
      rounded := (p.rating.bind (·.rounded)).getD false, tariffId := ((p.rating.bind (·.bank)).map (·.2)).getD 0
      estimate := p.flags.estimateCommitted }
  (∀ (p : Piece) (s : State),
    let high := decide (281474976710655 < s.accounts.a + s.accounts.e + p.postage)
    let last := decide (s.accounts.n = 4294967295)
    let order := kept p
    (high = false → last = false →
      s.startCommit p =
        State.updatePiece
          { s with
            queue := s.queue ++ [.commit p.tag p.postage]
            slot := some { tag := p.tag, p := p.postage, phase := .commit, withheld := none, order }
            fundsMark := none }
          p.tag fun q => { q with state := .committing, flags := { q.flags with gateCommitted := false } }) ∧
    (high = true ∨ last = true →
      s.startCommit p =
        (s.raiseAbort .accountCeiling (some p.tag) [some p.postage, some (if high then (if last then 2 else 0) else 1)]).finalize p.tag
          (.diverted .locked)) ∧
    (s.piece? p.tag = some p →
      s.attemptAtGate p.tag =
        match s.firstUnmet p with
        | none => s.startCommit p
        | some .inFlight => s.updatePiece p.tag fun q => { q with flags := { q.flags with gateCommitted := true } }
        | some (.reason r) => s.finalize p.tag (.diverted r)
        | some .beltOrder => s)) ∧
  (∀ s : State, s.power = .on →
    exec .commitStart s = .next s.commitTest ∧
    exec .writeBegin s = .next { s with writeBegun := !s.queue.isEmpty } ∧
    ((∀ p ∈ s.pieces, p.state.settled = true) → s.commitTest = s ∧ exec .gateCommittedCheck s = .next s) ∧
    (∀ p, s.pieces.find? (fun p => !p.state.settled) = some p →
      (p.state ≠ .rated → s.commitTest = s ∧ exec .gateCommittedCheck s = .next s) ∧
      (p.state = .rated → p.flags.gateCommitted = false ∨ s.slot.isSome = true → exec .gateCommittedCheck s = .next s) ∧
      (p.state = .rated → p.flags.gateCommitted = true → s.slot = none →
        exec .gateCommittedCheck s = .next (s.attemptAtGate p.tag).commitTest ∧ (s.ListsSafe → s.commitTest = (s.attemptAtGate p.tag).commitTest)) ∧
      (p.state = .rated → p.flags.gateCommitted = false ∨ s.slot.isSome = true →
        let conditions :=
          s.franking = .running ∧ s.mailingDate.isSome = true ∧ s.printer = .ready ∧
            s.orders.length + s.slot.isSome.toNat < s.settings.maxOutstanding
        ((∀ q ∈ s.ahead p.tag, q.state.settled = true) → conditions → p.postage ≤ s.accounts.d → s.slot = none →
          s.accounts.a + s.accounts.e + p.postage ≤ 281474976710655 → s.accounts.n ≠ 4294967295 →
          ∃ t, s.commitTest = t ∧ t.queue = s.queue ++ [.commit p.tag p.postage] ∧
            t.slot = some { tag := p.tag, p := p.postage, phase := .commit, withheld := none, order := kept p } ∧
            (t.piece? p.tag).map (·.state) = some .committing ∧ t.accounts = s.accounts) ∧
        (conditions → p.postage ≤ s.accounts.d → s.slot = none → (∀ q ∈ s.ahead p.tag, q.state.settled = true) →
          281474976710655 < s.accounts.a + s.accounts.e + p.postage ∨ s.accounts.n = 4294967295 →
          s.commitTest.franking = .lockout ∧ s.commitTest.lockoutFlag = true ∧ s.commitTest.queue = s.queue ∧ s.commitTest.slot = none) ∧
        (s.ListsSafe → conditions → p.postage ≤ s.accounts.d → s.slot = none → s.commitTest = (s.startCommit p).commitTest) ∧
        ((∀ q ∈ s.ahead p.tag, q.state.settled = true) → conditions → s.accounts.d < p.postage →
          s.commitTest =
            if s.fundsMark = some p.tag then s
            else State.post { s with fundsMark := some p.tag } .short (some p.tag) [some p.postage, some s.accounts.d]) ∧
        (¬conditions → s.commitTest = s) ∧
        (s.slot.isSome = true → p.postage ≤ s.accounts.d → s.commitTest = s))))

/-! ## The records the part sends -/

/-- The bytes of what the part sends (R190, R193, R197, R198, R199): numbers most significant byte first and flags as bits from bit 0; the frame and its
check; the codes of the enumerated values; the payloads of the line link and of the print link; a reply's parts, each of at most 55 result bytes, handed
over together; the results of each request. Where R198 leaves a byte open, the codes SWITCHED 0 and PENDING 1 of BANK_SWITCH among them, the model's
reading is log 9, for the head job record log 25. -/
def Obligations.OutboundRecordsAreLaidOut : Prop :=
  let flag (b : Bool) : List Byte := be 1 b.toNat
  let present (w : Nat) (v : Option Nat) : List Byte := be 1 v.isSome.toNat ++ be w (v.getD 0)
  let figures (l : List (Option Nat)) : List Byte := l.flatMap fun f => be 4 (f.getD 0)
  let head (c : Cause) (count : Nat) : List Byte :=
    be 1 c.code.code ++ be 1 (bits (c.tag.isSome :: c.detail.map Option.isSome)) ++ be 2 (c.tag.getD 0) ++ be 1 count
  let each (channels : Vector Channel 8) (f : Channel → Bool) : List Byte := be 1 (bits ((List.finRange 8).map fun c => f channels[c]))
  let causes (c : HoldCauses) : List Byte := be 1 (bits [c.operator, c.monitor, c.error, c.power])
  let settings (m : MonitorSettings) : List Byte := be 2 m.mask.toNat ++ be 1 m.polarity.code ++ be 1 m.function.code ++ be 1 m.action.code
  ((∀ w v, (be w v).length = w ∧ (be w v).foldl (fun x b => x * 256 + b.toNat) 0 = v % 256 ^ w) ∧
    (∀ bs i, (bits bs).testBit i = bs.getD i false) ∧
    (∀ bytes : List Byte,
      frameCheck bytes =
        (bytes.flatMap fun b => [7, 6, 5, 4, 3, 2, 1, 0].map b.getLsbD).foldl
          (fun (crc : BitVec 16) (bit : Bool) => if crc.msb != bit then (crc <<< 1) ^^^ 0x1021#16 else crc <<< 1) 0xFFFF#16) ∧
    (∀ kind payload,
      let covered := be 1 payload.length ++ be 1 kind ++ payload
      frame kind payload = [0xA5#8] ++ covered ++ be 2 (frameCheck covered).toNat)) ∧
  ([BankState.empty, .loading, .ready, .active, .invalid].map BankState.code = [0, 1, 2, 3, 4] ∧
    [FrankingState.unconfigured, .running, .held, .halted, .lockout].map FrankingState.code = [0, 1, 2, 3, 4] ∧
    [JobState.waiting, .current, .closed].map JobState.code = [0, 1, 2] ∧ [BankId.a, .b].map BankId.code = [0, 1] ∧
    [NoticeMode.pulse, .level].map NoticeMode.code = [0, 1] ∧ [PrinterState.ready, .notReady].map PrinterState.code = [0, 1] ∧
    [PendingMode.atDate, .atJob].map PendingMode.code = [1, 2] ∧ [ErrorClass.contributory, .abort].map ErrorClass.code = [0, 1] ∧
    [Polarity.high, .low].map Polarity.code = [0, 1] ∧ [MonitorFunction.any, .all].map MonitorFunction.code = [0, 1] ∧
    [MonitorAction.notify, .stop, .halt, .lock].map MonitorAction.code = [0, 1, 2, 3] ∧
    [ReplyOutcome.accepted, .clamped, .refused].map ReplyOutcome.code = [0, 1, 2] ∧
    ([ .badValue, .busy, .notLoading, .bankActive, .notReadyBank, .noDate, .notYetEffective, .creditSequence, .creditLimit, .dateBackward, .dateTooFar
     , .jobListFull, .jobIdInUse, .unknownJob, .notConfigured, .lockedOut, .badState, .captureUnread, .unknownRequest ] : List Reason).map Reason.code =
      (List.range 19).map (· + 1) ∧
    ([ .configure, .lineReset, .identify, .tableBegin, .tableSegment, .tableEnd, .bankSwitch, .credit, .date, .accountQuery, .jobAdd, .jobAbort
     , .monitorSet, .hold, .resume, .clearHalt, .fetchCapture, .status, .peek, .noticeEnable, .endOfService ] : List RequestKind).map RequestKind.code =
      [ 0x40, 0x41, 0x42, 0x48, 0x49, 0x4A, 0x4B, 0x50, 0x51, 0x52, 0x58, 0x59, 0x5C, 0x60, 0x61, 0x62, 0x63, 0x68, 0x69, 0x6A, 0x6B ]) ∧
  ((∀ vector channel c count,
      (LineRecord.notice vector channel (some c) count).kind = 0x81 ∧
      (LineRecord.notice vector channel (some c) count).payload = be 1 vector ++ be 1 channel ++ head c count ++ figures c.detail) ∧
    (∀ vector channel count,
      (LineRecord.notice vector channel none count).payload = be 1 vector ++ be 1 channel ++ be 4 0 ++ be 1 count) ∧
    (∀ d : DispositionRecord,
      let outcome : Nat :=
        match d.outcome with
        | some .printed => 0
        | some .voided => 1
        | some .spoiled => 2
        | some (.diverted _) => 3
        | some .removed => 4
        | none => 5
      let reason : Nat := match d.outcome with | some (.diverted r) => r.code | _ => 0
      (LineRecord.disposition d).kind = 0x82 ∧
      (LineRecord.disposition d).payload =
        be 2 d.tag ++ be 1 outcome ++ be 1 reason ++
          be 1 (bits [d.gatePassed, d.estimateCommitted, d.tagConflict, d.job.isSome, d.money.isSome]) ++ be 2 (d.job.getD 0) ++
          be 4 ((d.money.map (·.1)).getD 0) ++ be 4 ((d.money.map (·.2)).getD 0)) ∧
    (∀ ms word,
      (LineRecord.stopMonitors ms word).kind = 0x83 ∧
      (LineRecord.stopMonitors ms word).payload =
        be 1 0 ++ be 1 (bits ([0, 1, 2, 3].map fun i => ms.contains i)) ++ be 2 word.toNat ++ be 2 0) ∧
    (∀ tag, (LineRecord.stopOverflow tag).kind = 0x83 ∧ (LineRecord.stopOverflow tag).payload = be 1 1 ++ be 1 0 ++ be 2 0 ++ be 2 tag)) ∧
  ((∀ o : PrintOrder,
      let f := o.fields
      (PrintRecord.order o).kind = 0xA0 ∧
      (PrintRecord.order o).payload =
        be 2 o.tag ++ be 4 o.n ++ be 4 o.p ++ be 2 o.date ++ be 6 o.ascending ++ be 2 o.k ++ be 1 f.product ++ be 1 f.upgrades ++ be 1 f.column ++
          be 1 (bits [f.noReadDefault, f.rounded, f.estimate]) ++ be 2 f.tariffId) ∧
    (∀ tag n, (PrintRecord.withdraw tag n).kind = 0xA1 ∧ (PrintRecord.withdraw tag n).payload = be 2 tag ++ be 4 n)) ∧
  ((∀ r : Reply,
      let bytes := r.results.bytes
      1 ≤ r.parts ∧ bytes.length ≤ 55 * r.parts ∧ (r.parts = 1 ∨ 55 * (r.parts - 1) < bytes.length) ∧
      (∀ k, (LineRecord.reply r k).kind = 0x80 ∧ ((LineRecord.reply r k).payload).length ≤ 60 ∧
        (LineRecord.reply r k).payload =
          be 1 r.number ++ be 1 r.kind ++ be 1 r.outcome.code ++ be 1 ((r.reason.map Reason.code).getD 0) ++
            be 1 (if k + 1 = r.parts then 128 + k else k) ++ (bytes.drop (55 * k)).take 55) ∧
      (List.range r.parts).flatMap (fun k => ((LineRecord.reply r k).payload).drop 5) = bytes ∧
      ∀ s : State,
        s.sendReply r = { s with lineTx := { s.lineTx with waiting := s.lineTx.waiting ++ (List.range r.parts).map (LineRecord.reply r) } }) ∧
    (∀ (s : State) (number kind : Nat) (k : RequestKind) (clamped : Bool) (reason : Reason) (results : Results),
      s.accept number k results = s.sendReply { number, kind := k.code, outcome := .accepted, reason := none, results } ∧
      s.acceptClamped number k clamped results =
        s.sendReply { number, kind := k.code, outcome := if clamped then .clamped else .accepted, reason := none, results } ∧
      s.refuse number kind reason results = s.sendReply { number, kind, outcome := .refused, reason := some reason, results }) ∧
    (∀ (s : State) (r : LineRecord), s.sendLine r = { s with lineTx := { s.lineTx with waiting := s.lineTx.waiting ++ [r] } }) ∧
    (∀ (s : State) (r : PrintRecord), s.sendPrint r = { s with printTx := { s.printTx with waiting := s.printTx.waiting ++ [r] } })) ∧
  (Results.nothing.bytes = [] ∧
    (∀ v, (Results.configured v).bytes =
      be 1 v.vectorBase ++ be 1 v.noticeMode.code ++ be 2 v.tTake ++ be 2 v.tResult ++ be 1 v.maxOutstanding ++ be 4 v.lowThreshold) ∧
    (∀ spoils f, (Results.lineReset spoils f).bytes = be 1 spoils ++ be 1 f.code) ∧
    (∀ serial, (Results.identity serial).bytes = be 1 0x2C ++ be 2 340 ++ be 1 2 ++ be 4 serial) ∧
    (∀ cancelled, (Results.tableBegun cancelled).bytes = flag cancelled) ∧
    (∀ accepted flawed, (Results.segment accepted flawed).bytes = be 2 accepted ++ flag flawed) ∧
    (∀ tid accepted, (Results.loadReady tid accepted).bytes = be 1 0 ++ be 2 tid ++ be 2 accepted) ∧
    (∀ check accepted, (Results.loadInvalid check accepted).bytes = be 1 1 ++ be 1 check ++ be 2 accepted) ∧
    (∀ tid, (Results.switchedNow tid).bytes = be 1 0 ++ be 2 tid) ∧ Results.switchedAtDate.bytes = be 1 0 ∧ Results.switchPending.bytes = be 1 1 ∧
    (∀ d t number, (Results.credited d t number).bytes = be 4 d ++ be 7 t ++ be 4 number) ∧
    (∀ slot state undefined, (Results.jobAdded slot state undefined).bytes = be 1 slot ++ be 1 state.code ++ flag undefined) ∧
    (∀ before done remaining, (Results.jobAborted before done remaining).bytes = be 1 before.code ++ flag done ++ be 2 remaining) ∧
    (∀ m result, (Results.monitor m result).bytes = settings m ++ flag result) ∧
    (∀ f c, (Results.franking f c).bytes = be 1 f.code ++ causes c) ∧
    (∀ channels gne, (Results.enables channels gne).bytes = each channels Channel.enable ++ flag gne) ∧
    (∀ channel gne, (Results.serviceEnded channel gne).bytes = be 1 channel ++ flag gne)) ∧
  (∀ r : AccountReport,
    let a := r.accounts
    (Results.accounts r).bytes =
      be 4 a.d ++ be 3 a.e ++ be 6 a.a ++ be 7 a.t ++ be 4 a.n ++ be 4 a.creditNumber ++ flag r.creditInFlight ++ present 2 a.lastUsed ++
        present 2 r.mailingDate ++ be 4 a.printed ++ be 4 a.voided ++ be 4 a.spoiled ++ be 1 a.openOrders.length ++
        a.openOrders.flatMap (fun o => be 2 o.tag ++ be 4 o.n ++ be 3 o.p) ++ flag r.lockoutFlag ++ be 4 r.lowThreshold ++ be 4 a.serial) ∧
  ((Results.capture none).bytes = be 17 0 ∧
    ∀ c : Capture,
      (Results.capture (some c)).bytes =
        be 1 1 ++ be 1 c.errorClass.code ++ be 1 c.code.code ++ present 2 c.tag ++ be 1 c.before.code ++ be 4 c.d ++ be 3 c.e ++
          be 1 c.pieceCount ++ be 1 c.detail.length ++ figures c.detail ++ be 1 c.secondary) ∧
  (∀ r : StatusReport,
    let bank (b : BankReport) : List Byte := be 1 b.state.code ++ be 2 b.tariffId ++ be 2 b.effectiveDay
    let job : List Byte :=
      match r.headJob with
      | none => be 17 0
      | some j => be 1 1 ++ be 2 j.values.id ++ be 1 j.slot ++ be 1 j.state.code ++ be 4 j.entered ++ be 4 j.printed ++ be 4 j.diverted
    let pending : List Byte := match r.pendingSwitch with | none => be 3 0 | some x => be 1 1 ++ be 1 x.target.code ++ be 1 x.mode.code
    let monitor (i : Fin 4) : List Byte := settings r.monitors[i].settings ++ flag r.monitors[i].previous
    let cause (x : ChannelReport) : List Byte :=
      match x.latest with
      | none => be 6 0
      | some c => head c x.count ++ be 1 c.detail.length ++ figures c.detail
    let reported : List Byte := match r.reported with | none => be 9 0 | some x => be 1 1 ++ be 1 x.number ++ cause x ++ be 1 x.count
    (Results.status r).bytes =
      be 1 r.franking.code ++ causes r.causes ++ flag r.captureFull ++ each r.channels Channel.enable ++ each r.channels Channel.pending ++
        each r.channels Channel.underService ++ flag r.gne ++ flag r.gneSaved ++ be 1 r.noticeMode.code ++ be 1 r.vectorBase ++
        be 1 r.pieceCount ++ be 1 r.outstanding ++ flag r.commitTag.isSome ++ present 2 r.commitTag ++ be 1 r.printer.code ++ bank r.bankA ++
        bank r.bankB ++ pending ++ job ++ be 1 r.jobCount ++ be 2 r.sensorWord.toNat ++ monitor 0 ++ monitor 1 ++ monitor 2 ++ monitor 3 ++
        be 2 r.counters.discardedFrames ++ be 2 r.counters.unknownRecords ++ be 2 r.counters.orphans ++ be 2 r.counters.lateMeasurements ++
        be 2 r.counters.lateRecords ++ be 2 r.counters.lateResults ++ reported)

/-! ## The print port -/

/-- The print port: PRINTER_STATE and ORDER_TAKEN (R125, R127); PRINT_RESULT and the two expiries (R128, R130, R131, R132, R133): the order leaves the list and
its closing write is requested unless one is queued already; an unknown outcome and a timeout raise their error; a result of no outstanding order is late.
That an expiry of a timer that does not run changes nothing is the model's choice (log 6): R133 has no such expiry. -/
def Obligations.PrintRecordsAndTimeouts : Prop :=
  (∀ (code : Nat) (s : State), s.power = .on →
    (code = 0 → s.printer = .notReady → exec (.printerState code) s = .next (State.commitTest { s with printer := .ready })) ∧
    (code = 0 → s.printer = .ready → exec (.printerState code) s = .next s) ∧
    (code ≠ 0 → exec (.printerState code) s = .next { s with printer := .notReady })) ∧
  (∀ (tag : Nat) (s : State), s.power = .on →
    (∀ o, s.order? tag = some o → o.taken = false →
      exec (.orderTaken tag) s =
        .next { s with orders := s.orders.map fun o => if o.tag == tag then { o with taken := true, duration := s.settings.tResult } else o }) ∧
    ((∀ o, s.order? tag = some o → o.taken = true) →
      exec (.orderTaken tag) s =
        .next { s with counters := { s.counters with lateRecords := min (s.counters.lateRecords + 1) 65535 } })) ∧
  (∀ (tag : Nat) (s : State), s.power = .on →
    (s.order? tag = none →
      (∀ outcome,
        exec (.printResult tag outcome) s =
          .next (State.post { s with counters := { s.counters with lateResults := min (s.counters.lateResults + 1) 65535 } } .lateResult (some tag)
            [some (if outcome = 0 then 0 else if outcome = 1 then 1 else 2)])) ∧
      exec (.takeTimerExpiry tag) s = .next s ∧ exec (.resultTimerExpiry tag) s = .next s) ∧
    (∀ o, s.order? tag = some o →
      let isOpen := s.accounts.openOrders.any (·.n == o.n)
      let closing := s.queue.any fun w => match w with | .close _ _ m _ => m == o.n | _ => false
      let asked (kind : CloseKind) : State :=
        { s with
          orders := s.orders.filter (·.n != o.n)
          queue := if isOpen && !closing then s.queue ++ [.close kind o.tag o.n .printPort] else s.queue }
      exec (.printResult tag 0) s = .next (asked .confirm).commitTest ∧
      exec (.printResult tag 1) s = .next (asked .void).commitTest ∧
      (∀ outcome, 2 ≤ outcome →
        exec (.printResult tag outcome) s = .next ((asked .spoil).raiseContributory .printUnknown (some tag) [some o.n]).commitTest) ∧
      (o.taken = false →
        exec (.takeTimerExpiry tag) s = .next ((asked .spoil).raiseContributory .printTakeTimeout (some tag) [some o.n]).commitTest ∧
        exec (.resultTimerExpiry tag) s = .next s) ∧
      (o.taken = true →
        exec (.resultTimerExpiry tag) s = .next ((asked .spoil).raiseContributory .printResultTimeout (some tag) [some o.n]).commitTest ∧
        exec (.takeTimerExpiry tag) s = .next s)))

/-! ## The line port and the notice unit -/

/-- CONFIGURE (R165, R194): a changed maximum, or a part that became RUNNING, is told to the commit unit (R119). That the reply is sent before the sending
test is the model's choice (log 15). -/
def Obligations.ConfigureSetsTheValues : Prop :=
  ∀ (h : ReqHead) (v : ConfigureFields) (s : State), s.Takes h .configure →
    (2 ≤ v.noticeMode → exec (.configure h v) s = .next (s.refuse h.number 0x40 .badValue)) ∧
    (∀ mode, NoticeMode.ofCode v.noticeMode = some mode →
      let st : Settings :=
        { vectorBase := v.vectorBase, noticeMode := mode, tTake := max 5 (min 500 v.tTake), tResult := max 50 (min 5000 v.tResult)
          maxOutstanding := max 1 (min 4 v.maxOutstanding), lowThreshold := min 99999999 v.lowThreshold }
      let fits := decide (5 ≤ v.tTake ∧ v.tTake ≤ 500 ∧ 50 ≤ v.tResult ∧ v.tResult ≤ 5000 ∧ 1 ≤ v.maxOutstanding ∧ v.maxOutstanding ≤ 4 ∧
        v.lowThreshold ≤ 99999999)
      let franking : FrankingState := if s.franking = .unconfigured then (if s.causes.isEmpty then .running else .held) else s.franking
      let set : State := State.acceptClamped { s with settings := st, franking } h.number .configure (!fits) (.configured st)
      let tested := if mode = s.settings.noticeMode then set else set.sendingTest
      exec (.configure h v) s =
        .next (if s.settings.maxOutstanding ≠ st.maxOutstanding ∨ (s.franking = .unconfigured ∧ franking = .running) then tested.commitTest else tested))

/-- LINE_RESET and its reply (R195, R196, R171, R136, R189): what it discards, marks and clears, the SPOIL it requests for every outstanding order, and
what is kept; each SPOIL it waits for that completes lowers the number left by one, and the last sends the reply (R116). That a reply which waits carries
the franking state of the acceptance is the model's choice (log 13). -/
def Obligations.LineResetDiscards : Prop :=
  ∀ s : State,
    (∀ h, s.Takes h .lineReset → s.resetWait.isSome = true → exec (.lineReset h) s = .next (s.refuse h.number 0x41 .busy)) ∧
    (∀ h, s.Takes h .lineReset → s.resetWait = none → ∃ t, exec (.lineReset h) s = .next t ∧
      t.pieces = [] ∧ t.jobs = [] ∧ t.orders = [] ∧ t.fundsMark = none ∧ t.pendingSwitch = none ∧
      t.slot = s.slot.map (fun c => if c.phase = .commit then { c with withheld := some .lineReset } else c) ∧
      (∀ c : Fin 8, t.channels[c] = { enable := s.channels[c].enable, pending := false, underService := false, latest := none, count := 0 }) ∧
      (s.franking = .halted → t.franking = .halted ∧ t.causes = s.causes) ∧
      (s.franking = .running ∨ s.franking = .held →
        t.franking = .held ∧ t.causes = { operator := true, monitor := false, error := false, power := s.pins.pfw }) ∧
      ((s.orders.map (·.n)).Nodup → (∀ o ∈ s.orders, s.closeTaken o.n = true) →
        t.queue = s.queue ++ s.orders.map (fun o => .close .spoil o.tag o.n .lineReset) ∧
        let spoils := s.orders.length + (if s.slot.map (·.phase) = some .commit then 1 else 0)
        (spoils = 0 →
          t.resetWait = none ∧
            t.lineTx.waiting = s.lineTx.waiting ++ [.reply { number := h.number, kind := 0x41, outcome := .accepted, reason := none
                                                             results := .lineReset 0 t.franking } 0]) ∧
        (spoils ≠ 0 →
          t.resetWait = some { request := h.number, spoils, remaining := spoils, franking := t.franking } ∧ t.lineTx = s.lineTx)) ∧
      t.accounts = s.accounts ∧ t.settings = s.settings ∧ t.counters = s.counters ∧ t.sensorWord = s.sensorWord ∧ t.monitors = s.monitors ∧
      t.capture = s.capture ∧ t.mailingDate = s.mailingDate ∧ t.banks = s.banks ∧ t.load = s.load ∧ t.lockoutFlag = s.lockoutFlag ∧
      t.printer = s.printer ∧ t.gne = s.gne ∧ t.gneSaved = s.gneSaved) ∧
    (s.power = .on →
      (s.resetWait = none → exec .lineResetReply s = .next s) ∧
      (∀ w, s.resetWait = some w →
        (w.remaining ≠ 0 → exec .lineResetReply s = .next s) ∧
        (w.remaining = 0 →
          exec .lineResetReply s =
            .next (State.accept { s with resetWait := none } w.request .lineReset (.lineReset w.spoils w.franking))))) ∧
    (∀ tag n rest w, s.power = .on → s.queue = .close .spoil tag n .lineReset :: rest → s.accounts.openOrders.any (·.n == n) = true →
      (∀ q ∈ s.pieces, q.commitData.map (·.n) ≠ some n) → s.resetWait = some w →
      let performed : State :=
        { s with accounts := s.accounts.apply s.mailingDate (.close .spoil tag n .lineReset), queue := rest, writeBegun := !rest.isEmpty }
      (2 ≤ w.remaining → exec .spoilComplete s = .next { performed with resetWait := some { w with remaining := w.remaining - 1 } }) ∧
      (w.remaining = 1 →
        exec .spoilComplete s =
          .next (State.accept { performed with resetWait := none } w.request .lineReset (.lineReset w.spoils w.franking))))

/-- The notice unit (R173, R180 to R185): the code and the channel of each cause, a posting, the sending test, NOTICE_ENABLE and END_OF_SERVICE. -/
def Obligations.NoticesAreSentInPriority : Prop :=
  (let reasons : List DivertReason :=
      [ .overweight, .outOfFormat, .notServed, .notOffered, .overCap, .zeroValue, .noBank, .noWeight, .noDimension, .noDestination, .weightUnsettled
      , .fundsShort, .noDate, .printerNotReady, .printBacklog, .held, .halted, .locked, .noJob, .tagConflict, .gateMissed ]
    let causes : List CauseCode :=
      [ .weightDisagrees, .short, .low, .done, .bankSwitched, .tableReady, .tableInvalid, .lateResult, .monitorNotify, .monitorStop, .monitorHalt
      , .queueOverflow, .printTakeTimeout, .printResultTimeout, .printUnknown, .accountCeiling, .monitorLock ]
    (∀ c : CauseCode, c ∈ reasons.map .divert ++ causes) ∧
      reasons.map (fun r => (r.code, (CauseCode.divert r).code)) = (List.range 21).map (fun k => (k + 1, k + 1)) ∧
      (∀ r, (CauseCode.divert r).channel = if r = .fundsShort then 3 else 5) ∧
      causes.map (fun c => (c.code, c.channel)) =
        [ (0x16, 5), (0x17, 3), (0x30, 3), (0x31, 7), (0x32, 6), (0x33, 6), (0x34, 6), (0x35, 4), (0x40, 2), (0x41, 2), (0x42, 1), (0x50, 1), (0x51, 1)
        , (0x52, 1), (0x53, 1), (0x60, 0), (0x61, 0) ]) ∧
  ∀ s : State,
    (∀ code tag detail,
      let c := code.channel
      let ch : Channel :=
        { s.channels[c] with latest := some { code, tag, detail }, count := min (s.channels[c].count + 1) 255, pending := true }
      s.post code tag detail = State.sendingTest { s with channels := s.channels.set c ch }) ∧
    (s.power = .on → exec .notice s = .next s.sendingTest) ∧
    (∀ c : Fin 8, s.channelReady c = true ↔
      s.channels[c].pending = true ∧ (∀ k : Fin 8, k ≤ c → s.channels[k].underService = false) ∧
        (c = 0 ∨ (s.channels[c].enable = true ∧ s.gne = true))) ∧
    ((∀ c, s.channelReady c = false) → s.sendingTest = s) ∧
    (∀ c : Fin 8, s.channelReady c = true → (∀ k, k < c → s.channelReady k = false) →
      let ch := s.channels[c]
      let sent : Channel :=
        if s.settings.noticeMode = .pulse then { ch with underService := true, pending := false, count := 0 } else { ch with underService := true }
      s.sendingTest =
        { s with
          lineTx :=
            { s.lineTx with
              waiting :=
                s.lineTx.waiting ++ [.notice (s.settings.vectorBase - s.settings.vectorBase % 8 + c.val) c.val ch.latest ch.count] }
          channels := s.channels.set c sent
          gneSaved := if c = 0 then s.gne else s.gneSaved
          gne := if c = 0 then false else s.gne }) ∧
    (∀ h (value mask : Flags16), s.Takes h .noticeEnable →
      ∃ channels gne, exec (.noticeEnable h value mask) s =
          .next (State.accept { s with channels, gne } h.number .noticeEnable (.enables channels gne)).sendingTest ∧
        gne = (if mask.getLsbD 8 then value.getLsbD 8 else s.gne) ∧
        ∀ c : Fin 8, channels[c] =
          { s.channels[c] with enable := if c ≠ 0 ∧ mask.getLsbD c.val = true then value.getLsbD c.val else s.channels[c].enable }) ∧
    (∀ h, s.Takes h .endOfService →
      ((∀ c : Fin 8, s.channels[c].underService = false) → exec (.endOfService h) s = .next (s.refuse h.number 0x6B .badState)) ∧
      (∀ c : Fin 8, s.channels[c].underService = true → (∀ k : Fin 8, k < c → s.channels[k].underService = false) →
        let gne := if c = 0 then s.gneSaved else s.gne
        exec (.endOfService h) s =
          .next (State.sendingTest
            (State.accept { s with channels := s.channels.set c { s.channels[c] with underService := false }, gne } h.number .endOfService
              (.serviceEnded c.val gne)))))

/-- The commands that only report, count or transmit (R114, R186, R187, R188, R190, R191, R193): STATUS consumes the channel it reports, PEEK, IDENTIFY
and ACCOUNT_QUERY change nothing but the record sent. The groups of the report are those of R186, the head record's counts the three it lists (log 25). The
bytes of what is sent are in `OutboundRecordsAreLaidOut`. -/
def Obligations.ReportsCountsAndTransmission : Prop :=
  (∀ (h : ReqHead) (s : State), s.power = .on → h.lenOk = true →
    exec (.identify h) s =
      .next (s.sendReply { number := h.number, kind := 0x42, outcome := .accepted, reason := none, results := .identity s.accounts.serial }) ∧
    exec (.accountQuery h) s =
      .next (s.accept h.number .accountQuery
        (.accounts
          { accounts := s.accounts, creditInFlight := s.queue.any Write.isCredit, mailingDate := s.mailingDate, lockoutFlag := s.lockoutFlag
            lowThreshold := s.settings.lowThreshold })) ∧
    exec (.peek h) s = .next (s.accept h.number .peek (.status s.report)) ∧
    (let r := s.report
     (r.franking = s.franking ∧ r.causes = s.causes ∧ r.captureFull = s.capture.isSome) ∧
       (r.channels = s.channels ∧ r.gne = s.gne ∧ r.gneSaved = s.gneSaved ∧ r.noticeMode = s.settings.noticeMode ∧
         r.vectorBase = s.settings.vectorBase) ∧
       (r.pieceCount = s.pieces.length ∧ r.outstanding = s.orders.length ∧ r.commitTag = s.slot.map (·.tag) ∧ r.printer = s.printer) ∧
       (r.bankA = { state := s.banks.a.state, tariffId := s.banks.a.tariffId, effectiveDay := s.banks.a.effectiveDay } ∧
         r.bankB = { state := s.banks.b.state, tariffId := s.banks.b.tariffId, effectiveDay := s.banks.b.effectiveDay } ∧
         r.pendingSwitch = s.pendingSwitch) ∧
       (r.headJob = s.jobs.head? ∧ r.jobCount = s.jobs.length) ∧ (r.sensorWord = s.sensorWord ∧ r.monitors = s.monitors) ∧
       r.counters = s.counters) ∧
    ((∀ c : Fin 8, s.channels[c].pending = false) → s.report.reported = none ∧ exec (.status h) s = .next (s.accept h.number .status (.status s.report))) ∧
    (∀ c : Fin 8, s.channels[c].pending = true → (∀ k : Fin 8, k < c → s.channels[k].pending = false) →
      s.report.reported = some { number := c.val, latest := s.channels[c].latest, count := s.channels[c].count } ∧
      exec (.status h) s =
        .next (State.accept { s with channels := s.channels.set c { s.channels[c] with pending := false, count := 0 } } h.number .status
          (.status s.report)))) ∧
  (∀ s : State, s.power = .on →
    (∀ link kind length, exec (.unknownRecord link kind length) s =
      .next { s with counters := { s.counters with unknownRecords := min (s.counters.unknownRecords + 1) 65535 } }) ∧
    (∀ link, exec (.discardedFrame link) s =
      .next { s with counters := { s.counters with discardedFrames := min (s.counters.discardedFrames + 1) 65535 } }) ∧
    (s.lineTx.waiting = [] → exec (.recordTransmit .line) s = .next s) ∧
    (s.printTx.waiting = [] → exec (.recordTransmit .print) s = .next s) ∧
    (∀ r rest, s.lineTx.waiting = r :: rest →
      exec (.recordTransmit .line) s = .next { s with lineTx := { waiting := rest, frame := frame r.kind r.payload } }) ∧
    (∀ r rest, s.printTx.waiting = r :: rest →
      exec (.recordTransmit .print) s = .next { s with printTx := { waiting := rest, frame := frame r.kind r.payload } }))
end

