-- ==== Sys2Proof/Laws/State.lean ====
section
/-! SUPPORT. The fields of State under the shared updates, one lemma for each field of each update, true by definition. -/

namespace Sys2Proof.Machine
namespace State

variable (s : State)

/-! ### sendLine -/

@[simp] theorem sendLine_pending (r : LineRecord) : (s.sendLine r).pending = s.pending := rfl
@[simp] theorem sendLine_power (r : LineRecord) : (s.sendLine r).power = s.power := rfl
@[simp] theorem sendLine_pins (r : LineRecord) : (s.sendLine r).pins = s.pins := rfl
@[simp] theorem sendLine_freeIndex (r : LineRecord) : (s.sendLine r).freeIndex = s.freeIndex := rfl
@[simp] theorem sendLine_lineFramer (r : LineRecord) : (s.sendLine r).lineFramer = s.lineFramer := rfl
@[simp] theorem sendLine_printFramer (r : LineRecord) : (s.sendLine r).printFramer = s.printFramer := rfl
@[simp] theorem sendLine_lineTx_waiting (r : LineRecord) : (s.sendLine r).lineTx.waiting = s.lineTx.waiting ++ [r] := rfl
@[simp] theorem sendLine_lineTx_frame (r : LineRecord) : (s.sendLine r).lineTx.frame = s.lineTx.frame := rfl
@[simp] theorem sendLine_printTx (r : LineRecord) : (s.sendLine r).printTx = s.printTx := rfl
@[simp] theorem sendLine_resetWait (r : LineRecord) : (s.sendLine r).resetWait = s.resetWait := rfl
@[simp] theorem sendLine_counters (r : LineRecord) : (s.sendLine r).counters = s.counters := rfl
@[simp] theorem sendLine_settings (r : LineRecord) : (s.sendLine r).settings = s.settings := rfl
@[simp] theorem sendLine_pieces (r : LineRecord) : (s.sendLine r).pieces = s.pieces := rfl
@[simp] theorem sendLine_banks (r : LineRecord) : (s.sendLine r).banks = s.banks := rfl
@[simp] theorem sendLine_load (r : LineRecord) : (s.sendLine r).load = s.load := rfl
@[simp] theorem sendLine_pendingSwitch (r : LineRecord) : (s.sendLine r).pendingSwitch = s.pendingSwitch := rfl
@[simp] theorem sendLine_ratingRef (r : LineRecord) : (s.sendLine r).ratingRef = s.ratingRef := rfl
@[simp] theorem sendLine_accounts (r : LineRecord) : (s.sendLine r).accounts = s.accounts := rfl
@[simp] theorem sendLine_lockoutFlag (r : LineRecord) : (s.sendLine r).lockoutFlag = s.lockoutFlag := rfl
@[simp] theorem sendLine_queue (r : LineRecord) : (s.sendLine r).queue = s.queue := rfl
@[simp] theorem sendLine_writeBegun (r : LineRecord) : (s.sendLine r).writeBegun = s.writeBegun := rfl
@[simp] theorem sendLine_slot (r : LineRecord) : (s.sendLine r).slot = s.slot := rfl
@[simp] theorem sendLine_mailingDate (r : LineRecord) : (s.sendLine r).mailingDate = s.mailingDate := rfl
@[simp] theorem sendLine_fundsMark (r : LineRecord) : (s.sendLine r).fundsMark = s.fundsMark := rfl
@[simp] theorem sendLine_printer (r : LineRecord) : (s.sendLine r).printer = s.printer := rfl
@[simp] theorem sendLine_orders (r : LineRecord) : (s.sendLine r).orders = s.orders := rfl
@[simp] theorem sendLine_jobs (r : LineRecord) : (s.sendLine r).jobs = s.jobs := rfl
@[simp] theorem sendLine_monitors (r : LineRecord) : (s.sendLine r).monitors = s.monitors := rfl
@[simp] theorem sendLine_sensorWord (r : LineRecord) : (s.sendLine r).sensorWord = s.sensorWord := rfl
@[simp] theorem sendLine_franking (r : LineRecord) : (s.sendLine r).franking = s.franking := rfl
@[simp] theorem sendLine_causes (r : LineRecord) : (s.sendLine r).causes = s.causes := rfl
@[simp] theorem sendLine_capture (r : LineRecord) : (s.sendLine r).capture = s.capture := rfl
@[simp] theorem sendLine_holdWaiting (r : LineRecord) : (s.sendLine r).holdWaiting = s.holdWaiting := rfl
@[simp] theorem sendLine_channels (r : LineRecord) : (s.sendLine r).channels = s.channels := rfl
@[simp] theorem sendLine_gne (r : LineRecord) : (s.sendLine r).gne = s.gne := rfl
@[simp] theorem sendLine_gneSaved (r : LineRecord) : (s.sendLine r).gneSaved = s.gneSaved := rfl

/-! ### sendPrint -/

@[simp] theorem sendPrint_pending (r : PrintRecord) : (s.sendPrint r).pending = s.pending := rfl
@[simp] theorem sendPrint_power (r : PrintRecord) : (s.sendPrint r).power = s.power := rfl
@[simp] theorem sendPrint_pins (r : PrintRecord) : (s.sendPrint r).pins = s.pins := rfl
@[simp] theorem sendPrint_freeIndex (r : PrintRecord) : (s.sendPrint r).freeIndex = s.freeIndex := rfl
@[simp] theorem sendPrint_lineFramer (r : PrintRecord) : (s.sendPrint r).lineFramer = s.lineFramer := rfl
@[simp] theorem sendPrint_printFramer (r : PrintRecord) : (s.sendPrint r).printFramer = s.printFramer := rfl
@[simp] theorem sendPrint_lineTx (r : PrintRecord) : (s.sendPrint r).lineTx = s.lineTx := rfl
@[simp] theorem sendPrint_printTx_waiting (r : PrintRecord) : (s.sendPrint r).printTx.waiting = s.printTx.waiting ++ [r] := rfl
@[simp] theorem sendPrint_printTx_frame (r : PrintRecord) : (s.sendPrint r).printTx.frame = s.printTx.frame := rfl
@[simp] theorem sendPrint_resetWait (r : PrintRecord) : (s.sendPrint r).resetWait = s.resetWait := rfl
@[simp] theorem sendPrint_counters (r : PrintRecord) : (s.sendPrint r).counters = s.counters := rfl
@[simp] theorem sendPrint_settings (r : PrintRecord) : (s.sendPrint r).settings = s.settings := rfl
@[simp] theorem sendPrint_pieces (r : PrintRecord) : (s.sendPrint r).pieces = s.pieces := rfl
@[simp] theorem sendPrint_banks (r : PrintRecord) : (s.sendPrint r).banks = s.banks := rfl
@[simp] theorem sendPrint_load (r : PrintRecord) : (s.sendPrint r).load = s.load := rfl
@[simp] theorem sendPrint_pendingSwitch (r : PrintRecord) : (s.sendPrint r).pendingSwitch = s.pendingSwitch := rfl
@[simp] theorem sendPrint_ratingRef (r : PrintRecord) : (s.sendPrint r).ratingRef = s.ratingRef := rfl
@[simp] theorem sendPrint_accounts (r : PrintRecord) : (s.sendPrint r).accounts = s.accounts := rfl
@[simp] theorem sendPrint_lockoutFlag (r : PrintRecord) : (s.sendPrint r).lockoutFlag = s.lockoutFlag := rfl
@[simp] theorem sendPrint_queue (r : PrintRecord) : (s.sendPrint r).queue = s.queue := rfl
@[simp] theorem sendPrint_writeBegun (r : PrintRecord) : (s.sendPrint r).writeBegun = s.writeBegun := rfl
@[simp] theorem sendPrint_slot (r : PrintRecord) : (s.sendPrint r).slot = s.slot := rfl
@[simp] theorem sendPrint_mailingDate (r : PrintRecord) : (s.sendPrint r).mailingDate = s.mailingDate := rfl
@[simp] theorem sendPrint_fundsMark (r : PrintRecord) : (s.sendPrint r).fundsMark = s.fundsMark := rfl
@[simp] theorem sendPrint_printer (r : PrintRecord) : (s.sendPrint r).printer = s.printer := rfl
@[simp] theorem sendPrint_orders (r : PrintRecord) : (s.sendPrint r).orders = s.orders := rfl
@[simp] theorem sendPrint_jobs (r : PrintRecord) : (s.sendPrint r).jobs = s.jobs := rfl
@[simp] theorem sendPrint_monitors (r : PrintRecord) : (s.sendPrint r).monitors = s.monitors := rfl
@[simp] theorem sendPrint_sensorWord (r : PrintRecord) : (s.sendPrint r).sensorWord = s.sensorWord := rfl
@[simp] theorem sendPrint_franking (r : PrintRecord) : (s.sendPrint r).franking = s.franking := rfl
@[simp] theorem sendPrint_causes (r : PrintRecord) : (s.sendPrint r).causes = s.causes := rfl
@[simp] theorem sendPrint_capture (r : PrintRecord) : (s.sendPrint r).capture = s.capture := rfl
@[simp] theorem sendPrint_holdWaiting (r : PrintRecord) : (s.sendPrint r).holdWaiting = s.holdWaiting := rfl
@[simp] theorem sendPrint_channels (r : PrintRecord) : (s.sendPrint r).channels = s.channels := rfl
@[simp] theorem sendPrint_gne (r : PrintRecord) : (s.sendPrint r).gne = s.gne := rfl
@[simp] theorem sendPrint_gneSaved (r : PrintRecord) : (s.sendPrint r).gneSaved = s.gneSaved := rfl

/-! ### sendReply -/

@[simp] theorem sendReply_pending (r : Reply) : (s.sendReply r).pending = s.pending := rfl
@[simp] theorem sendReply_power (r : Reply) : (s.sendReply r).power = s.power := rfl
@[simp] theorem sendReply_pins (r : Reply) : (s.sendReply r).pins = s.pins := rfl
@[simp] theorem sendReply_freeIndex (r : Reply) : (s.sendReply r).freeIndex = s.freeIndex := rfl
@[simp] theorem sendReply_lineFramer (r : Reply) : (s.sendReply r).lineFramer = s.lineFramer := rfl
@[simp] theorem sendReply_printFramer (r : Reply) : (s.sendReply r).printFramer = s.printFramer := rfl
@[simp] theorem sendReply_lineTx_waiting (r : Reply) : (s.sendReply r).lineTx.waiting = s.lineTx.waiting ++ (List.range r.parts).map (LineRecord.reply r) := rfl
@[simp] theorem sendReply_lineTx_frame (r : Reply) : (s.sendReply r).lineTx.frame = s.lineTx.frame := rfl
@[simp] theorem sendReply_printTx (r : Reply) : (s.sendReply r).printTx = s.printTx := rfl
@[simp] theorem sendReply_resetWait (r : Reply) : (s.sendReply r).resetWait = s.resetWait := rfl
@[simp] theorem sendReply_counters (r : Reply) : (s.sendReply r).counters = s.counters := rfl
@[simp] theorem sendReply_settings (r : Reply) : (s.sendReply r).settings = s.settings := rfl
@[simp] theorem sendReply_pieces (r : Reply) : (s.sendReply r).pieces = s.pieces := rfl
@[simp] theorem sendReply_banks (r : Reply) : (s.sendReply r).banks = s.banks := rfl
@[simp] theorem sendReply_load (r : Reply) : (s.sendReply r).load = s.load := rfl
@[simp] theorem sendReply_pendingSwitch (r : Reply) : (s.sendReply r).pendingSwitch = s.pendingSwitch := rfl
@[simp] theorem sendReply_ratingRef (r : Reply) : (s.sendReply r).ratingRef = s.ratingRef := rfl
@[simp] theorem sendReply_accounts (r : Reply) : (s.sendReply r).accounts = s.accounts := rfl
@[simp] theorem sendReply_lockoutFlag (r : Reply) : (s.sendReply r).lockoutFlag = s.lockoutFlag := rfl
@[simp] theorem sendReply_queue (r : Reply) : (s.sendReply r).queue = s.queue := rfl
@[simp] theorem sendReply_writeBegun (r : Reply) : (s.sendReply r).writeBegun = s.writeBegun := rfl
@[simp] theorem sendReply_slot (r : Reply) : (s.sendReply r).slot = s.slot := rfl
@[simp] theorem sendReply_mailingDate (r : Reply) : (s.sendReply r).mailingDate = s.mailingDate := rfl
@[simp] theorem sendReply_fundsMark (r : Reply) : (s.sendReply r).fundsMark = s.fundsMark := rfl
@[simp] theorem sendReply_printer (r : Reply) : (s.sendReply r).printer = s.printer := rfl
@[simp] theorem sendReply_orders (r : Reply) : (s.sendReply r).orders = s.orders := rfl
@[simp] theorem sendReply_jobs (r : Reply) : (s.sendReply r).jobs = s.jobs := rfl
@[simp] theorem sendReply_monitors (r : Reply) : (s.sendReply r).monitors = s.monitors := rfl
@[simp] theorem sendReply_sensorWord (r : Reply) : (s.sendReply r).sensorWord = s.sensorWord := rfl
@[simp] theorem sendReply_franking (r : Reply) : (s.sendReply r).franking = s.franking := rfl
@[simp] theorem sendReply_causes (r : Reply) : (s.sendReply r).causes = s.causes := rfl
@[simp] theorem sendReply_capture (r : Reply) : (s.sendReply r).capture = s.capture := rfl
@[simp] theorem sendReply_holdWaiting (r : Reply) : (s.sendReply r).holdWaiting = s.holdWaiting := rfl
@[simp] theorem sendReply_channels (r : Reply) : (s.sendReply r).channels = s.channels := rfl
@[simp] theorem sendReply_gne (r : Reply) : (s.sendReply r).gne = s.gne := rfl
@[simp] theorem sendReply_gneSaved (r : Reply) : (s.sendReply r).gneSaved = s.gneSaved := rfl

/-! ### updatePiece -/

@[simp] theorem updatePiece_pending (tag : Nat) (f : Piece → Piece) : (s.updatePiece tag f).pending = s.pending := rfl
@[simp] theorem updatePiece_power (tag : Nat) (f : Piece → Piece) : (s.updatePiece tag f).power = s.power := rfl
@[simp] theorem updatePiece_pins (tag : Nat) (f : Piece → Piece) : (s.updatePiece tag f).pins = s.pins := rfl
@[simp] theorem updatePiece_freeIndex (tag : Nat) (f : Piece → Piece) : (s.updatePiece tag f).freeIndex = s.freeIndex := rfl
@[simp] theorem updatePiece_lineFramer (tag : Nat) (f : Piece → Piece) : (s.updatePiece tag f).lineFramer = s.lineFramer := rfl
@[simp] theorem updatePiece_printFramer (tag : Nat) (f : Piece → Piece) : (s.updatePiece tag f).printFramer = s.printFramer := rfl
@[simp] theorem updatePiece_lineTx (tag : Nat) (f : Piece → Piece) : (s.updatePiece tag f).lineTx = s.lineTx := rfl
@[simp] theorem updatePiece_printTx (tag : Nat) (f : Piece → Piece) : (s.updatePiece tag f).printTx = s.printTx := rfl
@[simp] theorem updatePiece_resetWait (tag : Nat) (f : Piece → Piece) : (s.updatePiece tag f).resetWait = s.resetWait := rfl
@[simp] theorem updatePiece_counters (tag : Nat) (f : Piece → Piece) : (s.updatePiece tag f).counters = s.counters := rfl
@[simp] theorem updatePiece_settings (tag : Nat) (f : Piece → Piece) : (s.updatePiece tag f).settings = s.settings := rfl
@[simp] theorem updatePiece_pieces (tag : Nat) (f : Piece → Piece) : (s.updatePiece tag f).pieces = s.pieces.map fun p => if p.tag == tag then f p else p := rfl
@[simp] theorem updatePiece_banks (tag : Nat) (f : Piece → Piece) : (s.updatePiece tag f).banks = s.banks := rfl
@[simp] theorem updatePiece_load (tag : Nat) (f : Piece → Piece) : (s.updatePiece tag f).load = s.load := rfl
@[simp] theorem updatePiece_pendingSwitch (tag : Nat) (f : Piece → Piece) : (s.updatePiece tag f).pendingSwitch = s.pendingSwitch := rfl
@[simp] theorem updatePiece_ratingRef (tag : Nat) (f : Piece → Piece) : (s.updatePiece tag f).ratingRef = s.ratingRef := rfl
@[simp] theorem updatePiece_accounts (tag : Nat) (f : Piece → Piece) : (s.updatePiece tag f).accounts = s.accounts := rfl
@[simp] theorem updatePiece_lockoutFlag (tag : Nat) (f : Piece → Piece) : (s.updatePiece tag f).lockoutFlag = s.lockoutFlag := rfl
@[simp] theorem updatePiece_queue (tag : Nat) (f : Piece → Piece) : (s.updatePiece tag f).queue = s.queue := rfl
@[simp] theorem updatePiece_writeBegun (tag : Nat) (f : Piece → Piece) : (s.updatePiece tag f).writeBegun = s.writeBegun := rfl
@[simp] theorem updatePiece_slot (tag : Nat) (f : Piece → Piece) : (s.updatePiece tag f).slot = s.slot := rfl
@[simp] theorem updatePiece_mailingDate (tag : Nat) (f : Piece → Piece) : (s.updatePiece tag f).mailingDate = s.mailingDate := rfl
@[simp] theorem updatePiece_fundsMark (tag : Nat) (f : Piece → Piece) : (s.updatePiece tag f).fundsMark = s.fundsMark := rfl
@[simp] theorem updatePiece_printer (tag : Nat) (f : Piece → Piece) : (s.updatePiece tag f).printer = s.printer := rfl
@[simp] theorem updatePiece_orders (tag : Nat) (f : Piece → Piece) : (s.updatePiece tag f).orders = s.orders := rfl
@[simp] theorem updatePiece_jobs (tag : Nat) (f : Piece → Piece) : (s.updatePiece tag f).jobs = s.jobs := rfl
@[simp] theorem updatePiece_monitors (tag : Nat) (f : Piece → Piece) : (s.updatePiece tag f).monitors = s.monitors := rfl
@[simp] theorem updatePiece_sensorWord (tag : Nat) (f : Piece → Piece) : (s.updatePiece tag f).sensorWord = s.sensorWord := rfl
@[simp] theorem updatePiece_franking (tag : Nat) (f : Piece → Piece) : (s.updatePiece tag f).franking = s.franking := rfl
@[simp] theorem updatePiece_causes (tag : Nat) (f : Piece → Piece) : (s.updatePiece tag f).causes = s.causes := rfl
@[simp] theorem updatePiece_capture (tag : Nat) (f : Piece → Piece) : (s.updatePiece tag f).capture = s.capture := rfl
@[simp] theorem updatePiece_holdWaiting (tag : Nat) (f : Piece → Piece) : (s.updatePiece tag f).holdWaiting = s.holdWaiting := rfl
@[simp] theorem updatePiece_channels (tag : Nat) (f : Piece → Piece) : (s.updatePiece tag f).channels = s.channels := rfl
@[simp] theorem updatePiece_gne (tag : Nat) (f : Piece → Piece) : (s.updatePiece tag f).gne = s.gne := rfl
@[simp] theorem updatePiece_gneSaved (tag : Nat) (f : Piece → Piece) : (s.updatePiece tag f).gneSaved = s.gneSaved := rfl

/-! ### updateJob -/

@[simp] theorem updateJob_pending (slot : Nat) (f : Job → Job) : (s.updateJob slot f).pending = s.pending := rfl
@[simp] theorem updateJob_power (slot : Nat) (f : Job → Job) : (s.updateJob slot f).power = s.power := rfl
@[simp] theorem updateJob_pins (slot : Nat) (f : Job → Job) : (s.updateJob slot f).pins = s.pins := rfl
@[simp] theorem updateJob_freeIndex (slot : Nat) (f : Job → Job) : (s.updateJob slot f).freeIndex = s.freeIndex := rfl
@[simp] theorem updateJob_lineFramer (slot : Nat) (f : Job → Job) : (s.updateJob slot f).lineFramer = s.lineFramer := rfl
@[simp] theorem updateJob_printFramer (slot : Nat) (f : Job → Job) : (s.updateJob slot f).printFramer = s.printFramer := rfl
@[simp] theorem updateJob_lineTx (slot : Nat) (f : Job → Job) : (s.updateJob slot f).lineTx = s.lineTx := rfl
@[simp] theorem updateJob_printTx (slot : Nat) (f : Job → Job) : (s.updateJob slot f).printTx = s.printTx := rfl
@[simp] theorem updateJob_resetWait (slot : Nat) (f : Job → Job) : (s.updateJob slot f).resetWait = s.resetWait := rfl
@[simp] theorem updateJob_counters (slot : Nat) (f : Job → Job) : (s.updateJob slot f).counters = s.counters := rfl
@[simp] theorem updateJob_settings (slot : Nat) (f : Job → Job) : (s.updateJob slot f).settings = s.settings := rfl
@[simp] theorem updateJob_pieces (slot : Nat) (f : Job → Job) : (s.updateJob slot f).pieces = s.pieces := rfl
@[simp] theorem updateJob_banks (slot : Nat) (f : Job → Job) : (s.updateJob slot f).banks = s.banks := rfl
@[simp] theorem updateJob_load (slot : Nat) (f : Job → Job) : (s.updateJob slot f).load = s.load := rfl
@[simp] theorem updateJob_pendingSwitch (slot : Nat) (f : Job → Job) : (s.updateJob slot f).pendingSwitch = s.pendingSwitch := rfl
@[simp] theorem updateJob_ratingRef (slot : Nat) (f : Job → Job) : (s.updateJob slot f).ratingRef = s.ratingRef := rfl
@[simp] theorem updateJob_accounts (slot : Nat) (f : Job → Job) : (s.updateJob slot f).accounts = s.accounts := rfl
@[simp] theorem updateJob_lockoutFlag (slot : Nat) (f : Job → Job) : (s.updateJob slot f).lockoutFlag = s.lockoutFlag := rfl
@[simp] theorem updateJob_queue (slot : Nat) (f : Job → Job) : (s.updateJob slot f).queue = s.queue := rfl
@[simp] theorem updateJob_writeBegun (slot : Nat) (f : Job → Job) : (s.updateJob slot f).writeBegun = s.writeBegun := rfl
@[simp] theorem updateJob_slot (slot : Nat) (f : Job → Job) : (s.updateJob slot f).slot = s.slot := rfl
@[simp] theorem updateJob_mailingDate (slot : Nat) (f : Job → Job) : (s.updateJob slot f).mailingDate = s.mailingDate := rfl
@[simp] theorem updateJob_fundsMark (slot : Nat) (f : Job → Job) : (s.updateJob slot f).fundsMark = s.fundsMark := rfl
@[simp] theorem updateJob_printer (slot : Nat) (f : Job → Job) : (s.updateJob slot f).printer = s.printer := rfl
@[simp] theorem updateJob_orders (slot : Nat) (f : Job → Job) : (s.updateJob slot f).orders = s.orders := rfl
@[simp] theorem updateJob_jobs (slot : Nat) (f : Job → Job) : (s.updateJob slot f).jobs = s.jobs.map fun j => if j.slot == slot then f j else j := rfl
@[simp] theorem updateJob_monitors (slot : Nat) (f : Job → Job) : (s.updateJob slot f).monitors = s.monitors := rfl
@[simp] theorem updateJob_sensorWord (slot : Nat) (f : Job → Job) : (s.updateJob slot f).sensorWord = s.sensorWord := rfl
@[simp] theorem updateJob_franking (slot : Nat) (f : Job → Job) : (s.updateJob slot f).franking = s.franking := rfl
@[simp] theorem updateJob_causes (slot : Nat) (f : Job → Job) : (s.updateJob slot f).causes = s.causes := rfl
@[simp] theorem updateJob_capture (slot : Nat) (f : Job → Job) : (s.updateJob slot f).capture = s.capture := rfl
@[simp] theorem updateJob_holdWaiting (slot : Nat) (f : Job → Job) : (s.updateJob slot f).holdWaiting = s.holdWaiting := rfl
@[simp] theorem updateJob_channels (slot : Nat) (f : Job → Job) : (s.updateJob slot f).channels = s.channels := rfl
@[simp] theorem updateJob_gne (slot : Nat) (f : Job → Job) : (s.updateJob slot f).gne = s.gne := rfl
@[simp] theorem updateJob_gneSaved (slot : Nat) (f : Job → Job) : (s.updateJob slot f).gneSaved = s.gneSaved := rfl

/-! ### setCauses -/

@[simp] theorem setCauses_pending (c : HoldCauses) : (s.setCauses c).pending = s.pending := rfl
@[simp] theorem setCauses_power (c : HoldCauses) : (s.setCauses c).power = s.power := rfl
@[simp] theorem setCauses_pins (c : HoldCauses) : (s.setCauses c).pins = s.pins := rfl
@[simp] theorem setCauses_freeIndex (c : HoldCauses) : (s.setCauses c).freeIndex = s.freeIndex := rfl
@[simp] theorem setCauses_lineFramer (c : HoldCauses) : (s.setCauses c).lineFramer = s.lineFramer := rfl
@[simp] theorem setCauses_printFramer (c : HoldCauses) : (s.setCauses c).printFramer = s.printFramer := rfl
@[simp] theorem setCauses_lineTx (c : HoldCauses) : (s.setCauses c).lineTx = s.lineTx := rfl
@[simp] theorem setCauses_printTx (c : HoldCauses) : (s.setCauses c).printTx = s.printTx := rfl
@[simp] theorem setCauses_resetWait (c : HoldCauses) : (s.setCauses c).resetWait = s.resetWait := rfl
@[simp] theorem setCauses_counters (c : HoldCauses) : (s.setCauses c).counters = s.counters := rfl
@[simp] theorem setCauses_settings (c : HoldCauses) : (s.setCauses c).settings = s.settings := rfl
@[simp] theorem setCauses_pieces (c : HoldCauses) : (s.setCauses c).pieces = s.pieces := rfl
@[simp] theorem setCauses_banks (c : HoldCauses) : (s.setCauses c).banks = s.banks := rfl
@[simp] theorem setCauses_load (c : HoldCauses) : (s.setCauses c).load = s.load := rfl
@[simp] theorem setCauses_pendingSwitch (c : HoldCauses) : (s.setCauses c).pendingSwitch = s.pendingSwitch := rfl
@[simp] theorem setCauses_ratingRef (c : HoldCauses) : (s.setCauses c).ratingRef = s.ratingRef := rfl
@[simp] theorem setCauses_accounts (c : HoldCauses) : (s.setCauses c).accounts = s.accounts := rfl
@[simp] theorem setCauses_lockoutFlag (c : HoldCauses) : (s.setCauses c).lockoutFlag = s.lockoutFlag := rfl
@[simp] theorem setCauses_queue (c : HoldCauses) : (s.setCauses c).queue = s.queue := rfl
@[simp] theorem setCauses_writeBegun (c : HoldCauses) : (s.setCauses c).writeBegun = s.writeBegun := rfl
@[simp] theorem setCauses_slot (c : HoldCauses) : (s.setCauses c).slot = s.slot := rfl
@[simp] theorem setCauses_mailingDate (c : HoldCauses) : (s.setCauses c).mailingDate = s.mailingDate := rfl
@[simp] theorem setCauses_fundsMark (c : HoldCauses) : (s.setCauses c).fundsMark = s.fundsMark := rfl
@[simp] theorem setCauses_printer (c : HoldCauses) : (s.setCauses c).printer = s.printer := rfl
@[simp] theorem setCauses_orders (c : HoldCauses) : (s.setCauses c).orders = s.orders := rfl
@[simp] theorem setCauses_jobs (c : HoldCauses) : (s.setCauses c).jobs = s.jobs := rfl
@[simp] theorem setCauses_monitors (c : HoldCauses) : (s.setCauses c).monitors = s.monitors := rfl
@[simp] theorem setCauses_sensorWord (c : HoldCauses) : (s.setCauses c).sensorWord = s.sensorWord := rfl
@[simp] theorem setCauses_franking (c : HoldCauses) : (s.setCauses c).franking = s.franking.follow c := rfl
@[simp] theorem setCauses_causes (c : HoldCauses) : (s.setCauses c).causes = c := rfl
@[simp] theorem setCauses_capture (c : HoldCauses) : (s.setCauses c).capture = s.capture := rfl
@[simp] theorem setCauses_holdWaiting (c : HoldCauses) : (s.setCauses c).holdWaiting = s.holdWaiting := rfl
@[simp] theorem setCauses_channels (c : HoldCauses) : (s.setCauses c).channels = s.channels := rfl
@[simp] theorem setCauses_gne (c : HoldCauses) : (s.setCauses c).gne = s.gne := rfl
@[simp] theorem setCauses_gneSaved (c : HoldCauses) : (s.setCauses c).gneSaved = s.gneSaved := rfl

/-! ### Replies are one kind of record -/

theorem accept_eq (number : Nat) (k : RequestKind) (r : Results) :
    s.accept number k r = s.sendReply { number, kind := k.code, outcome := .accepted, reason := none, results := r } := rfl
theorem acceptClamped_eq (number : Nat) (k : RequestKind) (c : Bool) (r : Results) :
    s.acceptClamped number k c r =
      s.sendReply { number, kind := k.code, outcome := if c then .clamped else .accepted, reason := none, results := r } := rfl
theorem refuse_eq (number kind : Nat) (r : Reason) (x : Results) :
    s.refuse number kind r x = s.sendReply { number, kind, outcome := .refused, reason := some r, results := x } := rfl

end State
end Sys2Proof.Machine
end

