-- ==== Sys2Proof/Laws/Tables.lean ====
section
/-! SUPPORT. The indexed stores of a bank: reading after writing, and the canonical form kept by every write. -/

namespace Sys2Proof.Machine

namespace Table

variable {dflt : Nat}

theorem wf_nil : Table.wf dflt [] := ⟨List.Pairwise.nil, by simp⟩

/-- Below the first listed index a table reads as its default. -/
theorem get_of_lt_all {t : Table} {i : Nat} (h : ∀ e ∈ t, i < e.1) : Table.get dflt t i = dflt := by
  induction t with
  | nil => rfl
  | cons e rest ih =>
    obtain ⟨k, v⟩ := e
    have hk : i < k := h (k, v) (by simp)
    have hr : ∀ e ∈ rest, i < e.1 := fun e he => h e (by simp [he])
    simp [Table.get, ih hr, Nat.ne_of_lt hk]

/-- A write is read back, and no other index changes. -/
theorem get_set {t : Table} (ht : Table.wf dflt t) (i v j : Nat) :
    Table.get dflt (Table.set dflt t i v) j = if j = i then v else Table.get dflt t j := by
  induction t with
  | nil =>
    by_cases hv : v = dflt <;> by_cases hj : j = i <;> simp [Table.set, Table.get, hv, hj]
  | cons e rest ih =>
    obtain ⟨k, w⟩ := e
    obtain ⟨hp, hd⟩ := ht
    rw [List.pairwise_cons] at hp
    have hrest : Table.wf dflt rest := ⟨hp.2, fun e he => hd e (by simp [he])⟩
    have hbelow : ∀ a, a ≤ k → Table.get dflt rest a = dflt := fun a ha =>
      get_of_lt_all fun e he => Nat.lt_of_le_of_lt ha (hp.1 e he)
    unfold Table.set
    by_cases h1 : i < k
    · by_cases hv : v = dflt <;> by_cases hj : j = i
      · subst hj; simp [h1, hv, Table.get, Nat.ne_of_lt h1, hbelow j (Nat.le_of_lt h1)]
      · simp [h1, hv, hj, Table.get]
      · subst hj; simp [h1, hv, Table.get]
      · simp [h1, hv, hj, Table.get]
    · by_cases h2 : i = k
      · subst h2
        by_cases hv : v = dflt <;> by_cases hj : j = i
        · subst hj; simp [hv, hbelow j (Nat.le_refl _)]
        · simp [hv, hj, Table.get]
        · subst hj; simp [hv, Table.get]
        · simp [hv, hj, Table.get]
      · simp only [h1, h2, if_false, Table.get, ih hrest]
        by_cases hj : j = k
        · subst hj; simp [Ne.symm h2]
        · simp [hj]

/-- Every entry of a written table was there before, or is the entry written. -/
theorem mem_set {t : Table} {i v : Nat} {e : Nat × Nat} (h : e ∈ Table.set dflt t i v) : e ∈ t ∨ (e = (i, v) ∧ v ≠ dflt) := by
  induction t with
  | nil => by_cases hv : v = dflt <;> simp_all [Table.set]
  | cons x rest ih =>
    obtain ⟨k, w⟩ := x
    unfold Table.set at h
    split at h
    · split at h <;> simp_all
      tauto
    · split at h
      · split at h <;> simp_all
        tauto
      · simp only [List.mem_cons] at h ⊢
        rcases h with h | h
        · exact Or.inl (Or.inl h)
        · rcases ih h with h | h
          · exact Or.inl (Or.inr h)
          · exact Or.inr h

/-- A write keeps the canonical form. -/
theorem set_wf {t : Table} (ht : Table.wf dflt t) (i v : Nat) : Table.wf dflt (Table.set dflt t i v) := by
  refine ⟨?_, fun e he => ?_⟩
  · induction t with
    | nil => by_cases hv : v = dflt <;> simp [Table.set, hv]
    | cons x rest ih =>
      obtain ⟨k, w⟩ := x
      obtain ⟨hp, hd⟩ := ht
      have hp' := List.pairwise_cons.1 hp
      have hrest : Table.wf dflt rest := ⟨hp'.2, fun e he => hd e (by simp [he])⟩
      unfold Table.set
      split
      · rename_i h1
        split
        · exact hp
        · refine List.pairwise_cons.2 ⟨fun e he => ?_, hp⟩
          rcases List.mem_cons.1 he with rfl | he
          · exact h1
          · exact Nat.lt_trans h1 (hp'.1 e he)
      · rename_i h1
        split
        · rename_i h2
          split
          · exact hp'.2
          · exact List.pairwise_cons.2 ⟨fun e he => h2 ▸ hp'.1 e he, hp'.2⟩
        · rename_i h2
          refine List.pairwise_cons.2 ⟨fun e he => ?_, ih hrest⟩
          rcases mem_set he with he | ⟨rfl, _⟩
          · exact hp'.1 e he
          · show k < i
            omega
  · rcases mem_set he with he | ⟨rfl, hv⟩
    · exact ht.2 e he
    · exact hv

theorem setRun_wf {t : Table} (ht : Table.wf dflt t) (i : Nat) (vs : List Nat) : Table.wf dflt (Table.setRun dflt t i vs) := by
  induction vs generalizing t i with
  | nil => exact ht
  | cons v vs ih => exact ih (set_wf ht i v) (i + 1)

/-- A run of writes is read back value by value, and no index outside the run changes. -/
theorem get_setRun {t : Table} (ht : Table.wf dflt t) (i : Nat) (vs : List Nat) (j : Nat) :
    Table.get dflt (Table.setRun dflt t i vs) j =
      if i ≤ j ∧ j < i + vs.length then (vs[j - i]?).getD dflt else Table.get dflt t j := by
  induction vs generalizing t i with
  | nil =>
    have : ¬(i ≤ j ∧ j < i + ([] : List Nat).length) := by simp
    rw [if_neg this]; rfl
  | cons v vs ih =>
    rw [Table.setRun, ih (set_wf ht i v) (i + 1), get_set ht]
    by_cases hj : j = i
    · subst hj; simp
    · by_cases hr : i + 1 ≤ j ∧ j < i + 1 + vs.length
      · have h2 : i ≤ j ∧ j < i + (v :: vs).length := by simp; omega
        rw [if_pos hr, if_pos h2]
        obtain ⟨m, rfl⟩ : ∃ m, j = i + 1 + m := ⟨j - (i + 1), by omega⟩
        simp [show i + 1 + m - (i + 1) = m by omega, show i + 1 + m - i = m + 1 by omega]
      · have h2 : ¬(i ≤ j ∧ j < i + (v :: vs).length) := by simp; omega
        rw [if_neg hr, if_neg h2, if_neg hj]

/-- A run of writes below a bound lists no index at or above the bound. -/
theorem setRun_lt {t : Table} {top : Nat} (ht : ∀ e ∈ t, e.1 < top) (i : Nat) (vs : List Nat) (hi : i + vs.length ≤ top) :
    ∀ e ∈ Table.setRun dflt t i vs, e.1 < top := by
  induction vs generalizing t i with
  | nil => exact ht
  | cons v vs ih =>
    simp only [List.length_cons] at hi
    refine ih (fun e he => ?_) (i + 1) (by omega)
    rcases mem_set he with he | ⟨rfl, _⟩
    · exact ht e he
    · show i < top
      omega

end Table

/-! ## Two banks -/

@[simp] theorem Banks.get_set_same (bs : Banks) (id : BankId) (b : Bank) : (bs.set id b).get id = b := by cases id <;> rfl

theorem Banks.get_set_other (bs : Banks) {id i : BankId} (h : i ≠ id) (b : Bank) : (bs.set id b).get i = bs.get i := by
  cases id <;> cases i <;> first | rfl | exact absurd rfl h

end Sys2Proof.Machine
end

