-- ==== Sys2Proof/Laws/Change.lean ====
section
/-! SUPPORT. What the operations can do to the state, said once: every operation is a sequence of the changes below, each with the conditions it
is made under. A property of states that every change keeps is kept by every step (Laws/Steps.lean); a field that none of an operation's
changes touches is left alone by it (Laws/Frames.lean). -/

namespace Sys2Proof.Machine

/-- The kinds of change. -/
inductive Effect where
  | lineRecord
  | printRecord
  | counter
  | waiting
  | pieces
  | enter
  | leave
  | jobs
  | cleared
  | currentJob
  | addJob
  | abort
  | mark
  | notice
  | causes
  | halt
  | lockout
  | holdAnew
  | configured
  | capture
  | takeCommit
  | takeCredit
  | commitOrdered
  | commitWithheld
  | commitOrphan
  | closeDone
  | creditDone
  | begun
  | orders
  | closeOrders
  | slotMark
  | settings
  | date
  | printer
  | monitors
  | loadMark
  | loadBegin
  | segment
  | loadEnd
  | switch
  | pend
  | warning
  | lost
  | stopped
  | unpowered
  | poweredOn
deriving DecidableEq, Repr

/-- What a job's place in the list is known by. -/
def Job.key (j : Job) : Nat × Nat := (j.slot, j.values.id)

/-- What a power-on makes of a part that has lost everything ordinary (the second half of `State.powerOn`). -/
def State.started (s : State) (service : Bool) : State :=
  { s with
    pins := { s.pins with reset := false, service }
    lockoutFlag := s.lockoutFlag && !service
    franking := if s.lockoutFlag && !service then .lockout else .unconfigured
    causes := { HoldCauses.none with power := s.pins.pfw }
    banks := { a := s.banks.a.poweredOn, b := s.banks.b.poweredOn }
    ratingRef := Banks.active { a := s.banks.a.poweredOn, b := s.banks.b.poweredOn }
    queue := s.accounts.powerOnSpoils }

/-- No two records hold the same tag (R1). -/
def State.TagsDistinct (s : State) : Prop := (s.pieces.map (·.tag)).Nodup

/-- What a piece becomes at an event that neither commits nor closes it: its commit data stands, a settled piece keeps its state, an unsettled one is
not committed (R4 to R6). -/
structure Piece.Follows (p q : Piece) : Prop where
  data : q.commitData = p.commitData
  settled : p.state.settled = true → q.state = p.state
  unsettled : p.state.settled = false → q.state ≠ .committing ∧ q.state ≠ .committed

/-- Every record that holds the tag is unsettled. -/
def State.Unsettled (s : State) (tag : Nat) : Prop := ∀ p ∈ s.pieces, p.tag = tag → p.state.settled = false

/-- A job with one record fewer in the list (R143). -/
def Job.released (j : Job) : Job := { j with inList := j.inList - 1 }

/-- A job closed by JOB_ABORT (R145). -/
def Job.aborted (j : Job) : Job := { j with state := .closed }

/-- The job list with the record of one slot changed. -/
def atSlot (slot : Nat) (f : Job → Job) (js : List Job) : List Job := js.map fun j => if j.slot == slot then f j else j

/-- The job list after the test of one slot for a done job (R144). -/
def dropDone (slot : Nat) (js : List Job) : List Job :=
  match js.find? (·.slot == slot) with
  | none => js
  | some j => if j.done then js.filter (·.slot != slot) else js

/-- The job list once a record of a job has left the piece list (R143, R144). -/
def releaseJob (job : Option Nat) (js : List Job) : List Job :=
  match job with
  | none => js
  | some slot => dropDone slot (atSlot slot Job.released js)

/-- The job list once a record of a job has entered the piece list (R142). -/
def assignJob (job : Option Nat) (js : List Job) : List Job :=
  match job with
  | none => js
  | some slot => atSlot slot Job.assigned js

/-- The piece list with the records of one tag changed. -/
def atTag (tag : Nat) (f : Piece → Piece) (ps : List Piece) : List Piece := ps.map fun p => if p.tag == tag then f p else p

/-- The COMMITTING record of a completed COMMIT whose order is withheld receives its commit data (R6). -/
def Piece.filled (c : CommitData) (p : Piece) : Piece := if p.state = .committing then { p with commitData := some c } else p

/-- The COMMITTING record of a completed COMMIT that is ordered becomes COMMITTED (R6). -/
def Piece.ordered (c : CommitData) (p : Piece) : Piece :=
  if p.state = .committing then { p with commitData := some c, state := .committed } else p

/-- The piece list once a closing write of the sequence number has ended its record (R6). -/
def endNumber (n : Nat) (d : Option Disposition) (ps : List Piece) : List Piece :=
  match ps.find? fun p => p.commitData.map (·.n) == some n, d with
  | some p, some d => atTag p.tag (·.ended d) ps
  | _, _ => ps

/-- One change of its kind, with the conditions it is made under. `Q` stands for what may be known of the state before the command: a condition
under it is one that a repeated tag could break. -/
inductive Change (Q : Prop) : Effect → State → State → Prop where
  | lineRecord (s : State) (x : LineTx) : Change Q .lineRecord s { s with lineTx := x }
  | printRecord (s : State) (x : PrintTx) : Change Q .printRecord s { s with printTx := x }
  | counter (s : State) (c : Counters) : Change Q .counter s { s with counters := c }
  | waiting (s : State) (r : Option ResetWait) (h : List Nat) : Change Q .waiting s { s with resetWait := r, holdWaiting := h }
  | pieces (s : State) (f : Piece → Piece) (ht : ∀ p, (f p).tag = p.tag) (hj : ∀ p, (f p).job = p.job)
      (hf : Q → ∀ p ∈ s.pieces, p.Follows (f p)) : Change Q .pieces s { s with pieces := s.pieces.map f }
  | enter (s : State) (p : Piece) (hf : s.franking ≠ .unconfigured) (hl : s.pieces.length < Config.maxPieces)
      (ht : p.tag ∉ s.pieces.map (·.tag)) (hj : ∀ slot, p.job = some slot → slot ∈ s.jobs.map (·.slot)) (hs : p.state = .opened)
      (hc : p.commitData = none) : Change Q .enter s { s with pieces := s.pieces ++ [p], jobs := assignJob p.job s.jobs }
  | leave (s : State) (tag : Nat) (p : Piece) (hp : s.piece? tag = some p) (hf : Q → p.state = .final) :
      Change Q .leave s { s with pieces := s.pieces.filter (·.tag != tag), jobs := releaseJob p.job s.jobs }
  | jobs (s : State) (f : Job → Job) (hk : ∀ j, (f j).key = j.key) (hs : ∀ j, (f j).state = j.state) (hl : ∀ j, (f j).inList = j.inList) :
      Change Q .jobs s { s with jobs := s.jobs.map f }
  | abort (s : State) (slot : Nat) : Change Q .abort s { s with jobs := dropDone slot (atSlot slot Job.aborted s.jobs) }
  | cleared (s : State) (ws : List Write) (hs : ∀ c, s.slot = some c → c.phase = .commit → c.withheld = some .lineReset)
      (hw : ∀ w ∈ ws, ∃ kind tag n, w = .close kind tag n .lineReset) (ht : ∀ n ∈ closings ws, s.closeTaken n = true) (hd : (closings ws).Nodup)
      (hc : ∀ o ∈ s.orders, State.closeTaken { s with queue := s.queue ++ ws } o.n = false) :
      Change Q .cleared s { s with pieces := [], jobs := [], orders := [], queue := s.queue ++ ws }
  | currentJob (s : State) (j : Job) (hc : s.currentJob = none) (hj : j ∈ s.jobs) :
      Change Q .currentJob s (s.updateJob j.slot fun j => { j with state := .current })
  | addJob (s : State) (j : Job) (hf : s.franking ≠ .unconfigured) (hl : s.jobs.length < Config.maxJobs) (hs : j.slot < Config.maxJobs)
      (hn : j.slot ∉ s.jobs.map (·.slot)) (hi : j.values.id ∉ s.jobs.map (·.values.id)) (hw : j.state = .waiting) (hz : j.inList = 0) :
      Change Q .addJob s { s with jobs := s.jobs ++ [j] }
  | mark (s : State) (m : Option Nat) : Change Q .mark s { s with fundsMark := m }
  | notice (s : State) (cs : Vector Channel 8) (g gs : Bool)
      (h : s.NoneReady → State.NoneReady { s with channels := cs, gne := g, gneSaved := gs }) :
      Change Q .notice s { s with channels := cs, gne := g, gneSaved := gs }
  | causes (s : State) (c : HoldCauses) (h : c.power = s.causes.power) : Change Q .causes s (s.setCauses c)
  | halt (s : State) (h : s.franking = .running ∨ s.franking = .held) : Change Q .halt s { s with franking := .halted }
  | lockout (s : State) (h : s.franking = .running ∨ s.franking = .held ∨ s.franking = .halted) :
      Change Q .lockout s { s with lockoutFlag := true, franking := .lockout }
  | holdAnew (s : State) (h : s.franking = .running ∨ s.franking = .held ∨ s.franking = .halted) :
      Change Q .holdAnew s { s with franking := .held, causes := .operatorWith s.pins.pfw }
  | configured (s : State) : Change Q .configured s { s with franking := s.franking.configured s.causes }
  | capture (s : State) (c : Option Capture) : Change Q .capture s { s with capture := c }
  | takeCommit (s : State) (tag p : Nat) (o : OrderFields) (hf : s.franking = .running) (hd : s.mailingDate.isSome) (hr : s.printer = .ready)
      (ho : s.orders.length < s.settings.maxOutstanding) (hp : p ≤ s.accounts.d) (hs : s.slot = none)
      (hc : s.accounts.ceilingFailure p = none) (hu : Q → s.Unsettled tag ∧ tag ∈ s.pieces.map (·.tag)) :
      Change Q .takeCommit s
        { s with
          queue := s.queue ++ [.commit tag p], slot := some { tag, p, phase := .commit, withheld := none, order := o }, fundsMark := none
          pieces := atTag tag Piece.committing s.pieces }
  | takeCredit (s : State) (request number amount : Nat) (h : s.creditRefusal number amount = none) :
      Change Q .takeCredit s { s with queue := s.queue ++ [.credit request number amount] }
  | commitOrdered (s : State) (tag p : Nat) (rest : List Write) (hq : s.queue = .commit tag p :: rest) (slot : CommitSlot)
      (hs : s.slot = some slot) (hw : slot.withheld ≠ some .lineReset) (c : CommitData) (hn : c.n = s.accounts.n + 1) (x : PrintTx) :
      Change Q .commitOrdered s
        { s.performHead (.commit tag p) rest with
          slot := none, printTx := x, pieces := atTag slot.tag (Piece.ordered c) s.pieces
          orders := s.orders ++ [{ tag := slot.tag, n := s.accounts.n + 1, p, taken := false, duration := s.settings.tTake }] }
  | commitWithheld (s : State) (tag p : Nat) (rest : List Write) (hq : s.queue = .commit tag p :: rest) (slot : CommitSlot)
      (hs : s.slot = some slot) (w : WithheldCause) (c : CommitData) (hn : c.n = s.accounts.n + 1) (ps : List Piece)
      (hp : ps = if w = .lineReset then s.pieces else atTag slot.tag (Piece.filled c) s.pieces) (q : List Write)
      (hc : q = if (s.performHead (.commit tag p) rest).closeTaken (s.accounts.n + 1) then
          rest ++ [.close w.closing slot.tag (s.accounts.n + 1) .commitUnit] else rest) :
      Change Q .commitWithheld s
        { s.performHead (.commit tag p) rest with slot := some { slot with phase := .followUp, withheld := some w }, queue := q, pieces := ps }
  | commitOrphan (s : State) (tag p : Nat) (rest : List Write) (hq : s.queue = .commit tag p :: rest) (hs : s.slot = none) :
      Change Q .commitOrphan s (s.performHead (.commit tag p) rest)
  | closeDone (s : State) (kind : CloseKind) (tag n : Nat) (by_ : Requester) (rest : List Write) (hq : s.queue = .close kind tag n by_ :: rest)
      (d : Option Disposition) :
      Change Q .closeDone s { s.performHead (.close kind tag n by_) rest with slot := s.slotAfterClose by_, pieces := endNumber n d s.pieces }
  | creditDone (s : State) (request number amount : Nat) (rest : List Write) (hq : s.queue = .credit request number amount :: rest) :
      Change Q .creditDone s (s.performHead (.credit request number amount) rest)
  | begun (s : State) (b : Bool) : Change Q .begun s { s with writeBegun := b }
  | orders (s : State) (f : Order → Order) (hn : ∀ o, (f o).n = o.n) (ht : ∀ o, (f o).tag = o.tag) :
      Change Q .orders s { s with orders := s.orders.map f }
  | closeOrders (s : State) (os : List Order) (ws : List Write) (hk : os.Sublist s.orders)
      (hw : ∀ w ∈ ws, ∃ kind tag n, w = .close kind tag n .printPort)
      (ht : ∀ n ∈ closings ws, s.closeTaken n = true ∧ n ∉ os.map (·.n)) (hd : (closings ws).Nodup)
      (hc : ∀ o ∈ s.orders, o.n ∉ os.map (·.n) → State.closeTaken { s with queue := s.queue ++ ws } o.n = false) :
      Change Q .closeOrders s { s with orders := os, queue := s.queue ++ ws }
  | slotMark (s : State) : Change Q .slotMark s { s with slot := s.slot.map CommitSlot.resetMarked }
  | settings (s : State) (v : ConfigureFields) (m : NoticeMode) : Change Q .settings s { s with settings := .ofFields v m }
  | date (s : State) (d : Option Nat) : Change Q .date s { s with mailingDate := d }
  | printer (s : State) (x : PrinterState) : Change Q .printer s { s with printer := x }
  | monitors (s : State) (ms : Vector Monitor 4) (w : Flags16) : Change Q .monitors s { s with monitors := ms, sensorWord := w }
  | loadMark (s : State) (l : Load) : Change Q .loadMark s { s with load := l }
  | loadBegin (s : State) (id : BankId) (tariffId : Nat) (ha : (s.banks.get id).state ≠ .active)
      (ho : (s.banks.get id.other).state ≠ .loading) : Change Q .loadBegin s (s.beginLoad id tariffId)
  | segment (s : State) (id : BankId) (b : Bank) (hl : s.banks.loading = some id) (hs : b.state = (s.banks.get id).state)
      (hb : (s.banks.get id).Sound → b.Sound) : Change Q .segment s { s with banks := s.banks.set id b }
  | loadEnd (s : State) (id : BankId) (st : BankState) (hl : s.banks.loading = some id) (hs : st = .ready ∨ st = .invalid) :
      Change Q .loadEnd s { s with banks := s.banks.setState id st }
  | switch (s : State) (target : BankId)
      (hr : (s.banks.get target).state = .ready ∨ s.pendingSwitch.map (·.target) = some target) :
      Change Q .switch s { s with banks := s.banks.switched target, pendingSwitch := none, ratingRef := some target }
  | pend (s : State) (x : Option PendingSwitch) (h : ∀ y, x = some y → (s.banks.get y.target).state = .ready) :
      Change Q .pend s { s with pendingSwitch := x }
  | warning (s : State) (b : Bool) :
      Change Q .warning s
        (if s.power = .on then State.setCauses { s with pins := { s.pins with pfw := b } } { s.causes with power := b }
         else { s with pins := { s.pins with pfw := b } })
  | lost (s : State) (a : Accounts) (i : Nat)
      (h : a = s.accounts ∨ ∃ w rest, s.queue = w :: rest ∧ s.writeBegun = true ∧ a = s.accounts.apply s.mailingDate w) :
      Change Q .lost s { s with accounts := a, freeIndex := i, queue := [], writeBegun := false, power := if s.power = .off then .off else .inReset }
  | stopped (s : State) : Change Q .stopped s { s with pins := { s.pins with reset := true } }
  | unpowered (s : State) : Change Q .unpowered s (s.volatileLost .off)
  | poweredOn (s : State) (service : Bool) : Change Q .poweredOn s ((s.volatileLost .on).started service)

/-- A sequence of changes, each of a kind in `K`. -/
inductive Reach (Q : Prop) (K : List Effect) : State → State → Prop where
  | refl (s : State) : Reach Q K s s
  | step {s t u : State} {e : Effect} (h : Reach Q K s t) (he : e ∈ K) (hc : Change Q e t u) : Reach Q K s u

namespace Reach

variable {Q : Prop} {K K' : List Effect} {s t u : State}

theorem mono (h : Reach Q K s t) (hk : K ⊆ K') : Reach Q K' s t := by
  induction h with
  | refl => exact .refl _
  | step _ he hc ih => exact .step ih (hk he) hc

theorem trans (h : Reach Q K s t) (h' : Reach Q K t u) : Reach Q K s u := by
  induction h' with
  | refl => exact h
  | step _ he hc ih => exact .step ih he hc

theorem one {e : Effect} (hc : Change Q e s t) (he : e ∈ K) : Reach Q K s t := .step (.refl _) he hc

/-- Two operations one after the other, each within its own kinds. -/
theorem andThen {K₁ K₂ : List Effect} (h : Reach Q K₁ s t) (h' : Reach Q K₂ t u) (h₁ : K₁ ⊆ K) (h₂ : K₂ ⊆ K) : Reach Q K s u :=
  (h.mono h₁).trans (h'.mono h₂)

theorem foldl {α : Type} (f : State → α → State) (hf : ∀ s a, Reach Q K s (f s a)) (l : List α) (s : State) : Reach Q K s (l.foldl f s) := by
  induction l generalizing s with
  | nil => exact .refl _
  | cons a l ih => exact (hf s a).trans (ih _)

/-- A property that every change of the kinds in `K` keeps is kept by a sequence of them. -/
theorem keeps {P : State → Prop} (h : Reach Q K s t) (hp : ∀ {e s t}, e ∈ K → Change Q e s t → P s → P t) : P s → P t := by
  intro h0
  induction h with
  | refl => exact h0
  | step _ he hc ih => exact hp he hc ih

end Reach

end Sys2Proof.Machine
end

