-- ==== Sys2Proof/Laws/Ops.lean ====
section
/-! SUPPORT. One lemma for each shared operation: the changes it is made of. -/

namespace Sys2Proof.Machine

variable {Q : Prop}

/-! ## Sending and posting -/

theorem sendLine_reach (s : State) (r : LineRecord) : Reach Q [.lineRecord] s (s.sendLine r) := .one (.lineRecord s _) (by simp)

theorem sendPrint_reach (s : State) (r : PrintRecord) : Reach Q [.printRecord] s (s.sendPrint r) := .one (.printRecord s _) (by simp)

theorem sendReply_reach (s : State) (r : Reply) : Reach Q [.lineRecord] s (s.sendReply r) := .one (.lineRecord s _) (by simp)

theorem accept_reach (s : State) (number : Nat) (k : RequestKind) (r : Results) : Reach Q [.lineRecord] s (s.accept number k r) :=
  sendReply_reach s _

theorem acceptClamped_reach (s : State) (number : Nat) (k : RequestKind) (c : Bool) (r : Results) :
    Reach Q [.lineRecord] s (s.acceptClamped number k c r) := sendReply_reach s _

theorem refuse_reach (s : State) (number kind : Nat) (r : Reason) (x : Results) : Reach Q [.lineRecord] s (s.refuse number kind r x) :=
  sendReply_reach s _

/-- Every channel is in the order of priority. -/
theorem mem_channelOrder (c : Fin 8) : c ∈ channelOrder := by revert c; decide

/-- The channels before a channel of the order are those of lower number. -/
theorem channelOrder_split (c : Fin 8) : ∃ pre post, channelOrder = pre ++ c :: post ∧ ∀ k, k < c → k ∈ pre := by
  refine ⟨channelOrder.take c.val, channelOrder.drop (c.val + 1), ?_, ?_⟩
  · revert c; decide
  · revert c; decide

/-- A channel is ready only if no channel of its number or lower is under service. -/
theorem underService_blocks {s : State} {c k : Fin 8} (hk : k ≤ c) (hs : s.channels[k].underService = true) : s.channelReady c = false := by
  have : s.unblocked c = false := by
    rw [State.unblocked, List.all_eq_false]
    exact ⟨k, mem_channelOrder k, by rw [hs, decide_eq_false (not_lt.2 hk)]; decide⟩
  simp [State.channelReady, this]

/-- A channel below the one sent is ready after the send only if it was before. -/
theorem sendNotice_below {s : State} {c k : Fin 8} (hk : k < c) (h : s.channelReady k = false) : (s.sendNotice c).channelReady k = false := by
  have hc : c ≠ 0 := fun h0 => absurd hk (by simp [h0])
  have hget : ∀ j : Fin 8, j < c → (s.sendNotice c).channels[j] = s.channels[j] := fun j hj => by
    have : (c : Nat) ≠ j := fun e => absurd hj (by simp [Fin.lt_def, e])
    simp [State.sendNotice, hc, State.sendLine, this]
  have hgne : (s.sendNotice c).gne = s.gne := by simp [State.sendNotice, hc, State.sendLine]
  have hun : (s.sendNotice c).unblocked k = s.unblocked k := by
    unfold State.unblocked
    refine List.all_congr rfl fun j => ?_
    by_cases hj : k < j
    · simp [hj]
    · rw [hget j (lt_of_le_of_lt (not_lt.1 hj) hk)]
  simpa [State.channelReady, hun, hget k hk, hgne] using h

/-- After the sending test no channel is ready (R181). -/
theorem sendingTest_noneReady (s : State) : s.sendingTest.NoneReady := by
  intro k
  unfold State.sendingTest
  cases h : channelOrder.find? s.channelReady with
  | none => simpa using List.find?_eq_none.1 h k (mem_channelOrder k)
  | some c =>
    show (s.sendNotice c).channelReady k = false
    by_cases hk : k < c
    · refine sendNotice_below hk ?_
      obtain ⟨pre, post, hsplit, hpre⟩ := channelOrder_split c
      by_contra hr
      rw [hsplit, List.find?_append] at h
      cases hf : pre.find? s.channelReady with
      | none => exact hr (by simpa using List.find?_eq_none.1 hf k (hpre k hk))
      | some x =>
        rw [hf] at h
        simp only [Option.some_or, Option.some.injEq] at h
        subst h
        have := List.mem_of_find?_eq_some hf
        have hnd : (pre ++ x :: post).Nodup := hsplit ▸ by decide
        exact (List.nodup_append.1 hnd).2.2 x this x (by simp) rfl
    · refine underService_blocks (k := c) (not_lt.1 hk) ?_
      unfold State.sendNotice
      by_cases hc : c = 0
      · subst hc; cases hm : s.settings.noticeMode <;> simp [State.sendLine, Channel.sent, hm]
      · cases hm : s.settings.noticeMode <;> simp [hc, State.sendLine, Channel.sent, hm]

theorem sendNotice_form (s : State) (c : Fin 8) :
    ∃ x cs g gs, s.sendNotice c = { s with lineTx := x, channels := cs, gne := g, gneSaved := gs } := by
  unfold State.sendNotice
  by_cases hc : c = 0
  · subst hc; exact ⟨_, _, _, _, rfl⟩
  · simp only [hc, if_false]; exact ⟨_, _, _, _, rfl⟩

theorem sendingTest_form (s : State) : ∃ x cs g gs, s.sendingTest = { s with lineTx := x, channels := cs, gne := g, gneSaved := gs } := by
  unfold State.sendingTest
  split
  · exact ⟨s.lineTx, s.channels, s.gne, s.gneSaved, rfl⟩
  · exact sendNotice_form s _

/-- A change of the channels followed by the sending test. -/
theorem noticed_reach (s : State) (cs : Vector Channel 8) (g gs : Bool) :
    Reach Q [.lineRecord, .notice] s (State.sendingTest { s with channels := cs, gne := g, gneSaved := gs }) := by
  have hr := sendingTest_noneReady { s with channels := cs, gne := g, gneSaved := gs }
  obtain ⟨x, cs', g', gs', h⟩ := sendingTest_form { s with channels := cs, gne := g, gneSaved := gs }
  rw [h] at hr ⊢
  exact .step (.one (.lineRecord s x) (by simp)) (by simp) (.notice { s with lineTx := x } cs' g' gs' fun _ => hr)

theorem sendingTest_reach (s : State) : Reach Q [.lineRecord, .notice] s s.sendingTest := noticed_reach s s.channels s.gne s.gneSaved

theorem post_reach (s : State) (code : CauseCode) (tag : Option Nat) (detail : List (Option Nat)) :
    Reach Q [.lineRecord, .notice] s (s.post code tag detail) := noticed_reach s _ s.gne s.gneSaved

/-! ## The franking state and errors -/

theorem setCauses_reach (s : State) (c : HoldCauses) (h : c.power = s.causes.power) : Reach Q [.causes] s (s.setCauses c) :=
  .one (.causes s c h) (by simp)

theorem captureError_reach (s : State) (cls : ErrorClass) (code : CauseCode) (tag : Option Nat) (before : FrankingState)
    (detail : List (Option Nat)) : Reach Q [.capture] s (s.captureError cls code tag before detail) := by
  unfold State.captureError
  split <;> exact .one (.capture s _) (by simp)

theorem contribute_reach (s : State) : Reach Q [.causes, .halt] s s.contribute := by
  unfold State.contribute
  split
  · exact .one (.causes s _ (by rfl)) (by simp)
  · rename_i h
    split
    · exact .one (.halt s (.inr h)) (by simp)
    · exact .one (.causes s _ (by rfl)) (by simp)
  all_goals exact .refl s

/-- The kinds of change of a contributory error. -/
abbrev contributoryEffects : List Effect := [.causes, .halt, .capture, .lineRecord, .notice]

theorem raiseContributory_reach (s : State) (code : CauseCode) (tag : Option Nat) (detail : List (Option Nat)) :
    Reach Q contributoryEffects s (s.raiseContributory code tag detail) :=
  ((contribute_reach s).andThen (captureError_reach _ _ _ _ _ _) (K := [.causes, .halt, .capture]) (by decide) (by decide)).andThen
    (post_reach _ _ _ _) (by decide) (by decide)

theorem enterLockout_reach (s : State) : Reach Q [.lockout] s s.enterLockout := by
  unfold State.enterLockout
  split
  · rename_i h; exact .one (.lockout s (.inl h)) (by simp)
  · rename_i h; exact .one (.lockout s (.inr (.inl h))) (by simp)
  · rename_i h; exact .one (.lockout s (.inr (.inr h))) (by simp)
  all_goals exact .refl s

/-- The kinds of change of an abort error. -/
abbrev abortEffects : List Effect := [.lockout, .capture, .lineRecord, .notice]

theorem raiseAbort_reach (s : State) (code : CauseCode) (tag : Option Nat) (detail : List (Option Nat)) :
    Reach Q abortEffects s (s.raiseAbort code tag detail) :=
  ((enterLockout_reach s).andThen (captureError_reach _ _ _ _ _ _) (K := [.lockout, .capture]) (by decide) (by decide)).andThen
    (post_reach _ _ _ _) (by decide) (by decide)

/-! ## Pieces and jobs -/

theorem atTag_map {α : Type} (g : Piece → α) {f : Piece → Piece} (hf : ∀ p, g (f p) = g p) (tag : Nat) (ps : List Piece) :
    (atTag tag f ps).map g = ps.map g := by
  unfold atTag
  rw [List.map_map]
  refine List.map_congr_left fun p _ => ?_
  show g (if p.tag == tag then f p else p) = g p
  split
  · exact hf p
  · rfl

theorem atSlot_map {α : Type} (g : Job → α) {f : Job → Job} (hf : ∀ j, g (f j) = g j) (slot : Nat) (js : List Job) :
    (atSlot slot f js).map g = js.map g := by
  unfold atSlot
  rw [List.map_map]
  refine List.map_congr_left fun j _ => ?_
  show g (if j.slot == slot then f j else j) = g j
  split
  · exact hf j
  · rfl

theorem endNumber_map {α : Type} (g : Piece → α) (hg : ∀ p d, g (Piece.ended p d) = g p) (n : Nat) (d : Option Disposition) (ps : List Piece) :
    (endNumber n d ps).map g = ps.map g := by
  unfold endNumber
  split
  · exact atTag_map g (fun p => hg p _) _ _
  · rfl

theorem Piece.filled_tag (c : CommitData) (p : Piece) : (p.filled c).tag = p.tag := by unfold Piece.filled; split <;> rfl
theorem Piece.filled_job (c : CommitData) (p : Piece) : (p.filled c).job = p.job := by unfold Piece.filled; split <;> rfl
theorem Piece.ordered_tag (c : CommitData) (p : Piece) : (p.ordered c).tag = p.tag := by unfold Piece.ordered; split <;> rfl
theorem Piece.ordered_job (c : CommitData) (p : Piece) : (p.ordered c).job = p.job := by unfold Piece.ordered; split <;> rfl

/-- No tag enters the piece list but by an ENTER. -/
theorem Change.tags {e : Effect} {s t : State} (h : Change Q e s t) (he : e ≠ .enter) :
    (t.pieces.map (·.tag)).Sublist (s.pieces.map (·.tag)) := by
  have of_eq {ps : List Piece} (he : ps.map (·.tag) = s.pieces.map (·.tag)) : (ps.map (·.tag)).Sublist (s.pieces.map (·.tag)) :=
    he ▸ List.Sublist.refl _
  cases h with
  | pieces _ f ht => exact of_eq (by rw [List.map_map]; exact List.map_congr_left fun p _ => ht p)
  | enter => exact absurd rfl he
  | leave => exact List.filter_sublist.map _
  | cleared => exact List.nil_sublist _
  | takeCommit _ tag => exact of_eq (atTag_map (f := Piece.committing) _ (fun _ => rfl) _ _)
  | commitOrdered _ _ _ _ _ slot _ _ c => exact of_eq (atTag_map _ (Piece.ordered_tag c) _ _)
  | commitWithheld _ _ _ _ _ slot _ w c _ ps hp =>
    refine of_eq ?_
    rw [hp]
    split
    · rfl
    · exact atTag_map _ (Piece.filled_tag c) _ _
  | closeDone _ _ _ n _ _ _ d => exact of_eq (endNumber_map _ (fun _ _ => rfl) n d _)
  | warning => split <;> exact List.Sublist.refl _
  | unpowered => exact List.nil_sublist _
  | poweredOn => exact List.nil_sublist _
  | _ => exact List.Sublist.refl _

theorem Reach.tags {K : List Effect} {s t : State} (h : Reach Q K s t) (hk : .enter ∉ K) :
    (t.pieces.map (·.tag)).Sublist (s.pieces.map (·.tag)) := by
  induction h with
  | refl => exact List.Sublist.refl _
  | step _ he hc ih => exact (hc.tags fun h => hk (h ▸ he)).trans ih

/-- Distinct tags stay distinct (R1). -/
theorem Change.distinct {e : Effect} {s t : State} (h : Change Q e s t) (hs : s.TagsDistinct) : t.TagsDistinct := by
  by_cases he : e = .enter
  · subst he
    cases h with
    | enter _ p _ _ ht =>
      show ((s.pieces ++ [p]).map (·.tag)).Nodup
      rw [List.map_append, List.nodup_append]
      exact ⟨hs, by simp, fun x hx y hy => by rw [List.map_singleton, List.mem_singleton] at hy; subst hy; exact fun e => ht (e ▸ hx)⟩
  · exact (h.tags he).nodup hs

theorem Reach.distinct {K : List Effect} {s t : State} (h : Reach Q K s t) (hs : s.TagsDistinct) : t.TagsDistinct := by
  induction h with
  | refl => exact hs
  | step _ _ hc ih => exact hc.distinct ih

/-- With distinct tags, the record found by a tag is the only one that holds it. -/
theorem State.TagsDistinct.only {s : State} (hs : s.TagsDistinct) {p q : Piece} (hp : p ∈ s.pieces) (hq : q ∈ s.pieces) (h : q.tag = p.tag) :
    q = p := List.inj_on_of_nodup_map hs hq hp h

theorem piece?_mem {s : State} {tag : Nat} {p : Piece} (h : s.piece? tag = some p) : p ∈ s.pieces ∧ p.tag = tag :=
  ⟨List.mem_of_find?_eq_some h, by simpa using List.find?_some h⟩

theorem State.TagsDistinct.unsettled {s : State} (hs : s.TagsDistinct) {p : Piece} (hp : p ∈ s.pieces) (hu : p.state.settled = false) :
    s.Unsettled p.tag := fun q hq hqt => by rw [hs.only hp hq hqt]; exact hu

theorem updatePiece_find {s : State} {tag : Nat} {f : Piece → Piece} (hf : ∀ p, (f p).tag = p.tag) :
    (s.updatePiece tag f).piece? tag = (s.piece? tag).map f := by
  unfold State.piece? State.updatePiece
  generalize s.pieces = ps
  induction ps with
  | nil => rfl
  | cons p ps ih =>
    rw [List.map_cons, List.find?_cons, List.find?_cons]
    by_cases h : p.tag == tag
    · simp [h, hf]
    · simp only [h, Bool.false_eq_true, if_false]
      exact ih

/-- A change of a piece that leaves what it is known by and how far its business has gone. -/
structure Piece.Keeps (f : Piece → Piece) : Prop where
  tag : ∀ p, (f p).tag = p.tag
  job : ∀ p, (f p).job = p.job
  state : ∀ p, (f p).state = p.state
  data : ∀ p, (f p).commitData = p.commitData

theorem Piece.Follows.same {p q : Piece} (hs : q.state = p.state) (hd : q.commitData = p.commitData) : p.Follows q :=
  ⟨hd, fun _ => hs, fun hu => by rw [hs]; constructor <;> intro h <;> rw [h] at hu <;> cases hu⟩

/-- The records of one tag change as any piece may, or as an unsettled one may where all of that tag are unsettled. -/
theorem updatePiece_change (s : State) (tag : Nat) {f : Piece → Piece} (ht : ∀ p, (f p).tag = p.tag) (hj : ∀ p, (f p).job = p.job)
    (hf : Q → ∀ p ∈ s.pieces, p.tag = tag → p.Follows (f p)) : Reach Q [.pieces] s (s.updatePiece tag f) := by
  refine .one (.pieces s (fun p => if p.tag == tag then f p else p) (fun p => ?_) (fun p => ?_) fun q p hp => ?_) (by simp)
  · split <;> simp [ht]
  · split <;> simp [hj]
  · split
    · rename_i h; exact hf q p hp (by simpa using h)
    · exact .same rfl rfl

theorem updatePiece_reach (s : State) (tag : Nat) {f : Piece → Piece} (hf : Piece.Keeps f) : Reach Q [.pieces] s (s.updatePiece tag f) :=
  updatePiece_change s tag hf.tag hf.job fun _ p _ _ => .same (hf.state p) (hf.data p)

theorem updatePiece_within {K : List Effect} (hk : .pieces ∈ K) (s : State) (tag : Nat) {f : Piece → Piece} (hf : Piece.Keeps f) :
    Reach Q K s (s.updatePiece tag f) := (updatePiece_reach s tag hf).mono (by simpa using hk)

/-- An unsettled piece takes a state that is not of a commit. -/
theorem updatePiece_unsettled (s : State) (tag : Nat) {f : Piece → Piece} (ht : ∀ p, (f p).tag = p.tag) (hj : ∀ p, (f p).job = p.job)
    (hd : ∀ p, (f p).commitData = p.commitData) (hs : ∀ p, (f p).state ≠ .committing ∧ (f p).state ≠ .committed)
    (hu : Q → s.Unsettled tag) : Reach Q [.pieces] s (s.updatePiece tag f) :=
  updatePiece_change s tag ht hj fun q p hp hpt =>
    ⟨hd p, fun h => absurd ((hu q p hp hpt).symm.trans h) (by simp), fun _ => hs p⟩

/-- What a tag is known to be stays known where its records change as unsettled ones. -/
theorem State.Unsettled.update {s : State} {tag : Nat} (h : s.Unsettled tag) {f : Piece → Piece} (ht : ∀ p, (f p).tag = p.tag)
    (hf : ∀ p, p.state.settled = false → (f p).state.settled = false) (t : Nat) : (s.updatePiece t f).Unsettled tag := by
  intro q hq hqt
  obtain ⟨p, hp, rfl⟩ := List.mem_map.1 hq
  split at hqt
  · rename_i hc
    rw [if_pos hc]
    exact hf p (h p hp ((ht p).symm.trans hqt))
  · rename_i hc
    rw [if_neg hc]
    exact h p hp hqt

theorem State.Unsettled.keep {s : State} {tag : Nat} (h : s.Unsettled tag) {f : Piece → Piece} (hf : Piece.Keeps f) (t : Nat) :
    (s.updatePiece t f).Unsettled tag := h.update hf.tag (fun p hp => (congrArg _ (hf.state p)).trans hp) t

/-- A change of every job that keeps its place, its state and its count of records. -/
theorem updateJob_reach (s : State) (slot : Nat) {f : Job → Job} (hk : ∀ j, (f j).key = j.key) (hs : ∀ j, (f j).state = j.state)
    (hl : ∀ j, (f j).inList = j.inList) : Reach Q [.jobs] s (s.updateJob slot f) := by
  refine .one (.jobs s (fun j => if j.slot == slot then f j else j) (fun j => ?_) (fun j => ?_) fun j => ?_) (by simp)
  · split <;> simp [hk]
  · split <;> simp [hs]
  · split <;> simp [hl]

/-- The test for a done job: the record dropped, then the posting (R144). -/
theorem testDone_reach (s : State) (slot : Nat) (tag : Option Nat) :
    Reach Q [.lineRecord, .notice] { s with jobs := dropDone slot s.jobs } (s.testDone slot tag) := by
  unfold State.testDone dropDone State.job?
  cases s.jobs.find? (·.slot == slot) with
  | none => exact .refl s
  | some j =>
    by_cases hd : j.done = true
    · simp only [hd, if_true]
      exact post_reach _ _ _ _
    · simp only [hd]
      exact .refl s

theorem countDisposition_reach (s : State) (job : Option Nat) (d : Disposition) : Reach Q [.jobs] s (s.countDisposition job d) := by
  unfold State.countDisposition
  split
  · exact .refl s
  · refine updateJob_reach s _ (fun j => ?_) (fun j => ?_) fun j => ?_
    all_goals cases d <;> rfl

/-- The kinds of change of a piece's removal. -/
abbrev leaveEffects : List Effect := [.leave, .lineRecord, .notice]

/-- The kinds of change of a piece's end or removal. -/
abbrev pieceEffects : List Effect := [.pieces, .leave, .jobs, .lineRecord, .notice]

theorem removePiece_reach (s : State) (tag : Nat) (hf : Q → ∀ p, s.piece? tag = some p → p.state = .final) :
    Reach Q leaveEffects s (s.removePiece tag) := by
  unfold State.removePiece
  split
  · exact .refl s
  · rename_i p hp
    have h1 := Reach.one (K := leaveEffects) (.leave s tag p hp fun q => hf q p hp) (by decide)
    simp only
    split
    · rename_i hj
      rw [hj] at h1
      exact h1
    · rename_i slot hj
      rw [hj] at h1
      exact h1.trans
        (Reach.mono (testDone_reach (State.updateJob { s with pieces := s.pieces.filter (·.tag != tag) } slot Job.released) slot (some tag))
          (by decide))

theorem postDivert_reach (s : State) (tag : Nat) (d : Disposition) : Reach Q [.lineRecord, .notice] s (s.postDivert tag d) := by
  unfold State.postDivert
  split
  · exact post_reach s _ _ _
  all_goals exact .refl s

theorem post_pieces (s : State) (code : CauseCode) (tag : Option Nat) (detail : List (Option Nat)) : (s.post code tag detail).pieces = s.pieces := by
  obtain ⟨x, cs, g, gs, h⟩ := sendingTest_form { s with channels := s.channels.set code.channel (s.channels[code.channel].posted { code, tag, detail }) }
  exact (congrArg State.pieces h).trans rfl

theorem postDivert_pieces (s : State) (tag : Nat) (d : Disposition) : (s.postDivert tag d).pieces = s.pieces := by
  unfold State.postDivert
  split
  · exact post_pieces s _ _ _
  all_goals rfl

theorem countDisposition_pieces (s : State) (job : Option Nat) (d : Disposition) : (s.countDisposition job d).pieces = s.pieces := by
  unfold State.countDisposition
  split <;> rfl

theorem testDone_pieces (s : State) (slot : Nat) (tag : Option Nat) : (s.testDone slot tag).pieces = s.pieces := by
  unfold State.testDone
  split
  · rfl
  · split
    · exact post_pieces _ _ _ _
    · rfl

theorem removePiece_pieces (s : State) (tag : Nat) : (s.removePiece tag).pieces = s.pieces.filter (·.tag != tag) := by
  unfold State.removePiece
  split
  · rename_i h
    refine (List.filter_eq_self.2 fun p hp => ?_).symm
    simpa using List.find?_eq_none.1 h p hp
  · simp only
    split
    · rfl
    · exact testDone_pieces _ _ _

theorem removePiece_gone (s : State) (tag : Nat) : (s.removePiece tag).piece? tag = none := by
  unfold State.piece?
  rw [removePiece_pieces, List.find?_eq_none]
  intro p hp
  simpa using (List.mem_filter.1 hp).2

/-- The steps of R9 that follow the disposition: the record sent, the cause posted, the job counted, the removal. -/
def State.reportEnd (s : State) (tag : Nat) (d : Disposition) (p : Piece) : State :=
  let s := s.sendLine (.disposition (p.report ((s.jobOf p).map (·.values.id)) d))
  let s := s.postDivert tag d
  let s := s.countDisposition p.job d
  if p.flags.exited || p.flags.removeRequested then s.removePiece tag else s

theorem finalize_eq {s : State} {tag : Nat} {p : Piece} (h : s.piece? tag = some p) (d : Disposition) :
    s.finalize tag d = (s.updatePiece tag (·.ended d)).reportEnd tag d p := by
  unfold State.finalize
  rw [h]
  rfl

theorem reportEnd_pieces (s : State) (tag : Nat) (d : Disposition) (p : Piece) :
    (s.reportEnd tag d p).pieces = s.pieces ∨ (s.reportEnd tag d p).pieces = s.pieces.filter (·.tag != tag) := by
  unfold State.reportEnd
  simp only
  split
  · right; rw [removePiece_pieces, countDisposition_pieces, postDivert_pieces]; rfl
  · left; rw [countDisposition_pieces, postDivert_pieces]; rfl

/-- The record of the tag is FINAL once it has been made so, if it is still in the list. -/
theorem ended_final {s : State} {tag : Nat} {d : Disposition} {p : Piece} (h : (s.updatePiece tag (·.ended d)).piece? tag = some p) :
    p.state = .final := by
  rw [updatePiece_find (f := (·.ended d)) fun _ => rfl] at h
  obtain ⟨q, _, rfl⟩ := Option.map_eq_some_iff.1 h
  rfl

/-- The kinds of change that follow a piece's disposition. -/
abbrev reportEffects : List Effect := [.leave, .jobs, .lineRecord, .notice]

theorem reportEnd_reach (s : State) (tag : Nat) (d : Disposition) (p : Piece) :
    Reach Q reportEffects (s.updatePiece tag (·.ended d)) ((s.updatePiece tag (·.ended d)).reportEnd tag d p) := by
  unfold State.reportEnd
  simp only
  have h (r : LineRecord) : Reach Q reportEffects (s.updatePiece tag (·.ended d))
      (State.countDisposition (((s.updatePiece tag (·.ended d)).sendLine r).postDivert tag d) p.job d) :=
    (((sendLine_reach _ r).andThen (postDivert_reach _ tag d) (K := [.lineRecord, .notice]) (by decide) (by decide)).andThen
      (countDisposition_reach _ p.job d) (by decide) (by decide))
  split
  · refine (h _).trans ((removePiece_reach _ tag fun _ q hq => ended_final (s := s) (tag := tag) (d := d) ?_).mono (by decide))
    unfold State.piece? at hq ⊢
    rw [countDisposition_pieces, postDivert_pieces] at hq
    exact hq
  · exact h _

theorem finalize_reach (s : State) (tag : Nat) (d : Disposition) (hu : Q → s.Unsettled tag) : Reach Q pieceEffects s (s.finalize tag d) := by
  cases hp : s.piece? tag with
  | none =>
    unfold State.finalize
    rw [hp]
    exact .refl s
  | some p =>
    rw [finalize_eq hp]
    exact (updatePiece_unsettled s tag (f := (·.ended d)) (fun _ => rfl) (fun _ => rfl) (fun _ => rfl)
      (fun _ => ⟨PieceState.noConfusion, PieceState.noConfusion⟩) hu).andThen (reportEnd_reach s tag d p) (by decide) (by decide)

/-- After its end a record that is still found is FINAL. -/
theorem finalize_found {s : State} {tag : Nat} {d : Disposition} {p : Piece} (h : (s.finalize tag d).piece? tag = some p) : p.state = .final := by
  cases hp : s.piece? tag with
  | none =>
    unfold State.finalize at h
    simp only [hp] at h
    cases h
  | some q =>
    rw [finalize_eq hp] at h
    unfold State.piece? at h
    rcases reportEnd_pieces (s.updatePiece tag (·.ended d)) tag d q with he | he
    · rw [he] at h; exact ended_final h
    · rw [he] at h
      have := List.mem_filter.1 (List.mem_of_find?_eq_some h)
      have ht := List.find?_some h
      simp only [bne_iff_ne, ne_eq, beq_iff_eq] at this ht
      exact absurd ht this.2

/-- The end of one record leaves the others as they were. -/
theorem finalize_others {s : State} {tag : Nat} {d : Disposition} {p : Piece} (h : p ∈ (s.finalize tag d).pieces) (ht : p.tag ≠ tag) :
    p ∈ s.pieces := by
  cases hp : s.piece? tag with
  | none =>
    unfold State.finalize at h
    simpa only [hp] using h
  | some q =>
    rw [finalize_eq hp] at h
    have hm : p ∈ (s.updatePiece tag (·.ended d)).pieces := by
      rcases reportEnd_pieces (s.updatePiece tag (·.ended d)) tag d q with he | he
      · exact he ▸ h
      · exact List.mem_of_mem_filter (he ▸ h)
    obtain ⟨x, hx, rfl⟩ := List.mem_map.1 hm
    split at ht
    · rename_i hc
      exact absurd (show x.tag = tag by simpa using hc) ht
    · rename_i hc
      rw [if_neg hc]
      exact hx

theorem State.Unsettled.finalize_other {s : State} {tag : Nat} (h : s.Unsettled tag) {t : Nat} (hne : tag ≠ t) (d : Disposition) :
    (s.finalize t d).Unsettled tag := fun p hp hpt => h p (finalize_others hp fun e => hne (hpt.symm.trans e)) hpt

/-! ## Counters, closing requests and the replies that wait -/

theorem orphan_reach (s : State) : Reach Q [.counter] s s.orphan := .one (.counter s _) (by simp)
theorem lateMeasurement_reach (s : State) : Reach Q [.counter] s s.lateMeasurement := .one (.counter s _) (by simp)
theorem lateRecord_reach (s : State) : Reach Q [.counter] s s.lateRecord := .one (.counter s _) (by simp)

/-- A closing request changes the queue only. -/
theorem requestClose_eq (s : State) (kind : CloseKind) (tag n : Nat) (by_ : Requester) :
    s.requestClose kind tag n by_ = { s with queue := if s.closeTaken n then s.queue ++ [.close kind tag n by_] else s.queue } := by
  unfold State.requestClose
  split <;> rfl

/-- After a closing request for an N, none is taken for it until the write completes (R99). -/
theorem closeTaken_requestClose (s : State) (kind : CloseKind) (tag n : Nat) (by_ : Requester) :
    (s.requestClose kind tag n by_).closeTaken n = false := by
  unfold State.requestClose
  split
  · simp [State.closeTaken, Write.closes]
  · rename_i h; simpa using h

/-- A closing request opens no N to another request. -/
theorem closeTaken_requestClose_of_false {s : State} {n : Nat} (h : s.closeTaken n = false) (kind : CloseKind) (tag m : Nat)
    (by_ : Requester) : (s.requestClose kind tag m by_).closeTaken n = false := by
  unfold State.requestClose
  split
  · unfold State.closeTaken at h ⊢
    simp only [List.any_append, Bool.not_or, Bool.and_eq_false_iff] at h ⊢
    tauto
  · exact h

theorem foldl_waiting_form (l : List Nat) (s : State) :
    ∃ x, l.foldl (fun s number => s.accept number .hold (.franking s.franking s.causes)) s = { s with lineTx := x } := by
  induction l generalizing s with
  | nil => exact ⟨s.lineTx, rfl⟩
  | cons a l ih =>
    obtain ⟨x, hx⟩ := ih (s.accept a .hold (.franking s.franking s.causes))
    exact ⟨x, hx.trans rfl⟩

theorem answerHolds_reach (s : State) : Reach Q [.lineRecord, .waiting] s s.answerHolds := by
  unfold State.answerHolds
  exact ((Reach.foldl _ (fun s a => accept_reach s a _ _) s.holdWaiting s).mono (by decide)).trans
    (.one (.waiting _ (State.resetWait _) []) (by simp))

theorem answerReset_reach (s : State) : Reach Q [.lineRecord, .waiting] s s.answerReset := by
  unfold State.answerReset
  split
  · split
    · exact (Reach.one (.waiting s none s.holdWaiting) (by simp) : Reach Q [.waiting] s { s with resetWait := none }).andThen (accept_reach _ _ _ _)
        (by decide) (by decide)
    · exact .refl s
  · exact .refl s

theorem resetSpoilDone_reach (s : State) : Reach Q [.lineRecord, .waiting] s s.resetSpoilDone := by
  unfold State.resetSpoilDone
  exact (Reach.one (.waiting s _ s.holdWaiting) (by simp) : Reach Q [.lineRecord, .waiting] s _).trans (answerReset_reach _)

end Sys2Proof.Machine
end

