-- ==== Sys2Proof/Laws/Frames.lean ====
section
/-! SUPPORT. Frames: which kinds of change touch each field of State, and that a sequence of changes of other kinds leaves the field as it was. -/

namespace Sys2Proof.Machine

variable {Q : Prop}

/-- A part of the state that no change of a kind outside `touch` alters. -/
def Untouched {α : Type} (g : State → α) (touch : List Effect) : Prop := ∀ {Q e s t}, Change Q e s t → e ∉ touch → g t = g s

theorem Untouched.reach {α : Type} {g : State → α} {touch K : List Effect} (hg : Untouched g touch) {s t : State} (h : Reach Q K s t)
    (hk : ∀ e ∈ K, e ∉ touch) : g t = g s := by
  induction h with
  | refl => rfl
  | step _ he hc ih => exact (hg hc (hk _ he)).trans ih

theorem untouched_pending : Untouched State.pending [] := by
  intro Q e s t h _
  cases h <;> first | rfl | (split <;> rfl)

theorem untouched_power : Untouched State.power [.lost, .unpowered, .poweredOn] := by
  intro Q e s t h he
  cases h <;> first | rfl | (split <;> rfl) | exact absurd (by decide) he

theorem untouched_pins : Untouched State.pins [.warning, .stopped, .poweredOn] := by
  intro Q e s t h he
  cases h <;> first | rfl | exact absurd (by decide) he

theorem untouched_freeIndex : Untouched State.freeIndex [.lost] := by
  intro Q e s t h he
  cases h <;> first | rfl | (split <;> rfl) | exact absurd (by decide) he

theorem untouched_lineFramer : Untouched State.lineFramer [.unpowered, .poweredOn] := by
  intro Q e s t h he
  cases h <;> first | rfl | (split <;> rfl) | exact absurd (by decide) he

theorem untouched_printFramer : Untouched State.printFramer [.unpowered, .poweredOn] := by
  intro Q e s t h he
  cases h <;> first | rfl | (split <;> rfl) | exact absurd (by decide) he

theorem untouched_lineTx : Untouched State.lineTx [.lineRecord, .unpowered, .poweredOn] := by
  intro Q e s t h he
  cases h <;> first | rfl | (split <;> rfl) | exact absurd (by decide) he

theorem untouched_printTx : Untouched State.printTx [.printRecord, .commitOrdered, .unpowered, .poweredOn] := by
  intro Q e s t h he
  cases h <;> first | rfl | (split <;> rfl) | exact absurd (by decide) he

theorem untouched_resetWait : Untouched State.resetWait [.waiting, .unpowered, .poweredOn] := by
  intro Q e s t h he
  cases h <;> first | rfl | (split <;> rfl) | exact absurd (by decide) he

theorem untouched_holdWaiting : Untouched State.holdWaiting [.waiting, .unpowered, .poweredOn] := by
  intro Q e s t h he
  cases h <;> first | rfl | (split <;> rfl) | exact absurd (by decide) he

theorem untouched_counters : Untouched State.counters [.counter, .unpowered, .poweredOn] := by
  intro Q e s t h he
  cases h <;> first | rfl | (split <;> rfl) | exact absurd (by decide) he

theorem untouched_settings : Untouched State.settings [.settings, .unpowered, .poweredOn] := by
  intro Q e s t h he
  cases h <;> first | rfl | (split <;> rfl) | exact absurd (by decide) he

theorem untouched_pieces : Untouched State.pieces [.pieces, .enter, .leave, .cleared, .takeCommit, .commitOrdered, .commitWithheld, .closeDone, .unpowered, .poweredOn] := by
  intro Q e s t h he
  cases h <;> first | rfl | (split <;> rfl) | exact absurd (by decide) he

theorem untouched_banks : Untouched State.banks [.loadBegin, .segment, .loadEnd, .switch, .poweredOn] := by
  intro Q e s t h he
  cases h <;> first | rfl | (split <;> rfl) | exact absurd (by decide) he

theorem untouched_load : Untouched State.load [.loadMark, .loadBegin, .unpowered, .poweredOn] := by
  intro Q e s t h he
  cases h <;> first | rfl | (split <;> rfl) | exact absurd (by decide) he

theorem untouched_pendingSwitch : Untouched State.pendingSwitch [.loadBegin, .switch, .pend, .unpowered, .poweredOn] := by
  intro Q e s t h he
  cases h <;> first | rfl | (split <;> rfl) | exact absurd (by decide) he

theorem untouched_ratingRef : Untouched State.ratingRef [.switch, .unpowered, .poweredOn] := by
  intro Q e s t h he
  cases h <;> first | rfl | (split <;> rfl) | exact absurd (by decide) he

theorem untouched_accounts : Untouched State.accounts [.commitOrdered, .commitWithheld, .commitOrphan, .closeDone, .creditDone, .lost] := by
  intro Q e s t h he
  cases h <;> first | rfl | (split <;> rfl) | exact absurd (by decide) he

theorem untouched_lockoutFlag : Untouched State.lockoutFlag [.lockout, .poweredOn] := by
  intro Q e s t h he
  cases h <;> first | rfl | (split <;> rfl) | exact absurd (by decide) he

theorem untouched_queue : Untouched State.queue [.takeCommit, .cleared, .closeOrders, .takeCredit, .commitOrdered, .commitWithheld, .commitOrphan, .closeDone, .creditDone, .lost, .unpowered, .poweredOn] := by
  intro Q e s t h he
  cases h <;> first | rfl | (split <;> rfl) | exact absurd (by decide) he

theorem untouched_writeBegun : Untouched State.writeBegun [.begun, .commitOrdered, .commitWithheld, .commitOrphan, .closeDone, .creditDone, .lost, .unpowered, .poweredOn] := by
  intro Q e s t h he
  cases h <;> first | rfl | (split <;> rfl) | exact absurd (by decide) he

theorem untouched_slot : Untouched State.slot [.takeCommit, .commitOrdered, .commitWithheld, .closeDone, .slotMark, .unpowered, .poweredOn] := by
  intro Q e s t h he
  cases h <;> first | rfl | (split <;> rfl) | exact absurd (by decide) he

theorem untouched_mailingDate : Untouched State.mailingDate [.date, .unpowered, .poweredOn] := by
  intro Q e s t h he
  cases h <;> first | rfl | (split <;> rfl) | exact absurd (by decide) he

theorem untouched_fundsMark : Untouched State.fundsMark [.mark, .takeCommit, .unpowered, .poweredOn] := by
  intro Q e s t h he
  cases h <;> first | rfl | (split <;> rfl) | exact absurd (by decide) he

theorem untouched_printer : Untouched State.printer [.printer, .unpowered, .poweredOn] := by
  intro Q e s t h he
  cases h <;> first | rfl | (split <;> rfl) | exact absurd (by decide) he

theorem untouched_orders : Untouched State.orders [.orders, .cleared, .closeOrders, .commitOrdered, .unpowered, .poweredOn] := by
  intro Q e s t h he
  cases h <;> first | rfl | (split <;> rfl) | exact absurd (by decide) he

theorem untouched_jobs : Untouched State.jobs [.jobs, .enter, .leave, .cleared, .currentJob, .addJob, .abort, .unpowered, .poweredOn] := by
  intro Q e s t h he
  cases h <;> first | rfl | (split <;> rfl) | exact absurd (by decide) he

theorem untouched_monitors : Untouched State.monitors [.monitors, .unpowered, .poweredOn] := by
  intro Q e s t h he
  cases h <;> first | rfl | (split <;> rfl) | exact absurd (by decide) he

theorem untouched_sensorWord : Untouched State.sensorWord [.monitors, .unpowered, .poweredOn] := by
  intro Q e s t h he
  cases h <;> first | rfl | (split <;> rfl) | exact absurd (by decide) he

theorem untouched_franking : Untouched State.franking [.causes, .halt, .lockout, .holdAnew, .configured, .warning, .unpowered, .poweredOn] := by
  intro Q e s t h he
  cases h <;> first | rfl | exact absurd (by decide) he

theorem untouched_causes : Untouched State.causes [.causes, .holdAnew, .warning, .unpowered, .poweredOn] := by
  intro Q e s t h he
  cases h <;> first | rfl | exact absurd (by decide) he

theorem untouched_capture : Untouched State.capture [.capture, .unpowered, .poweredOn] := by
  intro Q e s t h he
  cases h <;> first | rfl | (split <;> rfl) | exact absurd (by decide) he

theorem untouched_channels : Untouched State.channels [.notice, .unpowered, .poweredOn] := by
  intro Q e s t h he
  cases h <;> first | rfl | (split <;> rfl) | exact absurd (by decide) he

theorem untouched_gne : Untouched State.gne [.notice, .unpowered, .poweredOn] := by
  intro Q e s t h he
  cases h <;> first | rfl | (split <;> rfl) | exact absurd (by decide) he

theorem untouched_gneSaved : Untouched State.gneSaved [.notice, .unpowered, .poweredOn] := by
  intro Q e s t h he
  cases h <;> first | rfl | (split <;> rfl) | exact absurd (by decide) he

theorem Reach.pending_eq {K : List Effect} {s t : State} (h : Reach Q K s t) (hk : ∀ e ∈ K, e ∉ ([] : List Effect)) :
    t.pending = s.pending := untouched_pending.reach h hk

theorem Reach.power_eq {K : List Effect} {s t : State} (h : Reach Q K s t) (hk : ∀ e ∈ K, e ∉ ([.lost, .unpowered, .poweredOn] : List Effect)) :
    t.power = s.power := untouched_power.reach h hk

theorem Reach.pins_eq {K : List Effect} {s t : State} (h : Reach Q K s t) (hk : ∀ e ∈ K, e ∉ ([.warning, .stopped, .poweredOn] : List Effect)) :
    t.pins = s.pins := untouched_pins.reach h hk

theorem Reach.freeIndex_eq {K : List Effect} {s t : State} (h : Reach Q K s t) (hk : ∀ e ∈ K, e ∉ ([.lost] : List Effect)) :
    t.freeIndex = s.freeIndex := untouched_freeIndex.reach h hk

theorem Reach.lineFramer_eq {K : List Effect} {s t : State} (h : Reach Q K s t) (hk : ∀ e ∈ K, e ∉ ([.unpowered, .poweredOn] : List Effect)) :
    t.lineFramer = s.lineFramer := untouched_lineFramer.reach h hk

theorem Reach.printFramer_eq {K : List Effect} {s t : State} (h : Reach Q K s t) (hk : ∀ e ∈ K, e ∉ ([.unpowered, .poweredOn] : List Effect)) :
    t.printFramer = s.printFramer := untouched_printFramer.reach h hk

theorem Reach.lineTx_eq {K : List Effect} {s t : State} (h : Reach Q K s t) (hk : ∀ e ∈ K, e ∉ ([.lineRecord, .unpowered, .poweredOn] : List Effect)) :
    t.lineTx = s.lineTx := untouched_lineTx.reach h hk

theorem Reach.printTx_eq {K : List Effect} {s t : State} (h : Reach Q K s t) (hk : ∀ e ∈ K, e ∉ ([.printRecord, .commitOrdered, .unpowered, .poweredOn] : List Effect)) :
    t.printTx = s.printTx := untouched_printTx.reach h hk

theorem Reach.resetWait_eq {K : List Effect} {s t : State} (h : Reach Q K s t) (hk : ∀ e ∈ K, e ∉ ([.waiting, .unpowered, .poweredOn] : List Effect)) :
    t.resetWait = s.resetWait := untouched_resetWait.reach h hk

theorem Reach.holdWaiting_eq {K : List Effect} {s t : State} (h : Reach Q K s t) (hk : ∀ e ∈ K, e ∉ ([.waiting, .unpowered, .poweredOn] : List Effect)) :
    t.holdWaiting = s.holdWaiting := untouched_holdWaiting.reach h hk

theorem Reach.counters_eq {K : List Effect} {s t : State} (h : Reach Q K s t) (hk : ∀ e ∈ K, e ∉ ([.counter, .unpowered, .poweredOn] : List Effect)) :
    t.counters = s.counters := untouched_counters.reach h hk

theorem Reach.settings_eq {K : List Effect} {s t : State} (h : Reach Q K s t) (hk : ∀ e ∈ K, e ∉ ([.settings, .unpowered, .poweredOn] : List Effect)) :
    t.settings = s.settings := untouched_settings.reach h hk

theorem Reach.pieces_eq {K : List Effect} {s t : State} (h : Reach Q K s t) (hk : ∀ e ∈ K, e ∉ ([.pieces, .enter, .leave, .cleared, .takeCommit, .commitOrdered, .commitWithheld, .closeDone, .unpowered, .poweredOn] : List Effect)) :
    t.pieces = s.pieces := untouched_pieces.reach h hk

theorem Reach.banks_eq {K : List Effect} {s t : State} (h : Reach Q K s t) (hk : ∀ e ∈ K, e ∉ ([.loadBegin, .segment, .loadEnd, .switch, .poweredOn] : List Effect)) :
    t.banks = s.banks := untouched_banks.reach h hk

theorem Reach.load_eq {K : List Effect} {s t : State} (h : Reach Q K s t) (hk : ∀ e ∈ K, e ∉ ([.loadMark, .loadBegin, .unpowered, .poweredOn] : List Effect)) :
    t.load = s.load := untouched_load.reach h hk

theorem Reach.pendingSwitch_eq {K : List Effect} {s t : State} (h : Reach Q K s t) (hk : ∀ e ∈ K, e ∉ ([.loadBegin, .switch, .pend, .unpowered, .poweredOn] : List Effect)) :
    t.pendingSwitch = s.pendingSwitch := untouched_pendingSwitch.reach h hk

theorem Reach.ratingRef_eq {K : List Effect} {s t : State} (h : Reach Q K s t) (hk : ∀ e ∈ K, e ∉ ([.switch, .unpowered, .poweredOn] : List Effect)) :
    t.ratingRef = s.ratingRef := untouched_ratingRef.reach h hk

theorem Reach.accounts_eq {K : List Effect} {s t : State} (h : Reach Q K s t) (hk : ∀ e ∈ K, e ∉ ([.commitOrdered, .commitWithheld, .commitOrphan, .closeDone, .creditDone, .lost] : List Effect)) :
    t.accounts = s.accounts := untouched_accounts.reach h hk

theorem Reach.lockoutFlag_eq {K : List Effect} {s t : State} (h : Reach Q K s t) (hk : ∀ e ∈ K, e ∉ ([.lockout, .poweredOn] : List Effect)) :
    t.lockoutFlag = s.lockoutFlag := untouched_lockoutFlag.reach h hk

theorem Reach.queue_eq {K : List Effect} {s t : State} (h : Reach Q K s t) (hk : ∀ e ∈ K, e ∉ ([.takeCommit, .cleared, .closeOrders, .takeCredit, .commitOrdered, .commitWithheld, .commitOrphan, .closeDone, .creditDone, .lost, .unpowered, .poweredOn] : List Effect)) :
    t.queue = s.queue := untouched_queue.reach h hk

theorem Reach.writeBegun_eq {K : List Effect} {s t : State} (h : Reach Q K s t) (hk : ∀ e ∈ K, e ∉ ([.begun, .commitOrdered, .commitWithheld, .commitOrphan, .closeDone, .creditDone, .lost, .unpowered, .poweredOn] : List Effect)) :
    t.writeBegun = s.writeBegun := untouched_writeBegun.reach h hk

theorem Reach.slot_eq {K : List Effect} {s t : State} (h : Reach Q K s t) (hk : ∀ e ∈ K, e ∉ ([.takeCommit, .commitOrdered, .commitWithheld, .closeDone, .slotMark, .unpowered, .poweredOn] : List Effect)) :
    t.slot = s.slot := untouched_slot.reach h hk

theorem Reach.mailingDate_eq {K : List Effect} {s t : State} (h : Reach Q K s t) (hk : ∀ e ∈ K, e ∉ ([.date, .unpowered, .poweredOn] : List Effect)) :
    t.mailingDate = s.mailingDate := untouched_mailingDate.reach h hk

theorem Reach.fundsMark_eq {K : List Effect} {s t : State} (h : Reach Q K s t) (hk : ∀ e ∈ K, e ∉ ([.mark, .takeCommit, .unpowered, .poweredOn] : List Effect)) :
    t.fundsMark = s.fundsMark := untouched_fundsMark.reach h hk

theorem Reach.printer_eq {K : List Effect} {s t : State} (h : Reach Q K s t) (hk : ∀ e ∈ K, e ∉ ([.printer, .unpowered, .poweredOn] : List Effect)) :
    t.printer = s.printer := untouched_printer.reach h hk

theorem Reach.orders_eq {K : List Effect} {s t : State} (h : Reach Q K s t) (hk : ∀ e ∈ K, e ∉ ([.orders, .cleared, .closeOrders, .commitOrdered, .unpowered, .poweredOn] : List Effect)) :
    t.orders = s.orders := untouched_orders.reach h hk

theorem Reach.jobs_eq {K : List Effect} {s t : State} (h : Reach Q K s t) (hk : ∀ e ∈ K, e ∉ ([.jobs, .enter, .leave, .cleared, .currentJob, .addJob, .abort, .unpowered, .poweredOn] : List Effect)) :
    t.jobs = s.jobs := untouched_jobs.reach h hk

theorem Reach.monitors_eq {K : List Effect} {s t : State} (h : Reach Q K s t) (hk : ∀ e ∈ K, e ∉ ([.monitors, .unpowered, .poweredOn] : List Effect)) :
    t.monitors = s.monitors := untouched_monitors.reach h hk

theorem Reach.sensorWord_eq {K : List Effect} {s t : State} (h : Reach Q K s t) (hk : ∀ e ∈ K, e ∉ ([.monitors, .unpowered, .poweredOn] : List Effect)) :
    t.sensorWord = s.sensorWord := untouched_sensorWord.reach h hk

theorem Reach.franking_eq {K : List Effect} {s t : State} (h : Reach Q K s t) (hk : ∀ e ∈ K, e ∉ ([.causes, .halt, .lockout, .holdAnew, .configured, .warning, .unpowered, .poweredOn] : List Effect)) :
    t.franking = s.franking := untouched_franking.reach h hk

theorem Reach.causes_eq {K : List Effect} {s t : State} (h : Reach Q K s t) (hk : ∀ e ∈ K, e ∉ ([.causes, .holdAnew, .warning, .unpowered, .poweredOn] : List Effect)) :
    t.causes = s.causes := untouched_causes.reach h hk

theorem Reach.capture_eq {K : List Effect} {s t : State} (h : Reach Q K s t) (hk : ∀ e ∈ K, e ∉ ([.capture, .unpowered, .poweredOn] : List Effect)) :
    t.capture = s.capture := untouched_capture.reach h hk

theorem Reach.channels_eq {K : List Effect} {s t : State} (h : Reach Q K s t) (hk : ∀ e ∈ K, e ∉ ([.notice, .unpowered, .poweredOn] : List Effect)) :
    t.channels = s.channels := untouched_channels.reach h hk

theorem Reach.gne_eq {K : List Effect} {s t : State} (h : Reach Q K s t) (hk : ∀ e ∈ K, e ∉ ([.notice, .unpowered, .poweredOn] : List Effect)) :
    t.gne = s.gne := untouched_gne.reach h hk

theorem Reach.gneSaved_eq {K : List Effect} {s t : State} (h : Reach Q K s t) (hk : ∀ e ∈ K, e ∉ ([.notice, .unpowered, .poweredOn] : List Effect)) :
    t.gneSaved = s.gneSaved := untouched_gneSaved.reach h hk

theorem FrankingState.follow_unconfigured {f : FrankingState} {c : HoldCauses} (h : f.follow c = .unconfigured) : f = .unconfigured := by
  cases f <;> simp only [FrankingState.follow] at h <;> first | rfl | (split at h <;> cases h) | cases h

theorem FrankingState.configured_ne (f : FrankingState) (c : HoldCauses) : f.configured c ≠ .unconfigured := by
  cases f <;> simp only [FrankingState.configured, ne_eq] <;> first | (split <;> simp) | simp

/-- UNCONFIGURED is entered only at power-on (R165). -/
theorem Change.stays_configured {e : Effect} {s t : State} (h : Change Q e s t) (he : e ∉ [Effect.unpowered, .poweredOn])
    (hs : s.franking ≠ .unconfigured) : t.franking ≠ .unconfigured := by
  cases h with
  | causes => exact fun h => hs (FrankingState.follow_unconfigured h)
  | configured => exact FrankingState.configured_ne _ _
  | halt => simp
  | lockout => simp
  | holdAnew => simp
  | warning =>
    split
    · exact fun h => hs (FrankingState.follow_unconfigured h)
    · exact hs
  | unpowered => simp at he
  | poweredOn => simp at he
  | _ => exact hs

theorem Reach.stays_configured {K : List Effect} {s t : State} (h : Reach Q K s t) (hk : ∀ e ∈ K, e ∉ [Effect.unpowered, .poweredOn])
    (hs : s.franking ≠ .unconfigured) : t.franking ≠ .unconfigured :=
  h.keeps (P := fun s => s.franking ≠ .unconfigured) (fun he hc => hc.stays_configured (hk _ he)) hs

end Sys2Proof.Machine
end

