-- ==== Sys2Proof/Laws/Units.lean ====
section
/-! SUPPORT. The changes that the commit unit, the piece list and the tariff store make within one event. -/

namespace Sys2Proof.Machine

variable {Q : Prop}

/-! ## The commit unit (R106, R107, R118 to R121) -/

/-- A piece has no unmet condition only in RUNNING, with a date, a READY printer, an order to spare, the funds, and the slot empty (R118). -/
theorem firstUnmet_none {s : State} {p : Piece} (h : s.firstUnmet p = none) :
    s.franking = .running ∧ s.mailingDate.isSome ∧ (s.ahead p.tag).all (·.state.settled) = true ∧ s.printer = .ready ∧
      s.orders.length < s.settings.maxOutstanding ∧ p.postage ≤ s.accounts.d ∧ s.slot = none := by
  unfold State.firstUnmet at h
  have hf : s.franking.gateReason = none → s.franking = .running := by cases s.franking <;> simp [FrankingState.gateReason]
  cases hg : s.franking.gateReason with
  | some r => simp [hg] at h
  | none =>
    simp only [hg] at h
    split_ifs at h with h1 h2 h3 h4 h5 h6
    have hs : s.slot = none := by simpa using h6
    refine ⟨hf hg, ?_, by simpa using h2, ?_, ?_, by omega, hs⟩
    · simpa [Option.isSome_iff_ne_none] using h1
    · cases hp : s.printer <;> simp_all
    · simp only [hs, Option.isSome_none, Bool.toNat_false, Nat.add_zero, not_le] at h4
      exact h4

theorem noteShort_reach (s : State) (p : Piece) : Reach Q [.mark, .lineRecord, .notice] s (s.noteShort p) := by
  unfold State.noteShort
  split
  · exact .refl s
  · exact (Reach.one (.mark s (some p.tag)) (by simp) : Reach Q [.mark] s _).andThen (post_reach _ _ _ _) (by decide) (by decide)

/-- The kinds of change of the commit unit's tests. -/
abbrev commitEffects : List Effect := [.pieces, .leave, .jobs, .lineRecord, .notice, .mark, .lockout, .capture, .takeCommit]

/-- What is known of a tag stands where the piece list does. -/
theorem State.Unsettled.of_pieces {s t : State} {tag : Nat} (h : s.Unsettled tag) (hp : t.pieces = s.pieces) : t.Unsettled tag := by
  unfold State.Unsettled
  rw [hp]
  exact h

theorem startCommit_reach {s : State} {p : Piece} (h : s.firstUnmet p = none)
    (hu : Q → s.Unsettled p.tag ∧ p.tag ∈ s.pieces.map (·.tag)) : Reach Q commitEffects s (s.startCommit p) := by
  obtain ⟨hf, hd, _, hr, ho, hp, hs⟩ := firstUnmet_none h
  unfold State.startCommit
  split
  · rename_i hc
    exact .one (.takeCommit s p.tag p.postage p.orderFields hf hd hr ho hp hs hc hu) (by decide)
  · rename_i which _
    have hr := raiseAbort_reach (Q := Q) s .accountCeiling (some p.tag) [some p.postage, some which]
    exact hr.andThen (finalize_reach _ _ _ fun q => (hu q).1.of_pieces (hr.pieces_eq (by decide))) (by decide) (by decide)

theorem attemptAtGate_reach (s : State) (tag : Nat) (hu : Q → s.Unsettled tag) : Reach Q commitEffects s (s.attemptAtGate tag) := by
  unfold State.attemptAtGate
  split
  · exact .refl s
  · rename_i p hp
    obtain ⟨hm, rfl⟩ := piece?_mem hp
    split
    · rename_i h; exact startCommit_reach h fun q => ⟨hu q, List.mem_map.2 ⟨p, hm, rfl⟩⟩
    · exact updatePiece_within (by decide) s p.tag ⟨fun _ => rfl, fun _ => rfl, fun _ => rfl, fun _ => rfl⟩
    · exact (finalize_reach s _ _ hu).mono (by decide)
    · exact .refl s

/-- The candidate is an unsettled record of the list (R118). -/
theorem candidate_mem {s : State} {p : Piece} (h : s.candidate = some p) : p ∈ s.pieces ∧ p.state.settled = false :=
  ⟨List.mem_of_find?_eq_some h, by simpa using List.find?_some h⟩

theorem testCandidates_reach (fuel : Nat) (s : State) (hd : Q → s.TagsDistinct) : Reach Q commitEffects s (State.testCandidates fuel s) := by
  induction fuel generalizing s with
  | zero => exact .refl s
  | succ fuel ih =>
    unfold State.testCandidates
    split
    · exact .refl s
    · rename_i p hp
      obtain ⟨hm, hs⟩ := candidate_mem hp
      have hu : Q → s.Unsettled p.tag := fun q => (hd q).unsettled hm hs
      split
      · exact .refl s
      · split
        · have h1 := attemptAtGate_reach s p.tag hu
          exact h1.trans (ih _ fun q => h1.distinct (hd q))
        · split
          · rename_i h
            have h1 := startCommit_reach h fun q => ⟨hu q, List.mem_map.2 ⟨p, hm, rfl⟩⟩
            exact h1.trans (ih _ fun q => h1.distinct (hd q))
          · exact (noteShort_reach s _).mono (by decide)
          · exact .refl s

theorem commitTest_reach (s : State) (hd : Q → s.TagsDistinct) : Reach Q commitEffects s s.commitTest := testCandidates_reach _ s hd

/-- A test that is made or not made (R119). -/
theorem testIf_reach (c : Prop) [Decidable c] (s : State) (hd : Q → s.TagsDistinct) :
    Reach Q commitEffects s (if c then s.commitTest else s) := by
  split
  · exact commitTest_reach s hd
  · exact .refl s

theorem passRatings_reach (s : State) (before : List Piece) (hd : Q → s.TagsDistinct) : Reach Q commitEffects s (s.passRatings before) :=
  testIf_reach _ s hd

theorem passRunning_reach (s : State) (before : FrankingState) (hd : Q → s.TagsDistinct) : Reach Q commitEffects s (s.passRunning before) :=
  testIf_reach _ s hd

/-! ## The piece list (R15 to R19, R27, R41 to R43, R66) -/

theorem foldl_finalize_reach (l : List Nat) (d : Disposition) (s : State) (hl : Q → l.Nodup ∧ ∀ t ∈ l, s.Unsettled t) :
    Reach Q pieceEffects s (l.foldl (fun s t => s.finalize t d) s) := by
  induction l generalizing s with
  | nil => exact .refl s
  | cons t l ih =>
    rw [List.foldl_cons]
    refine (finalize_reach s t d fun q => (hl q).2 t (by simp)).trans (ih _ fun q => ?_)
    obtain ⟨hn, hu⟩ := hl q
    rw [List.nodup_cons] at hn
    exact ⟨hn.2, fun x hx => (hu x (by simp [hx])).finalize_other (fun e => hn.1 (by rw [← e]; exact hx)) d⟩

theorem sweep_reach (s : State) (tag : Nat) (hd : Q → s.TagsDistinct) : Reach Q pieceEffects s (s.sweep tag) := by
  refine foldl_finalize_reach _ _ s fun q => ?_
  have hsub : ((s.ahead tag).filter fun p => !p.state.settled).Sublist s.pieces := List.filter_sublist.trans (List.takeWhile_sublist _)
  refine ⟨(hsub.map _).nodup (hd q), fun t ht => ?_⟩
  obtain ⟨p, hp, rfl⟩ := List.mem_map.1 ht
  exact (hd q).unsettled (hsub.subset hp) (by simpa using (List.mem_filter.1 hp).2)

theorem piece?_unsettled {s : State} (hd : s.TagsDistinct) {tag : Nat} {p : Piece} (hp : s.piece? tag = some p) (hs : p.state.settled = false) :
    s.Unsettled tag := by
  obtain ⟨hm, rfl⟩ := piece?_mem hp
  exact hd.unsettled hm hs

theorem gateDecision_reach (s : State) (tag : Nat) (hd : Q → s.TagsDistinct) : Reach Q commitEffects s (s.gateDecision tag) := by
  unfold State.gateDecision
  have h0 : Reach Q commitEffects s (s.updatePiece tag fun p => { p with flags := { p.flags with gatePassed := true } }) :=
    updatePiece_within (by decide) s tag ⟨fun _ => rfl, fun _ => rfl, fun _ => rfl, fun _ => rfl⟩
  simp only
  refine h0.trans ?_
  replace hd := fun q => h0.distinct (hd q)
  generalize s.updatePiece tag _ = m at hd
  split
  · exact .refl m
  · rename_i p hp
    split
    · rename_i hs
      split
      · exact (finalize_reach _ _ _ fun q => piece?_unsettled (hd q) hp (by rw [hs]; rfl)).mono (by decide)
      · exact .refl m
    · rename_i hs
      have hu : Q → m.Unsettled tag := fun q => piece?_unsettled (hd q) hp (by rw [hs]; rfl)
      split
      · refine Reach.trans ?_ (attemptAtGate_reach _ tag fun q => (hu q).update ?_ ?_ tag)
        · exact (updatePiece_unsettled m tag
            (f := fun p => { p with state := .rated, flags := { p.flags with estimateCommitted := true } }) (fun _ => rfl) (fun _ => rfl)
            (fun _ => rfl) (fun _ => ⟨PieceState.noConfusion, PieceState.noConfusion⟩) hu).mono (by decide)
        · exact fun _ => rfl
        · exact fun _ _ => rfl
      · exact (finalize_reach _ _ _ hu).mono (by decide)
    · rename_i hs
      exact attemptAtGate_reach m tag fun q => piece?_unsettled (hd q) hp (by rw [hs]; rfl)
    all_goals exact .refl m

theorem gateTreatment_reach (s : State) (tag : Nat) (hd : Q → s.TagsDistinct) : Reach Q commitEffects s (s.gateTreatment tag) := by
  have h1 := sweep_reach s tag hd
  exact h1.andThen (gateDecision_reach _ tag fun q => h1.distinct (hd q)) (by decide) (by decide)

theorem applyRating_reach (s : State) (p : Piece) (r : RatingRecord) (hd : Q → s.TagsDistinct) (hu : Q → s.Unsettled p.tag) :
    Reach Q commitEffects s (s.applyRating p r) := by
  unfold State.applyRating
  split
  · have hk : Piece.Keeps (·.newlyRated r) := ⟨fun _ => rfl, fun _ => rfl, fun _ => rfl, fun _ => rfl⟩
    exact (updatePiece_reach s p.tag hk).andThen (finalize_reach _ _ _ fun q => (hu q).keep hk p.tag) (by decide) (by decide)
  · exact (updatePiece_unsettled s p.tag (f := (·.rerated r)) (fun _ => rfl) (fun _ => rfl) (fun _ => rfl)
      (fun _ => ⟨PieceState.noConfusion, PieceState.noConfusion⟩) hu).mono (by decide)
  · have h1 := (updatePiece_unsettled s p.tag (f := (·.reopened r .opened)) (fun _ => rfl) (fun _ => rfl) (fun _ => rfl)
      (fun _ => ⟨PieceState.noConfusion, PieceState.noConfusion⟩) hu)
    simp only
    split
    · exact h1.andThen (gateDecision_reach _ _ fun q => h1.distinct (hd q)) (by decide) (by decide)
    · exact h1.mono (by decide)
  · have h1 := (updatePiece_unsettled s p.tag (f := (·.reopened r .provisional)) (fun _ => rfl) (fun _ => rfl) (fun _ => rfl)
      (fun _ => ⟨PieceState.noConfusion, PieceState.noConfusion⟩) hu)
    simp only
    split
    · exact h1.andThen (gateDecision_reach _ _ fun q => h1.distinct (hd q)) (by decide) (by decide)
    · exact h1.mono (by decide)

theorem rateAgain_reach (s : State) (tag : Nat) (hd : Q → s.TagsDistinct) : Reach Q commitEffects s (s.rateAgain tag) := by
  unfold State.rateAgain
  split
  · exact .refl s
  · rename_i p hp
    obtain ⟨hm, rfl⟩ := piece?_mem hp
    split
    · exact .refl s
    · rename_i hs
      split
      · exact .refl s
      · exact applyRating_reach s _ _ hd fun q => (hd q).unsettled hm (by simpa using hs)

/-- A sequence of operations that each need distinct tags. -/
theorem foldl_distinct_reach {α : Type} {K : List Effect} (f : State → α → State)
    (hf : ∀ s a, (Q → s.TagsDistinct) → Reach Q K s (f s a)) (l : List α) (s : State) (hd : Q → s.TagsDistinct) : Reach Q K s (l.foldl f s) := by
  induction l generalizing s with
  | nil => exact .refl _
  | cons a l ih =>
    have h1 := hf s a hd
    exact h1.trans (ih _ fun q => h1.distinct (hd q))

theorem rateAll_reach (s : State) (hd : Q → s.TagsDistinct) : Reach Q commitEffects s s.rateAll :=
  foldl_distinct_reach _ (fun s t => rateAgain_reach s t) _ s hd

/-- The kinds of change of a sensor record about a tracked piece. -/
abbrev sensorEffects : List Effect := .counter :: commitEffects

theorem measurement_reach (s : State) (tag : Nat) {apply : Piece → Piece} {late : State → Piece → State} (ha : Piece.Keeps apply)
    (hl : ∀ s p, Reach Q sensorEffects s (late s p)) (hd : Q → s.TagsDistinct) : Reach Q sensorEffects s (s.measurement tag apply late) := by
  unfold State.measurement
  split
  · exact (orphan_reach s).mono (by decide)
  · split
    · exact (orphan_reach s).mono (by decide)
    · split
      · exact hl s _
      · have h1 := updatePiece_reach (Q := Q) s tag ha
        have h2 := h1.andThen (rateAgain_reach _ tag fun q => h1.distinct (hd q)) (K := commitEffects) (by decide) (by decide)
        exact (h2.trans (passRatings_reach _ _ fun q => h2.distinct (hd q))).mono (by decide)

theorem compareWeight_reach (s : State) (p : Piece) (w : Weight) : Reach Q [.pieces, .lineRecord, .notice] s (s.compareWeight p w) := by
  unfold State.compareWeight
  have h0 : Reach Q [.pieces, .lineRecord, .notice] s (s.updatePiece p.tag fun p => { p with weight := some w }) :=
    updatePiece_within (by decide) s p.tag ⟨fun _ => rfl, fun _ => rfl, fun _ => rfl, fun _ => rfl⟩
  simp only
  split
  · split
    · exact h0.trans ((post_reach _ _ _ _).mono (by decide))
    · exact h0
  · exact h0

theorem lateWeight_reach (w : Weight) (s : State) (p : Piece) : Reach Q sensorEffects s (State.lateWeight w s p) := by
  unfold State.lateWeight
  split
  · exact (compareWeight_reach s p w).mono (by decide)
  · exact (lateMeasurement_reach s).mono (by decide)

theorem pieceEvent_reach {K : List Effect} (hk : sensorEffects ⊆ K) (s : State) (tag : Nat) {told : State → Piece → Bool}
    {f : State → Piece → State} (hf : ∀ p, s.piece? tag = some p → Reach Q K s (f s p)) (hd : Q → s.TagsDistinct) :
    Reach Q K s (s.pieceEvent tag told f) := by
  have ho : Reach Q K s s.orphan := (orphan_reach s).mono fun e he => hk (by simp only [List.mem_singleton] at he; subst he; decide)
  unfold State.pieceEvent
  split
  · exact ho
  · split
    · exact ho
    · rename_i p hp
      have h1 := hf p hp
      split
      · exact h1.trans ((commitTest_reach _ fun q => h1.distinct (hd q)).mono fun e he => hk (List.mem_cons_of_mem _ he))
      · exact h1

/-! ## Switching and the current job (R64 to R66, R141) -/

/-- The kinds of change of a bank switch. -/
abbrev switchEffects : List Effect := .switch :: commitEffects

theorem switchTo_reach {s : State} {target : BankId} (tag : Option Nat)
    (h : (s.banks.get target).state = .ready ∨ s.pendingSwitch.map (·.target) = some target) (hd : Q → s.TagsDistinct) :
    Reach Q switchEffects s (s.switchTo target tag) := by
  unfold State.switchTo
  exact ((Reach.one (.switch s target h) (by simp) : Reach Q [.switch] s _).andThen (rateAll_reach _ hd) (K := switchEffects) (by decide)
    (by decide)).trans ((post_reach _ _ _ _).mono (by decide))

theorem takeJobSwitch_reach (s : State) (tag : Option Nat) (hd : Q → s.TagsDistinct) : Reach Q switchEffects s (s.takeJobSwitch tag) := by
  unfold State.takeJobSwitch
  split
  · rename_i h; exact switchTo_reach tag (.inr (by simp [h])) hd
  all_goals exact .refl s

theorem takeDateSwitch_reach (s : State) (day : Nat) (hd : Q → s.TagsDistinct) : Reach Q switchEffects s (s.takeDateSwitch day) := by
  unfold State.takeDateSwitch
  split
  · rename_i h
    split
    · exact switchTo_reach none (.inr (by simp [h])) hd
    · exact .refl s
  all_goals exact .refl s

theorem makeJobCurrent_reach (s : State) (tag : Option Nat) (hd : Q → s.TagsDistinct) :
    Reach Q (.currentJob :: switchEffects) s (s.makeJobCurrent tag) := by
  unfold State.makeJobCurrent
  split
  · exact .refl s
  · rename_i hc
    split
    · exact .refl s
    · rename_i j hj
      exact (Reach.one (.currentJob s j hc (List.mem_of_find?_eq_some hj)) (by simp) : Reach Q [.currentJob] s _).andThen
        (takeJobSwitch_reach (s.updateJob j.slot fun j => { j with state := .current }) tag hd) (by decide) (by decide)

/-- The kinds of change of an ENTER that is placed. -/
abbrev enterEffects : List Effect := .enter :: .currentJob :: switchEffects

/-! ## The jobs while pieces are rated, end and leave (R143, R144) -/

/-- A map of the job list that keeps slots and states keeps what a slot's job is known by. -/
theorem find_slot_map {f : Job → Job} (hs : ∀ j, (f j).slot = j.slot) (ht : ∀ j, (f j).state = j.state) (slot : Nat) (js : List Job) :
    ((js.map f).find? (·.slot == slot)).map (·.state) = (js.find? (·.slot == slot)).map (·.state) := by
  induction js with
  | nil => rfl
  | cons j js ih =>
    rw [List.map_cons, List.find?_cons, List.find?_cons, hs]
    cases j.slot == slot with
    | true => simp [ht]
    | false => exact ih

/-- A job that is not CLOSED stays in the list and in its state when a record of any job leaves. -/
theorem find_slot_releaseJob (job : Option Nat) {slot : Nat} {st : JobState} (hc : st ≠ .closed) {js : List Job}
    (h : (js.find? (·.slot == slot)).map (·.state) = some st) : ((releaseJob job js).find? (·.slot == slot)).map (·.state) = some st := by
  cases job with
  | none => exact h
  | some k =>
    have h1 : ((atSlot k Job.released js).find? (·.slot == slot)).map (·.state) = some st := by
      rw [← h]
      exact find_slot_map (fun j => by split <;> rfl) (fun j => by split <;> rfl) slot js
    show ((dropDone k (atSlot k Job.released js)).find? (·.slot == slot)).map (·.state) = some st
    unfold dropDone
    split
    · exact h1
    · rename_i j hj
      split
      · rename_i hd
        by_cases hk : slot = k
        · subst hk
          rw [hj] at h1
          rw [Job.done, Bool.and_eq_true, decide_eq_true_eq] at hd
          exact absurd ((Option.some.inj h1).symm.trans hd.1) hc
        · have hp : (fun x : Job => decide ((x.slot != k) = true ∧ (x.slot == slot) = true)) = fun x => x.slot == slot := by
            funext x
            by_cases hx : x.slot = slot
            · simp [hx, hk]
            · simp [hx]
          rw [List.find?_filter, hp]
          exact h1
      · exact h1

/-- A job that is not CLOSED stays in its slot and its state when pieces are rated, end and leave. -/
theorem Reach.job_stands {s t : State} (h : Reach Q switchEffects s t) {slot : Nat} {st : JobState} (hc : st ≠ .closed)
    (hj : (s.job? slot).map (·.state) = some st) : (t.job? slot).map (·.state) = some st := by
  refine h.keeps (P := fun s => (s.job? slot).map (·.state) = some st) (fun {e s t} he hch hs => ?_) hj
  cases hch with
  | jobs _ f hk ht hl => exact (find_slot_map (fun j => congrArg Prod.fst (hk j)) ht slot s.jobs).trans hs
  | leave _ tag p hp => exact find_slot_releaseJob p.job hc hs
  | abort => simp at he
  | enter => simp at he
  | cleared => simp at he
  | currentJob => simp at he
  | addJob => simp at he
  | unpowered => simp at he
  | poweredOn => simp at he
  | warning => simp at he
  | _ => exact hs

/-- No other job becomes CURRENT when pieces are rated, end and leave. -/
theorem Reach.current_stands {s t : State} (h : Reach Q switchEffects s t) {slot : Nat} (hj : ∀ j ∈ s.jobs, j.state = .current → j.slot = slot) :
    ∀ j ∈ t.jobs, j.state = .current → j.slot = slot := by
  refine h.keeps (P := fun s => ∀ j ∈ s.jobs, j.state = .current → j.slot = slot) (fun {e s t} he hch hs => ?_) hj
  cases hch with
  | jobs _ f hk ht hl =>
    intro j hj hc
    obtain ⟨x, hx, rfl⟩ := List.mem_map.1 hj
    exact (congrArg Prod.fst (hk x)).trans (hs x hx ((ht x).symm.trans hc))
  | leave _ tag p hp =>
    intro j hj hc
    have hj : j ∈ releaseJob p.job s.jobs := hj
    cases hpj : p.job with
    | none => rw [hpj] at hj; exact hs j hj hc
    | some k =>
      rw [hpj] at hj
      have hm : j ∈ atSlot k Job.released s.jobs := by
        unfold releaseJob dropDone at hj
        simp only at hj
        split at hj
        · exact hj
        · split at hj
          · exact (List.mem_filter.1 hj).1
          · exact hj
      obtain ⟨x, hx, rfl⟩ := List.mem_map.1 hm
      split at hc <;> split
      · exact hs x hx hc
      · contradiction
      · contradiction
      · exact hs x hx hc
  | abort => simp at he
  | enter => simp at he
  | cleared => simp at he
  | currentJob => simp at he
  | addJob => simp at he
  | unpowered => simp at he
  | poweredOn => simp at he
  | warning => simp at he
  | _ => exact hs

/-- The job in a slot after its record is changed. -/
theorem job?_updateJob (s : State) (slot : Nat) {f : Job → Job} (hf : ∀ j, (f j).slot = j.slot) :
    (s.updateJob slot f).job? slot = (s.job? slot).map f := by
  show List.find? _ (s.jobs.map _) = _
  rw [List.find?_map]
  have : ((fun x : Job => x.slot == slot) ∘ fun j => if j.slot == slot then f j else j) = fun x => x.slot == slot := by
    funext x
    simp only [Function.comp]
    split
    · rw [hf]
    · rfl
  rw [this]
  show Option.map _ (s.job? slot) = _
  cases h : s.job? slot with
  | none => rfl
  | some j => simp only [Option.map_some, List.find?_some h, if_true]

/-- The other jobs are as they were. -/
theorem filter_updateJob (s : State) (slot : Nat) {f : Job → Job} (hf : ∀ j, (f j).slot = j.slot) :
    (s.updateJob slot f).jobs.filter (·.slot != slot) = s.jobs.filter (·.slot != slot) := by
  show (s.jobs.map _).filter _ = _
  induction s.jobs with
  | nil => rfl
  | cons j l ih =>
    rw [List.map_cons, List.filter_cons, List.filter_cons, ih]
    by_cases h : j.slot = slot
    · simp [h, hf]
    · simp [h]

/-- What the removal of a record does to its job (R10, R143, R144). -/
theorem removePiece_job {s : State} {tag slot : Nat} {p : Piece} {j : Job} (hp : s.piece? tag = some p) (h : p.job = some slot)
    (hj : s.job? slot = some j) :
    s.removePiece tag =
      if j.state = .closed ∧ j.inList ≤ 1 then
        State.post { s with pieces := s.pieces.filter (·.tag != tag), jobs := s.jobs.filter (·.slot != slot) } .done (some tag)
          [some j.values.id, some j.entered, some j.printed, some j.diverted]
      else
        { s with
          pieces := s.pieces.filter (·.tag != tag)
          jobs := s.jobs.map fun x => if x.slot == slot then { x with inList := x.inList - 1 } else x } := by
  have hd : ({ j with inList := j.inList - 1 } : Job).done = decide (j.state = .closed ∧ j.inList ≤ 1) := by
    rw [Bool.eq_iff_iff]
    simp [Job.done, Nat.sub_eq_zero_iff_le]
  have h1 := job?_updateJob { s with pieces := s.pieces.filter (·.tag != tag) } slot (f := fun j => { j with inList := j.inList - 1 }) fun _ => rfl
  have h2 := filter_updateJob { s with pieces := s.pieces.filter (·.tag != tag) } slot (f := fun j => { j with inList := j.inList - 1 }) fun _ => rfl
  have hj' : State.job? { s with pieces := s.pieces.filter (·.tag != tag) } slot = some j := hj
  rw [hj', Option.map_some] at h1
  unfold State.removePiece
  simp only [hp, h, State.testDone, h1, h2, hd, decide_eq_true_eq]
  rfl

/-! ## The next candidate's test (R119, R121) -/

/-- With distinct tags, every record ahead of the candidate is settled, and the candidate's tag finds it. -/
theorem candidate_first {s : State} {p : Piece} (h : s.candidate = some p) (hd : s.TagsDistinct) :
    s.piece? p.tag = some p ∧ ∀ q ∈ s.ahead p.tag, q.state.settled = true := by
  obtain ⟨hp, pre, post, hs, hpre⟩ := List.find?_eq_some_iff_append.1 h
  have hne : ∀ q ∈ pre, (q.tag != p.tag) = true := fun q hq => by
    unfold State.TagsDistinct at hd
    rw [hs, List.map_append, List.nodup_append] at hd
    simpa using hd.2.2 q.tag (List.mem_map.2 ⟨q, hq, rfl⟩) p.tag (by simp)
  constructor
  · unfold State.piece?
    rw [hs, List.find?_append, List.find?_eq_none.2 fun q hq => by simpa using hne q hq]
    simp
  · unfold State.ahead
    rw [hs, List.takeWhile_append_of_pos hne]
    simpa using hpre

/-- A change that leaves no unsettled record but some of those that stood, and not one of them, leaves fewer. -/
theorem unsettled_lt {s t : State} (hd : t.TagsDistinct) {p : Piece} (hp : p ∈ s.pieces) (hs : p.state.settled = false)
    (h : ∀ q ∈ t.pieces, q.state.settled = false → q ∈ s.pieces ∧ q.tag ≠ p.tag) : t.unsettled.length < s.unsettled.length := by
  have hn : (p :: t.unsettled).Nodup :=
    List.nodup_cons.2 ⟨fun hm => by
      obtain ⟨hm, hu⟩ := List.mem_filter.1 hm
      exact (h p hm (by simpa using hu)).2 rfl, (List.Nodup.of_map _ hd).filter _⟩
  refine Nat.lt_of_succ_le (hn.subperm fun q hq => ?_).length_le
  rcases List.mem_cons.1 hq with rfl | hq
  · exact List.mem_filter.2 ⟨hp, by simp [hs]⟩
  · obtain ⟨hm, hu⟩ := List.mem_filter.1 hq
    exact List.mem_filter.2 ⟨(h q hm (by simpa using hu)).1, hu⟩

/-- A piece that is finalized is unsettled no longer, and no other record changes. -/
theorem finalize_settles {s : State} {tag : Nat} {d : Disposition} (hd : (s.finalize tag d).TagsDistinct) {q : Piece}
    (hq : q ∈ (s.finalize tag d).pieces) (hs : q.state.settled = false) : q ∈ s.pieces ∧ q.tag ≠ tag := by
  have hne : q.tag ≠ tag := fun e => by
    subst e
    cases hx : (s.finalize q.tag d).piece? q.tag with
    | none => exact ((List.find?_eq_none.1 hx q hq) (beq_self_eq_true _)).elim
    | some x =>
      obtain ⟨hm, ht⟩ := piece?_mem hx
      rw [hd.only hm hq ht.symm, finalize_found hx] at hs
      cases hs
  exact ⟨finalize_others hq hne, hne⟩

/-- A commit that starts, and one refused at a ceiling, settle their piece. -/
theorem startCommit_settles {s : State} {p : Piece} (hd : (s.startCommit p).TagsDistinct) {q : Piece} (hq : q ∈ (s.startCommit p).pieces)
    (hs : q.state.settled = false) : q ∈ s.pieces ∧ q.tag ≠ p.tag := by
  unfold State.startCommit at hd hq
  split at hq
  · obtain ⟨x, hx, rfl⟩ := List.mem_map.1 hq
    split at hs
    · cases hs
    · rename_i hne
      rw [if_neg hne]
      exact ⟨hx, by simpa using hne⟩
  · rename_i which hc
    rw [hc] at hd
    obtain ⟨h1, h2⟩ := finalize_settles hd hq hs
    rw [(raiseAbort_reach (Q := False) s .accountCeiling (some p.tag) [some p.postage, some which]).pieces_eq (by decide)] at h1
    exact ⟨h1, h2⟩

/-- An attempt at the candidate's commit with the slot empty settles it. -/
theorem attemptAtGate_settles {s : State} {p : Piece} (h : s.candidate = some p) (hd : s.TagsDistinct) (hsl : s.slot = none)
    (ht : (s.attemptAtGate p.tag).TagsDistinct) {q : Piece} (hq : q ∈ (s.attemptAtGate p.tag).pieces) (hs : q.state.settled = false) :
    q ∈ s.pieces ∧ q.tag ≠ p.tag := by
  obtain ⟨hp, ha⟩ := candidate_first h hd
  unfold State.attemptAtGate at ht hq
  rw [hp] at ht hq
  simp only at ht hq
  split at hq
  · rename_i hf; rw [hf] at ht; exact startCommit_settles ht hq hs
  · rename_i hf
    unfold State.firstUnmet at hf
    rw [hsl] at hf
    split at hf
    · cases hf
    · split_ifs at hf <;> simp_all
  · rename_i hf; rw [hf] at ht; exact finalize_settles ht hq hs
  · rename_i hf
    have ha' : (s.ahead p.tag).all (·.state.settled) = true := by simpa using ha
    unfold State.firstUnmet at hf
    rw [ha'] at hf
    split at hf
    · cases hf
    · split_ifs at hf <;> simp_all

/-- More tests than unsettled records are as many as are needed. -/
theorem testCandidates_enough {fuel : Nat} {s : State} (hd : s.TagsDistinct) (hf : s.unsettled.length < fuel) :
    State.testCandidates fuel s = s.commitTest := by
  have key : ∀ fuel fuel' (s : State), s.TagsDistinct → s.unsettled.length < fuel → s.unsettled.length < fuel' →
      State.testCandidates fuel s = State.testCandidates fuel' s := by
    intro fuel
    induction fuel with
    | zero => intro _ _ _ h; cases h
    | succ fuel ih =>
      intro fuel' s hd h1 h2
      cases fuel' with
      | zero => cases h2
      | succ fuel' =>
        unfold State.testCandidates
        cases hc : s.candidate with
        | none => rfl
        | some p =>
          obtain ⟨hm, hs⟩ := candidate_mem hc
          have hu : s.Unsettled p.tag := hd.unsettled hm hs
          simp only
          split
          · rfl
          · split
            · rename_i hg
              have ht : (s.attemptAtGate p.tag).TagsDistinct := (attemptAtGate_reach (Q := True) s p.tag fun _ => hu).distinct hd
              have hlt := unsettled_lt ht hm hs fun q => attemptAtGate_settles hc hd (by simpa using (Bool.and_eq_true_iff.1 hg).2) ht
              exact ih _ _ ht (by omega) (by omega)
            · split
              · rename_i hfu
                have ht : (s.startCommit p).TagsDistinct :=
                  (startCommit_reach (Q := True) hfu fun _ => ⟨hu, List.mem_map.2 ⟨p, hm, rfl⟩⟩).distinct hd
                have hlt := unsettled_lt ht hm hs fun q => startCommit_settles ht
                exact ih _ _ ht (by omega) (by omega)
              · rfl
              · rfl
  exact key _ _ s hd hf (Nat.lt_succ_of_le (List.length_filter_le _ _))

/-- The test of a RATED candidate that commits or is attempted, and of the candidates after it. -/
theorem commitTest_settles {s t : State} {p : Piece} (hc : s.candidate = some p) (hr : p.state = .rated) (hd : s.TagsDistinct)
    (h : (p.flags.gateCommitted = true ∧ s.slot = none ∧ t = s.attemptAtGate p.tag) ∨
      (¬(p.flags.gateCommitted = true ∧ s.slot = none) ∧ s.firstUnmet p = none ∧ t = s.startCommit p)) : s.commitTest = t.commitTest := by
  obtain ⟨hm, hs⟩ := candidate_mem hc
  have hu : s.Unsettled p.tag := hd.unsettled hm hs
  have hle : s.unsettled.length ≤ s.pieces.length := List.length_filter_le _ _
  have hstep : s.commitTest = State.testCandidates s.pieces.length t := by
    show State.testCandidates (s.pieces.length + 1) s = _
    conv_lhs => unfold State.testCandidates
    rw [hc]
    simp only [hr]
    rcases h with ⟨h1, h2, rfl⟩ | ⟨h1, h2, rfl⟩
    · simp [h1, h2]
    · have : (p.flags.gateCommitted && s.slot.isNone) = false := by
        by_contra hx
        exact h1 (by simpa using hx)
      simp [this, h2]
  rw [hstep]
  rcases h with ⟨h1, h2, rfl⟩ | ⟨h1, h2, rfl⟩
  · have ht : (s.attemptAtGate p.tag).TagsDistinct := (attemptAtGate_reach (Q := True) s p.tag fun _ => hu).distinct hd
    have hlt := unsettled_lt ht hm hs fun q => attemptAtGate_settles hc hd h2 ht
    exact testCandidates_enough ht (by omega)
  · have ht : (s.startCommit p).TagsDistinct := (startCommit_reach (Q := True) h2 fun _ => ⟨hu, List.mem_map.2 ⟨p, hm, rfl⟩⟩).distinct hd
    have hlt := unsettled_lt ht hm hs fun q => startCommit_settles ht
    exact testCandidates_enough ht (by omega)

end Sys2Proof.Machine
end

