-- ==== Sys2Proof/Laws/Commands.lean ====
section
/-! SUPPORT. One lemma for each command: it ends in a next state, reached by the changes named. -/

namespace Sys2Proof.Machine

variable {Q : Prop}

/-- The outcome is a next state, reached from `s` by changes of the kinds in `K`. -/
def Does (Q : Prop) (K : List Effect) (s : State) (o : Host.Outcome State Fault Refusal) : Prop := ∃ t, o = .next t ∧ Reach Q K s t

theorem Does.mono {K K' : List Effect} {s : State} {o : Host.Outcome State Fault Refusal} (h : Does Q K s o) (hk : K ⊆ K') : Does Q K' s o :=
  let ⟨t, ho, hr⟩ := h
  ⟨t, ho, hr.mono hk⟩

theorem taken_does {K : List Effect} {s : State} {f : State → State} (h : Reach Q K s (f s)) : Does Q K s (s.taken f) := by
  refine ⟨_, rfl, ?_⟩
  split
  · exact h
  · exact .refl s

/-- A request: refused at the line port or for the franking state with a reply only, or taken by its owner. -/
theorem request_reach {K : List Effect} {s : State} {h : ReqHead} {k : RequestKind} {owner : State → State} (hl : .lineRecord ∈ K)
    (hf : k = .tableSegment → .loadMark ∈ K) (ho : k.stateRefusal s.franking = none → Reach Q K s (owner s)) : Reach Q K s (s.request h k owner) := by
  have hr : ∀ s number kind r, Reach Q K s (State.refuse s number kind r) := fun s number kind r =>
    (refuse_reach s number kind r _).mono (by simpa using hl)
  unfold State.request
  split
  · refine Reach.trans ?_ (hr _ _ _ _)
    unfold State.flawByLength
    split
    · rename_i hc; exact .one (.loadMark s _) (hf hc.1)
    · exact .refl s
  · split
    · exact hr _ _ _ _
    · rename_i hn; exact ho hn

/-- The requests that only UNCONFIGURED and LOCKOUT refuse are not taken in UNCONFIGURED. -/
theorem configured_of_stateRefusal {k : RequestKind} {f : FrankingState} (h : k.stateRefusal f = none)
    (hk : k.stateRefusal .unconfigured ≠ none) : f ≠ .unconfigured := fun hf => hk (hf ▸ h)

/-! ## Sensor records -/

theorem refuseEntry_reach (s : State) (tag : Nat) : Reach Q contributoryEffects s (s.refuseEntry tag) :=
  ((sendLine_reach s _).trans (sendLine_reach _ _)).andThen (raiseContributory_reach _ _ _ _) (by decide) (by decide)

theorem tagConflict_reach {s : State} {p : Piece} (hp : p ∈ s.pieces) (hd : Q → s.TagsDistinct) :
    Reach Q commitEffects s (s.tagConflict p) := by
  have hk : Piece.Keeps fun p => { p with flags := { p.flags with tagConflict := true } } := ⟨fun _ => rfl, fun _ => rfl, fun _ => rfl, fun _ => rfl⟩
  have h0 := updatePiece_reach (Q := Q) s p.tag hk
  unfold State.tagConflict
  simp only
  split
  · exact h0.andThen (post_reach _ _ _ _) (by decide) (by decide)
  · rename_i hs
    have h1 := h0.andThen (K := pieceEffects)
      (finalize_reach _ p.tag (.diverted .tagConflict) fun q => ((hd q).unsettled hp (by simpa using hs)).keep hk p.tag) (by decide) (by decide)
    exact h1.andThen (commitTest_reach _ fun q => h1.distinct (hd q)) (by decide) (by decide)

/-- The current job is a record of the list. -/
theorem currentJob_mem {s : State} {j : Job} (h : s.currentJob = some j) : j.slot ∈ s.jobs.map (·.slot) :=
  List.mem_map.2 ⟨j, List.mem_of_find?_eq_some h, rfl⟩

/-- The piece just entered is the only one of its tag. -/
theorem entered_unsettled {s : State} {p : Piece} (ht : p.tag ∉ s.pieces.map (·.tag)) (hp : p.state.settled = false) :
    State.Unsettled { s with pieces := s.pieces ++ [p] } p.tag := by
  intro q hq hqt
  rcases List.mem_append.1 hq with hq | hq
  · exact absurd (List.mem_map.2 ⟨q, hq, hqt⟩) ht
  · rw [List.mem_singleton.1 hq]; exact hp

theorem placeEntry_reach {s : State} {tag : Nat} (hf : s.franking ≠ .unconfigured) (hl : s.pieces.length < Config.maxPieces)
    (ht : s.piece? tag = none) (hd : Q → s.TagsDistinct) : Reach Q enterEffects s (s.placeEntry tag) := by
  have h0 := makeJobCurrent_reach s (some tag) hd
  have htags := h0.tags (by decide)
  have hlen : (s.makeJobCurrent (some tag)).pieces.length < Config.maxPieces := by
    have := htags.length_le
    simp only [List.length_map] at this
    omega
  have hmem : tag ∉ (s.makeJobCurrent (some tag)).pieces.map (·.tag) := fun hm => by
    obtain ⟨p, hp, hpt⟩ := List.mem_map.1 (htags.subset hm)
    have := List.find?_eq_none.1 ht p hp
    simp [hpt] at this
  have hcf : (s.makeJobCurrent (some tag)).franking ≠ .unconfigured := h0.stays_configured (by decide) hf
  have hdm := fun q => h0.distinct (hd q)
  unfold State.placeEntry
  simp only
  refine (h0.mono (by decide)).trans ?_
  generalize s.makeJobCurrent (some tag) = m at hlen hmem hcf hdm
  split
  · rename_i j hj
    have h1 := Reach.one (Q := Q) (K := [.enter]) (.enter m (Piece.entered tag (some j.slot)) hcf hlen hmem
      (fun slot h => by cases h; exact currentJob_mem hj) rfl rfl) (by decide)
    exact h1.andThen (passRatings_reach _ _ fun q => h1.distinct (hdm q)) (by decide) (by decide)
  · have h1 := Reach.one (Q := Q) (K := [.enter]) (.enter m (Piece.entered tag none) hcf hlen hmem (fun slot h => nomatch h) rfl rfl) (by decide)
    have h2 := h1.andThen (K := .enter :: pieceEffects) (finalize_reach _ tag (.diverted .noJob) fun _ => entered_unsettled hmem rfl)
      (by decide) (by decide)
    exact h2.andThen (commitTest_reach _ fun q => h2.distinct (hdm q)) (by decide) (by decide)

theorem execEnter_does (tag : Nat) (s : State) (hd : Q → s.TagsDistinct) :
    Does Q (.counter :: .causes :: .halt :: enterEffects) s (execEnter tag s) := by
  refine taken_does ?_
  unfold State.enter
  split
  · exact (orphan_reach s).mono (by decide)
  · rename_i hf
    split
    · exact (refuseEntry_reach s tag).mono (by decide)
    · rename_i hl
      split
      · rename_i p hp; exact (tagConflict_reach (piece?_mem hp).1 hd).mono (by decide)
      · rename_i ht; exact (placeEntry_reach hf (not_le.1 hl) ht hd).mono (by decide)

theorem execDimension_does (tag l h t : Nat) (nm : Bool) (s : State) (hd : Q → s.TagsDistinct) :
    Does Q sensorEffects s (execDimension tag l h t nm s) :=
  taken_does (measurement_reach s tag ⟨fun _ => rfl, fun _ => rfl, fun _ => rfl, fun _ => rfl⟩ (fun s _ => (lateMeasurement_reach s).mono (by decide)) hd)

theorem execWeight_does (tag r q : Nat) (s : State) (hd : Q → s.TagsDistinct) : Does Q sensorEffects s (execWeight tag r q s) :=
  taken_does (measurement_reach s tag ⟨fun _ => rfl, fun _ => rfl, fun _ => rfl, fun _ => rfl⟩ (fun s p => lateWeight_reach _ s p) hd)

theorem execDestination_does (tag code : Nat) (nr : Bool) (sv : Option Nat) (s : State) (hd : Q → s.TagsDistinct) :
    Does Q sensorEffects s (execDestination tag code nr sv s) :=
  taken_does (measurement_reach s tag ⟨fun _ => rfl, fun _ => rfl, fun _ => rfl, fun _ => rfl⟩ (fun s _ => (lateMeasurement_reach s).mono (by decide)) hd)

theorem execGate_does (tag : Nat) (s : State) (hd : Q → s.TagsDistinct) : Does Q sensorEffects s (execGate tag s) :=
  taken_does (pieceEvent_reach (fun _ h => h) s tag (fun _ _ => (gateTreatment_reach s tag hd).mono (by decide)) hd)

/-- An unsettled piece made FINAL and taken out of the list at once. -/
theorem finalize_remove_reach (s : State) (tag : Nat) (d : Disposition) (hu : Q → s.Unsettled tag) :
    Reach Q pieceEffects s ((s.finalize tag d).removePiece tag) :=
  (finalize_reach s tag d hu).trans ((removePiece_reach _ tag fun _ _ h => finalize_found h).mono (by decide))

theorem leaveLine_reach (s : State) (tag : Nat) (hd : Q → s.TagsDistinct) : Reach Q pieceEffects s (s.leaveLine tag) := by
  unfold State.leaveLine
  split
  · exact .refl s
  · rename_i p hp
    split
    · rename_i hs; exact finalize_remove_reach s tag _ fun q => piece?_unsettled (hd q) hp (by rw [hs]; rfl)
    · rename_i hs; exact finalize_remove_reach s tag _ fun q => piece?_unsettled (hd q) hp (by rw [hs]; rfl)
    · rename_i hs; exact finalize_remove_reach s tag _ fun q => piece?_unsettled (hd q) hp (by rw [hs]; rfl)
    · rename_i hs; exact (removePiece_reach s tag fun _ q hq => by cases hp.symm.trans hq; exact hs).mono (by decide)
    all_goals exact updatePiece_within (by decide) s tag ⟨fun _ => rfl, fun _ => rfl, fun _ => rfl, fun _ => rfl⟩

theorem execExit_does (tag : Nat) (s : State) (hd : Q → s.TagsDistinct) : Does Q sensorEffects s (execExit tag s) := by
  refine taken_does (pieceEvent_reach (fun _ h => h) s tag (fun p _ => ?_) hd)
  split
  · exact (leaveLine_reach s tag hd).mono (by decide)
  · have h1 := gateTreatment_reach s tag hd
    exact h1.andThen (leaveLine_reach _ tag fun q => h1.distinct (hd q)) (by decide) (by decide)

theorem withdraw_reach (s : State) (p : Piece) : Reach Q [.printRecord, .pieces] s (s.withdraw p) := by
  unfold State.withdraw
  split
  · exact ((sendPrint_reach s _).mono (by decide)).trans (updatePiece_within (by decide) _ p.tag ⟨fun _ => rfl, fun _ => rfl, fun _ => rfl, fun _ => rfl⟩)
  · exact .refl s

/-- The kinds of change of an operator's REMOVE. -/
abbrev removeEffects : List Effect := .printRecord :: sensorEffects

theorem operatorRemove_reach {s : State} {p : Piece} (hp : s.piece? p.tag = some p) (hd : Q → s.TagsDistinct) :
    Reach Q (.printRecord :: pieceEffects) s (s.operatorRemove p) := by
  have hr (hs : p.state.settled = false) : Reach Q (.printRecord :: pieceEffects) s ((s.finalize p.tag .removed).removePiece p.tag) :=
    (finalize_remove_reach s p.tag .removed fun q => piece?_unsettled (hd q) hp hs).mono (by decide)
  have hu : Reach Q (.printRecord :: pieceEffects) s
      (s.updatePiece p.tag fun p => { p with flags := { p.flags with removeRequested := true } }) :=
    updatePiece_within (by decide) s p.tag ⟨fun _ => rfl, fun _ => rfl, fun _ => rfl, fun _ => rfl⟩
  unfold State.operatorRemove
  simp only
  split
  · rename_i hs; exact hr (by rw [hs]; rfl)
  · rename_i hs; exact hr (by rw [hs]; rfl)
  · rename_i hs; exact hr (by rw [hs]; rfl)
  · rename_i hs; exact (removePiece_reach s _ fun _ q hq => by cases hp.symm.trans hq; exact hs).mono (by decide)
  · exact hu
  · exact hu.trans ((withdraw_reach _ p).mono (by decide))

theorem execRemove_does (tag : Nat) (s : State) (hd : Q → s.TagsDistinct) : Does Q removeEffects s (execRemove tag s) := by
  refine taken_does (pieceEvent_reach (by decide) s tag (fun p hp => ?_) hd)
  obtain ⟨_, rfl⟩ := piece?_mem hp
  exact (operatorRemove_reach hp hd).mono (by decide)

/-! ## Line conditions -/

/-- The kinds of change of a sensor word. -/
abbrev monitorEffects : List Effect := .counter :: .monitors :: .causes :: .halt :: abortEffects

theorem monitorAction_reach (s : State) (word : Flags16) (number : Nat) (a : MonitorAction) :
    Reach Q monitorEffects s (s.monitorAction word number a) := by
  unfold State.monitorAction
  split
  · exact (post_reach s _ _ _).mono (by decide)
  · exact (setCauses_reach s { s.causes with monitor := true } rfl).andThen (post_reach _ _ _ _) (by decide) (by decide)
  · refine Reach.trans (t := s.monitorHalt) ?_ ((post_reach _ _ _ _).mono (by decide))
    unfold State.monitorHalt
    split
    · rename_i h; exact .one (.halt s (.inl h)) (by decide)
    · rename_i h; exact .one (.halt s (.inr h)) (by decide)
    all_goals exact .refl s
  · exact (raiseAbort_reach s _ _ _).mono (by decide)

theorem takeWord_reach (s : State) (word : Flags16) : Reach Q monitorEffects s (s.takeWord word) := by
  have hstop (s : State) (l : List Nat) : Reach Q monitorEffects s (s.requestStop word l) := by
    unfold State.requestStop
    split
    · exact .refl s
    · exact (sendLine_reach s _).mono (by decide)
  unfold State.takeWord
  simp only
  refine Reach.trans ?_ (Reach.foldl _ (fun s i => monitorAction_reach s word _ _) _ _)
  exact Reach.trans (.one (.monitors s _ word) (by decide)) (hstop _ _)

theorem execLineStatus_does (word : Flags16) (s : State) : Does Q monitorEffects s (execLineStatus word s) := by
  refine taken_does ?_
  split
  · exact (orphan_reach s).mono (by decide)
  · exact takeWord_reach s word

theorem execMonitorSet_does (h : ReqHead) (v : MonitorFields) (s : State) : Does Q [.monitors, .lineRecord] s (execMonitorSet h v s) := by
  refine taken_does (request_reach (by decide) (by decide) fun _ => ?_)
  split
  · split
    · exact (Reach.one (.monitors s _ s.sensorWord) (by decide)).andThen (K := [.monitors, .lineRecord]) (K₁ := [.monitors]) (accept_reach _ _ _ _)
        (by decide) (by decide)
    · exact (refuse_reach _ _ _ _ _).mono (by decide)
  · exact (refuse_reach _ _ _ _ _).mono (by decide)

/-! ## The tariff store -/

theorem execTableBegin_does (h : ReqHead) (bank tid : Nat) (s : State) : Does Q [.loadBegin, .lineRecord] s (execTableBegin h bank tid s) := by
  refine taken_does (request_reach (by decide) (by decide) fun _ => ?_)
  split
  · exact (refuse_reach _ _ _ _ _).mono (by decide)
  · rename_i id _
    split
    · exact (refuse_reach _ _ _ _ _).mono (by decide)
    · rename_i ha
      split
      · exact (refuse_reach _ _ _ _ _).mono (by decide)
      · rename_i ho
        exact (Reach.one (.loadBegin s id tid ha ho) (by decide)).andThen (K₁ := [.loadBegin]) (accept_reach _ _ _ _) (by decide) (by decide)

/-- The kinds of change of a TABLE_SEGMENT. -/
abbrev segmentEffects : List Effect := [.segment, .loadMark, .lineRecord]

/-- A segment write keeps the bank's state and its canonical form. -/
def SegmentWrite.Keeps (w : SegmentWrite) : Prop := ∀ b b', w b = some b' → b'.state = b.state ∧ (b.Sound → b'.Sound)

theorem segment_reach (s : State) (number : Nat) {w : SegmentWrite} (hw : w.Keeps) : Reach Q segmentEffects s (s.segment number w) := by
  unfold State.segment
  simp only
  split
  · exact (sendReply_reach s _).mono (by decide)
  · rename_i id hid
    split
    · exact (Reach.one (.loadMark s _) (by decide)).andThen (K₁ := [.loadMark]) (sendReply_reach _ _) (by decide) (by decide)
    · rename_i b hb
      have hk := hw _ _ hb
      exact ((Reach.one (.segment s id b hid hk.1 hk.2) (by decide) : Reach Q segmentEffects s _).trans
        (.one (.loadMark _ _) (by decide))).trans ((sendReply_reach _ _).mono (by decide))

theorem segmentRequest_does (h : ReqHead) (s : State) {w : SegmentWrite} (hw : w.Keeps) :
    Does Q segmentEffects s (s.taken fun s => s.request h .tableSegment fun s => s.segment h.number w) :=
  taken_does (request_reach (by decide) (by decide) fun _ => segment_reach s h.number hw)

theorem execUnknownSegmentGroup_does (h : ReqHead) (group : Nat) (s : State) : Does Q segmentEffects s (execUnknownSegmentGroup h group s) :=
  taken_does (request_reach (by decide) (by decide) fun _ => segment_reach s _ fun _ _ h => nomatch h)

theorem writeHeader_keeps (day mode step cap : Nat) : (writeHeader day mode step cap).Keeps := by
  intro b b' h
  unfold writeHeader at h
  split at h
  · cases h
  · cases h; exact ⟨rfl, fun ⟨a, b, c, d, e⟩ => ⟨a, b, c, d, e⟩⟩

theorem writeProduct_keeps (n : Nat) (p : Product) : (writeProduct n p).Keeps := by
  intro b b' h
  unfold writeProduct at h
  split at h
  · cases h; exact ⟨rfl, fun ⟨a, b, c, d, e⟩ => ⟨a, b, c, d, e⟩⟩
  · cases h

theorem mem_setIfInBounds {α : Type} {n : Nat} {v : Vector α n} {i : Nat} {x y : α} (h : y ∈ (v.setIfInBounds i x).toList) :
    y ∈ v.toList ∨ y = x := by
  rw [Vector.toList_setIfInBounds] at h
  exact List.mem_or_eq_of_mem_set h

theorem writeBandTable_keeps (t : Nat) (bs : List Nat) : (writeBandTable t bs).Keeps := by
  intro b b' h
  unfold writeBandTable at h
  split at h
  · rename_i hc
    cases h
    refine ⟨rfl, fun ⟨h1, h2, h3, h4, h5⟩ => ⟨h1, h2, h3, fun t ht => ?_, h5⟩⟩
    rcases mem_setIfInBounds ht with ht | rfl
    · exact h4 t ht
    · exact hc.2
  · cases h

theorem zoneMap_wf {b : Bank} (hb : b.Sound) (m : Nat) : Table.wf Config.notServed (b.zoneMap m).entries := by
  unfold Bank.zoneMap
  cases h : b.zoneMaps[m]? with
  | none => exact Table.wf_nil
  | some z => exact hb.zones z (Vector.mem_toList_iff.2 (Vector.mem_of_getElem? h))

theorem writeZoneBlock_keeps (m first : Nat) (es : List Nat) : (writeZoneBlock m first es).Keeps := by
  intro b b' h
  unfold writeZoneBlock at h
  split at h
  · cases h
    refine ⟨rfl, fun hb => ⟨hb.prices, hb.cells, fun z hz => ?_, hb.bands, hb.surcharges⟩⟩
    rcases mem_setIfInBounds hz with hz | rfl
    · exact hb.zones z hz
    · exact Table.setRun_wf (zoneMap_wf hb m) first es
  · cases h

theorem writeSurcharge_keeps (pos : Nat) (f : SurchargeFields) : (writeSurcharge pos f).Keeps := by
  intro b b' h
  unfold writeSurcharge at h
  split at h
  · cases h
  · split at h
    · cases h
    · rename_i hp
      split at h
      · rename_i he
        cases h
        refine ⟨rfl, fun hb => ⟨hb.prices, hb.cells, hb.zones, hb.bands, ?_⟩⟩
        show (b.surcharges ++ [_]).length ≤ 16
        simp only [List.length_append, List.length_singleton]
        omega
      · cases h
        refine ⟨rfl, fun hb => ⟨hb.prices, hb.cells, hb.zones, hb.bands, ?_⟩⟩
        show (b.surcharges.set pos _).length ≤ 16
        simpa using hb.surcharges

theorem writePriceRun_keeps (start : PriceStart) (vs : List Nat) : (writePriceRun start vs).Keeps := by
  intro b b' h
  unfold writePriceRun at h
  split at h
  · cases h
  · split at h
    · rename_i hc
      cases h
      exact ⟨rfl, fun hb => ⟨Table.setRun_wf hb.prices _ vs, Table.setRun_lt hb.cells _ vs hc.2.2, hb.zones, hb.bands, hb.surcharges⟩⟩
    · cases h

theorem endLoad_reach {s : State} {id : BankId} (hid : s.banks.loading = some id) (number expected : Nat) :
    Reach Q [.loadEnd, .lineRecord, .notice] s (s.endLoad number id expected) := by
  unfold State.endLoad
  simp only
  split
  · exact ((Reach.one (.loadEnd s id .ready hid (.inl rfl)) (by decide) : Reach Q [.loadEnd, .lineRecord, .notice] s _).trans
      ((accept_reach _ _ _ _).mono (by decide))).trans ((post_reach _ _ _ _).mono (by decide))
  · exact ((Reach.one (.loadEnd s id .invalid hid (.inr rfl)) (by decide) : Reach Q [.loadEnd, .lineRecord, .notice] s _).trans
      ((accept_reach _ _ _ _).mono (by decide))).trans ((post_reach _ _ _ _).mono (by decide))

theorem execTableEnd_does (h : ReqHead) (expected : Nat) (s : State) :
    Does Q [.loadEnd, .lineRecord, .notice] s (execTableEnd h expected s) := by
  refine taken_does (request_reach (by decide) (by decide) fun _ => ?_)
  split
  · exact (refuse_reach _ _ _ _ _).mono (by decide)
  · rename_i hid; exact endLoad_reach hid _ _

/-- The kinds of change of a BANK_SWITCH. -/
abbrev bankSwitchEffects : List Effect := .pend :: switchEffects

theorem bankSwitch_reach {s : State} {number bank : Nat} {work : State → BankId → State}
    (hw : ∀ id, (s.banks.get id).state = .ready → Reach Q bankSwitchEffects s (work s id)) :
    Reach Q bankSwitchEffects s (s.bankSwitch number bank work) := by
  unfold State.bankSwitch
  split
  · exact (refuse_reach _ _ _ _ _).mono (by decide)
  · split
    · exact (refuse_reach _ _ _ _ _).mono (by decide)
    · rename_i h; exact hw _ h
    all_goals exact (refuse_reach _ _ _ _ _).mono (by decide)

theorem switchNow_reach {s : State} {id : BankId} (h : (s.banks.get id).state = .ready) (number : Nat) (r : Results) (hd : Q → s.TagsDistinct) :
    Reach Q bankSwitchEffects s (s.switchNow number id r) := by
  have h1 := (switchTo_reach none (.inl h) hd).andThen (K := switchEffects) (accept_reach _ number .bankSwitch r) (by decide) (by decide)
  exact h1.andThen (passRatings_reach _ _ fun q => h1.distinct (hd q)) (by decide) (by decide)

theorem pendSwitch_reach {s : State} {id : BankId} (h : (s.banks.get id).state = .ready) (number : Nat) (m : PendingMode) :
    Reach Q bankSwitchEffects s (s.pendSwitch number id m) :=
  (Reach.one (.pend s (some { target := id, mode := m }) (by rintro y ⟨⟩; exact h)) (by decide)).andThen (K₁ := [.pend]) (accept_reach _ _ _ _)
    (by decide) (by decide)

theorem execBankSwitchImmediate_does (h : ReqHead) (bank mode : Nat) (s : State) (hd : Q → s.TagsDistinct) :
    Does Q bankSwitchEffects s (execBankSwitchImmediate h bank mode s) := by
  refine taken_does (request_reach (by decide) (by decide) fun _ => ?_)
  split
  · exact (refuse_reach _ _ _ _ _).mono (by decide)
  · refine bankSwitch_reach fun id hr => ?_
    unfold State.switchImmediate
    split
    · exact (refuse_reach _ _ _ _ _).mono (by decide)
    · split
      · exact (refuse_reach _ _ _ _ _).mono (by decide)
      · exact switchNow_reach hr _ _ hd

theorem execBankSwitchAtDate_does (h : ReqHead) (bank : Nat) (s : State) (hd : Q → s.TagsDistinct) : Does Q bankSwitchEffects s (execBankSwitchAtDate h bank s) := by
  refine taken_does (request_reach (by decide) (by decide) fun _ => bankSwitch_reach fun id hr => ?_)
  split
  · exact switchNow_reach hr _ _ hd
  · exact pendSwitch_reach hr _ _

theorem execBankSwitchAtJob_does (h : ReqHead) (bank : Nat) (s : State) : Does Q bankSwitchEffects s (execBankSwitchAtJob h bank s) :=
  taken_does (request_reach (by decide) (by decide) fun _ => bankSwitch_reach fun _ hr => pendSwitch_reach hr _ _)

/-! ## Jobs -/

/-- The free slot of a job list that is not full (R138). -/
theorem freeSlot_free {s : State} (hl : s.jobs.length < Config.maxJobs) : s.freeSlot < Config.maxJobs ∧ s.freeSlot ∉ s.jobs.map (·.slot) := by
  unfold State.freeSlot
  cases h : (List.range Config.maxJobs).find? fun k => (s.job? k).isNone with
  | some k =>
    refine ⟨List.mem_range.1 (List.mem_of_find?_eq_some h), fun hm => ?_⟩
    have hn := List.find?_some h
    obtain ⟨j, hj, hjk⟩ := List.mem_map.1 hm
    simp only [State.job?, Option.isNone_iff_eq_none, List.find?_eq_none] at hn
    exact hn j hj (by simpa using hjk)
  | none =>
    exfalso
    have hall : ∀ k ∈ List.range Config.maxJobs, k ∈ s.jobs.map (·.slot) := fun k hk => by
      have := List.find?_eq_none.1 h k hk
      cases hj : s.job? k with
      | none => simp [hj] at this
      | some j => exact List.mem_map.2 ⟨j, List.mem_of_find?_eq_some hj, by simpa using List.find?_some hj⟩
    have := (List.nodup_range (n := Config.maxJobs)).subperm hall |>.length_le
    simp only [List.length_range, List.length_map] at this
    omega

theorem execJobAdd_does (h : ReqHead) (v : JobFields) (s : State) (hd : Q → s.TagsDistinct) :
    Does Q (.addJob :: .currentJob :: switchEffects) s (execJobAdd h v s) := by
  refine taken_does (request_reach (by decide) (by decide) fun hs => ?_)
  split
  · exact (refuse_reach _ _ _ _ _).mono (by decide)
  · rename_i j hj
    split
    · exact (refuse_reach _ _ _ _ _).mono (by decide)
    · rename_i hid
      split
      · exact (refuse_reach _ _ _ _ _).mono (by decide)
      · rename_i hl
        have hfree := freeSlot_free (not_le.1 hl)
        have hjid : j.id = v.id := by
          unfold JobValues.ofFields at hj
          split at hj
          · cases hj
          · split at hj
            · cases hj
            · cases hj; rfl
        have hadd : Reach Q (.addJob :: .currentJob :: switchEffects) s { s with jobs := s.jobs ++ [Job.waiting s.freeSlot j] } := by
          refine .one (.addJob s _ (configured_of_stateRefusal hs (by simp [RequestKind.stateRefusal])) (not_le.1 hl) hfree.1 hfree.2
            (fun hm => hid ?_) rfl rfl) (by decide)
          obtain ⟨x, hx, hxi⟩ := List.mem_map.1 hm
          exact List.any_eq_true.2 ⟨x, hx, by simpa [Job.waiting, hjid] using hxi⟩
        unfold State.addJob
        have h1 := hadd.trans ((makeJobCurrent_reach _ none fun q => hadd.distinct (hd q)).mono (by decide))
        have h2 (r : Results) := h1.trans ((acceptClamped_reach _ h.number .jobAdd (decide (50 < v.margin) || decide (200 < v.guardBand)) r).mono
          (by decide))
        exact (h2 _).trans ((passRatings_reach _ _ fun q => (h2 _).distinct (hd q)).mono (by decide))

theorem execJobAbort_does (h : ReqHead) (id : Nat) (s : State) : Does Q [.abort, .lineRecord, .notice] s (execJobAbort h id s) := by
  refine taken_does (request_reach (by decide) (by decide) fun _ => ?_)
  split
  · exact (refuse_reach _ _ _ _ _).mono (by decide)
  · rename_i j _
    have hc : Reach Q [.abort, .lineRecord, .notice] s ((s.updateJob j.slot Job.aborted).testDone j.slot none) :=
      (Reach.one (K := [.abort, .lineRecord, .notice]) (.abort s j.slot) (by decide)).trans
        ((testDone_reach (s.updateJob j.slot Job.aborted) j.slot none).mono (by decide))
    unfold State.abortJob
    refine Reach.trans ?_ ((accept_reach _ _ _ _).mono (by decide))
    split
    · exact .refl s
    · exact hc
    · exact hc

/-! ## The postage accounts -/

/-- A closing write's end of its record: the disposition is set with the write, the rest of R9 follows. -/
theorem finalizeByNumber_reach (s : State) (n : Nat) (d : Option Disposition) :
    Reach Q reportEffects { s with pieces := endNumber n d s.pieces } (s.finalizeByNumber n d) := by
  unfold State.finalizeByNumber endNumber
  cases hp : s.pieces.find? fun p => p.commitData.map (·.n) == some n with
  | none => exact .refl s
  | some p =>
    cases d with
    | none => exact .refl s
    | some d =>
      simp only
      cases hf : s.piece? p.tag with
      | none =>
        have := List.find?_eq_none.1 hf p (List.mem_of_find?_eq_some hp)
        simp at this
      | some x =>
        rw [finalize_eq hf]
        exact reportEnd_reach s p.tag d x

theorem beginNext_reach (s : State) : Reach Q [.begun] s s.beginNext := .one (.begun s _) (by decide)

/-- The kinds of change of a COMMIT's completion. -/
abbrev commitDoneEffects : List Effect := .commitOrdered :: .commitWithheld :: .commitOrphan :: .waiting :: .begun :: commitEffects

/-- The order withheld: the closing request does not depend on the piece's commit data. -/
theorem withhold_eq (s : State) (slot : CommitSlot) (c : CommitData) (w : WithheldCause) :
    s.withhold slot c w =
      let t : State := { s with
        slot := some { slot with phase := .followUp, withheld := some w }
        queue := if s.closeTaken c.n then s.queue ++ [.close w.closing slot.tag c.n .commitUnit] else s.queue }
      if w = .lineReset then t else t.fillCommitData slot.tag c := by
  unfold State.withhold
  by_cases hw : w = .lineReset <;> simp only [hw, if_true, if_false, requestClose_eq] <;> rfl

/-- An order sent, the piece COMMITTED and the slot emptied, as one change. -/
theorem ordered_eq (s : State) (slot : CommitSlot) (c : CommitData) (date : Nat) :
    State.emptySlot (((s.sendOrder slot c date).fillCommitData slot.tag c).markCommitted slot.tag) =
      State.answerHolds { s.sendOrder slot c date with slot := none, pieces := atTag slot.tag (Piece.ordered c) s.pieces } := by
  have hp : (((s.sendOrder slot c date).fillCommitData slot.tag c).markCommitted slot.tag).pieces = atTag slot.tag (Piece.ordered c) s.pieces := by
    show (s.pieces.map _).map _ = s.pieces.map _
    rw [List.map_map]
    refine List.map_congr_left fun p _ => ?_
    by_cases ht : (p.tag == slot.tag) = true
    · by_cases hc : p.state = .committing
      · simp [ht, hc, Piece.ordered, eq_of_beq ht]
      · simp [ht, hc, Piece.ordered, eq_of_beq ht]
    · have hne : ¬p.tag = slot.tag := by simpa using ht
      simp [hne]
  rw [← hp]
  rfl

theorem handCommit_reach {s : State} {tag p : Nat} {rest : List Write} (hq : s.queue = .commit tag p :: rest) (date : Nat)
    (hd : Q → s.TagsDistinct) : Reach Q commitDoneEffects s ((s.performHead (.commit tag p) rest).handCommit (s.commitResult p) date) := by
  unfold State.handCommit
  split
  · rename_i hs
    exact .one (.commitOrphan s tag p rest hq hs) (by decide)
  · rename_i slot hs
    split
    · rename_i w _
      rw [withhold_eq]
      have h1 := fun ps hp => Reach.one (Q := Q) (K := commitDoneEffects)
        (.commitWithheld s tag p rest hq slot hs w (s.commitResult p) rfl ps hp _ rfl) (by decide)
      simp only
      split
      · rename_i hw; exact h1 s.pieces (if_pos hw).symm
      · rename_i hw; exact h1 (atTag slot.tag (Piece.filled (s.commitResult p)) s.pieces) (if_neg hw).symm
    · rename_i hw
      have hnr : slot.withheld ≠ some .lineReset := fun e => by
        unfold State.withheldCase at hw
        rw [if_pos e] at hw
        cases hw
      rw [ordered_eq]
      have h1 (x : PrintTx) := (Reach.one (Q := Q) (K := commitDoneEffects)
        (.commitOrdered s tag p rest hq slot hs hnr (s.commitResult p) rfl x) (by decide)).trans ((answerHolds_reach _).mono (by decide))
      exact (h1 _).trans ((commitTest_reach _ fun q => (h1 _).distinct (hd q)).mono (by decide))

theorem completeCommit_reach {s : State} {tag p : Nat} {rest : List Write} (hq : s.queue = .commit tag p :: rest) (hd : Q → s.TagsDistinct) :
    Reach Q commitDoneEffects s (s.completeCommit tag p rest) := by
  unfold State.completeCommit
  simp only
  refine ((handCommit_reach hq (s.mailingDate.getD 0) hd).trans ?_).trans ((beginNext_reach _).mono (by decide))
  unfold State.postLow
  split
  · exact (post_reach _ _ _ _).mono (by decide)
  · exact .refl _

theorem execCommitComplete_does (s : State) (hd : Q → s.TagsDistinct) : Does Q commitDoneEffects s (execCommitComplete s) := by
  refine taken_does ?_
  split
  · rename_i hq; exact completeCommit_reach hq hd
  all_goals exact .refl s

/-- The kinds of change of a closing write's completion. -/
abbrev closeDoneEffects : List Effect := .closeDone :: .waiting :: .begun :: commitEffects

theorem completeClose_reach {s : State} {kind : CloseKind} {tag n : Nat} {by_ : Requester} {rest : List Write}
    (hq : s.queue = .close kind tag n by_ :: rest) (hd : Q → s.TagsDistinct) :
    Reach Q closeDoneEffects s (s.completeClose kind tag n by_ rest) := by
  unfold State.completeClose
  simp only
  have h1 := Reach.one (Q := Q) (K := closeDoneEffects) (.closeDone s kind tag n by_ rest hq (s.closingDisposition kind by_)) (by decide)
  have h2 := h1.trans ((finalizeByNumber_reach { s.performHead (.close kind tag n by_) rest with slot := s.slotAfterClose by_ } n
    (s.closingDisposition kind by_)).mono (by decide))
  generalize State.finalizeByNumber _ n (s.closingDisposition kind by_) = m at h2
  have h3 : Reach Q closeDoneEffects s (if by_ = .commitUnit then m.answerHolds else m) := by
    split
    · exact h2.trans ((answerHolds_reach _).mono (by decide))
    · exact h2
  generalize (if by_ = .commitUnit then m.answerHolds else m) = x at h3
  have h4 : Reach Q closeDoneEffects s (if s.resetWaitsFor by_ then x.resetSpoilDone else x) := by
    split
    · exact h3.trans ((resetSpoilDone_reach _).mono (by decide))
    · exact h3
  exact (h4.trans ((testIf_reach _ _ fun q => h4.distinct (hd q)).mono (by decide))).trans ((beginNext_reach _).mono (by decide))

theorem closeComplete_reach (s : State) (kind : CloseKind) (hd : Q → s.TagsDistinct) : Reach Q closeDoneEffects s (s.closeComplete kind) := by
  unfold State.closeComplete
  split
  · rename_i hq
    split
    · rename_i hk; subst hk; exact completeClose_reach hq hd
    · exact .refl s
  all_goals exact .refl s

theorem execConfirmComplete_does (s : State) (hd : Q → s.TagsDistinct) : Does Q closeDoneEffects s (execConfirmComplete s) :=
  taken_does (closeComplete_reach s _ hd)
theorem execVoidComplete_does (s : State) (hd : Q → s.TagsDistinct) : Does Q closeDoneEffects s (execVoidComplete s) :=
  taken_does (closeComplete_reach s _ hd)
theorem execSpoilComplete_does (s : State) (hd : Q → s.TagsDistinct) : Does Q closeDoneEffects s (execSpoilComplete s) :=
  taken_does (closeComplete_reach s _ hd)

theorem execCredit_does (h : ReqHead) (number amount : Nat) (s : State) : Does Q [.takeCredit, .lineRecord] s (execCredit h number amount s) := by
  refine taken_does (request_reach (by decide) (by decide) fun _ => ?_)
  split
  · exact (refuse_reach _ _ _ _ _).mono (by decide)
  · rename_i hc; exact .one (.takeCredit s _ _ _ hc) (by decide)

/-- The kinds of change of a CREDIT's completion. -/
abbrev creditDoneEffects : List Effect := .creditDone :: .begun :: commitEffects

theorem execCreditComplete_does (s : State) (hd : Q → s.TagsDistinct) : Does Q creditDoneEffects s (execCreditComplete s) := by
  refine taken_does ?_
  split
  · rename_i request number amount rest hq
    unfold State.completeCredit
    have h1 (r : Results) := (Reach.one (Q := Q) (K := creditDoneEffects) (.creditDone s request number amount rest hq) (by decide)).trans
      ((accept_reach _ request .credit r).mono (by decide))
    exact ((h1 _).trans ((commitTest_reach _ fun q => (h1 _).distinct (hd q)).mono (by decide))).trans ((beginNext_reach _).mono (by decide))
  all_goals exact .refl s

theorem execWriteBegin_does (s : State) : Does Q [.begun] s (execWriteBegin s) := taken_does (beginNext_reach s)

theorem execAccountQuery_does (h : ReqHead) (s : State) : Does Q [.lineRecord] s (execAccountQuery h s) :=
  taken_does (request_reach (by decide) (by decide) fun _ => accept_reach _ _ _ _)

/-! ## The commit unit -/

theorem execDate_does (h : ReqHead) (day : Nat) (s : State) (hd : Q → s.TagsDistinct) : Does Q (.date :: switchEffects) s (execDate h day s) := by
  refine taken_does (request_reach (by decide) (by decide) fun _ => ?_)
  split
  · exact (refuse_reach _ _ _ _ _).mono (by decide)
  · have h1 := ((Reach.one (Q := Q) (K := .date :: switchEffects) (.date s (some day)) (by decide)).trans
      ((takeDateSwitch_reach { s with mailingDate := some day } day hd).mono (by decide))).trans
        ((accept_reach _ h.number .date .nothing).mono (by decide))
    exact h1.trans ((commitTest_reach _ fun q => h1.distinct (hd q)).mono (by decide))

theorem execCommitStart_does (s : State) (hd : Q → s.TagsDistinct) : Does Q commitEffects s (execCommitStart s) :=
  taken_does (commitTest_reach s hd)

theorem execGateCommittedCheck_does (s : State) (hd : Q → s.TagsDistinct) : Does Q commitEffects s (execGateCommittedCheck s) := by
  refine taken_does ?_
  unfold State.checkGateCommitted
  split
  · exact .refl s
  · rename_i p hp
    obtain ⟨hm, hs⟩ := candidate_mem hp
    split
    · have h1 := attemptAtGate_reach s p.tag fun q => (hd q).unsettled hm hs
      exact h1.trans (commitTest_reach _ fun q => h1.distinct (hd q))
    · exact .refl s

/-! ## The print port -/

theorem execPrinterState_does (code : Nat) (s : State) (hd : Q → s.TagsDistinct) :
    Does Q (.printer :: commitEffects) s (execPrinterState code s) := by
  refine taken_does ?_
  have h1 := Reach.one (Q := Q) (K := .printer :: commitEffects) (.printer s (.ofCode code)) (by decide)
  simp only
  split
  · exact h1.trans ((commitTest_reach _ fun q => h1.distinct (hd q)).mono (by decide))
  · exact h1

theorem execOrderTaken_does (tag : Nat) (s : State) : Does Q [.orders, .counter] s (execOrderTaken tag s) := by
  refine taken_does ?_
  split
  · exact (lateRecord_reach s).mono (by decide)
  · split
    · exact (lateRecord_reach s).mono (by decide)
    · refine .one (.orders s _ (fun o => ?_) fun o => ?_) (by decide)
      all_goals split <;> rfl

/-- The closing writes that are taken for entries leaving the outstanding-order list, in turn (R99, R128, R136). -/
def closesFor (s : State) (kind : CloseKind) (by_ : Requester) : List Order → List Write
  | [] => []
  | o :: os =>
    if s.closeTaken o.n then
      .close kind o.tag o.n by_ :: closesFor { s with queue := s.queue ++ [.close kind o.tag o.n by_] } kind by_ os
    else closesFor s kind by_ os

/-- Entries leave the outstanding-order list, each with its closing request. -/
theorem closesFor_spec (kind : CloseKind) (by_ : Requester) (os : List Order) (s : State) :
    (∀ x, os.foldl (fun s o => s.requestClose kind o.tag o.n by_) { s with orders := x } =
      { s with orders := x, queue := s.queue ++ closesFor s kind by_ os }) ∧
    (∀ w ∈ closesFor s kind by_ os, ∃ o ∈ os, w = .close kind o.tag o.n by_ ∧ s.closeTaken o.n = true) ∧
    (closings (closesFor s kind by_ os)).Nodup ∧
    (∀ n, s.closeTaken n = false → State.closeTaken { s with queue := s.queue ++ closesFor s kind by_ os } n = false) ∧
    ∀ o ∈ os, State.closeTaken { s with queue := s.queue ++ closesFor s kind by_ os } o.n = false := by
  induction os generalizing s with
  | nil => exact ⟨fun x => by simp [closesFor], by simp [closesFor], List.nodup_nil, fun n h => by simpa [closesFor] using h, by simp⟩
  | cons o os ih =>
    by_cases hc : s.closeTaken o.n = true
    · obtain ⟨h1, h2, h3, h4, h5⟩ := ih { s with queue := s.queue ++ [.close kind o.tag o.n by_] }
      have hno := closeTaken_requestClose s kind o.tag o.n by_
      have hkeep := fun n (h : s.closeTaken n = false) => closeTaken_requestClose_of_false h kind o.tag o.n by_
      rw [requestClose_eq, if_pos hc] at hno hkeep
      have hq : closesFor s kind by_ (o :: os) =
          .close kind o.tag o.n by_ :: closesFor { s with queue := s.queue ++ [.close kind o.tag o.n by_] } kind by_ os := by
        rw [closesFor, if_pos hc]
      have happ : s.queue ++ closesFor s kind by_ (o :: os) =
          (s.queue ++ [.close kind o.tag o.n by_]) ++ closesFor { s with queue := s.queue ++ [.close kind o.tag o.n by_] } kind by_ os := by
        rw [hq]; simp
      rw [happ]
      refine ⟨fun x => ?_, fun w hw => ?_, ?_, fun n h => h4 n (hkeep n h), fun x hx => ?_⟩
      · rw [List.foldl_cons, requestClose_eq, if_pos (show State.closeTaken { s with orders := x } o.n = true from hc)]
        exact h1 x
      · rw [hq] at hw
        rcases List.mem_cons.1 hw with rfl | hw
        · exact ⟨o, by simp, rfl, hc⟩
        · obtain ⟨x, hx, rfl, hx'⟩ := h2 w hw
          refine ⟨x, by simp [hx], rfl, ?_⟩
          by_contra hn
          have := hkeep x.n (by simpa using hn)
          rw [this] at hx'
          cases hx'
      · rw [hq]
        refine List.nodup_cons.2 ⟨fun hm => ?_, h3⟩
        obtain ⟨w, hw, hwn⟩ := List.mem_filterMap.1 hm
        obtain ⟨x, _, rfl, hx⟩ := h2 w hw
        rw [Option.some.inj hwn, hno] at hx
        cases hx
      · rcases List.mem_cons.1 hx with rfl | hx
        · exact h4 _ hno
        · exact h5 x hx
    · obtain ⟨h1, h2, h3, h4, h5⟩ := ih s
      have hq : closesFor s kind by_ (o :: os) = closesFor s kind by_ os := by rw [closesFor, if_neg hc]
      rw [hq]
      refine ⟨fun x => ?_, fun w hw => ?_, h3, h4, fun x hx => ?_⟩
      · rw [List.foldl_cons, requestClose_eq, if_neg (show ¬State.closeTaken { s with orders := x } o.n = true from hc)]
        exact h1 x
      · obtain ⟨x, hx, h⟩ := h2 w hw
        exact ⟨x, by simp [hx], h⟩
      · rcases List.mem_cons.1 hx with rfl | hx
        · exact h4 _ (by simpa using hc)
        · exact h5 x hx

/-- Entries leave the list and the closing writes that the print port requests for them join the queue, as one change. -/
theorem closeOrders_reach {s : State} {os out : List Order} {kind : CloseKind} (hk : os.Sublist s.orders) (hout : ∀ o ∈ out, o.n ∉ os.map (·.n)) (hall : ∀ o ∈ s.orders, o.n ∉ os.map (·.n) → ∃ x ∈ out, x.n = o.n) :
    Reach Q [.closeOrders] s (out.foldl (fun s o => s.requestClose kind o.tag o.n .printPort) { s with orders := os }) := by
  obtain ⟨h1, h2, h3, h4, h5⟩ := closesFor_spec kind .printPort out s
  rw [h1 os]
  refine .one (.closeOrders s os _ hk (fun w hw => ?_) (fun n hn => ?_) h3 fun o ho hn => ?_) (by decide)
  · obtain ⟨o, _, rfl, _⟩ := h2 w hw
    exact ⟨_, _, _, rfl⟩
  · obtain ⟨w, hw, hwn⟩ := List.mem_filterMap.1 hn
    obtain ⟨o, ho, rfl, hc⟩ := h2 w hw
    cases hwn
    exact ⟨hc, hout o ho⟩
  · obtain ⟨x, hx, hxn⟩ := hall o ho hn
    exact hxn ▸ h5 x hx

theorem closeOrder_reach {s : State} {o : Order} (kind : CloseKind) : Reach Q [.closeOrders] s (s.closeOrder o kind) := by
  refine closeOrders_reach (out := [o]) List.filter_sublist (fun x hx hm => ?_) fun x hx hn => ⟨o, by simp, ?_⟩
  · rw [List.mem_singleton.1 hx] at hm
    obtain ⟨y, hy, hyn⟩ := List.mem_map.1 hm
    have := (List.mem_filter.1 hy).2
    simp [hyn] at this
  · by_contra hne
    exact hn (List.mem_map.2 ⟨x, List.mem_filter.2 ⟨hx, by simpa using Ne.symm hne⟩, rfl⟩)

/-- The kinds of change of a result or an expiry. -/
abbrev resultEffects : List Effect := .counter :: .closeOrders :: .causes :: .halt :: commitEffects

theorem execPrintResult_does (tag outcome : Nat) (s : State) (hd : Q → s.TagsDistinct) :
    Does Q resultEffects s (execPrintResult tag outcome s) := by
  refine taken_does ?_
  split
  · unfold State.lateResult
    exact (Reach.one (K := resultEffects) (.counter s _) (by decide)).trans ((post_reach _ _ _ _).mono (by decide))
  · rename_i o _
    simp only
    have h1 : Reach Q resultEffects s (s.closeOrder o (CloseKind.ofResult outcome)) := (closeOrder_reach _).mono (by decide)
    split
    · have h2 := h1.trans ((raiseContributory_reach _ .printUnknown (some tag) [some o.n]).mono (by decide))
      exact h2.trans ((commitTest_reach _ fun q => h2.distinct (hd q)).mono (by decide))
    · exact h1.trans ((commitTest_reach _ fun q => h1.distinct (hd q)).mono (by decide))

theorem timeout_reach (s : State) (o : Order) (code : CauseCode) (hd : Q → s.TagsDistinct) : Reach Q resultEffects s (s.timeout o code) := by
  have h1 := Reach.trans (Reach.mono (K' := resultEffects) (closeOrder_reach (Q := Q) (s := s) (o := o) .spoil) (by decide))
    ((raiseContributory_reach _ code (some o.tag) [some o.n]).mono (by decide))
  exact h1.trans ((commitTest_reach _ fun q => h1.distinct (hd q)).mono (by decide))

theorem execTakeTimerExpiry_does (tag : Nat) (s : State) (hd : Q → s.TagsDistinct) : Does Q resultEffects s (execTakeTimerExpiry tag s) := by
  refine taken_does ?_
  split
  · exact .refl s
  · split
    · exact .refl s
    · exact timeout_reach s _ _ hd

theorem execResultTimerExpiry_does (tag : Nat) (s : State) (hd : Q → s.TagsDistinct) : Does Q resultEffects s (execResultTimerExpiry tag s) := by
  refine taken_does ?_
  split
  · exact .refl s
  · split
    · exact timeout_reach s _ _ hd
    · exact .refl s

/-! ## The franking state -/

theorem execHold_does (h : ReqHead) (s : State) : Does Q [.causes, .waiting, .lineRecord] s (execHold h s) := by
  refine taken_does (request_reach (by decide) (by decide) fun _ => ?_)
  have h1 : Reach Q [.causes, .waiting, .lineRecord] s (s.setCauses { s.causes with operator := true }) :=
    (setCauses_reach s { s.causes with operator := true } rfl).mono (by decide)
  simp only
  split
  · exact h1.trans ((accept_reach _ _ _ _).mono (by decide))
  · exact h1.trans (.one (.waiting _ (State.resetWait _) _) (by decide))

theorem execHoldReply_does (s : State) : Does Q [.lineRecord, .waiting] s (execHoldReply s) := by
  refine taken_does ?_
  split
  · exact answerHolds_reach s
  · exact .refl s

theorem execResume_does (h : ReqHead) (s : State) (hd : Q → s.TagsDistinct) : Does Q (.causes :: commitEffects) s (execResume h s) := by
  refine taken_does (request_reach (by decide) (by decide) fun _ => ?_)
  split
  · have h1 (r : Results) := Reach.trans (Reach.mono (K' := .causes :: commitEffects) (setCauses_reach (Q := Q) s s.causes.resumed rfl) (by decide))
      ((accept_reach _ h.number .resume r).mono (by decide))
    exact (h1 _).trans ((passRunning_reach _ _ fun q => (h1 _).distinct (hd q)).mono (by decide))
  · exact (refuse_reach _ _ _ _ _).mono (by decide)

theorem execClearHalt_does (h : ReqHead) (s : State) : Does Q [.holdAnew, .lineRecord] s (execClearHalt h s) := by
  refine taken_does (request_reach (by decide) (by decide) fun _ => ?_)
  split
  · exact (refuse_reach _ _ _ _ _).mono (by decide)
  · rename_i hh
    split
    · exact (refuse_reach _ _ _ _ _).mono (by decide)
    · exact (Reach.one (K := [.holdAnew, .lineRecord]) (.holdAnew s (.inr (.inr (not_not.1 hh)))) (by decide)).trans
        ((accept_reach _ _ _ _).mono (by decide))

theorem execFetchCapture_does (h : ReqHead) (s : State) : Does Q [.capture, .lineRecord] s (execFetchCapture h s) :=
  taken_does (request_reach (by decide) (by decide) fun _ =>
    (Reach.one (K := [.capture, .lineRecord]) (.capture s none) (by decide)).trans ((accept_reach _ _ _ _).mono (by decide)))

theorem execPfwAssert_does (s : State) : Does Q [.warning] s (execPfwAssert s) := by
  refine ⟨_, rfl, ?_⟩
  exact .one (.warning s true) (by decide)

theorem execPfwRelease_does (s : State) (hd : Q → s.TagsDistinct) : Does Q (.warning :: commitEffects) s (execPfwRelease s) := by
  refine ⟨_, rfl, ?_⟩
  have h1 := Reach.one (Q := Q) (K := .warning :: commitEffects) (.warning s false) (by decide)
  by_cases hp : s.power = .on
  · rw [if_pos hp] at h1
    rw [if_pos (show _ = _ from hp)]
    exact h1.trans ((passRunning_reach _ _ fun q => h1.distinct (hd q)).mono (by decide))
  · rw [if_neg hp] at h1
    rw [if_neg (show ¬_ from hp)]
    exact h1

/-! ## The notice unit -/

theorem clearPending_reach (s : State) (c : Fin 8) (ch : Channel) (hp : ch.pending = false) (hu : ch.underService = s.channels[c].underService) :
    Reach Q [.notice] s { s with channels := s.channels.set c ch } := by
  refine .one (.notice s _ s.gne s.gneSaved fun h k => ?_) (by decide)
  have hun : ∀ j : Fin 8, (s.channels.set c ch)[j].underService = s.channels[j].underService := fun j => by
    by_cases hj : (c : Nat) = j
    · have : c = j := Fin.ext hj
      subst this
      simpa using hu
    · simp [hj]
  by_cases hk : (c : Nat) = k
  · have : c = k := Fin.ext hk
    subst this
    simp [State.channelReady, hp]
  · have hs : (s.channels.set c ch)[k] = s.channels[k] := by simp [hk]
    have hub : State.unblocked { s with channels := s.channels.set c ch } k = s.unblocked k := by
      unfold State.unblocked
      exact List.all_congr rfl fun j => by rw [hun j]
    have := h k
    unfold State.channelReady at this ⊢
    rw [hub]
    simpa only [hs] using this

theorem consumeReported_reach (s : State) : Reach Q [.notice] s s.consumeReported := by
  unfold State.consumeReported
  split
  · exact .refl s
  · exact clearPending_reach s _ _ rfl rfl

theorem execStatus_does (h : ReqHead) (s : State) : Does Q [.notice, .lineRecord] s (execStatus h s) :=
  taken_does (request_reach (by decide) (by decide) fun _ => (consumeReported_reach s).andThen (accept_reach _ _ _ _) (by decide) (by decide))

theorem execPeek_does (h : ReqHead) (s : State) : Does Q [.lineRecord] s (execPeek h s) :=
  taken_does (request_reach (by decide) (by decide) fun _ => accept_reach _ _ _ _)

/-- A change of the channels, its reply, then the sending test. -/
theorem noticedReply_reach (s : State) (cs : Vector Channel 8) (g gs : Bool) (number : Nat) (k : RequestKind) (r : Results) :
    Reach Q [.lineRecord, .notice] s
      (State.sendingTest (State.accept { s with channels := cs, gne := g, gneSaved := gs } number k r)) :=
  (accept_reach s number k r).andThen (noticed_reach (s.accept number k r) cs g gs) (by decide) (by decide)

theorem execNoticeEnable_does (h : ReqHead) (value mask : Flags16) (s : State) :
    Does Q [.lineRecord, .notice] s (execNoticeEnable h value mask s) :=
  taken_does (request_reach (by decide) (by decide) fun _ => noticedReply_reach s _ _ _ _ _ _)

theorem execEndOfService_does (h : ReqHead) (s : State) : Does Q [.lineRecord, .notice] s (execEndOfService h s) := by
  refine taken_does (request_reach (by decide) (by decide) fun _ => ?_)
  split
  · exact (refuse_reach _ _ _ _ _).mono (by decide)
  · exact noticedReply_reach s _ _ _ _ _ _

theorem execNotice_does (s : State) : Does Q [.lineRecord, .notice] s (execNotice s) := taken_does (sendingTest_reach s)

/-! ## The line port -/

theorem configure_reach (s : State) (number : Nat) (v : ConfigureFields) (mode : NoticeMode) (hd : Q → s.TagsDistinct) :
    Reach Q (.settings :: .configured :: commitEffects) s (s.configure number v mode) := by
  have h1 : Reach Q (.settings :: .configured :: commitEffects) s
      { s with settings := .ofFields v mode, franking := s.franking.configured s.causes } :=
    (Reach.one (.settings s v mode) (by decide)).trans
      (Reach.one (.configured { s with settings := .ofFields v mode }) (by decide))
  have h2 (c : Bool) (r : Results) := h1.trans (u := State.acceptClamped _ number .configure c r) ((acceptClamped_reach _ _ _ _ _).mono (by decide))
  have h3 (c : Bool) (r : Results) : Reach Q (.settings :: .configured :: commitEffects) s
      (if s.settings.noticeMode ≠ mode then
        (State.acceptClamped { s with settings := .ofFields v mode, franking := s.franking.configured s.causes } number .configure c r).sendingTest
      else State.acceptClamped { s with settings := .ofFields v mode, franking := s.franking.configured s.causes } number .configure c r) := by
    split
    · exact (h2 _ _).trans ((sendingTest_reach _).mono (by decide))
    · exact h2 _ _
  unfold State.configure
  simp only
  generalize hm : (if s.settings.noticeMode ≠ mode then _ else _ : State) = m
  have h4 : Reach Q (.settings :: .configured :: commitEffects) s m := hm ▸ h3 _ _
  split
  · exact h4.trans ((commitTest_reach _ fun q => h4.distinct (hd q)).mono (by decide))
  · exact h4.trans ((passRunning_reach _ _ fun q => h4.distinct (hd q)).mono (by decide))

theorem execConfigure_does (h : ReqHead) (v : ConfigureFields) (s : State) (hd : Q → s.TagsDistinct) :
    Does Q (.settings :: .configured :: commitEffects) s (execConfigure h v s) := by
  refine taken_does (request_reach (by decide) (by decide) fun _ => ?_)
  split
  · exact (refuse_reach _ _ _ _ _).mono (by decide)
  · exact configure_reach s _ _ _ hd

/-- The kinds of change of a line reset. -/
abbrev lineResetEffects : List Effect :=
  [.cleared, .slotMark, .mark, .notice, .pend, .holdAnew, .waiting, .lineRecord]

theorem resetFranking_reach (s : State) : Reach Q [.holdAnew] s s.resetFranking := by
  unfold State.resetFranking
  split
  · rename_i h; exact .one (.holdAnew s (.inl h)) (by decide)
  · rename_i h; exact .one (.holdAnew s (.inr (.inl h))) (by decide)
  all_goals exact .refl s

theorem resetChannels_reach (s : State) : Reach Q [.notice] s { s with channels := s.channels.map Channel.lineReset } := by
  refine .one (.notice s _ s.gne s.gneSaved fun _ c => ?_) (by decide)
  simp [State.channelReady, Channel.lineReset]

/-- A line reset's work on the slot, the orders and the lists: the slot marked first, then the lists emptied and the orders closed. -/
theorem resetLists_reach (s : State) :
    let t := State.resetOrders { s with pieces := [], jobs := [] }
    Reach Q lineResetEffects s { t with slot := t.slot.map CommitSlot.resetMarked } := by
  obtain ⟨h1, h2, h3, _, h5⟩ := closesFor_spec .spoil .lineReset s.orders { s with pieces := [], jobs := [] }
  have hform := h1 []
  refine (Reach.one (Q := Q) (K := lineResetEffects) (.slotMark s) (by decide)).trans ?_
  unfold State.resetOrders
  rw [hform]
  refine .one (.cleared { s with slot := s.slot.map CommitSlot.resetMarked } _ (fun c hc hp => ?_) (fun w hw => ?_) (fun n hn => ?_) h3
    fun o ho => h5 o ho) (by decide)
  · obtain ⟨x, _, rfl⟩ := Option.map_eq_some_iff.1 hc
    unfold CommitSlot.resetMarked at hp ⊢
    split at hp
    · rfl
    · rename_i he; rw [he] at hp; cases hp
  · obtain ⟨o, _, rfl, _⟩ := h2 w hw
    exact ⟨_, _, _, rfl⟩
  · obtain ⟨w, hw, hwn⟩ := List.mem_filterMap.1 hn
    obtain ⟨o, _, rfl, hc⟩ := h2 w hw
    cases hwn
    exact hc

theorem resetLine_reach (s : State) : Reach Q lineResetEffects s s.resetLine := by
  unfold State.resetLine
  simp only
  refine Reach.trans ?_ ((resetFranking_reach _).mono (by decide))
  refine (resetLists_reach s).trans ?_
  generalize State.resetOrders _ = m
  exact (((Reach.one (K := lineResetEffects) (.mark { m with slot := m.slot.map CommitSlot.resetMarked } none) (by decide)).trans
    ((resetChannels_reach _).mono (by decide))).trans (.one (.pend _ none (by simp)) (by decide)))

theorem execLineReset_does (h : ReqHead) (s : State) : Does Q lineResetEffects s (execLineReset h s) := by
  refine taken_does (request_reach (by decide) (by decide) fun _ => ?_)
  split
  · exact (refuse_reach _ _ _ _ _).mono (by decide)
  · exact ((resetLine_reach s).trans (.one (.waiting _ _ (State.holdWaiting _)) (by decide))).trans ((answerReset_reach _).mono (by decide))

theorem execLineResetReply_does (s : State) : Does Q [.lineRecord, .waiting] s (execLineResetReply s) := taken_does (answerReset_reach s)

theorem execIdentify_does (h : ReqHead) (s : State) : Does Q [.lineRecord] s (execIdentify h s) :=
  taken_does (request_reach (by decide) (by decide) fun _ => accept_reach _ _ _ _)

theorem execUnknownRequest_does (number kind : Nat) (s : State) : Does Q [.lineRecord] s (execUnknownRequest number kind s) :=
  taken_does (refuse_reach s _ _ _ _)

theorem execUnknownRecord_does (link : Link) (kind len : Nat) (s : State) : Does Q [.counter] s (execUnknownRecord link kind len s) :=
  taken_does (.one (.counter s _) (by decide))

theorem execDiscardedFrame_does (link : Link) (s : State) : Does Q [.counter] s (execDiscardedFrame link s) :=
  taken_does (.one (.counter s _) (by decide))

theorem execRecordTransmit_does (link : Link) (s : State) : Does Q [.lineRecord, .printRecord] s (execRecordTransmit link s) := by
  refine taken_does ?_
  split
  · unfold State.transmitLine
    split
    · exact .refl s
    · exact .one (.lineRecord s _) (by decide)
  · unfold State.transmitPrint
    split
    · exact .refl s
    · exact .one (.printRecord s _) (by decide)

/-! ## Power -/

/-- What settling the write under way does to the accounts (R100): its whole effect, or none. -/
theorem settleWrite_form (s : State) :
    ∃ a i, (a = s.accounts ∨ ∃ w rest, s.queue = w :: rest ∧ s.writeBegun = true ∧ a = s.accounts.apply s.mailingDate w) ∧
      s.settleWrite = { s with accounts := a, freeIndex := i, queue := [], writeBegun := false } := by
  unfold State.settleWrite
  split
  · rename_i w rest hb hq
    by_cases hk : Config.writeKept s.freeIndex = true
    · exact ⟨_, s.freeIndex + 1, .inr ⟨w, rest, hq, hb, rfl⟩, by rw [if_pos hk]⟩
    · exact ⟨_, s.freeIndex + 1, .inl rfl, by rw [if_neg hk]⟩
  · exact ⟨_, _, .inl rfl, rfl⟩

theorem execResetAssert_does (s : State) : Does Q [.stopped, .lost] s (execResetAssert s) := by
  refine ⟨_, rfl, ?_⟩
  have h1 := Reach.one (Q := Q) (K := [.stopped, .lost]) (.stopped s) (by decide)
  generalize { s with pins := { s.pins with reset := true } } = m at h1
  simp only
  split
  · rename_i hp
    obtain ⟨a, i, ha, hs⟩ := settleWrite_form m
    have h2 := h1.trans (.one (.lost m a i ha) (by decide))
    rw [if_neg (by rw [hp]; simp)] at h2
    rw [hs]
    exact h2
  · exact h1
  · exact h1

theorem settled_volatileLost (s : State) (p : Power) :
    ∃ t, Reach Q [.lost] s t ∧ s.settleWrite.volatileLost p = t.volatileLost p := by
  obtain ⟨a, i, ha, hs⟩ := settleWrite_form s
  exact ⟨_, .one (.lost s a i ha) (by decide), by rw [hs]; rfl⟩

theorem execPowerLoss_does (s : State) : Does Q [.lost, .unpowered] s (execPowerLoss s) := by
  obtain ⟨t, ht, he⟩ := settled_volatileLost s .off
  refine ⟨_, rfl, ?_⟩
  rw [he]
  exact (ht.mono (by decide)).trans (.one (.unpowered t) (by decide))

theorem execPowerOn_does (service : Bool) (s : State) : Does Q [.lost, .poweredOn] s (execPowerOn service s) := by
  obtain ⟨t, ht, he⟩ := settled_volatileLost s .on
  refine ⟨_, rfl, ?_⟩
  have : s.powerOn service = (t.volatileLost .on).started service := by unfold State.powerOn; rw [he]; rfl
  rw [this]
  exact (ht.mono (by decide)).trans (.one (.poweredOn t service) (by decide))

end Sys2Proof.Machine
end

