-- ==== Sys2Proof/Laws/Framer.lean ====
section
/-! SUPPORT. What the receive framer does with a run of bytes (R190), said once without the bound of `Framer.feedAll`, and what the bytes of a run
put in the queue of commands. -/

namespace Sys2Proof.Machine

/-- The bytes leave the framer as it ends and complete the events, in turn; the bytes of a discarded frame but for its SYNC are looked at again. -/
inductive Feeds : Framer → List Byte → Framer → List FrameEvent → Prop where
  | nil (f : Framer) : Feeds f [] f []
  | quiet {f f' g : Framer} {b : Byte} {bs : List Byte} {es : List FrameEvent} (h : f.feed b = (f', none)) (hr : Feeds f' bs g es) :
      Feeds f (b :: bs) g es
  | record {f f' g : Framer} {b : Byte} {bs : List Byte} {es : List FrameEvent} {k : Nat} {p : List Byte}
      (h : f.feed b = (f', some (.record k p))) (hr : Feeds f' bs g es) : Feeds f (b :: bs) g (.record k p :: es)
  | discarded {f f' g : Framer} {b : Byte} {bs again : List Byte} {es : List FrameEvent} (h : f.feed b = (f', some (.discarded again)))
      (hr : Feeds f' (again ++ bs) g es) : Feeds f (b :: bs) g (.discarded again :: es)

/-- Two runs of bytes, one after the other. -/
theorem Feeds.append {f g h : Framer} {bs cs : List Byte} {es es' : List FrameEvent} (h1 : Feeds f bs g es) (h2 : Feeds g cs h es') :
    Feeds f (bs ++ cs) h (es ++ es') := by
  induction h1 with
  | nil => exact h2
  | quiet hf _ ih => exact .quiet hf (ih h2)
  | record hf _ ih => exact .record hf (ih h2)
  | discarded hf _ ih => exact .discarded hf (by simpa [List.append_assoc] using ih h2)

/-- What a framer holds: nothing in HUNT and LENGTH; LEN and what has been collected in BODY and CHECK. -/
structure Framer.Holds (f : Framer) : Prop where
  hunting : f.phase = .hunt → f.bytes = []
  starting : f.phase = .length → f.bytes = []
  collecting : f.phase = .body → 1 ≤ f.bytes.length ∧ f.bytes.length ≤ f.len + 1 ∧ f.len ≤ Config.maxPayload
  checking : f.phase = .check → f.len + 2 ≤ f.bytes.length ∧ f.bytes.length ≤ f.len + 3 ∧ f.len ≤ Config.maxPayload

theorem Framer.idle_holds : Framer.idle.Holds := ⟨fun _ => rfl, fun h => (nomatch h), fun h => (nomatch h), fun h => (nomatch h)⟩

theorem Framer.Holds.bound {f : Framer} (h : f.Holds) : f.bytes.length ≤ 63 := by
  have hm : Config.maxPayload = 60 := rfl
  cases hp : f.phase with
  | hunt => rw [h.hunting hp]; exact Nat.zero_le _
  | length => rw [h.starting hp]; exact Nat.zero_le _
  | body => have := h.collecting hp; omega
  | check => have := h.checking hp; omega

theorem Framer.len_append {f : Framer} (h : 1 ≤ f.bytes.length) (ph : FramerPhase) (b : Byte) : Framer.len { phase := ph, bytes := f.bytes ++ [b] } = f.len := by
  unfold Framer.len
  cases hb : f.bytes with
  | nil => rw [hb] at h; cases h
  | cons x xs => rfl

/-- One byte: what the framer holds after it, and the bytes that a discard gives back, which are those held and the byte itself. -/
theorem Framer.feed_spec {f : Framer} (h : f.Holds) (b : Byte) :
    (f.feed b).1.Holds ∧
      (∀ e, (f.feed b).2 = some e → (f.feed b).1 = .idle ∧ f.phase ≠ .hunt ∧ ∀ again, e = .discarded again → again = f.bytes ++ [b]) ∧
      ((f.feed b).2 = none → f.phase ≠ .hunt → (f.feed b).1.phase ≠ .hunt ∧ (f.feed b).1.bytes.length ≤ f.bytes.length + 1) := by
  unfold Framer.feed
  cases hp : f.phase with
  | hunt =>
    simp only
    split
    · exact ⟨⟨fun h => (nomatch h), fun _ => rfl, fun h => (nomatch h), fun h => (nomatch h)⟩, fun e he => (nomatch he), fun _ hn => absurd rfl hn⟩
    · exact ⟨Framer.idle_holds, fun e he => (nomatch he), fun _ hn => absurd rfl hn⟩
  | length =>
    have h0 := h.starting hp
    simp only
    split
    · refine ⟨Framer.idle_holds, fun e he => ⟨rfl, by simp, fun again ha => ?_⟩, fun hn => (nomatch hn)⟩
      cases he; cases ha
      rw [h0]; rfl
    · rename_i hle
      refine ⟨⟨fun h => (nomatch h), fun h => (nomatch h), fun _ => ⟨le_refl _, ?_, ?_⟩, fun h => (nomatch h)⟩, fun e he => (nomatch he),
        fun _ _ => ⟨by simp, by rw [h0]; exact le_refl _⟩⟩
      · show 1 ≤ b.toNat + 1; omega
      · show b.toNat ≤ Config.maxPayload; omega
  | body =>
    obtain ⟨h1, h2, h3⟩ := h.collecting hp
    have hl := fun ph => Framer.len_append h1 ph b
    have hlen : (f.bytes ++ [b]).length = f.bytes.length + 1 := by simp
    simp only
    refine ⟨⟨fun h => ?_, fun h => ?_, fun h => ?_, fun h => ?_⟩, fun e he => (nomatch he), fun _ _ => ⟨?_, le_of_eq hlen⟩⟩
    · simp only at h; split at h <;> cases h
    · simp only at h; split at h <;> cases h
    · simp only at h
      split at h
      · cases h
      · rename_i hn
        rw [hl]
        show 1 ≤ (f.bytes ++ [b]).length ∧ (f.bytes ++ [b]).length ≤ f.len + 1 ∧ _
        rw [hlen] at hn ⊢
        omega
    · simp only at h
      split at h
      · rename_i hn
        rw [hl]
        show f.len + 2 ≤ (f.bytes ++ [b]).length ∧ (f.bytes ++ [b]).length ≤ f.len + 3 ∧ _
        rw [hlen] at hn ⊢
        omega
      · cases h
    · split <;> simp
  | check =>
    obtain ⟨h1, h2, h3⟩ := h.checking hp
    have hl := Framer.len_append (f := f) (by omega) .check b
    have hlen : (f.bytes ++ [b]).length = f.bytes.length + 1 := by simp
    simp only
    split
    · refine ⟨Framer.idle_holds, fun e he => ⟨rfl, by simp, fun again ha => ?_⟩, fun hn => (nomatch hn)⟩
      cases he
      unfold Framer.conclude at ha
      dsimp only at ha
      split at ha
      · cases ha
      · cases ha; rfl
    · rename_i hn
      refine ⟨⟨fun h => (nomatch h), fun h => (nomatch h), fun h => (nomatch h), fun _ => ?_⟩, fun e he => (nomatch he),
        fun _ _ => ⟨by simp, le_of_eq hlen⟩⟩
      rw [hl]
      show f.len + 2 ≤ (f.bytes ++ [b]).length ∧ (f.bytes ++ [b]).length ≤ f.len + 3 ∧ _
      rw [hlen] at hn ⊢
      omega

/-- A bound on the bytes looked at, those looked at again counted: n (n + 1) / 2 for n bytes from HUNT. -/
def triangle : Nat → Nat
  | 0 => 0
  | n + 1 => (n + 1) + triangle n

theorem triangle_mono {m n : Nat} (h : m ≤ n) : triangle m ≤ triangle n := by
  induction h with
  | refl => exact le_refl _
  | step _ ih => exact ih.trans (Nat.le_add_left _ _)

/-- The bound for a framer that holds what it holds. -/
def Framer.cost (f : Framer) (bs : List Byte) : Nat :=
  if f.phase = .hunt then triangle bs.length else bs.length + triangle (f.bytes.length + bs.length)

theorem Framer.cost_idle (bs : List Byte) : Framer.idle.cost bs = triangle bs.length := if_pos rfl

/-- A byte that completes nothing lowers the bound. -/
theorem Framer.cost_quiet {f : Framer} (h : f.Holds) {b : Byte} {bs : List Byte} (hn : (f.feed b).2 = none) :
    (f.feed b).1.cost bs + 1 ≤ f.cost (b :: bs) := by
  obtain ⟨hh, _, hq⟩ := Framer.feed_spec h b
  by_cases hp : f.phase = .hunt
  · have hc : f.cost (b :: bs) = (bs.length + 1) + triangle bs.length := by unfold Framer.cost; rw [if_pos hp]; rfl
    have h0 : (f.feed b).1.bytes = [] := by
      unfold Framer.feed
      rw [hp]
      simp only
      split <;> rfl
    rw [hc]
    unfold Framer.cost
    rw [h0]
    split
    · omega
    · simp only [List.length_nil, Nat.zero_add]; omega
  · obtain ⟨h1, h2⟩ := hq hn hp
    unfold Framer.cost
    rw [if_neg h1, if_neg hp, List.length_cons]
    have := triangle_mono (show (f.feed b).1.bytes.length + bs.length ≤ f.bytes.length + (bs.length + 1) by omega)
    omega

/-- A byte that completes a record lowers the bound, and one that completes a discarded frame does with the bytes given back. -/
theorem Framer.cost_event {f : Framer} (h : f.Holds) {b : Byte} {bs : List Byte} {e : FrameEvent} (he : (f.feed b).2 = some e) :
    (f.feed b).1.cost bs + 1 ≤ f.cost (b :: bs) ∧ ∀ again, e = .discarded again → (f.feed b).1.cost (again ++ bs) + 1 ≤ f.cost (b :: bs) := by
  obtain ⟨_, hs, _⟩ := Framer.feed_spec h b
  obtain ⟨hi, hp, ha⟩ := hs e he
  have hc : f.cost (b :: bs) = (bs.length + 1) + triangle (f.bytes.length + (bs.length + 1)) := by unfold Framer.cost; rw [if_neg hp]; rfl
  rw [hi, hc]
  refine ⟨?_, fun again hag => ?_⟩
  · rw [Framer.cost_idle]
    have := triangle_mono (show bs.length ≤ f.bytes.length + (bs.length + 1) by omega)
    omega
  · rw [Framer.cost_idle, ha again hag]
    have : (f.bytes ++ [b] ++ bs).length = f.bytes.length + (bs.length + 1) := by simp
    rw [this]
    omega

/-- Every run of bytes feeds the framer, to what `Framer.feedAll` gives when its bound is enough. -/
theorem Framer.feedAll_feeds (fuel : Nat) (f : Framer) (bs : List Byte) (h : f.Holds) (hf : f.cost bs ≤ fuel) :
    Feeds f bs (Framer.feedAll fuel f bs).1 (Framer.feedAll fuel f bs).2 ∧ (Framer.feedAll fuel f bs).1.Holds := by
  induction fuel generalizing f bs with
  | zero =>
    cases bs with
    | nil => exact ⟨.nil f, h⟩
    | cons b bs =>
      unfold Framer.cost triangle at hf
      split at hf <;> simp at hf
  | succ fuel ih =>
    cases bs with
    | nil => exact ⟨.nil f, h⟩
    | cons b bs =>
      have hh := (Framer.feed_spec h b).1
      unfold Framer.feedAll
      split
      · rename_i f' hfe
        have hc := Framer.cost_quiet h (bs := bs) (congrArg Prod.snd hfe)
        rw [hfe] at hc hh
        obtain ⟨h1, h2⟩ := ih f' bs hh (by simp only at hc; omega)
        exact ⟨.quiet hfe h1, h2⟩
      · rename_i f' k p hfe
        have hc := (Framer.cost_event h (bs := bs) (congrArg Prod.snd hfe)).1
        rw [hfe] at hc hh
        obtain ⟨h1, h2⟩ := ih f' bs hh (by simp only at hc; omega)
        exact ⟨.record hfe h1, h2⟩
      · rename_i f' again hfe
        have hc := (Framer.cost_event h (bs := bs) (congrArg Prod.snd hfe)).2 again rfl
        rw [hfe] at hc hh
        obtain ⟨h1, h2⟩ := ih f' (again ++ bs) hh (by simp only at hc; omega)
        exact ⟨.discarded hfe h1, h2⟩

/-- A run of bytes has one outcome. -/
theorem Feeds.unique {f g g' : Framer} {bs : List Byte} {es es' : List FrameEvent} (h : Feeds f bs g es) (h' : Feeds f bs g' es') :
    g = g' ∧ es = es' := by
  induction h generalizing g' es' with
  | nil => cases h'; exact ⟨rfl, rfl⟩
  | quiet hf _ ih =>
    cases h' with
    | quiet hf' h' => cases hf.symm.trans hf'; exact ih h'
    | record hf' _ => cases hf.symm.trans hf'
    | discarded hf' _ => cases hf.symm.trans hf'
  | record hf _ ih =>
    cases h' with
    | quiet hf' _ => cases hf.symm.trans hf'
    | record hf' h' =>
      cases hf.symm.trans hf'
      obtain ⟨h1, h2⟩ := ih h'
      exact ⟨h1, congrArg _ h2⟩
    | discarded hf' _ => cases hf.symm.trans hf'
  | discarded hf _ ih =>
    cases h' with
    | quiet hf' _ => cases hf.symm.trans hf'
    | record hf' _ => cases hf.symm.trans hf'
    | discarded hf' h' =>
      cases hf.symm.trans hf'
      obtain ⟨h1, h2⟩ := ih h'
      exact ⟨h1, congrArg _ h2⟩

@[simp] theorem State.framer_setFramer (s : State) (link : Link) (f : Framer) : (s.setFramer link f).framer link = f := by cases link <;> rfl

/-- The part after the bytes of a run: the framer of the link, and the commands that the bytes completed at the end of the queue. -/
def State.fed (s : State) (link : Link) (g : Framer) (es : List FrameEvent) : State :=
  { s.setFramer link g with pending := s.pending ++ es.map (decodeEvent link) }

/-- Bytes received one by one while the part works do what the run of them does. -/
theorem State.receive_run {s : State} (hp : s.power = .on) {link : Link} {bs : List Byte} (h : (s.framer link).Holds) :
    ∃ g es, Feeds (s.framer link) bs g es ∧ g.Holds ∧ bs.foldl (fun u b => u.receive link b) s = s.fed link g es := by
  induction bs generalizing s with
  | nil =>
    refine ⟨s.framer link, [], .nil _, h, ?_⟩
    unfold State.fed
    cases link <;> simp [State.setFramer, State.framer]
  | cons b bs ih =>
    have hcost : (s.framer link).cost [b] ≤ receiveFuel := by
      have hb := h.bound
      unfold Framer.cost
      split
      · exact (by decide : triangle 1 ≤ receiveFuel)
      · have hm := triangle_mono (show (s.framer link).bytes.length + 1 ≤ 64 by omega)
        have ht : triangle 64 = 2080 := by decide
        show 1 + triangle ((s.framer link).bytes.length + 1) ≤ 4096
        omega
    obtain ⟨h1, h2⟩ := Framer.feedAll_feeds receiveFuel (s.framer link) [b] h hcost
    have hr : s.receive link b = s.fed link (Framer.feedAll receiveFuel (s.framer link) [b]).1 (Framer.feedAll receiveFuel (s.framer link) [b]).2 := by
      unfold State.receive
      rw [if_pos hp]
      rfl
    generalize (Framer.feedAll receiveFuel (s.framer link) [b]).1 = f1, (Framer.feedAll receiveFuel (s.framer link) [b]).2 = e1 at h1 h2 hr
    have hfr : (s.fed link f1 e1).framer link = f1 := by unfold State.fed; cases link <;> rfl
    obtain ⟨g, es, h3, h4, h5⟩ := ih (s := s.fed link f1 e1) (by unfold State.fed; cases link <;> exact hp) (hfr.symm ▸ h2)
    rw [hfr] at h3
    refine ⟨g, e1 ++ es, Feeds.append h1 h3, h4, ?_⟩
    rw [List.foldl_cons, hr, h5]
    unfold State.fed
    cases link <;> simp [State.setFramer]

/-- Bytes received one by one, where the run of them is known. -/
theorem State.receive_feeds {s : State} (hp : s.power = .on) {link : Link} {bs : List Byte} (h : (s.framer link).Holds) {g : Framer}
    {es : List FrameEvent} (hf : Feeds (s.framer link) bs g es) : bs.foldl (fun u b => u.receive link b) s = s.fed link g es := by
  obtain ⟨g', es', h1, _, h2⟩ := State.receive_run hp (bs := bs) h
  obtain ⟨rfl, rfl⟩ := hf.unique h1
  exact h2

/-! ## The bytes of one frame -/

/-- The bytes of BODY, one by one. -/
theorem Feeds.body {f : Framer} (hp : f.phase = .body) (h1 : 1 ≤ f.bytes.length) {bs : List Byte} (hl : f.bytes.length + bs.length = f.len + 2)
    (hb : bs ≠ []) : Feeds f bs { phase := .check, bytes := f.bytes ++ bs } [] := by
  induction bs generalizing f with
  | nil => exact absurd rfl hb
  | cons b bs ih =>
    have hfe : f.feed b = ({ phase := if (f.bytes ++ [b]).length = f.len + 2 then .check else .body, bytes := f.bytes ++ [b] }, none) := by
      unfold Framer.feed; rw [hp]
    cases bs with
    | nil =>
      rw [if_pos (by simpa using hl)] at hfe
      exact .quiet hfe (.nil _)
    | cons c cs =>
      rw [if_neg (by simp at hl ⊢; omega)] at hfe
      have := ih (f := { phase := .body, bytes := f.bytes ++ [b] }) rfl (by simp) (by rw [Framer.len_append h1]; simp at hl ⊢; omega) (by simp)
      rw [show f.bytes ++ b :: c :: cs = f.bytes ++ [b] ++ c :: cs by simp]
      exact .quiet hfe this

/-- A whole frame from HUNT up to its last byte: SYNC, LEN, KIND and the payload, and the first check byte. -/
theorem Feeds.frame {payload : List Byte} (hl : payload.length ≤ 60) (kind c : Byte) :
    Feeds Framer.idle (Config.sync :: BitVec.ofNat 8 payload.length :: kind :: payload ++ [c])
      { phase := .check, bytes := BitVec.ofNat 8 payload.length :: kind :: payload ++ [c] } [] := by
  have hn : (BitVec.ofNat 8 payload.length).toNat = payload.length := by rw [BitVec.toNat_ofNat]; exact Nat.mod_eq_of_lt (by omega)
  have hmax : Config.maxPayload = 60 := rfl
  refine .quiet (f' := { phase := .length, bytes := [] }) rfl (.quiet (f' := { phase := .body, bytes := [BitVec.ofNat 8 payload.length] }) ?_ ?_)
  · unfold Framer.feed
    simp only
    rw [if_neg (by rw [hn]; omega)]
  · have hb := Feeds.body (f := { phase := .body, bytes := [BitVec.ofNat 8 payload.length] }) rfl (by simp) (bs := kind :: payload)
      (by simp [Framer.len, hn]; omega) (List.cons_ne_nil _ _)
    refine hb.append (es' := []) (.quiet ?_ (.nil _))
    unfold Framer.feed
    simp only
    rw [if_neg (by simp [Framer.len]; omega)]
    rfl

/-- The last check byte of a frame whose check matches completes its record, and one that does not match a discarded frame. -/
theorem Framer.feed_last {payload : List Byte} (hl : payload.length ≤ 60) (kind c d : Byte) :
    Framer.feed { phase := .check, bytes := BitVec.ofNat 8 payload.length :: kind :: payload ++ [c] } d =
      (.idle, some (if be 2 (frameCheck (BitVec.ofNat 8 payload.length :: kind :: payload)).toNat = [c, d] then .record kind.toNat payload
        else .discarded (BitVec.ofNat 8 payload.length :: kind :: payload ++ [c, d]))) := by
  have hn : (BitVec.ofNat 8 payload.length).toNat = payload.length := by rw [BitVec.toNat_ofNat]; exact Nat.mod_eq_of_lt (by omega)
  have happ : BitVec.ofNat 8 payload.length :: kind :: payload ++ [c] ++ [d] = BitVec.ofNat 8 payload.length :: kind :: payload ++ [c, d] := by simp
  unfold Framer.feed
  simp only
  rw [if_pos (by simp [Framer.len, hn]), happ]
  unfold Framer.conclude
  have hdrop : (BitVec.ofNat 8 payload.length :: kind :: payload ++ [c, d]).dropLast.dropLast = BitVec.ofNat 8 payload.length :: kind :: payload := by
    rw [← happ, List.dropLast_concat, List.dropLast_concat]
  simp only
  rw [hdrop, List.drop_left]
  rfl

/-! ## Numbers written and read back (R197) -/

@[simp] theorem be_length (w v : Nat) : (be w v).length = w := by
  induction w with
  | zero => rfl
  | succ w ih => simp [be, ih]

/-- The bytes of a number hold its value, most significant byte first. -/
theorem foldl_be_mod (w v a : Nat) : (be w v).foldl (fun v (b : Byte) => v * 256 + b.toNat) a = a * 256 ^ w + v % 256 ^ w := by
  induction w generalizing a with
  | zero => simp [be, Nat.mod_one]
  | succ w ih =>
    rw [be, List.foldl_cons, ih, BitVec.toNat_ofNat]
    have h1 : v % 256 ^ (w + 1) = v % 256 ^ w + 256 ^ w * (v / 256 ^ w % 256) := by rw [pow_succ, Nat.mod_mul]
    rw [h1]
    ring

theorem foldl_be (w v a : Nat) (hv : v < 256 ^ w) : (be w v).foldl (fun v (b : Byte) => v * 256 + b.toNat) a = a * 256 ^ w + v := by
  rw [foldl_be_mod, Nat.mod_eq_of_lt hv]

/-- A number that fits its field is read back at the front of what follows it. -/
theorem field_be {w v : Nat} (hv : v < 256 ^ w) (rest : List Byte) : field (be w v ++ rest) 0 w = v := by
  unfold field
  rw [List.drop_zero, List.take_left' (be_length w v), foldl_be w v 0 hv, Nat.zero_mul, Nat.zero_add]

/-- A field behind a prefix is the field of what follows the prefix. -/
theorem field_append {xs : List Byte} (rest : List Byte) {i w : Nat} (h : xs.length ≤ i) : field (xs ++ rest) i w = field rest (i - xs.length) w := by
  unfold field
  rw [List.drop_append, List.drop_eq_nil_of_le h, List.nil_append]

/-- A list of two-byte values behind a prefix is read back. -/
theorem values2_flatMap {pre : List Byte} {i : Nat} (hi : pre.length = i) {vs : List Nat} (h : ∀ v ∈ vs, v < 65536) :
    values2 (pre ++ vs.flatMap (be 2)) i vs.length = vs := by
  induction vs generalizing pre i with
  | nil => rfl
  | cons v vs ih =>
    rw [List.length_cons, values2]
    congr 1
    · rw [field_append _ (le_of_eq hi), hi, Nat.sub_self, List.flatMap_cons, field_be (by simpa using h v (by simp))]
    · have := ih (pre := pre ++ be 2 v) (i := i + 2) (by simp [hi]) fun v hv => h v (by simp [hv])
      rw [List.append_assoc, ← List.flatMap_cons] at this
      exact this

/-- Zone entries behind a prefix, two to a byte, are read back. -/
theorem nibbles_packed {n : Nat} {pre : List Byte} {i : Nat} (hi : pre.length = i) {es : List Nat} (hl : es.length = 2 * n) (h : ∀ v ∈ es, v < 16) :
    nibbles (pre ++ packedNibbles es) i n = es ∧ (packedNibbles es).length = n := by
  induction n generalizing pre i es with
  | zero =>
    cases es with
    | nil => exact ⟨rfl, rfl⟩
    | cons => simp at hl
  | succ n ih =>
    match es, hl with
    | a :: b :: es, hl =>
      have ha := h a (by simp)
      have hb := h b (by simp)
      obtain ⟨h1, h2⟩ := ih (pre := pre ++ be 1 (a * 16 + b)) (i := i + 1) (es := es) (by simp [hi]) (by simp at hl; omega) fun v hv => h v (by simp [hv])
      have hf : field (pre ++ packedNibbles (a :: b :: es)) i 1 = a * 16 + b := by
        rw [packedNibbles, field_append _ (le_of_eq hi), hi, Nat.sub_self, field_be (by simp; omega)]
      refine ⟨?_, by rw [packedNibbles, List.length_append, be_length, h2, Nat.add_comm]⟩
      rw [nibbles, hf]
      rw [List.append_assoc] at h1
      rw [show (a * 16 + b) / 16 = a by omega, show (a * 16 + b) % 16 = b by omega]
      exact congrArg (a :: b :: ·) h1
    | [], hl => simp at hl
    | [a], hl => simp at hl; omega

end Sys2Proof.Machine
end

