-- ==== Sys2Proof/Laws/Steps.lean ====
section
/-! SUPPORT. What a step can do: the kinds of change of every command, and that every command ends in a next state reached by them. -/

namespace Sys2Proof.Machine

variable {Q : Prop}

/-- The kinds of change of each command. -/
def effectsOf : Instr → List Effect
  | .enter _ => .counter :: .causes :: .halt :: enterEffects
  | .dimension _ _ _ _ _ => sensorEffects
  | .weight _ _ _ => sensorEffects
  | .destination _ _ _ _ => sensorEffects
  | .gate _ => sensorEffects
  | .exit _ => sensorEffects
  | .remove _ => removeEffects
  | .lineStatus _ => monitorEffects
  | .configure _ _ => .settings :: .configured :: commitEffects
  | .lineReset _ => lineResetEffects
  | .identify _ => [.lineRecord]
  | .tableBegin _ _ _ => [.loadBegin, .lineRecord]
  | .headerSegment _ _ _ _ _ => segmentEffects
  | .productSegment _ _ _ => segmentEffects
  | .bandTableSegment _ _ _ => segmentEffects
  | .zoneBlockSegment _ _ _ _ => segmentEffects
  | .surchargeSegment _ _ _ => segmentEffects
  | .priceRunSegment _ _ _ => segmentEffects
  | .unknownSegmentGroup _ _ => segmentEffects
  | .tableEnd _ _ => [.loadEnd, .lineRecord, .notice]
  | .bankSwitchImmediate _ _ _ => bankSwitchEffects
  | .bankSwitchAtDate _ _ => bankSwitchEffects
  | .bankSwitchAtJob _ _ => bankSwitchEffects
  | .credit _ _ _ => [.takeCredit, .lineRecord]
  | .date _ _ => .date :: switchEffects
  | .accountQuery _ => [.lineRecord]
  | .jobAdd _ _ => .addJob :: .currentJob :: switchEffects
  | .jobAbort _ _ => [.abort, .lineRecord, .notice]
  | .monitorSet _ _ => [.monitors, .lineRecord]
  | .hold _ => [.causes, .waiting, .lineRecord]
  | .resume _ => .causes :: commitEffects
  | .clearHalt _ => [.holdAnew, .lineRecord]
  | .fetchCapture _ => [.capture, .lineRecord]
  | .status _ => [.notice, .lineRecord]
  | .peek _ => [.lineRecord]
  | .noticeEnable _ _ _ => [.lineRecord, .notice]
  | .endOfService _ => [.lineRecord, .notice]
  | .unknownRequest _ _ => [.lineRecord]
  | .unknownRecord _ _ _ => [.counter]
  | .discardedFrame _ => [.counter]
  | .printerState _ => .printer :: commitEffects
  | .orderTaken _ => [.orders, .counter]
  | .printResult _ _ => resultEffects
  | .takeTimerExpiry _ => resultEffects
  | .resultTimerExpiry _ => resultEffects
  | .pfwAssert => [.warning]
  | .pfwRelease => .warning :: commitEffects
  | .resetAssert => [.stopped, .lost]
  | .powerLoss => [.lost, .unpowered]
  | .powerOn _ => [.lost, .poweredOn]
  | .commitComplete => commitDoneEffects
  | .confirmComplete => closeDoneEffects
  | .voidComplete => closeDoneEffects
  | .spoilComplete => closeDoneEffects
  | .creditComplete => creditDoneEffects
  | .writeBegin => [.begun]
  | .commitStart => commitEffects
  | .gateCommittedCheck => commitEffects
  | .holdReply => [.lineRecord, .waiting]
  | .lineResetReply => [.lineRecord, .waiting]
  | .notice => [.lineRecord, .notice]
  | .recordTransmit _ => [.lineRecord, .printRecord]

/-- Every command ends in a next state, reached by changes of its kinds. -/
theorem exec_does (c : Instr) (s : State) (hd : Q → s.TagsDistinct) : Does Q (effectsOf c) s (exec c s) := by
  cases c with
  | enter a => exact execEnter_does a s hd
  | dimension a b c d e => exact execDimension_does a b c d e s hd
  | weight a b c => exact execWeight_does a b c s hd
  | destination a b c d => exact execDestination_does a b c d s hd
  | gate a => exact execGate_does a s hd
  | exit a => exact execExit_does a s hd
  | remove a => exact execRemove_does a s hd
  | lineStatus a => exact execLineStatus_does a s
  | configure a b => exact execConfigure_does a b s hd
  | lineReset a => exact execLineReset_does a s
  | identify a => exact execIdentify_does a s
  | tableBegin a b c => exact execTableBegin_does a b c s
  | headerSegment => exact segmentRequest_does _ s (writeHeader_keeps _ _ _ _)
  | productSegment => exact segmentRequest_does _ s (writeProduct_keeps _ _)
  | bandTableSegment => exact segmentRequest_does _ s (writeBandTable_keeps _ _)
  | zoneBlockSegment => exact segmentRequest_does _ s (writeZoneBlock_keeps _ _ _)
  | surchargeSegment => exact segmentRequest_does _ s (writeSurcharge_keeps _ _)
  | priceRunSegment => exact segmentRequest_does _ s (writePriceRun_keeps _ _)
  | unknownSegmentGroup => exact execUnknownSegmentGroup_does _ 0 s
  | tableEnd a b => exact execTableEnd_does a b s
  | bankSwitchImmediate a b c => exact execBankSwitchImmediate_does a b c s hd
  | bankSwitchAtDate a b => exact execBankSwitchAtDate_does a b s hd
  | bankSwitchAtJob a b => exact execBankSwitchAtJob_does a b s
  | credit a b c => exact execCredit_does a b c s
  | date a b => exact execDate_does a b s hd
  | accountQuery a => exact execAccountQuery_does a s
  | jobAdd a b => exact execJobAdd_does a b s hd
  | jobAbort a b => exact execJobAbort_does a b s
  | monitorSet a b => exact execMonitorSet_does a b s
  | hold a => exact execHold_does a s
  | resume a => exact execResume_does a s hd
  | clearHalt a => exact execClearHalt_does a s
  | fetchCapture a => exact execFetchCapture_does a s
  | status a => exact execStatus_does a s
  | peek a => exact execPeek_does a s
  | noticeEnable a b c => exact execNoticeEnable_does a b c s
  | endOfService a => exact execEndOfService_does a s
  | unknownRequest a b => exact execUnknownRequest_does a b s
  | unknownRecord a b c => exact execUnknownRecord_does a b c s
  | discardedFrame a => exact execDiscardedFrame_does a s
  | printerState a => exact execPrinterState_does a s hd
  | orderTaken a => exact execOrderTaken_does a s
  | printResult a b => exact execPrintResult_does a b s hd
  | takeTimerExpiry a => exact execTakeTimerExpiry_does a s hd
  | resultTimerExpiry a => exact execResultTimerExpiry_does a s hd
  | pfwAssert => exact execPfwAssert_does s
  | pfwRelease => exact execPfwRelease_does s hd
  | resetAssert => exact execResetAssert_does s
  | powerLoss => exact execPowerLoss_does s
  | powerOn a => exact execPowerOn_does a s
  | commitComplete => exact execCommitComplete_does s hd
  | confirmComplete => exact execConfirmComplete_does s hd
  | voidComplete => exact execVoidComplete_does s hd
  | spoilComplete => exact execSpoilComplete_does s hd
  | creditComplete => exact execCreditComplete_does s hd
  | writeBegin => exact execWriteBegin_does s
  | commitStart => exact execCommitStart_does s hd
  | gateCommittedCheck => exact execGateCommittedCheck_does s hd
  | holdReply => exact execHoldReply_does s
  | lineResetReply => exact execLineResetReply_does s
  | notice => exact execNotice_does s
  | recordTransmit a => exact execRecordTransmit_does a s

/-- One step is the idle step, or changes of the kinds of the command at the front of the queue. -/
theorem step_does (s : State) (hd : Q → s.TagsDistinct) :
    (s.pending = [] ∧ step s = .next s) ∨
      ∃ c rest t, s.pending = c :: rest ∧ step s = .next t ∧ Reach Q (effectsOf c) { s with pending := rest } t := by
  unfold step
  cases hp : s.pending with
  | nil => exact .inl ⟨rfl, rfl⟩
  | cons c rest =>
    obtain ⟨t, ht, hr⟩ := exec_does c { s with pending := rest } hd
    exact .inr ⟨c, rest, t, rfl, ht, hr⟩

/-- A property that no change breaks, and that does not look at the commands that wait, is kept by every step. -/
theorem step_keeps {P : State → Prop} (hq : ∀ s q, P s → P { s with pending := q }) (hc : ∀ {e s t}, Change False e s t → P s → P t) {s t : State}
    (h : step s = .next t) (hs : P s) : P t := by
  rcases step_does (Q := False) s False.elim with ⟨_, h'⟩ | ⟨c, rest, u, _, h', hr⟩
  · cases h'.symm.trans h; exact hs
  · cases h'.symm.trans h
    exact hr.keeps (fun _ hch => hc hch) (hq s rest hs)

/-! ## A part that does not work (R100, R200) -/

/-- The kinds of change of pins and power. -/
abbrev powerEffects : List Effect := [.warning, .lost, .stopped, .unpowered, .poweredOn]

/-- A command that the part has to take is without effect while it does not work. -/
theorem taken_off {s : State} (hp : s.power ≠ .on) (f : State → State) : s.taken f = .next s := by
  unfold State.taken
  rw [if_neg hp]

/-- While the part does not work, only the pins and the power change anything. -/
theorem exec_off {s : State} (hp : s.power ≠ .on) (c : Instr) : Does Q powerEffects s (exec c s) := by
  cases c with
  | pfwAssert => exact (execPfwAssert_does s).mono (by decide)
  | pfwRelease =>
    refine ⟨_, rfl, ?_⟩
    rw [if_neg (show ¬_ from hp)]
    have h1 := Reach.one (Q := Q) (K := powerEffects) (.warning s false) (by decide)
    rw [if_neg hp] at h1
    exact h1
  | resetAssert => exact (execResetAssert_does s).mono (by decide)
  | powerLoss => exact (execPowerLoss_does s).mono (by decide)
  | powerOn service => exact (execPowerOn_does service s).mono (by decide)
  | enter => exact ⟨s, by unfold exec execEnter; exact taken_off hp _, .refl s⟩
  | dimension => exact ⟨s, by unfold exec execDimension; exact taken_off hp _, .refl s⟩
  | weight => exact ⟨s, by unfold exec execWeight; exact taken_off hp _, .refl s⟩
  | destination => exact ⟨s, by unfold exec execDestination; exact taken_off hp _, .refl s⟩
  | gate => exact ⟨s, by unfold exec execGate; exact taken_off hp _, .refl s⟩
  | exit => exact ⟨s, by unfold exec execExit; exact taken_off hp _, .refl s⟩
  | remove => exact ⟨s, by unfold exec execRemove; exact taken_off hp _, .refl s⟩
  | lineStatus => exact ⟨s, by unfold exec execLineStatus; exact taken_off hp _, .refl s⟩
  | configure => exact ⟨s, by unfold exec execConfigure; exact taken_off hp _, .refl s⟩
  | lineReset => exact ⟨s, by unfold exec execLineReset; exact taken_off hp _, .refl s⟩
  | identify => exact ⟨s, by unfold exec execIdentify; exact taken_off hp _, .refl s⟩
  | tableBegin => exact ⟨s, by unfold exec execTableBegin; exact taken_off hp _, .refl s⟩
  | headerSegment => exact ⟨s, by unfold exec execHeaderSegment; exact taken_off hp _, .refl s⟩
  | productSegment => exact ⟨s, by unfold exec execProductSegment; exact taken_off hp _, .refl s⟩
  | bandTableSegment => exact ⟨s, by unfold exec execBandTableSegment; exact taken_off hp _, .refl s⟩
  | zoneBlockSegment => exact ⟨s, by unfold exec execZoneBlockSegment; exact taken_off hp _, .refl s⟩
  | surchargeSegment => exact ⟨s, by unfold exec execSurchargeSegment; exact taken_off hp _, .refl s⟩
  | priceRunSegment => exact ⟨s, by unfold exec execPriceRunSegment; exact taken_off hp _, .refl s⟩
  | unknownSegmentGroup => exact ⟨s, by unfold exec execUnknownSegmentGroup; exact taken_off hp _, .refl s⟩
  | tableEnd => exact ⟨s, by unfold exec execTableEnd; exact taken_off hp _, .refl s⟩
  | bankSwitchImmediate => exact ⟨s, by unfold exec execBankSwitchImmediate; exact taken_off hp _, .refl s⟩
  | bankSwitchAtDate => exact ⟨s, by unfold exec execBankSwitchAtDate; exact taken_off hp _, .refl s⟩
  | bankSwitchAtJob => exact ⟨s, by unfold exec execBankSwitchAtJob; exact taken_off hp _, .refl s⟩
  | credit => exact ⟨s, by unfold exec execCredit; exact taken_off hp _, .refl s⟩
  | date => exact ⟨s, by unfold exec execDate; exact taken_off hp _, .refl s⟩
  | accountQuery => exact ⟨s, by unfold exec execAccountQuery; exact taken_off hp _, .refl s⟩
  | jobAdd => exact ⟨s, by unfold exec execJobAdd; exact taken_off hp _, .refl s⟩
  | jobAbort => exact ⟨s, by unfold exec execJobAbort; exact taken_off hp _, .refl s⟩
  | monitorSet => exact ⟨s, by unfold exec execMonitorSet; exact taken_off hp _, .refl s⟩
  | hold => exact ⟨s, by unfold exec execHold; exact taken_off hp _, .refl s⟩
  | resume => exact ⟨s, by unfold exec execResume; exact taken_off hp _, .refl s⟩
  | clearHalt => exact ⟨s, by unfold exec execClearHalt; exact taken_off hp _, .refl s⟩
  | fetchCapture => exact ⟨s, by unfold exec execFetchCapture; exact taken_off hp _, .refl s⟩
  | status => exact ⟨s, by unfold exec execStatus; exact taken_off hp _, .refl s⟩
  | peek => exact ⟨s, by unfold exec execPeek; exact taken_off hp _, .refl s⟩
  | noticeEnable => exact ⟨s, by unfold exec execNoticeEnable; exact taken_off hp _, .refl s⟩
  | endOfService => exact ⟨s, by unfold exec execEndOfService; exact taken_off hp _, .refl s⟩
  | unknownRequest => exact ⟨s, by unfold exec execUnknownRequest; exact taken_off hp _, .refl s⟩
  | unknownRecord => exact ⟨s, by unfold exec execUnknownRecord; exact taken_off hp _, .refl s⟩
  | discardedFrame => exact ⟨s, by unfold exec execDiscardedFrame; exact taken_off hp _, .refl s⟩
  | printerState => exact ⟨s, by unfold exec execPrinterState; exact taken_off hp _, .refl s⟩
  | orderTaken => exact ⟨s, by unfold exec execOrderTaken; exact taken_off hp _, .refl s⟩
  | printResult => exact ⟨s, by unfold exec execPrintResult; exact taken_off hp _, .refl s⟩
  | takeTimerExpiry => exact ⟨s, by unfold exec execTakeTimerExpiry; exact taken_off hp _, .refl s⟩
  | resultTimerExpiry => exact ⟨s, by unfold exec execResultTimerExpiry; exact taken_off hp _, .refl s⟩
  | commitComplete => exact ⟨s, by unfold exec execCommitComplete; exact taken_off hp _, .refl s⟩
  | confirmComplete => exact ⟨s, by unfold exec execConfirmComplete; exact taken_off hp _, .refl s⟩
  | voidComplete => exact ⟨s, by unfold exec execVoidComplete; exact taken_off hp _, .refl s⟩
  | spoilComplete => exact ⟨s, by unfold exec execSpoilComplete; exact taken_off hp _, .refl s⟩
  | creditComplete => exact ⟨s, by unfold exec execCreditComplete; exact taken_off hp _, .refl s⟩
  | writeBegin => exact ⟨s, by unfold exec execWriteBegin; exact taken_off hp _, .refl s⟩
  | commitStart => exact ⟨s, by unfold exec execCommitStart; exact taken_off hp _, .refl s⟩
  | gateCommittedCheck => exact ⟨s, by unfold exec execGateCommittedCheck; exact taken_off hp _, .refl s⟩
  | holdReply => exact ⟨s, by unfold exec execHoldReply; exact taken_off hp _, .refl s⟩
  | lineResetReply => exact ⟨s, by unfold exec execLineResetReply; exact taken_off hp _, .refl s⟩
  | notice => exact ⟨s, by unfold exec execNotice; exact taken_off hp _, .refl s⟩
  | recordTransmit => exact ⟨s, by unfold exec execRecordTransmit; exact taken_off hp _, .refl s⟩

/-- The effects of a command either leave the power alone or are those of pins and power only. -/
theorem effectsOf_power (c : Instr) : (∀ e ∈ effectsOf c, e ∉ [Effect.lost, .unpowered, .poweredOn]) ∨ effectsOf c ⊆ powerEffects := by
  cases c <;> first | exact .inl (by simp only [effectsOf]; decide) | exact .inr (by simp only [effectsOf]; decide)

/-- As `step_keeps`, where the tags are known to be distinct and every change but those of pins and power may be taken to happen while the part
works. -/
theorem step_keeps_working {P : State → Prop} (hd : ∀ s, P s → s.TagsDistinct) (hq : ∀ s q, P s → P { s with pending := q })
    (hc : ∀ {e s t}, Change True e s t → s.power = .on ∨ e ∈ powerEffects → P s → P t) {s t : State} (h : step s = .next t) (hs : P s) : P t := by
  unfold step at h
  cases hp : s.pending with
  | nil => rw [hp] at h; cases h; exact hs
  | cons c rest =>
    rw [hp] at h
    have hs' := hq s rest hs
    by_cases hon : s.power = .on
    · obtain ⟨u, hu, hr⟩ := exec_does (Q := True) c { s with pending := rest } fun _ => hd _ hs'
      cases hu.symm.trans h
      rcases effectsOf_power c with hk | hk
      · exact (hr.keeps (P := fun s => s.power = .on ∧ P s)
          (fun he hch hx => ⟨(untouched_power hch (hk _ he)).trans hx.1, hc hch (.inl hx.1) hx.2⟩) ⟨hon, hs'⟩).2
      · exact hr.keeps (fun he hch => hc hch (.inr (hk he))) hs'
    · obtain ⟨u, hu, hr⟩ := exec_off (Q := True) (s := { s with pending := rest }) hon c
      cases hu.symm.trans h
      exact hr.keeps (fun he hch => hc hch (.inr he)) hs'

end Sys2Proof.Machine
end

