-- ==== Sys2Proof/Laws/Invariants.lean ====
section
/-! SUPPORT. What each change does to the properties of Safety.lean: one lemma for each property, by cases over the changes. -/

namespace Sys2Proof.Machine

variable {Q : Prop}

/-! ## The notice channels (R181) -/

theorem fresh_noneReady : ∀ c, State.reset.channelReady c = false := by decide

theorem Change.noneReady {e : Effect} {s t : State} (h : Change Q e s t) (hs : s.NoneReady) : t.NoneReady := by
  cases h with
  | notice _ _ _ _ h => exact h hs
  | warning => split <;> exact hs
  | unpowered => exact fresh_noneReady
  | poweredOn => exact fresh_noneReady
  | _ => exact hs

theorem nodup_append_singleton {α : Type} {l : List α} {a : α} (h : l.Nodup) (ha : a ∉ l) : (l ++ [a]).Nodup := by
  rw [List.nodup_append]
  exact ⟨h, by simp, fun x hx y hy => by rw [List.mem_singleton.1 hy]; exact fun e => ha (e ▸ hx)⟩

/-! ## The tariff banks (R45, R53, R66, R70) -/

theorem cleared_sound (st : BankState) (tid : Nat) : (Bank.cleared st tid).Sound := by
  constructor
  · exact Table.wf_nil
  · intro e he; cases he
  · intro m hm
    have hm : m ∈ (Vector.replicate 4 ({ entries := [], written := false } : ZoneMap)).toList := hm
    rw [Vector.toList_replicate] at hm
    rw [List.eq_of_mem_replicate hm]
    exact Table.wf_nil
  · intro t ht
    have ht : t ∈ (Vector.replicate 8 ([] : List Nat)).toList := ht
    rw [Vector.toList_replicate] at ht
    rw [List.eq_of_mem_replicate ht]
    decide
  · exact Nat.zero_le _

theorem Bank.Sound.of_contents {b b' : Bank} (h : b.Sound) (hp : b'.prices = b.prices) (hz : b'.zoneMaps = b.zoneMaps)
    (hb : b'.bandTables = b.bandTables) (hs : b'.surcharges = b.surcharges) : b'.Sound :=
  ⟨hp ▸ h.prices, hp ▸ h.cells, hz ▸ h.zones, hb ▸ h.bands, hs ▸ h.surcharges⟩

theorem poweredOn_sound {b : Bank} (h : b.Sound) : b.poweredOn.Sound := by
  unfold Bank.poweredOn
  split
  · exact h.of_contents rfl rfl rfl rfl
  · exact h

theorem poweredOn_state (b : Bank) (st : BankState) (hst : st ≠ .invalid) (h : b.poweredOn.state = st) : b.state = st ∧ st ≠ .loading := by
  unfold Bank.poweredOn at h
  split at h
  · exact absurd h.symm hst
  · rename_i hl; exact ⟨h, fun e => hl (h.trans e)⟩

theorem get_sound {s : State} (h : s.TariffSafe) (id : BankId) : (s.banks.get id).Sound := by
  cases id
  · exact h.sound.1
  · exact h.sound.2

/-- The properties of the banks alone. -/
structure Banks.Safe (bs : Banks) : Prop where
  sound : bs.a.Sound ∧ bs.b.Sound
  oneActive : ¬(bs.a.state = .active ∧ bs.b.state = .active)
  oneLoading : ¬(bs.a.state = .loading ∧ bs.b.state = .loading)

theorem Banks.active_eq (bs : Banks) :
    bs.active = if bs.a.state = .active then some .a else if bs.b.state = .active then some .b else none := rfl

theorem Banks.loading_eq (bs : Banks) :
    bs.loading = if bs.a.state = .loading then some .a else if bs.b.state = .loading then some .b else none := rfl

theorem Banks.loading_state {bs : Banks} {id : BankId} (h : bs.loading = some id) : (bs.get id).state = .loading := by
  rw [Banks.loading_eq] at h
  split_ifs at h with h1 h2 <;> cases h <;> assumption

theorem State.TariffSafe.of_banks {s t : State} (h : s.TariffSafe) (hb : t.banks = s.banks) (hp : t.power = s.power)
    (hr : t.ratingRef = s.ratingRef) (hw : t.pendingSwitch = s.pendingSwitch) : t.TariffSafe :=
  ⟨hb ▸ h.sound, hb ▸ h.oneActive, hb ▸ h.oneLoading, by rw [hb, hp, hr]; exact h.reference, by rw [hb, hw]; exact h.target⟩

theorem Change.tariffSafe {e : Effect} {s t : State} (h : Change Q e s t) (hs : s.TariffSafe) : t.TariffSafe := by
  cases h with
  | loadBegin _ id tid ha ho =>
    have hc : (Bank.cleared .loading tid).state = .loading := rfl
    cases id with
    | a =>
      refine ⟨⟨cleared_sound _ _, hs.sound.2⟩, fun h => (nomatch h.1), fun h => ho h.2, fun hp => ?_, fun x hx => ?_⟩
      · show s.ratingRef = _
        rw [hs.reference hp, Banks.active_eq, Banks.active_eq, if_neg (show ¬s.banks.a.state = .active from ha)]
        rfl
      · have hx' : (if s.pendingSwitch.map (·.target) = some .a then none else s.pendingSwitch) = some x := hx
        split_ifs at hx' with hn
        have ht := hs.target x hx'
        cases hxt : x.target with
        | a => rw [hx'] at hn; exact absurd (congrArg some hxt) hn
        | b => rw [hxt] at ht; exact ht
    | b =>
      refine ⟨⟨hs.sound.1, cleared_sound _ _⟩, fun h => (nomatch h.2), fun h => ho h.1, fun hp => ?_, fun x hx => ?_⟩
      · show s.ratingRef = _
        rw [hs.reference hp, Banks.active_eq, Banks.active_eq]
        show (if s.banks.a.state = .active then some BankId.a else if s.banks.b.state = .active then some BankId.b else none) =
          if s.banks.a.state = .active then some BankId.a else none
        rw [if_neg (show ¬s.banks.b.state = .active from ha)]
      · have hx' : (if s.pendingSwitch.map (·.target) = some .b then none else s.pendingSwitch) = some x := hx
        split_ifs at hx' with hn
        have ht := hs.target x hx'
        cases hxt : x.target with
        | a => rw [hxt] at ht; exact ht
        | b => rw [hx'] at hn; exact absurd (congrArg some hxt) hn
  | segment _ id b hl hst hb =>
    have hbs := hb (get_sound hs id)
    have hld := Banks.loading_state hl
    cases id with
    | a =>
      refine ⟨⟨hbs, hs.sound.2⟩, ?_, ?_, fun hp => ?_, fun x hx => ?_⟩
      · show ¬(b.state = _ ∧ _); rw [hst]; exact hs.oneActive
      · show ¬(b.state = _ ∧ _); rw [hst]; exact hs.oneLoading
      · rw [hs.reference hp, Banks.active_eq, Banks.active_eq]
        show _ = if b.state = _ then _ else _
        rw [hst]; rfl
      · have ht := hs.target x hx
        cases hxt : x.target with
        | a => rw [hxt] at ht; show b.state = .ready; rw [hst]; exact ht
        | b => rw [hxt] at ht; exact ht
    | b =>
      refine ⟨⟨hs.sound.1, hbs⟩, ?_, ?_, fun hp => ?_, fun x hx => ?_⟩
      · show ¬(_ ∧ b.state = _); rw [hst]; exact hs.oneActive
      · show ¬(_ ∧ b.state = _); rw [hst]; exact hs.oneLoading
      · rw [hs.reference hp, Banks.active_eq, Banks.active_eq]
        show _ = if s.banks.a.state = _ then _ else if b.state = _ then _ else _
        rw [hst]; rfl
      · have ht := hs.target x hx
        cases hxt : x.target with
        | a => rw [hxt] at ht; exact ht
        | b => rw [hxt] at ht; show b.state = .ready; rw [hst]; exact ht
  | loadEnd _ id st hl hst =>
    have hld := Banks.loading_state hl
    have hna : st ≠ .active := by rcases hst with rfl | rfl <;> simp
    have hnl : st ≠ .loading := by rcases hst with rfl | rfl <;> simp
    cases id with
    | a =>
      have hld : s.banks.a.state = .loading := hld
      refine ⟨⟨hs.sound.1.of_contents rfl rfl rfl rfl, hs.sound.2⟩, fun h => hna h.1, fun h => hnl h.1, fun hp => ?_, fun x hx => ?_⟩
      · rw [hs.reference hp, Banks.active_eq, Banks.active_eq, if_neg (by rw [hld]; simp)]
        show _ = if st = _ then _ else _
        rw [if_neg hna]; rfl
      · have ht := hs.target x hx
        cases hxt : x.target with
        | a => rw [hxt] at ht; exact absurd (hld.symm.trans ht) (by simp)
        | b => rw [hxt] at ht; exact ht
    | b =>
      have hld : s.banks.b.state = .loading := hld
      refine ⟨⟨hs.sound.1, hs.sound.2.of_contents rfl rfl rfl rfl⟩, fun h => hna h.2, fun h => hnl h.2, fun hp => ?_, fun x hx => ?_⟩
      · rw [hs.reference hp, Banks.active_eq, Banks.active_eq]
        show _ = if s.banks.a.state = _ then _ else if st = _ then _ else _
        rw [if_neg hna, if_neg (show ¬s.banks.b.state = .active by rw [hld]; simp)]
      · have ht := hs.target x hx
        cases hxt : x.target with
        | a => rw [hxt] at ht; exact ht
        | b => rw [hxt] at ht; exact absurd (hld.symm.trans ht) (by simp)
  | switch _ target hr =>
    have hready : (s.banks.get target).state = .ready := by
      rcases hr with h | h
      · exact h
      · cases hp : s.pendingSwitch with
        | none => simp [hp] at h
        | some x => rw [hp] at h; cases h; exact hs.target x hp
    have hother : ∀ b : Bank, b.Sound → ∀ st, ({ b with state := st } : Bank).Sound := fun b hb st => hb.of_contents rfl rfl rfl rfl
    have hcases : ∀ id : BankId, s.banks.active = some id → (s.banks.get id).state = .active := fun id h => by
      rw [Banks.active_eq] at h
      split_ifs at h with h1 h2 <;> cases h <;> assumption
    have hnone : s.banks.active = none → s.banks.a.state ≠ .active ∧ s.banks.b.state ≠ .active := fun h => by
      rw [Banks.active_eq] at h
      split_ifs at h with h1 h2
      exact ⟨h1, h2⟩
    have key : (s.banks.switched target).Safe ∧ (s.banks.switched target).active = some target := by
      unfold Banks.switched
      cases hact : s.banks.active with
      | none =>
        obtain ⟨na, nb⟩ := hnone hact
        cases target with
        | a =>
          refine ⟨⟨⟨hother _ hs.sound.1 _, hs.sound.2⟩, fun h => nb h.2, fun h => (nomatch h.1)⟩, ?_⟩
          rw [Banks.active_eq]; rfl
        | b =>
          refine ⟨⟨⟨hs.sound.1, hother _ hs.sound.2 _⟩, fun h => na h.1, fun h => (nomatch h.2)⟩, ?_⟩
          rw [Banks.active_eq]
          show (if s.banks.a.state = _ then _ else _) = _
          rw [if_neg na]; rfl
      | some old =>
        have ho := hcases old hact
        cases old <;> cases target
        · exact absurd (hready.symm.trans ho) (by simp)
        · exact ⟨⟨⟨hother _ hs.sound.1 _, hother _ hs.sound.2 _⟩, fun h => (nomatch h.1), fun h => (nomatch h.1)⟩, rfl⟩
        · exact ⟨⟨⟨hother _ hs.sound.1 _, hother _ hs.sound.2 _⟩, fun h => (nomatch h.2), fun h => (nomatch h.1)⟩, rfl⟩
        · exact absurd (hready.symm.trans ho) (by simp)
    exact ⟨key.1.sound, key.1.oneActive, key.1.oneLoading, fun _ => key.2.symm, fun x hx => (nomatch hx)⟩
  | pend _ x h => exact ⟨hs.sound, hs.oneActive, hs.oneLoading, hs.reference, fun y hy => h y hy⟩
  | warning =>
    split
    · exact hs.of_banks rfl rfl rfl rfl
    · exact hs.of_banks rfl rfl rfl rfl
  | lost _ a i h =>
    refine ⟨hs.sound, hs.oneActive, hs.oneLoading, fun hp => hs.reference fun ho => hp ?_, hs.target⟩
    show (if s.power = .off then Power.off else .inReset) = .off
    rw [if_pos ho]
  | unpowered => exact ⟨hs.sound, hs.oneActive, hs.oneLoading, fun h => absurd rfl h, fun x hx => (nomatch hx)⟩
  | poweredOn =>
    refine ⟨⟨poweredOn_sound hs.sound.1, poweredOn_sound hs.sound.2⟩, fun h => ?_, fun h => ?_, fun _ => rfl, fun x hx => (nomatch hx)⟩
    · exact hs.oneActive ⟨(poweredOn_state _ _ (by simp) h.1).1, (poweredOn_state _ _ (by simp) h.2).1⟩
    · exact (poweredOn_state _ _ (by simp) h.1).2 rfl
  | _ => exact hs.of_banks rfl rfl rfl rfl

/-! ## The franking state (R161, R168, R170) -/

theorem State.FrankingSafe.of_state {s t : State} (h : s.FrankingSafe) (hp : t.power = s.power) (hf : t.franking = s.franking)
    (hc : t.causes = s.causes) (hn : t.pins = s.pins) (hl : t.lockoutFlag = s.lockoutFlag)
    (hu : s.franking = .unconfigured → s.pieces = [] ∧ s.jobs = [] ∧ s.orders = [] ∧ s.slot = none →
      t.pieces = [] ∧ t.jobs = [] ∧ t.orders = [] ∧ t.slot = none) : t.FrankingSafe :=
  ⟨by rw [hp, hf, hc]; exact h.running, by rw [hp, hf, hc]; exact h.held, by rw [hp, hc, hn]; exact h.warning,
   by rw [hp, hf, hl]; exact h.locked, by rw [hp, hf]; exact fun a b => hu b (h.untracked a b)⟩

/-- While the part works, no state but LOCKOUT has the lockout flag set. -/
theorem State.FrankingSafe.unlocked {s : State} (h : s.FrankingSafe) (hp : s.power = .on) (hf : s.franking ≠ .lockout) :
    s.lockoutFlag = false := by
  rw [h.locked hp]
  exact decide_eq_false hf

theorem follow_safe {s : State} (h : s.FrankingSafe) (pins : Pins) (c : HoldCauses) (hc : s.power = .on → c.power = pins.pfw) :
    (State.setCauses { s with pins } c).FrankingSafe := by
  have hcases : ∀ f : FrankingState, f.follow c = if f = .running ∨ f = .held then (if c.isEmpty then .running else .held) else f := by
    intro f; cases f <;> simp [FrankingState.follow]
  refine ⟨fun hp hf => ?_, fun hp hf => ?_, hc, fun hp => ?_, fun hp hf => ?_⟩
  · have hf : s.franking.follow c = .running := hf
    show c.isEmpty = true
    rw [hcases] at hf
    split_ifs at hf with h1 h2
    · exact h2
    · exact absurd (.inl hf) h1
  · have hf : s.franking.follow c = .held := hf
    show c.isEmpty = false
    rw [hcases] at hf
    split_ifs at hf with h1 h2
    · simpa using h2
    · exact absurd (.inr hf) h1
  · show s.lockoutFlag = decide (s.franking.follow c = .lockout)
    rw [h.locked hp, hcases]
    split_ifs with h1 h2
    · rcases h1 with h1 | h1 <;> simp [h1]
    · rcases h1 with h1 | h1 <;> simp [h1]
    · rfl
  · exact h.untracked hp (FrankingState.follow_unconfigured hf)

theorem Change.frankingSafe {e : Effect} {s t : State} (h : Change Q e s t) (hs : s.FrankingSafe) : t.FrankingSafe := by
  cases h with
  | pieces _ f => exact hs.of_state rfl rfl rfl rfl rfl fun _ hu => ⟨by show s.pieces.map f = []; rw [hu.1]; rfl, hu.2⟩
  | enter _ p hf => exact hs.of_state rfl rfl rfl rfl rfl fun h _ => absurd h hf
  | leave _ tag p hp =>
    refine hs.of_state rfl rfl rfl rfl rfl fun _ hu => ?_
    have := (piece?_mem hp).1
    rw [hu.1] at this
    cases this
  | jobs _ f => exact hs.of_state rfl rfl rfl rfl rfl fun _ hu => ⟨hu.1, by show s.jobs.map f = []; rw [hu.2.1]; rfl, hu.2.2⟩
  | abort _ slot => exact hs.of_state rfl rfl rfl rfl rfl fun _ hu => ⟨hu.1, by show dropDone _ (atSlot _ _ s.jobs) = []; rw [hu.2.1]; rfl, hu.2.2⟩
  | cleared => exact hs.of_state rfl rfl rfl rfl rfl fun _ hu => ⟨rfl, rfl, rfl, hu.2.2.2⟩
  | currentJob _ j =>
    refine hs.of_state rfl rfl rfl rfl rfl fun _ hu => ⟨hu.1, ?_, hu.2.2⟩
    rw [State.updateJob_jobs, hu.2.1, List.map_nil]
  | addJob _ j hf => exact hs.of_state rfl rfl rfl rfl rfl fun h _ => absurd h hf
  | takeCommit _ tag p o hf => exact hs.of_state rfl rfl rfl rfl rfl fun h _ => absurd (hf.symm.trans h) (by simp)
  | commitOrdered _ tag p rest hq slot hsl => exact hs.of_state rfl rfl rfl rfl rfl fun _ hu => absurd (hsl.symm.trans hu.2.2.2) (by simp)
  | commitWithheld _ tag p rest hq slot hsl => exact hs.of_state rfl rfl rfl rfl rfl fun _ hu => absurd (hsl.symm.trans hu.2.2.2) (by simp)
  | closeDone _ kind tag n by_ rest hq d =>
    refine hs.of_state rfl rfl rfl rfl rfl fun _ hu => ⟨?_, hu.2.1, hu.2.2.1, ?_⟩
    · show endNumber n d s.pieces = []
      rw [hu.1]; rfl
    · show s.slotAfterClose by_ = none
      unfold State.slotAfterClose
      split
      · rfl
      · exact hu.2.2.2
  | orders _ f => exact hs.of_state rfl rfl rfl rfl rfl fun _ hu => ⟨hu.1, hu.2.1, by show s.orders.map f = []; rw [hu.2.2.1]; rfl, hu.2.2.2⟩
  | closeOrders _ os ws hk =>
    refine hs.of_state rfl rfl rfl rfl rfl fun _ hu => ⟨hu.1, hu.2.1, ?_, hu.2.2.2⟩
    rw [hu.2.2.1, List.sublist_nil] at hk
    exact hk
  | slotMark => exact hs.of_state rfl rfl rfl rfl rfl fun _ hu => ⟨hu.1, hu.2.1, hu.2.2.1, by show s.slot.map _ = none; rw [hu.2.2.2]; rfl⟩
  | causes _ c h => exact follow_safe hs s.pins c fun hp => h.trans (hs.warning hp)
  | warning _ b =>
    split
    · exact follow_safe hs { s.pins with pfw := b } { s.causes with power := b } fun _ => rfl
    · rename_i hp
      exact ⟨fun h => absurd h hp, fun h => absurd h hp, fun h => absurd h hp, fun h => absurd h hp, fun h => absurd h hp⟩
  | halt _ h =>
    refine ⟨fun _ h => (nomatch h), fun _ h => (nomatch h), hs.warning, fun hp => ?_, fun _ h => (nomatch h)⟩
    exact hs.unlocked hp (by rcases h with h | h <;> simp [h])
  | lockout => exact ⟨fun _ h => (nomatch h), fun _ h => (nomatch h), hs.warning, fun _ => rfl, fun _ h => (nomatch h)⟩
  | holdAnew _ h =>
    refine ⟨fun _ h => (nomatch h), fun _ _ => rfl, fun _ => rfl, fun hp => ?_, fun _ h => (nomatch h)⟩
    exact hs.unlocked hp (by rcases h with h | h | h <;> simp [h])
  | configured =>
    cases hf : s.franking with
    | unconfigured =>
      have hnl : s.power = .on → s.lockoutFlag = false := fun hp => hs.unlocked hp (by simp [hf])
      have hfr : ∀ x, FrankingState.configured .unconfigured s.causes = x → x = if s.causes.isEmpty then .running else .held := fun x h => h.symm
      refine ⟨fun _ h => ?_, fun _ h => ?_, hs.warning, fun hp => ?_, fun _ h => absurd h ?_⟩
      · have := hfr _ h; split_ifs at this with hc; exact hc
      · have := hfr _ h; split_ifs at this with hc; simpa using hc
      · show s.lockoutFlag = decide (FrankingState.configured .unconfigured s.causes = .lockout)
        rw [hnl hp]
        unfold FrankingState.configured
        cases s.causes.isEmpty <;> rfl
      · have hn := FrankingState.configured_ne s.franking s.causes; rw [hf] at hn; exact hn
    | _ =>
      refine hs.of_state rfl ?_ rfl rfl rfl fun h => absurd (hf.symm.trans h) (by simp)
      rw [hf]; rfl
  | lost =>
    have hp : ¬(if s.power = .off then Power.off else .inReset) = .on := by split <;> simp
    exact ⟨fun h => absurd h hp, fun h => absurd h hp, fun h => absurd h hp, fun h => absurd h hp, fun h => absurd h hp⟩
  | stopped => exact ⟨hs.running, hs.held, hs.warning, hs.locked, hs.untracked⟩
  | unpowered => exact ⟨fun h => (nomatch h), fun h => (nomatch h), fun h => (nomatch h), fun h => (nomatch h), fun h => (nomatch h)⟩
  | poweredOn _ service =>
    have hf : ((s.volatileLost .on).started service).franking = if s.lockoutFlag && !service then .lockout else .unconfigured := rfl
    refine ⟨fun _ h => ?_, fun _ h => ?_, fun _ => rfl, fun _ => ?_, fun _ _ => ⟨rfl, rfl, rfl, rfl⟩⟩
    · rw [hf] at h; split at h <;> cases h
    · rw [hf] at h; split at h <;> cases h
    · rw [hf]
      show (s.lockoutFlag && !service) = _
      cases s.lockoutFlag && !service <;> rfl
  | _ => exact hs.of_state rfl rfl rfl rfl rfl fun _ hu => hu

/-! ## The accounts and the accounting queue (R95, R97, R99, R117) -/

theorem commitAmount_sum_zero {q : List Write} (h : q.countP Write.isCommit = 0) : (q.map Write.commitAmount).sum = 0 := by
  refine List.sum_eq_zero fun x hx => ?_
  obtain ⟨w, hw, rfl⟩ := List.mem_map.1 hx
  have := List.countP_eq_zero.1 h w hw
  cases w <;> simp [Write.isCommit, Write.commitAmount] at this ⊢

theorem creditAmount_sum_zero {q : List Write} (h : q.countP Write.isCredit = 0) : (q.map Write.creditAmount).sum = 0 := by
  refine List.sum_eq_zero fun x hx => ?_
  obtain ⟨w, hw, rfl⟩ := List.mem_map.1 hx
  have := List.countP_eq_zero.1 h w hw
  cases w <;> simp [Write.isCredit, Write.creditAmount] at this ⊢

@[simp] theorem closings_nil : closings [] = [] := rfl
@[simp] theorem closings_cons_commit (tag p : Nat) (q : List Write) : closings (.commit tag p :: q) = closings q := rfl
@[simp] theorem closings_cons_credit (r k a : Nat) (q : List Write) : closings (.credit r k a :: q) = closings q := rfl
@[simp] theorem closings_cons_close (k : CloseKind) (tag n : Nat) (b : Requester) (q : List Write) :
    closings (.close k tag n b :: q) = n :: closings q := rfl
theorem closings_append (q r : List Write) : closings (q ++ r) = closings q ++ closings r := List.filterMap_append

theorem mem_closings {q : List Write} {n : Nat} : n ∈ closings q ↔ q.any (Write.closes n) = true := by
  rw [List.any_eq_true]
  unfold closings
  rw [List.mem_filterMap]
  refine exists_congr fun w => and_congr_right fun _ => ?_
  cases w <;> simp [Write.closing?, Write.closes]

/-- A closing request is taken for an open order with no closing write queued (R99). -/
theorem closeTaken_iff {s : State} {n : Nat} :
    s.closeTaken n = true ↔ n ∈ s.accounts.openOrders.map (·.n) ∧ n ∉ closings s.queue := by
  unfold State.closeTaken
  rw [mem_closings, Bool.and_eq_true, List.any_eq_true, Bool.not_eq_true', List.mem_map, Bool.not_eq_true]
  refine and_congr_left fun _ => exists_congr fun o => and_congr_right fun _ => ?_
  simp

/-- In a list of rising numbers, dropping the entry of one number takes its postage off the sum. -/
theorem sum_filter_ne {l : List OpenOrder} (hl : (l.map (·.n)).Pairwise (· < ·)) {o : OpenOrder} (ho : o ∈ l) :
    ((l.filter (·.n != o.n)).map (·.p)).sum + o.p = (l.map (·.p)).sum := by
  induction l with
  | nil => cases ho
  | cons x l ih =>
    rw [List.map_cons, List.pairwise_cons] at hl
    rcases List.mem_cons.1 ho with rfl | ho
    · have hall : l.filter (·.n != o.n) = l := List.filter_eq_self.2 fun y hy => by
        have := hl.1 y.n (List.mem_map.2 ⟨y, hy, rfl⟩)
        simpa using Nat.ne_of_gt this
      rw [List.filter_cons_of_neg (by simp), hall, List.map_cons, List.sum_cons]
      omega
    · have hne : (x.n != o.n) = true := by
        have := hl.1 o.n (List.mem_map.2 ⟨o, ho, rfl⟩)
        simpa using Nat.ne_of_lt this
      rw [List.filter_cons, if_pos hne, List.map_cons, List.map_cons, List.sum_cons, List.sum_cons]
      have := ih hl.2 ho
      omega

theorem openOrder?_some {a : Accounts} {n : Nat} {o : OpenOrder} (h : a.openOrder? n = some o) : o ∈ a.openOrders ∧ o.n = n :=
  ⟨List.mem_of_find?_eq_some h, by simpa using List.find?_some h⟩

theorem satSucc_le {top n : Nat} : satSucc top n ≤ top := Nat.min_le_right _ _

/-- The registers after a closing write, whichever open order it closes (R102 to R104). -/
theorem closeWrite_lawful {a : Accounts} (h : a.Lawful) (kind : CloseKind) (n : Nat) : (a.closeWrite kind n).Lawful := by
  unfold Accounts.closeWrite
  cases ho : a.openOrder? n with
  | none => exact h
  | some o =>
    obtain ⟨hm, rfl⟩ := openOrder?_some ho
    have hsum := sum_filter_ne h.sequence hm
    have hp := h.pending
    have hb := h.balance
    have hf := h.funds
    have hc := h.ceiling
    have hseq : ((a.closed o.n).map (·.n)).Pairwise (· < ·) := h.sequence.sublist (List.filter_sublist.map _)
    have hiss : ∀ x ∈ a.closed o.n, x.n ≤ a.n := fun x hx => h.issued x (List.mem_of_mem_filter hx)
    obtain ⟨c1, c2, c3⟩ := h.counted
    cases kind
    · exact ⟨by dsimp only; omega, by dsimp only [Accounts.closed]; omega, by dsimp only; omega, by dsimp only; omega, h.numbered, hseq, hiss,
        h.credited, satSucc_le, c2, c3⟩
    · exact ⟨by dsimp only; omega, by dsimp only [Accounts.closed]; omega, by dsimp only; omega, by dsimp only; omega, h.numbered, hseq, hiss,
        h.credited, c1, satSucc_le, c3⟩
    · exact ⟨by dsimp only; omega, by dsimp only [Accounts.closed]; omega, by dsimp only; omega, by dsimp only; omega, h.numbered, hseq, hiss,
        h.credited, c1, c2, satSucc_le⟩

/-- What a closing write leaves of D + E, A + E, N and the open orders. -/
theorem closeWrite_bounds {a : Accounts} (h : a.Lawful) (kind : CloseKind) (n : Nat) :
    a.d ≤ (a.closeWrite kind n).d ∧ (a.closeWrite kind n).d + (a.closeWrite kind n).e ≤ a.d + a.e ∧
      (a.closeWrite kind n).a + (a.closeWrite kind n).e ≤ a.a + a.e ∧ (a.closeWrite kind n).n = a.n ∧
      (a.closeWrite kind n).openOrders = a.openOrders.filter (·.n != n) := by
  unfold Accounts.closeWrite
  cases ho : a.openOrder? n with
  | none =>
    refine ⟨le_refl _, le_refl _, le_refl _, rfl, (List.filter_eq_self.2 fun x hx => ?_).symm⟩
    have := List.find?_eq_none.1 ho x hx
    simpa using this
  | some o =>
    obtain ⟨hm, rfl⟩ := openOrder?_some ho
    have hsum := sum_filter_ne h.sequence hm
    have hp := h.pending
    cases kind <;> exact ⟨by dsimp only; omega, by dsimp only; omega, by dsimp only; omega, rfl, rfl⟩

theorem commitWrite_lawful {a : Accounts} (h : a.Lawful) {tag p : Nat} (date : Option Nat) (hd : p ≤ a.d)
    (hc : a.a + a.e + p ≤ Config.aMax) (hn : a.n + 1 ≤ Config.nMax) : (a.commitWrite tag p date).Lawful := by
  have hp := h.pending
  have hb := h.balance
  have hf := h.funds
  refine ⟨?_, ?_, ?_, ?_, hn, ?_, ?_, h.credited, h.counted⟩
  · dsimp only [Accounts.commitWrite]; omega
  · dsimp only [Accounts.commitWrite]; rw [List.map_append, List.sum_append]; simpa using hp
  · dsimp only [Accounts.commitWrite]; omega
  · dsimp only [Accounts.commitWrite]; omega
  · dsimp only [Accounts.commitWrite]
    rw [List.map_append, List.pairwise_append]
    refine ⟨h.sequence, List.pairwise_singleton _ _, fun x hx y hy => ?_⟩
    obtain ⟨o, ho, rfl⟩ := List.mem_map.1 hx
    rw [List.mem_singleton.1 hy]
    exact Nat.lt_succ_of_le (h.issued o ho)
  · intro o ho
    rcases List.mem_append.1 ho with ho | ho
    · exact (h.issued o ho).trans (Nat.le_succ _)
    · rw [List.mem_singleton.1 ho]; exact Nat.le_refl _

theorem creditWrite_lawful {a : Accounts} (h : a.Lawful) {k amount : Nat} (hk : k < Config.creditModulus)
    (hd : a.d + a.e + amount ≤ Config.dMax) : (a.creditWrite k amount).Lawful := by
  have hb := h.balance
  exact ⟨by dsimp only [Accounts.creditWrite]; omega, h.pending, by dsimp only [Accounts.creditWrite]; omega, h.ceiling, h.numbered, h.sequence,
    h.issued, hk, h.counted⟩

/-- The whole effect of the write at the head of a safe queue keeps the laws. -/
theorem State.AccountsSafe.apply_lawful {s : State} (h : s.AccountsSafe) {w : Write} {rest : List Write} (hq : s.queue = w :: rest)
    (date : Option Nat) : (s.accounts.apply date w).Lawful := by
  have h1 := h.covered
  have h2 := h.ascending
  have h3 := h.numbers
  have h4 := h.credits
  have h5 := h.creditNumbers
  rw [hq] at h1 h2 h3 h4 h5
  cases w with
  | commit tag p =>
    simp only [List.map_cons, List.sum_cons, Write.commitAmount, List.countP_cons, Write.isCommit, if_true] at h1 h2 h3
    exact commitWrite_lawful h.lawful date (by omega) (by omega) (by omega)
  | close kind tag n by_ => exact closeWrite_lawful h.lawful kind n
  | credit r k amount =>
    simp only [List.map_cons, List.sum_cons, Write.creditAmount] at h4
    exact creditWrite_lawful h.lawful (h5 _ (List.mem_cons_self ..) k rfl) (by omega)

theorem State.AccountsSafe.of_fields {s t : State} (h : s.AccountsSafe) (ha : t.accounts = s.accounts) (hq : t.queue = s.queue)
    (hs : t.slot.map (·.phase) = s.slot.map (·.phase)) : t.AccountsSafe := by
  obtain ⟨a, b, c, d, e, f, g, i, j, k, l⟩ := h
  exact ⟨ha ▸ a, by rw [ha, hq]; exact b, by rw [ha, hq]; exact c, by rw [ha, hq]; exact d, by rw [ha, hq]; exact e, by rw [hq]; exact f,
    by rw [hq]; exact g, by rw [hq, hs]; exact i, by rw [hq, hs]; exact j, by rw [hq]; exact k, by rw [ha, hq]; exact l⟩

/-- With the slot empty the queue holds no write of the commit unit (R117). -/
theorem State.AccountsSafe.none_queued {s : State} (h : s.AccountsSafe) (hs : s.slot = none) :
    s.queue.countP Write.isCommit = 0 ∧ s.queue.countP Write.isFollowUp = 0 := by
  have h1 := h.commits
  have h2 := h.followUps
  rw [hs] at h1 h2
  exact ⟨by simpa using h1, by simpa using h2⟩

theorem State.AccountsSafe.closings_le {s : State} (h : s.AccountsSafe) {n : Nat} (hn : n ∈ closings s.queue) : n ≤ s.accounts.n := by
  obtain ⟨o, ho, rfl⟩ := List.mem_map.1 (h.open_ n hn)
  exact h.lawful.issued o ho

/-- What a safe queue with a COMMIT at its head says of the rest. -/
structure CommitHead (s : State) (p : Nat) (rest : List Write) : Prop where
  slot : s.slot.map (·.phase) = some .commit
  commits : rest.countP Write.isCommit = 0
  followUps : rest.countP Write.isFollowUp = 0
  funds : p ≤ s.accounts.d
  sum : (rest.map Write.commitAmount).sum = 0

theorem State.AccountsSafe.commitHead {s : State} (h : s.AccountsSafe) {tag p : Nat} {rest : List Write} (hq : s.queue = .commit tag p :: rest) :
    CommitHead s p rest := by
  have h1 := h.commits
  have h2 := h.followUps
  have h3 := h.covered
  rw [hq] at h1 h2 h3
  simp only [List.countP_cons, Write.isCommit, Write.isFollowUp, if_true, List.map_cons, List.sum_cons, Write.commitAmount] at h1 h2 h3
  have hph : s.slot.map (·.phase) = some .commit := by
    by_contra hne
    rw [decide_eq_false hne] at h1
    simp at h1
  have hc : rest.countP Write.isCommit = 0 := by
    rw [decide_eq_true hph] at h1
    simpa using h1
  refine ⟨hph, hc, ?_, by omega, commitAmount_sum_zero hc⟩
  rw [hph] at h2
  simpa using h2

/-- A completed COMMIT: the accounts move, the slot and the rest of the queue as given. -/
theorem State.AccountsSafe.commit_done {s t : State} (h : s.AccountsSafe) {tag p : Nat} {rest : List Write}
    (hq : s.queue = .commit tag p :: rest) (ha : t.accounts = s.accounts.commitWrite tag p s.mailingDate)
    (ht : t.queue = rest ∧ t.slot = none ∨
      t.slot.map (·.phase) = some .followUp ∧
        (t.queue = rest ∨ ∃ k tg, t.queue = rest ++ [.close k tg (s.accounts.n + 1) .commitUnit])) : t.AccountsSafe := by
  have hh := h.commitHead hq
  have hlaw := h.apply_lawful hq s.mailingDate
  have hl := h.lawful
  have h2 := h.ascending
  have h3 := h.numbers
  have h4 := h.credits
  have h5 := h.oneCredit
  have h6 := h.creditNumbers
  have h7 := h.closedOnce
  have h8 := h.open_
  have hfresh : s.accounts.n + 1 ∉ closings rest := fun hm => by
    have := h.closings_le (n := s.accounts.n + 1) (by rw [hq]; exact hm)
    omega
  rw [hq] at h2 h3 h4 h5 h6 h7 h8
  have hfunds := hh.funds
  simp only [List.map_cons, List.sum_cons, Write.commitAmount, Write.creditAmount, List.countP_cons, Write.isCommit, Write.isCredit, if_true,
    Bool.false_eq_true, if_false, Nat.add_zero, closings_cons_commit] at h2 h3 h4 h5 h7 h8
  have hopen : ∀ n ∈ closings rest, n ∈ (s.accounts.commitWrite tag p s.mailingDate).openOrders.map (·.n) := fun n hn => by
    have := h8 n hn
    dsimp only [Accounts.commitWrite]
    rw [List.map_append]
    exact List.mem_append_left _ this
  have hnew : s.accounts.n + 1 ∈ (s.accounts.commitWrite tag p s.mailingDate).openOrders.map (·.n) := by
    dsimp only [Accounts.commitWrite]
    simp
  rcases ht with ⟨htq, hts⟩ | ⟨hts, htq⟩
  · refine ⟨ha ▸ hlaw, ?_, ?_, ?_, ?_, ?_, ?_, ?_, ?_, ?_, ?_⟩ <;> rw [htq]
    · rw [hh.sum]; exact Nat.zero_le _
    · rw [ha, hh.sum]; dsimp only [Accounts.commitWrite]; omega
    · rw [ha, hh.commits]; exact hlaw.numbered
    · rw [ha]; dsimp only [Accounts.commitWrite]; omega
    · exact h5
    · exact fun w hw => h6 w (List.mem_cons_of_mem _ hw)
    · rw [hh.commits]; exact Nat.zero_le _
    · rw [hh.followUps]; exact Nat.zero_le _
    · exact h7
    · rw [ha]; exact hopen
  · rcases htq with htq | ⟨k, tg, htq⟩
    · refine ⟨ha ▸ hlaw, ?_, ?_, ?_, ?_, ?_, ?_, ?_, ?_, ?_, ?_⟩ <;> rw [htq]
      · rw [hh.sum]; exact Nat.zero_le _
      · rw [ha, hh.sum]; dsimp only [Accounts.commitWrite]; omega
      · rw [ha, hh.commits]; exact hlaw.numbered
      · rw [ha]; dsimp only [Accounts.commitWrite]; omega
      · exact h5
      · exact fun w hw => h6 w (List.mem_cons_of_mem _ hw)
      · rw [hh.commits]; exact Nat.zero_le _
      · rw [hh.followUps]; exact Nat.zero_le _
      · exact h7
      · rw [ha]; exact hopen
    · have hsum : ((rest ++ [Write.close k tg (s.accounts.n + 1) .commitUnit]).map Write.commitAmount).sum = 0 := by
        simp [Write.commitAmount, hh.sum]
      refine ⟨ha ▸ hlaw, ?_, ?_, ?_, ?_, ?_, ?_, ?_, ?_, ?_, ?_⟩ <;> rw [htq]
      · rw [hsum]; exact Nat.zero_le _
      · rw [ha, hsum]; dsimp only [Accounts.commitWrite]; omega
      · rw [ha, List.countP_append, hh.commits]; exact hlaw.numbered
      · rw [ha]; simp only [List.map_append, List.sum_append, List.map_cons, List.map_nil, List.sum_cons, List.sum_nil, Write.creditAmount]
        dsimp only [Accounts.commitWrite]; omega
      · rw [List.countP_append]; simpa [Write.isCredit] using h5
      · intro w hw
        rcases List.mem_append.1 hw with hw | hw
        · exact h6 w (List.mem_cons_of_mem _ hw)
        · rw [List.mem_singleton.1 hw]; intro c hc; cases hc
      · rw [List.countP_append, hh.commits]; simp [Write.isCommit]
      · rw [List.countP_append, hh.followUps, hts]; simp [Write.isFollowUp]
      · rw [closings_append]; exact nodup_append_singleton h7 hfresh
      · intro n hn
        rw [closings_append] at hn
        rw [ha]
        rcases List.mem_append.1 hn with hn | hn
        · exact hopen n hn
        · rw [List.mem_singleton.1 hn]; exact hnew

theorem powerOnSpoils_closings (a : Accounts) : closings a.powerOnSpoils = a.openOrders.map (·.n) := by
  unfold closings Accounts.powerOnSpoils
  rw [List.filterMap_map]
  induction a.openOrders with
  | nil => rfl
  | cons o l ih => simpa [Write.closing?] using ih

theorem powerOnSpoils_mem {a : Accounts} {w : Write} (h : w ∈ a.powerOnSpoils) : ∃ o : OpenOrder, w = .close .spoil o.tag o.n .powerOn := by
  obtain ⟨o, _, rfl⟩ := List.mem_map.1 h
  exact ⟨o, rfl⟩

/-- Accounts that keep the laws with an empty queue and an empty slot. -/
theorem accountsSafe_idle {t : State} (h : t.accounts.Lawful) (hq : t.queue = []) : t.AccountsSafe := by
  have hf := h.funds
  have hc := h.ceiling
  have hn := h.numbered
  refine ⟨h, ?_, ?_, ?_, ?_, ?_, ?_, ?_, ?_, ?_, ?_⟩ <;> rw [hq]
  · exact Nat.zero_le _
  · simpa using hc
  · simpa using hn
  · simpa using hf
  · exact Nat.zero_le _
  · intro w hw; cases hw
  · exact Nat.zero_le _
  · exact Nat.zero_le _
  · exact List.nodup_nil
  · intro n hn; cases hn

/-- Closing writes that are taken for open orders, none of them the commit unit's, join the queue (R99). -/
theorem State.AccountsSafe.closing {s : State} (hs : s.AccountsSafe) {ws : List Write}
    (hw : ∀ w ∈ ws, ∃ kind tag n by_, w = .close kind tag n by_ ∧ by_ ≠ .commitUnit) (ht : ∀ n ∈ closings ws, s.closeTaken n = true)
    (hd : (closings ws).Nodup) : State.AccountsSafe { s with queue := s.queue ++ ws } := by
  have hnone (f : Write → Nat) (hf : ∀ k tg n b, f (.close k tg n b) = 0) : (ws.map f).sum = 0 :=
    List.sum_eq_zero fun x hx => by
      obtain ⟨w, hwm, rfl⟩ := List.mem_map.1 hx
      obtain ⟨k, tg, n, b, rfl, _⟩ := hw w hwm
      exact hf k tg n b
  have hcnt (f : Write → Bool) (hf : ∀ k tg n b, b ≠ .commitUnit → f (.close k tg n b) = false) : ws.countP f = 0 :=
    List.countP_eq_zero.2 fun w hwm => by
      obtain ⟨k, tg, n, b, rfl, hb⟩ := hw w hwm
      simp [hf k tg n b hb]
  refine ⟨hs.lawful, ?_, ?_, ?_, ?_, ?_, ?_, ?_, ?_, ?_, ?_⟩
  · simpa [hnone Write.commitAmount fun _ _ _ _ => rfl] using hs.covered
  · simpa [hnone Write.commitAmount fun _ _ _ _ => rfl] using hs.ascending
  · simpa [List.countP_append, hcnt Write.isCommit fun _ _ _ _ _ => rfl] using hs.numbers
  · simpa [hnone Write.creditAmount fun _ _ _ _ => rfl] using hs.credits
  · simpa [List.countP_append, hcnt Write.isCredit fun _ _ _ _ _ => rfl] using hs.oneCredit
  · intro w hwm
    rcases List.mem_append.1 hwm with hwm | hwm
    · exact hs.creditNumbers w hwm
    · obtain ⟨k, tg, n, b, rfl, _⟩ := hw w hwm
      intro c hc; cases hc
  · simpa [List.countP_append, hcnt Write.isCommit fun _ _ _ _ _ => rfl] using hs.commits
  · have hf : ws.countP Write.isFollowUp = 0 := hcnt _ fun k tg n b hb => by cases b <;> first | rfl | exact absurd rfl hb
    simpa [List.countP_append, hf] using hs.followUps
  · show (closings (s.queue ++ ws)).Nodup
    rw [closings_append, List.nodup_append]
    exact ⟨hs.closedOnce, hd, fun x hx y hy e => (closeTaken_iff.1 (ht y hy)).2 (e ▸ hx)⟩
  · intro m hm
    have hm : m ∈ closings (s.queue ++ ws) := hm
    rw [closings_append] at hm
    rcases List.mem_append.1 hm with hm | hm
    · exact hs.open_ m hm
    · exact (closeTaken_iff.1 (ht m hm)).1

theorem Change.accountsSafe {e : Effect} {s t : State} (h : Change Q e s t) (hs : s.AccountsSafe) : t.AccountsSafe := by
  have hl := hs.lawful
  cases h with
  | takeCommit _ tag p o hf hd hr ho hp hsl hc =>
    obtain ⟨h1, h2⟩ := hs.none_queued hsl
    have h0 := commitAmount_sum_zero h1
    have hceil : s.accounts.a + s.accounts.e + p ≤ Config.aMax ∧ s.accounts.n ≠ Config.nMax := by
      unfold Accounts.ceilingFailure at hc
      split at hc <;> simp_all
    have hn := hl.numbered
    have hcr := hs.credits
    refine ⟨hl, ?_, ?_, ?_, ?_, ?_, ?_, ?_, ?_, ?_, ?_⟩
    · simp only [List.map_append, List.sum_append, h0, List.map_cons, List.map_nil, List.sum_cons, List.sum_nil, Write.commitAmount]; omega
    · simp only [List.map_append, List.sum_append, h0, List.map_cons, List.map_nil, List.sum_cons, List.sum_nil, Write.commitAmount]; omega
    · simp only [List.countP_append, h1, List.countP_cons, List.countP_nil, Write.isCommit, if_true]; omega
    · simp only [List.map_append, List.sum_append, List.map_cons, List.map_nil, List.sum_cons, List.sum_nil, Write.creditAmount]; omega
    · simpa [List.countP_append, Write.isCredit] using hs.oneCredit
    · intro w hw
      rcases List.mem_append.1 hw with hw | hw
      · exact hs.creditNumbers w hw
      · rw [List.mem_singleton.1 hw]; intro c hc; cases hc
    · simp [List.countP_append, h1, Write.isCommit]
    · simp [List.countP_append, h2, Write.isFollowUp]
    · simpa [closings_append] using hs.closedOnce
    · simpa [closings_append] using hs.open_
  | closeOrders _ os ws hk hw ht hd hc =>
    exact (hs.closing (fun w hwm => (hw w hwm).imp fun _ h => h.imp fun _ h => h.imp fun _ h => ⟨_, h, by decide⟩)
      (fun n hn => (ht n hn).1) hd).of_fields rfl rfl rfl
  | cleared _ ws hsl hw ht hd hc =>
    exact (hs.closing (fun w hwm => (hw w hwm).imp fun _ h => h.imp fun _ h => h.imp fun _ h => ⟨_, h, by decide⟩) ht hd).of_fields rfl rfl rfl
  | takeCredit _ r k amount hc =>
    have hno : s.queue.countP Write.isCredit = 0 ∧ k < Config.creditModulus ∧ s.accounts.d + s.accounts.e + amount ≤ Config.dMax := by
      unfold State.creditRefusal at hc
      split_ifs at hc with h1 h2 h3 h4
      refine ⟨?_, ?_, by omega⟩
      · rw [List.countP_eq_zero]
        intro w hw hwc
        exact h1 (List.any_eq_true.2 ⟨w, hw, hwc⟩)
      · rw [not_not.1 h3]; exact Nat.mod_lt _ (by decide)
    have h0 := creditAmount_sum_zero hno.1
    refine ⟨hl, ?_, ?_, ?_, ?_, ?_, ?_, ?_, ?_, ?_, ?_⟩
    · simpa [Write.commitAmount] using hs.covered
    · simpa [Write.commitAmount] using hs.ascending
    · simpa [List.countP_append, Write.isCommit] using hs.numbers
    · simp only [List.map_append, List.sum_append, h0, List.map_cons, List.map_nil, List.sum_cons, List.sum_nil, Write.creditAmount]; omega
    · simp [List.countP_append, hno.1, Write.isCredit]
    · intro w hw
      rcases List.mem_append.1 hw with hw | hw
      · exact hs.creditNumbers w hw
      · rw [List.mem_singleton.1 hw]; intro c hc; cases hc; exact hno.2.1
    · simpa [List.countP_append, Write.isCommit] using hs.commits
    · simpa [List.countP_append, Write.isFollowUp] using hs.followUps
    · simpa [closings_append] using hs.closedOnce
    · simpa [closings_append] using hs.open_
  | commitOrdered _ tag p rest hq => exact hs.commit_done hq rfl (.inl ⟨rfl, rfl⟩)
  | commitWithheld _ tag p rest hq slot hsl w c _ ps hp q hc =>
    refine hs.commit_done hq rfl (.inr ⟨rfl, ?_⟩)
    show q = rest ∨ ∃ k tg, q = rest ++ [.close k tg (s.accounts.n + 1) .commitUnit]
    rw [hc]
    split
    · exact .inr ⟨_, _, rfl⟩
    · exact .inl rfl
  | commitOrphan _ tag p rest hq hsl =>
    have := (hs.commitHead hq).slot
    rw [hsl] at this
    cases this
  | closeDone _ kind tag n by_ rest hq =>
    have hlaw := closeWrite_lawful hl kind n
    obtain ⟨b1, b2, b3, b4, b5⟩ := closeWrite_bounds hl kind n
    have h1 := hs.covered
    have h2 := hs.ascending
    have h3 := hs.numbers
    have h4 := hs.credits
    have h5 := hs.oneCredit
    have h6 := hs.creditNumbers
    have h7 := hs.commits
    have h8 := hs.followUps
    have h9 := hs.closedOnce
    have h10 := hs.open_
    rw [hq] at h1 h2 h3 h4 h5 h6 h7 h8 h9 h10
    simp only [List.map_cons, List.sum_cons, Write.commitAmount, Write.creditAmount, List.countP_cons, Write.isCommit, Write.isCredit,
      Bool.false_eq_true, if_false, Nat.add_zero, Nat.zero_add, closings_cons_close] at h1 h2 h3 h4 h5 h7 h9 h10
    rw [List.nodup_cons] at h9
    refine ⟨hlaw, ?_, ?_, ?_, ?_, h5, fun w hw => h6 w (List.mem_cons_of_mem _ hw), ?_, ?_, h9.2, fun m hm => ?_⟩
    · show (rest.map Write.commitAmount).sum ≤ (s.accounts.closeWrite kind n).d; omega
    · show (s.accounts.closeWrite kind n).a + (s.accounts.closeWrite kind n).e + (rest.map Write.commitAmount).sum ≤ _; omega
    · show (s.accounts.closeWrite kind n).n + rest.countP Write.isCommit ≤ _; omega
    · show (s.accounts.closeWrite kind n).d + (s.accounts.closeWrite kind n).e + (rest.map Write.creditAmount).sum ≤ _; omega
    · show rest.countP Write.isCommit ≤ (decide ((s.slotAfterClose by_).map (·.phase) = some .commit)).toNat
      unfold State.slotAfterClose
      split
      · rename_i hb
        subst hb
        simp only [List.countP_cons, Write.isFollowUp, if_true] at h8
        have hph : s.slot.map (·.phase) = some .followUp := by
          by_contra hne
          rw [decide_eq_false hne] at h8
          simp at h8
        rw [hph] at h7
        simpa using h7
      · exact h7
    · show rest.countP Write.isFollowUp ≤ (decide ((s.slotAfterClose by_).map (·.phase) = some .followUp)).toNat
      unfold State.slotAfterClose
      split
      · rename_i hb
        subst hb
        simp only [List.countP_cons, Write.isFollowUp, if_true] at h8
        have hb2 := Bool.toNat_le (decide (s.slot.map (·.phase) = some .followUp))
        have : rest.countP Write.isFollowUp = 0 := by omega
        rw [this]
        exact Nat.zero_le _
      · simp only [List.countP_cons] at h8
        omega
    · show m ∈ (s.accounts.closeWrite kind n).openOrders.map (·.n)
      obtain ⟨o, ho, rfl⟩ := List.mem_map.1 (h10 m (List.mem_cons_of_mem _ hm))
      rw [b5]
      refine List.mem_map.2 ⟨o, List.mem_filter.2 ⟨ho, ?_⟩, rfl⟩
      have hne : o.n ≠ n := fun e => h9.1 (by rw [← e]; exact hm)
      simpa using hne
  | creditDone _ r k amount rest hq =>
    have hlaw := hs.apply_lawful hq s.mailingDate
    have h1 := hs.covered
    have h2 := hs.ascending
    have h3 := hs.numbers
    have h4 := hs.credits
    have h5 := hs.oneCredit
    have h6 := hs.creditNumbers
    have h7 := hs.commits
    have h8 := hs.followUps
    have h9 := hs.closedOnce
    have h10 := hs.open_
    rw [hq] at h1 h2 h3 h4 h5 h6 h7 h8 h9 h10
    simp only [List.map_cons, List.sum_cons, Write.commitAmount, Write.creditAmount, List.countP_cons, Write.isCommit, Write.isCredit,
      Write.isFollowUp, Bool.false_eq_true, if_false, if_true, Nat.add_zero, Nat.zero_add, closings_cons_credit] at h1 h2 h3 h4 h5 h7 h8 h9 h10
    refine ⟨hlaw, ?_, h2, h3, ?_, ?_, fun w hw => h6 w (List.mem_cons_of_mem _ hw), h7, h8, h9, h10⟩
    · show (rest.map Write.commitAmount).sum ≤ s.accounts.d + amount; omega
    · show s.accounts.d + amount + s.accounts.e + (rest.map Write.creditAmount).sum ≤ _; omega
    · show rest.countP Write.isCredit ≤ 1; omega
  | slotMark =>
    refine hs.of_fields rfl rfl ?_
    show (s.slot.map CommitSlot.resetMarked).map (·.phase) = _
    rw [Option.map_map]
    congr 1
    funext c
    show c.resetMarked.phase = c.phase
    unfold CommitSlot.resetMarked
    split <;> rfl
  | warning => split <;> exact hs.of_fields rfl rfl rfl
  | lost _ a i h =>
    refine accountsSafe_idle ?_ rfl
    rcases h with rfl | ⟨w, rest, hq, _, rfl⟩
    · exact hl
    · exact hs.apply_lawful hq s.mailingDate
  | unpowered => exact accountsSafe_idle hl rfl
  | poweredOn _ service =>
    have hf := hl.funds
    have hc := hl.ceiling
    have hn := hl.numbered
    have hnc : ∀ f : Write → Nat, (∀ o : OpenOrder, f (.close .spoil o.tag o.n .powerOn) = 0) → (s.accounts.powerOnSpoils.map f).sum = 0 :=
      fun f hf => List.sum_eq_zero fun x hx => by
        obtain ⟨w, hw, rfl⟩ := List.mem_map.1 hx
        obtain ⟨o, rfl⟩ := powerOnSpoils_mem hw
        exact hf o
    have hcnt : ∀ f : Write → Bool, (∀ o : OpenOrder, f (.close .spoil o.tag o.n .powerOn) = false) → s.accounts.powerOnSpoils.countP f = 0 :=
      fun f hf => List.countP_eq_zero.2 fun w hw => by
        obtain ⟨o, rfl⟩ := powerOnSpoils_mem hw
        simp [hf o]
    refine ⟨hl, ?_, ?_, ?_, ?_, ?_, fun w hw => ?_, ?_, ?_, ?_, ?_⟩
    · show (s.accounts.powerOnSpoils.map _).sum ≤ _
      rw [hnc _ fun _ => rfl]; exact Nat.zero_le _
    · show _ + (s.accounts.powerOnSpoils.map _).sum ≤ _
      rw [hnc _ fun _ => rfl]; exact hc
    · show _ + s.accounts.powerOnSpoils.countP _ ≤ _
      rw [hcnt _ fun _ => rfl]; exact hn
    · show _ + (s.accounts.powerOnSpoils.map _).sum ≤ _
      rw [hnc _ fun _ => rfl]; exact hf
    · show s.accounts.powerOnSpoils.countP _ ≤ _
      rw [hcnt _ fun _ => rfl]; exact Nat.zero_le _
    · obtain ⟨o, rfl⟩ := powerOnSpoils_mem hw
      intro c hc; cases hc
    · show s.accounts.powerOnSpoils.countP _ ≤ _
      rw [hcnt _ fun _ => rfl]; exact Nat.zero_le _
    · show s.accounts.powerOnSpoils.countP _ ≤ _
      rw [hcnt _ fun _ => rfl]; exact Nat.zero_le _
    · show (closings s.accounts.powerOnSpoils).Nodup
      rw [powerOnSpoils_closings]
      exact hl.sequence.imp fun h => Nat.ne_of_lt h
    · show ∀ n ∈ closings s.accounts.powerOnSpoils, n ∈ s.accounts.openOrders.map (·.n)
      rw [powerOnSpoils_closings]
      exact fun n hn => hn
  | _ => exact hs.of_fields rfl rfl rfl

end Sys2Proof.Machine
end

