-- ==== Sys2Proof/Laws/Lists.lean ====
section
/-! SUPPORT. The piece list and the job list (R1, R2, R138, R141, R143, R144): what each change does to `State.ListsSafe`. -/

namespace Sys2Proof.Machine

variable {Q : Prop}

/-! ## The jobs beside the pieces' references to them -/

/-- What `State.ListsSafe` says of the jobs and of the pieces' references, but for the jobs that are done. -/
structure JobsCore (refs : List (Option Nat)) (js : List Job) : Prop where
  jobs : js.length ≤ Config.maxJobs
  slots : (js.map (·.slot)).Nodup
  slotRange : ∀ j ∈ js, j.slot < Config.maxJobs
  ids : (js.map (·.values.id)).Nodup
  current : (js.filter Job.isCurrent).length ≤ 1
  counted : ∀ j ∈ js, j.inList = refs.count (some j.slot)
  referred : ∀ slot, some slot ∈ refs → slot ∈ js.map (·.slot)

theorem State.ListsSafe.core {s : State} (h : s.ListsSafe) : JobsCore (s.pieces.map (·.job)) s.jobs :=
  ⟨h.jobs, h.slots, h.slotRange, h.ids, h.current, h.counted, h.referred⟩

theorem State.ListsSafe.of_core {s : State} (hp : s.pieces.length ≤ Config.maxPieces) (ht : (s.pieces.map (·.tag)).Nodup)
    (hc : JobsCore (s.pieces.map (·.job)) s.jobs) (hu : ∀ j ∈ s.jobs, j.done = false) : s.ListsSafe :=
  ⟨hp, ht, hc.jobs, hc.slots, hc.slotRange, hc.ids, hc.current, hc.counted, hc.referred, hu⟩

theorem mem_atSlot {slot : Nat} {f : Job → Job} {js : List Job} {x : Job} (h : x ∈ atSlot slot f js) :
    ∃ j, (j ∈ js ∧ j.slot = slot ∧ x = f j) ∨ (j ∈ js ∧ j.slot ≠ slot ∧ x = j) := by
  obtain ⟨j, hj, rfl⟩ := List.mem_map.1 h
  by_cases hs : j.slot = slot
  · exact ⟨j, .inl ⟨hj, hs, by simp [hs]⟩⟩
  · exact ⟨j, .inr ⟨hj, hs, by simp [hs]⟩⟩

/-- A change of one slot's record that keeps its place and makes it CURRENT only if it was, with the references that it then counts. -/
theorem JobsCore.atSlot {refs refs' : List (Option Nat)} {js : List Job} (h : JobsCore refs js) {slot : Nat} {f : Job → Job}
    (hk : ∀ j, (f j).key = j.key) (hc : ∀ j, (f j).isCurrent = true → j.isCurrent = true)
    (hin : ∀ j ∈ js, j.slot = slot → (f j).inList = refs'.count (some slot))
    (hother : ∀ k, k ≠ slot → refs'.count (some k) = refs.count (some k))
    (hr : ∀ k, some k ∈ refs' → k ∈ js.map (·.slot)) : JobsCore refs' (atSlot slot f js) := by
  have hslot : ∀ j, (f j).slot = j.slot := fun j => congrArg Prod.fst (hk j)
  have hslots : (Machine.atSlot slot f js).map (·.slot) = js.map (·.slot) := atSlot_map _ hslot _ _
  have hids : (Machine.atSlot slot f js).map (·.values.id) = js.map (·.values.id) := atSlot_map _ (fun j => congrArg Prod.snd (hk j)) _ _
  refine ⟨?_, hslots ▸ h.slots, fun x hx => ?_, hids ▸ h.ids, ?_, fun x hx => ?_, fun k hkr => hslots ▸ hr k hkr⟩
  · have := congrArg List.length hslots
    simp only [List.length_map] at this
    exact this ▸ h.jobs
  · obtain ⟨y, hy, hyx⟩ := List.mem_map.1 (hslots ▸ List.mem_map.2 ⟨x, hx, rfl⟩ : x.slot ∈ js.map (·.slot))
    exact hyx ▸ h.slotRange y hy
  · refine le_trans ?_ h.current
    rw [← List.countP_eq_length_filter, ← List.countP_eq_length_filter, Machine.atSlot, List.countP_map]
    refine List.countP_mono_left fun j _ => ?_
    simp only [Function.comp_apply]
    split
    · exact hc j
    · exact id
  · obtain ⟨j, ⟨hj, hs, rfl⟩ | ⟨hj, hs, rfl⟩⟩ := mem_atSlot hx
    · rw [hslot, hs]; exact hin j hj hs
    · rw [hother _ hs]; exact h.counted x hj

/-- The test of one slot for a done job: where no other is done, none is left. -/
theorem JobsCore.dropDone {refs : List (Option Nat)} {js : List Job} (h : JobsCore refs js) (slot : Nat)
    (hu : ∀ j ∈ js, j.slot ≠ slot → j.done = false) :
    JobsCore refs (dropDone slot js) ∧ ∀ j ∈ Machine.dropDone slot js, j.done = false := by
  unfold Machine.dropDone
  cases hf : js.find? (·.slot == slot) with
  | none =>
    refine ⟨h, fun j hj => hu j hj fun e => ?_⟩
    have := List.find?_eq_none.1 hf j hj
    simp [e] at this
  | some j =>
    obtain ⟨hj, hjs⟩ : j ∈ js ∧ j.slot = slot := ⟨List.mem_of_find?_eq_some hf, by simpa using List.find?_some hf⟩
    simp only
    by_cases hd : j.done = true
    · rw [if_pos hd]
      have hsub : (js.filter (·.slot != slot)).Sublist js := List.filter_sublist
      have hzero : refs.count (some slot) = 0 := by
        have := h.counted j hj
        rw [hjs] at this
        unfold Job.done at hd
        simp only [Bool.and_eq_true, beq_iff_eq] at hd
        omega
      refine ⟨⟨hsub.length_le.trans h.jobs, (hsub.map _).nodup h.slots, fun x hx => h.slotRange x (hsub.subset hx), (hsub.map _).nodup h.ids, ?_,
        fun x hx => h.counted x (hsub.subset hx), fun k hk => ?_⟩, fun x hx => hu x (hsub.subset hx) (by simpa using (List.mem_filter.1 hx).2)⟩
      · exact (hsub.filter _).length_le.trans h.current
      · obtain ⟨x, hx, rfl⟩ := List.mem_map.1 (h.referred k hk)
        refine List.mem_map.2 ⟨x, List.mem_filter.2 ⟨hx, ?_⟩, rfl⟩
        have : x.slot ≠ slot := fun e => by
          rw [List.count_eq_zero] at hzero
          exact hzero (e ▸ hk)
        simpa using this
    · rw [if_neg hd]
      refine ⟨h, fun x hx => ?_⟩
      by_cases hs : x.slot = slot
      · have : x = j := List.inj_on_of_nodup_map h.slots hx hj (hs.trans hjs.symm)
        rw [this]
        simpa using hd
      · exact hu x hx hs

/-- With distinct tags, a record's leaving takes one reference off its job's count and none off any other's. -/
theorem count_leave {ps : List Piece} (hn : (ps.map (·.tag)).Nodup) {p : Piece} (hp : p ∈ ps) (k : Option Nat) :
    ((ps.filter (·.tag != p.tag)).map (·.job)).count k + (if p.job = k then 1 else 0) = (ps.map (·.job)).count k := by
  induction ps with
  | nil => cases hp
  | cons x ps ih =>
    rw [List.map_cons, List.nodup_cons] at hn
    rcases List.mem_cons.1 hp with rfl | hp
    · have hall : ps.filter (·.tag != p.tag) = ps := List.filter_eq_self.2 fun y hy => by
        have : y.tag ≠ p.tag := fun e => hn.1 (e ▸ List.mem_map.2 ⟨y, hy, rfl⟩)
        simpa using this
      rw [List.filter_cons_of_neg (by simp), hall, List.map_cons, List.count_cons]
      simp
    · have hne : (x.tag != p.tag) = true := by
        have : x.tag ≠ p.tag := fun e => hn.1 (e ▸ List.mem_map.2 ⟨p, hp, rfl⟩)
        simpa using this
      rw [List.filter_cons, if_pos hne, List.map_cons, List.map_cons, List.count_cons, List.count_cons, ← ih hn.2 hp]
      omega

/-! ## The two lists -/

theorem empty_listsSafe : State.reset.ListsSafe :=
  ⟨by decide, by decide, by decide, by decide, by decide, by decide, by decide, (fun _ h => nomatch h), (fun _ h => nomatch h),
    (fun _ h => nomatch h)⟩

/-- The two lists stand, but for what a piece is not known by. -/
theorem State.ListsSafe.of_lists {s t : State} (h : s.ListsSafe) (hp : t.pieces.map (fun p => (p.tag, p.job)) = s.pieces.map fun p => (p.tag, p.job))
    (hj : t.jobs = s.jobs) : t.ListsSafe := by
  have ht : t.pieces.map (·.tag) = s.pieces.map (·.tag) := by
    have := congrArg (List.map Prod.fst) hp
    simpa [List.map_map, Function.comp_def] using this
  have hr : t.pieces.map (·.job) = s.pieces.map (·.job) := by
    have := congrArg (List.map Prod.snd) hp
    simpa [List.map_map, Function.comp_def] using this
  have hl := congrArg List.length ht
  simp only [List.length_map] at hl
  exact .of_core (hl ▸ h.pieces) (ht ▸ h.tags) (by rw [hr, hj]; exact h.core) (hj ▸ h.undone)

/-- An ENTER placed under a job, or under none (R142). -/
theorem State.ListsSafe.entered {s : State} (h : s.ListsSafe) {p : Piece} (hl : s.pieces.length < Config.maxPieces)
    (ht : p.tag ∉ s.pieces.map (·.tag)) (hj : ∀ slot, p.job = some slot → slot ∈ s.jobs.map (·.slot)) :
    State.ListsSafe { s with pieces := s.pieces ++ [p], jobs := assignJob p.job s.jobs } := by
  have hrefs : (s.pieces ++ [p]).map (·.job) = s.pieces.map (·.job) ++ [p.job] := by simp
  have hcount (k : Nat) : ((s.pieces ++ [p]).map (·.job)).count (some k) =
      (s.pieces.map (·.job)).count (some k) + if p.job = some k then 1 else 0 := by
    rw [hrefs, List.count_append, List.count_singleton]
    simp
  refine .of_core (by simpa using hl) (by simpa using nodup_append_singleton h.tags ht) ?_ ?_
  · show JobsCore ((s.pieces ++ [p]).map (·.job)) (assignJob p.job s.jobs)
    cases hjob : p.job with
    | none =>
      refine ⟨h.jobs, h.slots, h.slotRange, h.ids, h.current, fun j hjm => ?_, fun k hk => ?_⟩
      · rw [hcount, hjob, if_neg (by simp), Nat.add_zero]; exact h.counted j hjm
      · rw [hrefs, hjob] at hk
        exact h.referred k (by simpa using hk)
    | some slot =>
      refine h.core.atSlot (f := Job.assigned) (fun _ => rfl) (fun j hc => ?_) (fun j hjm hjs => ?_) (fun k hk => ?_) fun k hk => ?_
      · by_contra hn
        unfold Job.assigned Job.isCurrent at hc
        unfold Job.isCurrent at hn
        simp only [decide_eq_true_eq] at hc hn
        split at hc
        · cases hc
        · exact hn hc
      · rw [hcount, hjob, if_pos rfl, ← hjs, ← h.counted j hjm]; rfl
      · rw [hcount, hjob, if_neg (by simpa using Ne.symm hk), Nat.add_zero]
      · rw [hrefs, List.mem_append] at hk
        rcases hk with hk | hk
        · exact h.referred k hk
        · exact hj k (List.mem_singleton.1 hk).symm
  · show ∀ j ∈ assignJob p.job s.jobs, j.done = false
    cases p.job with
    | none => exact h.undone
    | some slot =>
      intro x hx
      obtain ⟨j, ⟨hjm, _, rfl⟩ | ⟨hjm, _, rfl⟩⟩ := mem_atSlot hx
      · simp [Job.done, Job.assigned]
      · exact h.undone x hjm

/-- A record's leaving (R10, R143, R144). -/
theorem State.ListsSafe.left {s : State} (h : s.ListsSafe) {tag : Nat} {p : Piece} (hp : s.piece? tag = some p) :
    State.ListsSafe { s with pieces := s.pieces.filter (·.tag != tag), jobs := releaseJob p.job s.jobs } := by
  obtain ⟨hm, rfl⟩ := piece?_mem hp
  have hcount := count_leave h.tags hm
  have hmem (k : Nat) (hk : some k ∈ (s.pieces.filter (·.tag != p.tag)).map (·.job)) : k ∈ s.jobs.map (·.slot) :=
    h.referred k ((List.filter_sublist.map _).subset hk)
  have key : JobsCore ((s.pieces.filter (·.tag != p.tag)).map (·.job)) (releaseJob p.job s.jobs) ∧ ∀ j ∈ releaseJob p.job s.jobs, j.done = false := by
    cases hjob : p.job with
    | none =>
      refine ⟨⟨h.jobs, h.slots, h.slotRange, h.ids, h.current, fun j hj => ?_, hmem⟩, h.undone⟩
      have := hcount (some j.slot)
      rw [hjob, if_neg (by simp), Nat.add_zero] at this
      rw [this]
      exact h.counted j hj
    | some slot =>
      have hown := hcount (some slot)
      rw [hjob, if_pos rfl] at hown
      refine JobsCore.dropDone (h.core.atSlot (f := Job.released) (fun _ => rfl) (fun _ => id) (fun j hj hjs => ?_) (fun k hk => ?_) hmem) slot
        fun x hx hs => ?_
      · have := h.counted j hj
        rw [hjs] at this
        show j.inList - 1 = _
        omega
      · have := hcount (some k)
        rw [hjob, if_neg (by simpa using Ne.symm hk), Nat.add_zero] at this
        exact this
      · obtain ⟨j, ⟨hj, hjs, rfl⟩ | ⟨hj, _, rfl⟩⟩ := mem_atSlot hx
        · exact absurd hjs hs
        · exact h.undone x hj
  exact .of_core ((List.length_filter_le _ _).trans h.pieces) ((List.filter_sublist.map _).nodup h.tags) key.1 key.2

/-- A JOB_ABORT (R144, R145). -/
theorem State.ListsSafe.aborted {s : State} (h : s.ListsSafe) (slot : Nat) :
    State.ListsSafe { s with jobs := dropDone slot (atSlot slot Job.aborted s.jobs) } := by
  have key := JobsCore.dropDone (h.core.atSlot (slot := slot) (f := Job.aborted) (fun _ => rfl) (fun j hc => by simp [Job.aborted, Job.isCurrent] at hc)
    (fun j hj hjs => hjs ▸ h.counted j hj) (fun _ _ => rfl) h.referred) slot fun x hx hs => by
      obtain ⟨j, ⟨_, hjs, rfl⟩ | ⟨hj, _, rfl⟩⟩ := mem_atSlot hx
      · exact absurd hjs hs
      · exact h.undone x hj
  exact .of_core h.pieces h.tags key.1 key.2

/-- The head WAITING record becomes CURRENT where none is (R141). -/
theorem State.ListsSafe.madeCurrent {s : State} (h : s.ListsSafe) {j : Job} (hc : s.currentJob = none) :
    State.ListsSafe (s.updateJob j.slot fun j => { j with state := .current }) := by
  have hmap {α : Type} (g : Job → α) (hg : ∀ j : Job, g { j with state := .current } = g j) :
      (atSlot j.slot (fun j => { j with state := .current }) s.jobs).map g = s.jobs.map g := atSlot_map g hg _ _
  have hslots := hmap (·.slot) fun _ => rfl
  have hnone : ∀ x ∈ s.jobs, x.isCurrent = false := fun x hx => by
    simpa [Job.isCurrent] using List.find?_eq_none.1 hc x hx
  refine .of_core h.pieces h.tags ⟨by simpa using h.jobs, hslots ▸ h.slots, fun x hx => ?_, hmap (·.values.id) (fun _ => rfl) ▸ h.ids, ?_,
    fun x hx => ?_, fun k hk => hslots ▸ h.referred k hk⟩ fun x hx => ?_
  · obtain ⟨y, hy, hyx⟩ := List.mem_map.1 (hslots ▸ List.mem_map.2 ⟨x, hx, rfl⟩ : x.slot ∈ s.jobs.map (·.slot))
    exact hyx ▸ h.slotRange y hy
  · show ((atSlot j.slot (fun j => { j with state := .current }) s.jobs).filter Job.isCurrent).length ≤ 1
    rw [← List.countP_eq_length_filter, atSlot, List.countP_map]
    have hcount := List.nodup_iff_count_le_one.1 h.slots j.slot
    rw [List.count, List.countP_map] at hcount
    refine le_trans (List.countP_mono_left fun x hx hcur => ?_) hcount
    simp only [Function.comp_apply] at hcur ⊢
    by_contra hne
    rw [if_neg hne, hnone x hx] at hcur
    cases hcur
  · obtain ⟨y, ⟨hy, _, rfl⟩ | ⟨hy, _, rfl⟩⟩ := mem_atSlot hx
    · exact h.counted y hy
    · exact h.counted x hy
  · obtain ⟨y, ⟨hy, _, rfl⟩ | ⟨hy, _, rfl⟩⟩ := mem_atSlot hx
    · simp [Job.done]
    · exact h.undone x hy

/-- A change of every job that keeps its place, its state and its count of records. -/
theorem State.ListsSafe.mapJobs {s : State} (h : s.ListsSafe) {f : Job → Job} (hk : ∀ j, (f j).key = j.key) (hs : ∀ j, (f j).state = j.state)
    (hl : ∀ j, (f j).inList = j.inList) : State.ListsSafe { s with jobs := s.jobs.map f } := by
  have hslot : ∀ j, (f j).slot = j.slot := fun j => congrArg Prod.fst (hk j)
  have hslots : (s.jobs.map f).map (·.slot) = s.jobs.map (·.slot) := by rw [List.map_map]; exact List.map_congr_left fun j _ => hslot j
  have hids : (s.jobs.map f).map (·.values.id) = s.jobs.map (·.values.id) := by
    rw [List.map_map]; exact List.map_congr_left fun j _ => congrArg Prod.snd (hk j)
  have hmem : ∀ x ∈ s.jobs.map f, ∃ j ∈ s.jobs, x.slot = j.slot ∧ x.state = j.state ∧ x.inList = j.inList := fun x hx => by
    obtain ⟨j, hj, rfl⟩ := List.mem_map.1 hx
    exact ⟨j, hj, hslot j, hs j, hl j⟩
  refine .of_core h.pieces h.tags ⟨by simpa using h.jobs, hslots ▸ h.slots, fun x hx => ?_, hids ▸ h.ids, ?_, fun x hx => ?_,
    fun k hk => hslots ▸ h.referred k hk⟩ fun x hx => ?_
  · obtain ⟨j, hj, e, _⟩ := hmem x hx
    rw [e]; exact h.slotRange j hj
  · show ((s.jobs.map f).filter Job.isCurrent).length ≤ 1
    rw [← List.countP_eq_length_filter, List.countP_map]
    have : Job.isCurrent ∘ f = Job.isCurrent := funext fun j => by simp [Job.isCurrent, hs]
    rw [this, List.countP_eq_length_filter]
    exact h.current
  · obtain ⟨j, hj, e, _, e'⟩ := hmem x hx
    rw [e, e']; exact h.counted j hj
  · obtain ⟨j, hj, _, e, e'⟩ := hmem x hx
    have := h.undone j hj
    unfold Job.done at this ⊢
    rw [e, e']; exact this

/-- A record that JOB_ADD appends (R140). -/
theorem State.ListsSafe.jobAdded {s : State} (h : s.ListsSafe) {j : Job} (hl : s.jobs.length < Config.maxJobs) (hs : j.slot < Config.maxJobs)
    (hn : j.slot ∉ s.jobs.map (·.slot)) (hi : j.values.id ∉ s.jobs.map (·.values.id)) (hw : j.state = .waiting) (hz : j.inList = 0) :
    State.ListsSafe { s with jobs := s.jobs ++ [j] } := by
  refine .of_core h.pieces h.tags ⟨by simpa using hl, ?_, fun x hx => ?_, ?_, ?_, fun x hx => ?_, fun k hk => ?_⟩ fun x hx => ?_
  · show ((s.jobs ++ [j]).map (·.slot)).Nodup
    rw [List.map_append]; exact nodup_append_singleton h.slots hn
  · rcases List.mem_append.1 hx with hx | hx
    · exact h.slotRange x hx
    · rw [List.mem_singleton.1 hx]; exact hs
  · show ((s.jobs ++ [j]).map (·.values.id)).Nodup
    rw [List.map_append]; exact nodup_append_singleton h.ids hi
  · simpa [List.filter_append, Job.isCurrent, hw] using h.current
  · rcases List.mem_append.1 hx with hx | hx
    · exact h.counted x hx
    · rw [List.mem_singleton.1 hx, hz]
      exact (List.count_eq_zero.2 fun hm => hn (h.referred _ hm)).symm
  · show k ∈ (s.jobs ++ [j]).map (·.slot)
    rw [List.map_append]
    exact List.mem_append_left _ (h.referred k hk)
  · rcases List.mem_append.1 hx with hx | hx
    · exact h.undone x hx
    · rw [List.mem_singleton.1 hx]; simp [Job.done, hw]

theorem Change.listsSafe {e : Effect} {s t : State} (h : Change Q e s t) (hs : s.ListsSafe) : t.ListsSafe := by
  cases h with
  | pieces _ f ht hj =>
    refine hs.of_lists ?_ rfl
    show (s.pieces.map f).map _ = _
    rw [List.map_map]
    exact List.map_congr_left fun p _ => Prod.ext (ht p) (hj p)
  | enter _ p _ hl ht hj => exact hs.entered hl ht hj
  | leave _ tag p hp => exact hs.left hp
  | jobs _ f hk hst hl => exact hs.mapJobs hk hst hl
  | abort _ slot => exact hs.aborted slot
  | cleared => exact State.ListsSafe.of_lists (s := State.reset) empty_listsSafe rfl rfl
  | currentJob _ j hc => exact hs.madeCurrent hc
  | addJob _ j _ hl hsl hn hi hw hz => exact hs.jobAdded hl hsl hn hi hw hz
  | takeCommit _ tag => exact hs.of_lists (atTag_map (f := Piece.committing) _ (fun _ => rfl) _ _) rfl
  | commitOrdered _ _ _ _ _ slot _ _ c =>
    exact hs.of_lists (atTag_map _ (fun p => Prod.ext (Piece.ordered_tag c p) (Piece.ordered_job c p)) _ _) rfl
  | commitWithheld _ _ _ _ _ slot _ w c _ ps hp =>
    refine hs.of_lists ?_ rfl
    show ps.map _ = _
    rw [hp]
    split
    · rfl
    · exact atTag_map _ (fun p => Prod.ext (Piece.filled_tag c p) (Piece.filled_job c p)) _ _
  | closeDone _ _ _ n _ _ _ d => exact hs.of_lists (endNumber_map _ (fun _ _ => rfl) n d _) rfl
  | warning => split <;> exact hs.of_lists rfl rfl
  | unpowered => exact State.ListsSafe.of_lists (s := State.reset) empty_listsSafe rfl rfl
  | poweredOn => exact State.ListsSafe.of_lists (s := State.reset) empty_listsSafe rfl rfl
  | _ => exact hs.of_lists rfl rfl

end Sys2Proof.Machine
end

