-- ==== Sys2Proof/Laws/Orders.lean ====
section
/-! SUPPORT. The open orders, the outstanding orders and the records they belong to: what each change does to `State.OrdersSafe`. -/

namespace Sys2Proof.Machine

variable {Q : Prop}

/-! ## Open and outstanding orders (R97, R99, R126) -/

theorem clamp_bounds {lo hi v : Nat} (h : lo ≤ hi) : lo ≤ clamp lo hi v ∧ clamp lo hi v ≤ hi := by
  unfold clamp
  split_ifs <;> omega

theorem unclosed_le_three_of_no_commit {s : State} {q : List Write} (hq : s.queue = q) (h : q.countP Write.isCommit = 0) :
    ∀ pre w post, s.queue = pre ++ w :: post → w.isCommit = true → (s.accounts.unclosed pre).length ≤ 3 := by
  intro pre w post hsplit hw
  rw [hq] at hsplit
  exact absurd hw (List.countP_eq_zero.1 h w (hsplit ▸ by simp))

/-- A COMMIT that stands in a queue with writes of other kinds at its end stood in the queue before. -/
theorem split_append_others {q ws pre post : List Write} {w : Write} (h : q ++ ws = pre ++ w :: post) (hw : w.isCommit = true)
    (hws : ws.countP Write.isCommit = 0) : ∃ post', q = pre ++ w :: post' := by
  rcases List.append_eq_append_iff.1 h with ⟨as, h1, h2⟩ | ⟨bs, h1, h2⟩
  · exact absurd hw (List.countP_eq_zero.1 hws w (by rw [h2]; simp))
  · cases bs with
    | nil => exact absurd hw (List.countP_eq_zero.1 hws w (by rw [List.nil_append] at h2; rw [← h2]; simp))
    | cons x bs =>
      rw [List.cons_append, List.cons.injEq] at h2
      exact ⟨bs, by rw [h1, h2.1]⟩

theorem unclosed_nil (a : Accounts) : a.unclosed [] = a.openOrders := by
  unfold Accounts.unclosed
  exact List.filter_eq_self.2 fun o _ => rfl

/-- The properties of orders that do not look at the accounts, the queue, the slot or the orders. -/
theorem State.OrderBounds.of_fields {s t : State} (h : s.OrderBounds) (hm : t.settings.maxOutstanding = s.settings.maxOutstanding)
    (ho : t.orders = s.orders) (hsl : t.slot.isSome = s.slot.isSome) (ha : t.accounts = s.accounts) (hq : t.queue = s.queue)
    (hp : t.power = s.power) : t.OrderBounds :=
  ⟨hm ▸ h.maximum, by rw [ho, hsl]; exact h.outstanding, by rw [ho]; exact h.sequence, by rw [ho, ha]; exact h.issued,
   by rw [ha]; exact h.bounded, by rw [hq, ha]; exact h.room, by rw [hp, hq]; exact h.idle, by rw [hp, ha, ho, hq]; exact h.accounted⟩

theorem apply_n_le (a : Accounts) (date : Option Nat) (w : Write) : a.n ≤ (a.apply date w).n := by
  cases w with
  | commit tag p => exact Nat.le_succ _
  | close kind tag n by_ =>
    show a.n ≤ (a.closeWrite kind n).n
    unfold Accounts.closeWrite
    split
    · exact le_refl _
    · split <;> exact le_refl _
  | credit r k amount => exact le_refl _

/-- The whole effect of the write at the head leaves at most 4 open orders. -/
theorem apply_bounded {s : State} (h : s.OrderBounds) {w : Write} {rest : List Write} (hq : s.queue = w :: rest) (date : Option Nat) :
    (s.accounts.apply date w).openOrders.length ≤ 4 := by
  have hb := h.bounded
  cases w with
  | commit tag p =>
    have := h.room [] (.commit tag p) rest hq rfl
    rw [unclosed_nil] at this
    show (s.accounts.openOrders ++ [_]).length ≤ 4
    simp only [List.length_append, List.length_singleton]
    omega
  | close kind tag n by_ =>
    show (s.accounts.closeWrite kind n).openOrders.length ≤ 4
    unfold Accounts.closeWrite
    split
    · exact hb
    · split <;> exact (List.length_filter_le _ _).trans hb
  | credit r k amount => exact hb

/-- The open orders that no queued closing write will close are among the outstanding ones. -/
theorem unclosed_le_orders {s : State} (ha : s.AccountsSafe) (h : s.OrderBounds) (hp : s.power = .on) :
    (s.accounts.unclosed s.queue).length ≤ s.orders.length := by
  have hsub : (s.accounts.unclosed s.queue).map (·.n) ⊆ s.orders.map (·.n) := fun n hn => by
    obtain ⟨o, ho, rfl⟩ := List.mem_map.1 hn
    obtain ⟨ho, hc⟩ := List.mem_filter.1 ho
    rcases h.accounted hp o.n (List.mem_map.2 ⟨o, ho, rfl⟩) with h | h
    · exact h
    · exfalso
      simp only [Bool.not_eq_true', List.contains_eq_mem, decide_eq_false_iff_not] at hc
      exact hc h
  have hnd : ((s.accounts.unclosed s.queue).map (·.n)).Nodup :=
    (ha.lawful.sequence.sublist (List.filter_sublist.map _)).imp fun h => Nat.ne_of_lt h
  have := (hnd.subperm hsub).length_le
  simpa using this

theorem slotAfterClose_le (s : State) (by_ : Requester) : (s.slotAfterClose by_).isSome.toNat ≤ s.slot.isSome.toNat := by
  unfold State.slotAfterClose
  split
  · exact Nat.zero_le _
  · exact le_refl _

/-- Entries leave the outstanding-order list, and closing writes join the queue, one for each open order of theirs that has none (R128, R136). -/
theorem State.OrderBounds.closing {s t : State} (hs : s.OrderBounds) (hon : s.power = .on) {ws : List Write}
    (hm : t.settings.maxOutstanding = s.settings.maxOutstanding) (hk : t.orders.Sublist s.orders) (hsl : t.slot.isSome = s.slot.isSome)
    (ha : t.accounts = s.accounts) (hq : t.queue = s.queue ++ ws) (hp : t.power = s.power) (hw : ∀ w ∈ ws, ∃ kind tag n by_, w = .close kind tag n by_)
    (hc : ∀ o ∈ s.orders, o.n ∉ t.orders.map (·.n) → State.closeTaken { s with queue := s.queue ++ ws } o.n = false) : t.OrderBounds := by
  have hout := hs.outstanding
  have hlen := hk.length_le
  have hnc : ws.countP Write.isCommit = 0 := List.countP_eq_zero.2 fun w hwm => by
    obtain ⟨k, tg, n, b, rfl⟩ := hw w hwm
    simp [Write.isCommit]
  refine ⟨hm ▸ hs.maximum, by rw [hsl]; omega, hs.sequence.sublist (hk.map _), fun o ho => by rw [ha]; exact hs.issued o (hk.subset ho),
    by rw [ha]; exact hs.bounded, fun pre w post hsplit hwc => ?_, fun hn => absurd (hp.trans hon) hn, fun _ n hn => ?_⟩
  · obtain ⟨post', h⟩ := split_append_others (hq ▸ hsplit) hwc hnc
    rw [ha]
    exact hs.room pre w post' h hwc
  · rw [ha] at hn
    rw [hq, closings_append]
    rcases hs.accounted hon n hn with h | h
    · by_cases hno : n ∈ t.orders.map (·.n)
      · exact .inl hno
      · obtain ⟨o, ho, rfl⟩ := List.mem_map.1 h
        have hct := hc o ho hno
        right
        by_contra hcl
        rw [← closings_append] at hcl
        have htaken : State.closeTaken { s with queue := s.queue ++ ws } o.n = true := closeTaken_iff.2 ⟨hn, hcl⟩
        rw [htaken] at hct
        cases hct
    · exact .inr (List.mem_append_left _ h)

theorem Change.orderBounds {e : Effect} {s t : State} (h : Change Q e s t) (hpw : s.power = .on ∨ e ∈ powerEffects) (ha : s.AccountsSafe)
    (hs : s.OrderBounds) : t.OrderBounds := by
  have hout := hs.outstanding
  cases h with
  | takeCommit _ tag p o hf hd hr ho hp hsl hc =>
    have hon : s.power = .on := hpw.resolve_right (by decide)
    have hmax := hs.maximum
    have h0 := (ha.none_queued hsl).1
    refine ⟨hs.maximum, ?_, hs.sequence, hs.issued, hs.bounded, fun pre w post hsplit hwc => ?_, fun hn => absurd hon hn, fun hp n hn => ?_⟩
    · show s.orders.length + 1 ≤ 4; omega
    · have hpre : pre = s.queue := by
        rcases List.eq_nil_or_concat post with rfl | ⟨post', y, rfl⟩
        · exact (List.append_inj' hsplit rfl).1.symm
        · have h' : s.queue ++ [.commit tag p] = (pre ++ w :: post') ++ [y] := by simpa using hsplit
          have := (List.append_inj' h' rfl).1
          exact absurd hwc (List.countP_eq_zero.1 h0 w (this ▸ by simp))
      rw [hpre]
      have := unclosed_le_orders ha hs hon
      show (s.accounts.unclosed s.queue).length ≤ 3
      omega
    · refine (hs.accounted hon n hn).imp_right fun h => ?_
      show n ∈ closings (s.queue ++ [_])
      rw [closings_append]
      exact List.mem_append_left _ h
  | closeOrders _ os ws hk hw ht hd hc =>
    exact hs.closing (hpw.resolve_right (by decide)) rfl hk rfl rfl rfl rfl (fun w hwm => (hw w hwm).imp fun _ h => h.imp fun _ h => h.imp fun _ h => ⟨_, h⟩) hc
  | cleared _ ws hsl hw ht hd hc =>
    exact hs.closing (hpw.resolve_right (by decide)) rfl (List.nil_sublist _) rfl rfl rfl rfl
      (fun w hwm => (hw w hwm).imp fun _ h => h.imp fun _ h => h.imp fun _ h => ⟨_, h⟩) fun o ho _ => hc o ho
  | takeCredit _ r k amount =>
    have hon : s.power = .on := hpw.resolve_right (by decide)
    refine ⟨hs.maximum, hout, hs.sequence, hs.issued, hs.bounded, fun pre w post hsplit hwc => ?_, fun hn => absurd hon hn, fun _ m hm => ?_⟩
    · obtain ⟨post', h⟩ := split_append_others hsplit hwc rfl
      exact hs.room pre w post' h hwc
    · refine (hs.accounted hon m hm).imp_right fun h => ?_
      show m ∈ closings (s.queue ++ [_])
      rw [closings_append]
      exact List.mem_append_left _ h
  | commitOrdered _ tag p rest hq slot hsl =>
    have hon : s.power = .on := hpw.resolve_right (by decide)
    have hrest := (ha.commitHead hq).commits
    refine ⟨hs.maximum, ?_, ?_, fun o ho => ?_, apply_bounded hs hq s.mailingDate, unclosed_le_three_of_no_commit rfl hrest,
      fun hn => absurd hon hn, fun _ n hn => ?_⟩
    · rw [hsl] at hout
      simpa using hout
    · show ((s.orders ++ [_]).map Order.n).Pairwise (· < ·)
      rw [List.map_append, List.pairwise_append]
      refine ⟨hs.sequence, List.pairwise_singleton _ _, fun x hx y hy => ?_⟩
      obtain ⟨o, ho, rfl⟩ := List.mem_map.1 hx
      rw [List.mem_singleton.1 hy]
      exact Nat.lt_succ_of_le (hs.issued o ho)
    · show o.n ≤ s.accounts.n + 1
      rcases List.mem_append.1 ho with ho | ho
      · exact (hs.issued o ho).trans (Nat.le_succ _)
      · rw [List.mem_singleton.1 ho]
    · have hn : n ∈ (s.accounts.openOrders ++ [({ tag, n := s.accounts.n + 1, p } : OpenOrder)]).map OpenOrder.n := hn
      show n ∈ (s.orders ++ [({ tag := slot.tag, n := s.accounts.n + 1, p, taken := false, duration := s.settings.tTake } : Order)]).map Order.n ∨
        n ∈ closings rest
      rw [List.map_append] at hn ⊢
      rcases List.mem_append.1 hn with hn | hn
      · rcases hs.accounted hon n hn with h | h
        · exact .inl (List.mem_append_left _ h)
        · rw [hq] at h; exact .inr h
      · exact .inl (List.mem_append_right _ hn)
  | commitWithheld _ tag p rest hq slot hsl w c hn ps hps q hc =>
    have hon : s.power = .on := hpw.resolve_right (by decide)
    have hrest := (ha.commitHead hq).commits
    have hfresh : s.accounts.n + 1 ∉ closings rest := fun hm => by
      have := ha.closings_le (n := s.accounts.n + 1) (by rw [hq]; exact hm)
      omega
    have htaken : (s.performHead (.commit tag p) rest).closeTaken (s.accounts.n + 1) = true :=
      closeTaken_iff.2 ⟨by show _ ∈ (s.accounts.openOrders ++ [_]).map OpenOrder.n; simp, hfresh⟩
    rw [if_pos htaken] at hc
    subst hc
    refine ⟨hs.maximum, ?_, hs.sequence, fun o ho => (hs.issued o ho).trans (Nat.le_succ _), apply_bounded hs hq s.mailingDate,
      unclosed_le_three_of_no_commit rfl ?_, fun hn => absurd hon hn, fun _ n hn => ?_⟩
    · rw [hsl] at hout
      exact hout
    · rw [List.countP_append, hrest]; rfl
    · have hn : n ∈ (s.accounts.openOrders ++ [({ tag, n := s.accounts.n + 1, p } : OpenOrder)]).map OpenOrder.n := hn
      show n ∈ s.orders.map (·.n) ∨ n ∈ closings (rest ++ [_])
      rw [closings_append]
      rw [List.map_append] at hn
      rcases List.mem_append.1 hn with hn | hn
      · rcases hs.accounted hon n hn with h | h
        · exact .inl h
        · rw [hq] at h; exact .inr (List.mem_append_left _ h)
      · rw [List.mem_singleton.1 hn]
        exact .inr (List.mem_append_right _ (by simp))
  | commitOrphan _ tag p rest hq hsl =>
    have := (ha.commitHead hq).slot
    rw [hsl] at this
    cases this
  | closeDone _ kind tag n by_ rest hq =>
    have hon : s.power = .on := hpw.resolve_right (by decide)
    obtain ⟨_, _, _, hn, hopen⟩ := closeWrite_bounds ha.lawful kind n
    have hle := slotAfterClose_le s by_
    refine ⟨hs.maximum, ?_, hs.sequence, fun o ho => ?_, apply_bounded hs hq s.mailingDate, fun pre w post hsplit hwc => ?_,
      fun h => absurd hon h, fun _ m hm => ?_⟩
    · show s.orders.length + (s.slotAfterClose by_).isSome.toNat ≤ 4; omega
    · show o.n ≤ (s.accounts.closeWrite kind n).n
      rw [hn]; exact hs.issued o ho
    · have hsplit : rest = pre ++ w :: post := hsplit
      have := hs.room (.close kind tag n by_ :: pre) w post (by rw [hq, hsplit]; rfl) hwc
      refine le_trans (le_of_eq ?_) this
      show ((s.accounts.closeWrite kind n).unclosed pre).length = _
      unfold Accounts.unclosed
      rw [hopen, List.filter_filter]
      congr 1
      refine List.filter_congr fun o _ => ?_
      rw [closings_cons_close, List.contains_cons, Bool.not_or, Bool.and_comm]
      rfl
    · have hm : m ∈ (s.accounts.closeWrite kind n).openOrders.map (·.n) := hm
      rw [hopen] at hm
      obtain ⟨o, ho, rfl⟩ := List.mem_map.1 hm
      obtain ⟨ho, hne⟩ := List.mem_filter.1 ho
      refine (hs.accounted hon o.n (List.mem_map.2 ⟨o, ho, rfl⟩)).imp_right fun h => ?_
      rw [hq, closings_cons_close] at h
      rcases List.mem_cons.1 h with h | h
      · simp [h] at hne
      · exact h
  | creditDone _ r k amount rest hq =>
    have hon : s.power = .on := hpw.resolve_right (by decide)
    refine ⟨hs.maximum, hout, hs.sequence, hs.issued, hs.bounded, fun pre w post hsplit hwc => ?_, fun h => absurd hon h, fun _ m hm => ?_⟩
    · have hsplit : rest = pre ++ w :: post := hsplit
      exact hs.room (.credit r k amount :: pre) w post (by rw [hq, hsplit]; rfl) hwc
    · refine (hs.accounted hon m hm).imp_right fun h => ?_
      rw [hq] at h
      exact h
  | orders _ f hn =>
    have hns : (s.orders.map f).map (·.n) = s.orders.map (·.n) := by rw [List.map_map]; exact List.map_congr_left fun o _ => hn o
    refine ⟨hs.maximum, by simpa using hout, hns ▸ hs.sequence, fun o ho => ?_, hs.bounded, hs.room, hs.idle, by
      show _ → ∀ n ∈ _, n ∈ (s.orders.map f).map (·.n) ∨ _
      rw [hns]; exact hs.accounted⟩
    obtain ⟨x, hx, rfl⟩ := List.mem_map.1 ho
    rw [hn]; exact hs.issued x hx
  | slotMark =>
    refine hs.of_fields rfl rfl ?_ rfl rfl rfl
    show (s.slot.map _).isSome = _
    exact Option.isSome_map
  | settings _ v m =>
    exact ⟨clamp_bounds (by decide), hout, hs.sequence, hs.issued, hs.bounded, hs.room, hs.idle, hs.accounted⟩
  | warning => split <;> exact hs.of_fields rfl rfl rfl rfl rfl rfl
  | lost _ a i h =>
    have hp : ¬(if s.power = .off then Power.off else .inReset) = .on := by split <;> simp
    refine ⟨hs.maximum, hout, hs.sequence, fun o ho => ?_, ?_, ?_, fun _ => rfl, fun h => absurd h hp⟩
    · rcases h with rfl | ⟨w, rest, _, _, rfl⟩
      · exact hs.issued o ho
      · exact (hs.issued o ho).trans (apply_n_le _ _ _)
    · rcases h with rfl | ⟨w, rest, hq, _, rfl⟩
      · exact hs.bounded
      · exact apply_bounded hs hq s.mailingDate
    · intro pre w post hsplit
      have hsplit : [] = pre ++ w :: post := hsplit
      simp at hsplit
  | unpowered =>
    refine ⟨(by decide : 1 ≤ 2 ∧ 2 ≤ 4), (by decide : 0 ≤ 4), List.Pairwise.nil, fun o ho => (nomatch ho), hs.bounded, ?_, fun _ => rfl, fun h => (nomatch h)⟩
    intro pre w post hsplit
    have hsplit : [] = pre ++ w :: post := hsplit
    simp at hsplit
  | poweredOn _ service =>
    refine ⟨(by decide : 1 ≤ 2 ∧ 2 ≤ 4), (by decide : 0 ≤ 4), List.Pairwise.nil, fun o ho => (nomatch ho), hs.bounded,
      unclosed_le_three_of_no_commit (q := s.accounts.powerOnSpoils) rfl ?_, fun h => absurd rfl h, fun _ n hn => .inr ?_⟩
    · refine List.countP_eq_zero.2 fun w hw => ?_
      obtain ⟨o, rfl⟩ := powerOnSpoils_mem hw
      simp [Write.isCommit]
    · show n ∈ closings s.accounts.powerOnSpoils
      rw [powerOnSpoils_closings]
      exact hn
  | _ => exact hs.of_fields rfl rfl rfl rfl rfl rfl

/-! ## The records that the orders belong to (R6, R126) -/

/-- The closing writes of power-on and of a line reset join no queue here, and a record's N is one that it held, or one that no queued write closes. -/
theorem NoRecordHolds.of_lists {q q' : List Write} {ps ps' : List Piece} (h : NoRecordHolds q ps)
    (hq : ∀ kind tag n by_, .close kind tag n by_ ∈ q' → by_ = .powerOn ∨ by_ = .lineReset → .close kind tag n by_ ∈ q)
    (hp : ∀ p ∈ ps', p.commitData = none ∨ (∃ x ∈ ps, p.commitData = x.commitData) ∨ ∃ m, p.commitData.map (·.n) = some m ∧ m ∉ closings q') :
    NoRecordHolds q' ps' := by
  intro kind tag n by_ hw hb p hpm e
  rcases hp p hpm with h0 | ⟨x, hx, hxe⟩ | ⟨m, hm, hno⟩
  · rw [h0] at e; cases e
  · exact h kind tag n by_ (hq kind tag n by_ hw hb) hb x hx (hxe ▸ e)
  · rw [hm] at e
    cases e
    exact hno (List.mem_filterMap.2 ⟨_, hw, rfl⟩)

theorem State.OrderPieces.of_fields {s t : State} (h : s.OrderPieces) (ho : t.orders = s.orders) (hp : t.pieces = s.pieces)
    (hs : t.slot = s.slot) (hq : closings t.queue = closings s.queue)
    (hc : ∀ kind tag n by_, .close kind tag n by_ ∈ t.queue → .close kind tag n by_ ∈ s.queue) : t.OrderPieces :=
  ⟨ho ▸ h.tags, by rw [ho, hq]; exact h.unclosed, by rw [ho, hp]; exact h.committed, by rw [hs, hp]; exact h.committing,
   by rw [hp]; exact h.uncommitted, by rw [hp]; exact h.discarded.of_lists (fun k g n b h _ => hc k g n b h) fun p hp => .inr (.inl ⟨p, hp, rfl⟩)⟩

theorem mem_atTag_of_ne {tag : Nat} {f : Piece → Piece} {ps : List Piece} {p : Piece} (hp : p ∈ ps) (hn : p.tag ≠ tag) : p ∈ atTag tag f ps :=
  List.mem_map.2 ⟨p, hp, by simp [hn]⟩

theorem mem_atTag_of_eq {tag : Nat} {f : Piece → Piece} {ps : List Piece} {p : Piece} (hp : p ∈ ps) (hn : p.tag = tag) : f p ∈ atTag tag f ps :=
  List.mem_map.2 ⟨p, hp, by simp [hn]⟩

theorem mem_atTag {tag : Nat} {f : Piece → Piece} {ps : List Piece} {x : Piece} (h : x ∈ atTag tag f ps) :
    ∃ p, (p ∈ ps ∧ p.tag = tag ∧ x = f p) ∨ (p ∈ ps ∧ p.tag ≠ tag ∧ x = p) := by
  obtain ⟨p, hp, rfl⟩ := List.mem_map.1 h
  by_cases ht : p.tag = tag
  · exact ⟨p, .inl ⟨hp, ht, by simp [ht]⟩⟩
  · exact ⟨p, .inr ⟨hp, ht, by simp [ht]⟩⟩

/-- A record whose commit data holds another N stands at a closing write. -/
theorem mem_endNumber {n : Nat} {d : Option Disposition} {ps : List Piece} (hd : (ps.map (·.tag)).Nodup) {p : Piece} (hp : p ∈ ps)
    (hn : p.commitData.map (·.n) ≠ some n) : p ∈ endNumber n d ps := by
  unfold endNumber
  split
  · rename_i x d hx
    refine mem_atTag_of_ne hp fun e => hn ?_
    rw [List.inj_on_of_nodup_map hd hp (List.mem_of_find?_eq_some hx) e]
    simpa using List.find?_some hx
  · exact hp

theorem of_mem_endNumber {n : Nat} {d : Option Disposition} {ps : List Piece} {x : Piece} (h : x ∈ endNumber n d ps) : x ∈ ps ∨ x.state = .final := by
  unfold endNumber at h
  split at h
  · obtain ⟨p, ⟨_, _, rfl⟩ | ⟨hp, _, rfl⟩⟩ := mem_atTag h
    · exact .inr rfl
    · exact .inl hp
  · exact .inl h

/-- The records of one tag change and no order's or commit's record is of that tag. -/
theorem State.OrderPieces.atTag {s : State} (h : s.OrderPieces) {tag : Nat} {f : Piece → Piece}
    (hu : ∀ p ∈ s.pieces, p.tag = tag → (f p).state.settled = false → (f p).commitData = none) :
    ∀ p ∈ Machine.atTag tag f s.pieces, p.state.settled = false → p.commitData = none := by
  intro x hx hxs
  obtain ⟨p, ⟨hp, ht, rfl⟩ | ⟨hp, _, rfl⟩⟩ := mem_atTag hx
  · exact hu p hp ht hxs
  · exact h.uncommitted x hp hxs

theorem Change.orderPieces {e : Effect} {s t : State} (h : Change True e s t) (ha : s.AccountsSafe) (hl : s.ListsSafe) (hb : s.OrderBounds)
    (hs : s.OrderPieces) : t.OrderPieces := by
  have hd : s.TagsDistinct := hl.tags
  cases h with
  | pieces _ f ht hj hf =>
    have hf := hf trivial
    refine ⟨hs.tags, hs.unclosed, fun o ho => ?_, fun c hc hp hw => ?_, fun x hx hxs => ?_, ?_⟩
    · obtain ⟨p, hp, h1, h2, h3⟩ := hs.committed o ho
      exact ⟨f p, List.mem_map.2 ⟨p, hp, rfl⟩, (ht p).trans h1, ((hf p hp).settled (by rw [h2]; rfl)).trans h2, by rw [(hf p hp).data]; exact h3⟩
    · obtain ⟨p, hpm, h1, h2, h3⟩ := hs.committing c hc hp hw
      exact ⟨f p, List.mem_map.2 ⟨p, hpm, rfl⟩, (ht p).trans h1, ((hf p hpm).settled (by rw [h2]; rfl)).trans h2, (hf p hpm).data.trans h3⟩
    · obtain ⟨p, hp, rfl⟩ := List.mem_map.1 hx
      cases hps : p.state.settled with
      | true => rw [(hf p hp).settled hps, hps] at hxs; cases hxs
      | false => exact (hf p hp).data.trans (hs.uncommitted p hp hps)
    · refine hs.discarded.of_lists (fun _ _ _ _ h _ => h) fun x hx => ?_
      obtain ⟨p, hp, rfl⟩ := List.mem_map.1 hx
      exact .inr (.inl ⟨p, hp, (hf p hp).data⟩)
  | enter _ p _ _ _ _ _ hc =>
    refine ⟨hs.tags, hs.unclosed, fun o ho => ?_, fun c hcs hp hw => ?_, fun x hx hxs => ?_, ?_⟩
    · obtain ⟨p, hp, h⟩ := hs.committed o ho
      exact ⟨p, List.mem_append_left _ hp, h⟩
    · obtain ⟨p, hpm, h⟩ := hs.committing c hcs hp hw
      exact ⟨p, List.mem_append_left _ hpm, h⟩
    · rcases List.mem_append.1 hx with hx | hx
      · exact hs.uncommitted x hx hxs
      · rw [List.mem_singleton.1 hx]; exact hc
    · refine hs.discarded.of_lists (fun _ _ _ _ h _ => h) fun x hx => ?_
      rcases List.mem_append.1 hx with hx | hx
      · exact .inr (.inl ⟨x, hx, rfl⟩)
      · rw [List.mem_singleton.1 hx]; exact .inl hc
  | leave _ tag p hp hf =>
    have hfin := hf trivial
    obtain ⟨hpm, hpt⟩ := piece?_mem hp
    have hstay : ∀ x ∈ s.pieces, x.state ≠ .final → x ∈ s.pieces.filter (·.tag != tag) := fun x hx hxf => by
      refine List.mem_filter.2 ⟨hx, ?_⟩
      have : x.tag ≠ tag := fun e => hxf (by rw [hd.only hpm hx (e.trans hpt.symm)]; exact hfin)
      simpa using this
    refine ⟨hs.tags, hs.unclosed, fun o ho => ?_, fun c hc hp hw => ?_, fun x hx => hs.uncommitted x (List.mem_of_mem_filter hx),
      hs.discarded.of_lists (fun _ _ _ _ h _ => h) fun x hx => .inr (.inl ⟨x, List.mem_of_mem_filter hx, rfl⟩)⟩
    · obtain ⟨x, hx, h1, h2, h3⟩ := hs.committed o ho
      exact ⟨x, hstay x hx (by rw [h2]; simp), h1, h2, h3⟩
    · obtain ⟨x, hx, h1, h2, h3⟩ := hs.committing c hc hp hw
      exact ⟨x, hstay x hx (by rw [h2]; simp), h1, h2, h3⟩
  | cleared _ ws hsl =>
    exact ⟨List.nodup_nil, fun o ho => (nomatch ho), fun o ho => (nomatch ho), fun c hc hp hw => absurd (hsl c hc hp) hw, fun x hx => (nomatch hx),
      fun _ _ _ _ _ _ x hx => (nomatch hx)⟩
  | takeCommit _ tag p o hf hdt hr ho hp hsl hc hu =>
    obtain ⟨hun, hmem⟩ := hu trivial
    refine ⟨hs.tags, fun o hom => ?_, fun o hom => ?_, fun c hcs _ _ => ?_, hs.atTag fun x _ _ hxs => (nomatch hxs),
      hs.discarded.of_lists (fun _ _ _ _ h _ => by simpa using h) fun x hx => ?_⟩
    · show o.n ∉ closings (s.queue ++ [_])
      rw [closings_append, closings_cons_commit, closings_nil, List.append_nil]
      exact hs.unclosed o hom
    · obtain ⟨x, hx, h1, h2, h3⟩ := hs.committed o hom
      refine ⟨x, mem_atTag_of_ne hx fun e => ?_, h1, h2, h3⟩
      have := hun x hx e
      rw [h2] at this
      cases this
    · obtain ⟨x, hx, hxt⟩ := List.mem_map.1 hmem
      cases hcs
      exact ⟨x.committing, mem_atTag_of_eq hx hxt, hxt, rfl, hs.uncommitted x hx (hun x hx hxt)⟩
    · obtain ⟨y, ⟨hy, _, rfl⟩ | ⟨hy, _, rfl⟩⟩ := mem_atTag hx
      · exact .inr (.inl ⟨y, hy, rfl⟩)
      · exact .inr (.inl ⟨x, hy, rfl⟩)
  | takeCredit _ r k amount =>
    refine hs.of_fields rfl rfl rfl ?_ fun _ _ _ _ h => by simpa using h
    show closings (s.queue ++ [_]) = _
    rw [closings_append, closings_cons_credit, closings_nil, List.append_nil]
  | commitOrdered _ tag p rest hq slot hsl hw c hn x =>
    have hph : slot.phase = .commit := by
      have := (ha.commitHead hq).slot
      rw [hsl] at this
      exact Option.some.inj this
    obtain ⟨w, hwm, hwt, hws, hwd⟩ := hs.committing slot hsl hph hw
    have hother : ∀ o ∈ s.orders, ∀ y ∈ s.pieces, y.tag = o.tag → y.state = .committed → y.tag ≠ slot.tag := fun o _ y hy _ hys e => by
      rw [hd.only hwm hy (e.trans hwt.symm), hws] at hys
      cases hys
    have hrest : closings s.queue = closings rest := by rw [hq]; rfl
    have hfresh : s.accounts.n + 1 ∉ closings rest := fun hm => by
      have := ha.closings_le (n := s.accounts.n + 1) (by rw [hrest]; exact hm)
      omega
    refine ⟨?_, fun o ho => ?_, fun o ho => ?_, fun _ h => (nomatch h), hs.atTag fun y hy _ hys => ?_,
      hs.discarded.of_lists (fun _ _ _ _ h _ => by rw [hq]; exact List.mem_cons_of_mem _ h) fun y hy => ?_⟩
    · show ((s.orders ++ [_]).map Order.tag).Nodup
      rw [List.map_append]
      refine nodup_append_singleton hs.tags fun hm => ?_
      obtain ⟨o, ho, hot⟩ := List.mem_map.1 hm
      obtain ⟨y, hy, h1, h2, _⟩ := hs.committed o ho
      exact hother o ho y hy h1 h2 (h1.trans hot)
    · show o.n ∉ closings rest
      rcases List.mem_append.1 ho with ho | ho
      · rw [← hrest]; exact hs.unclosed o ho
      · rw [List.mem_singleton.1 ho]; exact hfresh
    · rcases List.mem_append.1 ho with ho | ho
      · obtain ⟨y, hy, h1, h2, h3⟩ := hs.committed o ho
        exact ⟨y, mem_atTag_of_ne hy (hother o ho y hy h1 h2), h1, h2, h3⟩
      · rw [List.mem_singleton.1 ho]
        refine ⟨w.ordered c, mem_atTag_of_eq hwm hwt, (Piece.ordered_tag c w).trans hwt, ?_, ?_⟩
        · simp [Piece.ordered, hws]
        · simp [Piece.ordered, hws, hn]
    · unfold Piece.ordered at hys ⊢
      split at hys
      · cases hys
      · rename_i hnc
        rw [if_neg hnc]
        exact hs.uncommitted y hy hys
    · obtain ⟨z, ⟨hz, _, rfl⟩ | ⟨hz, _, rfl⟩⟩ := mem_atTag hy
      · unfold Piece.ordered
        split
        · exact .inr (.inr ⟨_, congrArg some hn, hfresh⟩)
        · exact .inr (.inl ⟨z, hz, rfl⟩)
      · exact .inr (.inl ⟨y, hz, rfl⟩)
  | commitWithheld _ tag p rest hq slot hsl w c hn ps hps q hc =>
    have hrest : closings s.queue = closings rest := by rw [hq]; rfl
    have hcommitted : ∀ x ∈ s.pieces, x.state = .committed → x ∈ ps := fun x hx hxs => by
      rw [hps]
      split
      · exact hx
      · by_cases ht : x.tag = slot.tag
        · have := mem_atTag_of_eq (f := Piece.filled c) hx ht
          rwa [show x.filled c = x from by unfold Piece.filled; rw [if_neg (by rw [hxs]; simp)]] at this
        · exact mem_atTag_of_ne hx ht
    refine ⟨hs.tags, fun o ho => ?_, fun o ho => ?_, fun _ h hp => ?_, fun x hx hxs => ?_, fun kind tg n b hwm hb x hx e => ?_⟩
    · show o.n ∉ closings q
      have h0 := hs.unclosed o ho
      have hle := hb.issued o ho
      rw [hrest] at h0
      rw [hc]
      split
      · rw [closings_append]
        intro hm
        rcases List.mem_append.1 hm with hm | hm
        · exact h0 hm
        · rw [closings_cons_close, closings_nil, List.mem_singleton] at hm
          omega
      · exact h0
    · obtain ⟨x, hx, h1, h2, h3⟩ := hs.committed o ho
      exact ⟨x, hcommitted x hx h2, h1, h2, h3⟩
    · cases h; cases hp
    · have hx : x ∈ ps := hx
      rw [hps] at hx
      split at hx
      · exact hs.uncommitted x hx hxs
      · refine hs.atTag (tag := slot.tag) (f := Piece.filled c) (fun y hy _ hys => ?_) x hx hxs
        unfold Piece.filled at hys ⊢
        split at hys
        · rename_i hcm
          have hys : y.state.settled = false := hys
          rw [hcm] at hys
          cases hys
        · rename_i hnc
          rw [if_neg hnc]
          exact hs.uncommitted y hy hys
    · have hx : x ∈ ps := hx
      have hwm : .close kind tg n b ∈ s.queue := by
        have hwm : .close kind tg n b ∈ q := hwm
        rw [hc] at hwm
        rw [hq]
        split at hwm
        · rcases List.mem_append.1 hwm with h | h
          · exact List.mem_cons_of_mem _ h
          · cases List.mem_singleton.1 h
            rcases hb with hb | hb <;> cases hb
        · exact List.mem_cons_of_mem _ hwm
      have hle := ha.closings_le (List.mem_filterMap.2 ⟨_, hwm, rfl⟩)
      rw [hps] at hx
      split at hx
      · exact hs.discarded kind tg n b hwm hb x hx e
      · obtain ⟨z, ⟨hz, _, rfl⟩ | ⟨hz, _, rfl⟩⟩ := mem_atTag hx
        · unfold Piece.filled at e
          split at e
          · have : c.n = n := Option.some.inj e
            omega
          · exact hs.discarded kind tg n b hwm hb z hz e
        · exact hs.discarded kind tg n b hwm hb x hz e
  | commitOrphan _ tag p rest hq hsl =>
    have := (ha.commitHead hq).slot
    rw [hsl] at this
    cases this
  | closeDone _ kind tag n by_ rest hq d =>
    have hrest : closings s.queue = n :: closings rest := by rw [hq]; rfl
    refine ⟨hs.tags, fun o ho hm => hs.unclosed o ho (by rw [hrest]; exact List.mem_cons_of_mem _ hm), fun o ho => ?_, fun c hc hp hw => ?_,
      fun x hx hxs => ?_, hs.discarded.of_lists (fun _ _ _ _ h _ => by rw [hq]; exact List.mem_cons_of_mem _ h) fun x hx => ?_⟩
    · obtain ⟨x, hx, h1, h2, h3⟩ := hs.committed o ho
      refine ⟨x, mem_endNumber hd hx ?_, h1, h2, h3⟩
      rw [h3]
      intro e
      exact hs.unclosed o ho (by rw [hrest, Option.some.inj e]; exact List.mem_cons_self ..)
    · have hc : s.slotAfterClose by_ = some c := hc
      unfold State.slotAfterClose at hc
      split at hc
      · cases hc
      · obtain ⟨x, hx, h1, h2, h3⟩ := hs.committing c hc hp hw
        exact ⟨x, mem_endNumber hd hx (by rw [h3]; simp), h1, h2, h3⟩
    · rcases of_mem_endNumber hx with hx | hx
      · exact hs.uncommitted x hx hxs
      · rw [hx] at hxs; cases hxs
    · unfold endNumber at hx
      split at hx
      · obtain ⟨z, ⟨hz, _, rfl⟩ | ⟨hz, _, rfl⟩⟩ := mem_atTag hx
        · exact .inr (.inl ⟨z, hz, rfl⟩)
        · exact .inr (.inl ⟨x, hz, rfl⟩)
      · exact .inr (.inl ⟨x, hx, rfl⟩)
  | creditDone _ r k amount rest hq =>
    refine hs.of_fields rfl rfl rfl ?_ fun _ _ _ _ h => by rw [hq]; exact List.mem_cons_of_mem _ h
    show closings rest = _
    rw [hq, closings_cons_credit]
  | orders _ f hn ht =>
    have hts : (s.orders.map f).map (·.tag) = s.orders.map (·.tag) := by rw [List.map_map]; exact List.map_congr_left fun o _ => ht o
    have hmem : ∀ o ∈ s.orders.map f, ∃ x ∈ s.orders, o.n = x.n ∧ o.tag = x.tag := fun o ho => by
      obtain ⟨x, hx, rfl⟩ := List.mem_map.1 ho
      exact ⟨x, hx, hn x, ht x⟩
    refine ⟨hts ▸ hs.tags, fun o ho => ?_, fun o ho => ?_, hs.committing, hs.uncommitted, hs.discarded⟩
    · obtain ⟨x, hx, e, _⟩ := hmem o ho
      rw [e]; exact hs.unclosed x hx
    · obtain ⟨x, hx, e, e'⟩ := hmem o ho
      rw [e, e']; exact hs.committed x hx
  | closeOrders _ os ws hk hw ht hdn hc =>
    refine ⟨(hk.map _).nodup hs.tags, fun o ho hm => ?_, fun o ho => hs.committed o (hk.subset ho), hs.committing, hs.uncommitted,
      hs.discarded.of_lists (fun kind tg n b h hb => ?_) fun p hp => .inr (.inl ⟨p, hp, rfl⟩)⟩
    rotate_left
    · rcases List.mem_append.1 h with h | h
      · exact h
      · obtain ⟨_, _, _, e⟩ := hw _ h
        cases e
        rcases hb with hb | hb <;> cases hb
    have hm : o.n ∈ closings (s.queue ++ ws) := hm
    rw [closings_append] at hm
    rcases List.mem_append.1 hm with hm | hm
    · exact hs.unclosed o (hk.subset ho) hm
    · exact (ht o.n hm).2 (List.mem_map.2 ⟨o, ho, rfl⟩)
  | slotMark =>
    refine ⟨hs.tags, hs.unclosed, hs.committed, fun c hc hp hw => ?_, hs.uncommitted, hs.discarded⟩
    obtain ⟨x, _, rfl⟩ := Option.map_eq_some_iff.1 hc
    unfold CommitSlot.resetMarked at hp hw
    cases he : x.phase with
    | commit => simp [he] at hw
    | followUp => simp [he] at hp
  | lost => exact ⟨hs.tags, fun o _ => List.not_mem_nil, hs.committed, hs.committing, hs.uncommitted, fun _ _ _ _ h => (nomatch h)⟩
  | unpowered =>
    exact ⟨List.nodup_nil, fun o ho => (nomatch ho), fun o ho => (nomatch ho), fun c hc => (nomatch hc), fun p hp => (nomatch hp),
      fun _ _ _ _ _ _ p hp => (nomatch hp)⟩
  | poweredOn =>
    exact ⟨List.nodup_nil, fun o ho => (nomatch ho), fun o ho => (nomatch ho), fun c hc => (nomatch hc), fun p hp => (nomatch hp),
      fun _ _ _ _ _ _ p hp => (nomatch hp)⟩
  | warning => split <;> exact hs.of_fields rfl rfl rfl rfl fun _ _ _ _ h => h
  | _ => exact hs.of_fields rfl rfl rfl rfl fun _ _ _ _ h => h

theorem Change.ordersSafe {e : Effect} {s t : State} (h : Change True e s t) (hw : s.power = .on ∨ e ∈ powerEffects) (ha : s.AccountsSafe)
    (hl : s.ListsSafe) (hs : s.OrdersSafe) : t.OrdersSafe :=
  { h.orderBounds hw ha hs.toOrderBounds, h.orderPieces ha hl hs.toOrderBounds hs.toOrderPieces with }

end Sys2Proof.Machine
end

