-- ==== Sys2Proof/Laws/Records.lean ====
section
/-! SUPPORT. The bytes of the records the part sends: numbers, flags and the parts of a reply read back (R197, R198). -/

namespace Sys2Proof.Machine

/-- The bytes of a number, read back. -/
theorem be_value (w v : Nat) : (be w v).foldl (fun x b => x * 256 + b.toNat) 0 = v % 256 ^ w := by
  simpa using foldl_be_mod w v 0

/-- Bit i of a set of flags is the flag at place i. -/
theorem bits_testBit (bs : List Bool) (i : Nat) : (bits bs).testBit i = bs.getD i false := by
  induction bs generalizing i with
  | nil => simp [bits]
  | cons b bs ih =>
    cases i with
    | zero => cases b <;> simp [bits, Nat.testBit_zero]
    | succ i =>
      have : bits (b :: bs) / 2 = bits bs := by cases b <;> simp [bits]; omega
      rw [Nat.testBit_succ, this, ih]
      simp

/-- The entries of a vector in order of their places. -/
theorem toList_finRange {α : Type} {n : Nat} (v : Vector α n) : v.toList = (List.finRange n).map fun i => v[i] :=
  List.ext_getElem (by simp) fun i h1 h2 => by simp

/-- The parts of a reply hold its results in order. -/
theorem chunks_flatMap (l : List Byte) (n : Nat) : ((List.range n).flatMap fun k => (l.drop (55 * k)).take 55) = l.take (55 * n) := by
  induction n with
  | zero => simp
  | succ n ih => rw [List.range_succ, List.flatMap_append, ih, Nat.mul_succ, List.take_add]; simp

/-- What a part of a reply carries after its first five bytes (R198). -/
theorem reply_payload_drop (r : Reply) (k : Nat) : (r.payload k).drop 5 = (r.results.bytes.drop (55 * k)).take 55 := by
  unfold Reply.payload
  rw [List.drop_left' (by simp)]
  rfl

/-- A reply is sent as the fewest parts of 55 result bytes, and as one when it has none (R198). -/
theorem reply_parts (r : Reply) :
    1 ≤ r.parts ∧ r.results.bytes.length ≤ 55 * r.parts ∧ (r.parts = 1 ∨ 55 * (r.parts - 1) < r.results.bytes.length) := by
  have hp : r.parts = max 1 ((r.results.bytes.length + 54) / 55) := rfl
  omega

/-- The flags of the eight channels as they are sent. -/
theorem channel_bits (channels : Vector Channel 8) (f : Channel → Bool) :
    bits (channels.toList.map f) = bits ((List.finRange 8).map fun c => f channels[c]) := by
  rw [toList_finRange, List.map_map]
  rfl

/-- The settings and results of the four monitors as they are sent. -/
theorem monitor_bytes (monitors : Vector Monitor 4) (f : Monitor → List Byte) :
    monitors.toList.flatMap f = f monitors[(0 : Fin 4)] ++ f monitors[(1 : Fin 4)] ++ f monitors[(2 : Fin 4)] ++ f monitors[(3 : Fin 4)] := by
  rw [toList_finRange, List.flatMap_map]
  simp [List.finRange_succ]

end Sys2Proof.Machine
end

