-- ==== Sys2Proof/Tests/Slice0.lean ====
section
/-! SUPPORT. The model's own tests: ill-formed commands that the check refuses, figures of the manual's worked cases, and for each statement
with premises a state and operands that meet them. -/

open Sys2Proof Sys2Proof.Machine

namespace Sys2Proof.Tests

def head : ReqHead := { number := 9, lenOk := true }
def shortHead : ReqHead := { number := 9, lenOk := false }
def badHead : ReqHead := { number := 256, lenOk := true }

/-! ## WellFormed: one ill-formed term for each check -/

theorem test_sensor_records_ill_formed :
    ([ .enter 65536, .dimension 65536 0 0 0 false, .dimension 1 65536 0 0 false, .dimension 1 0 65536 0 false, .dimension 1 0 0 65536 false,
       .weight 65536 0 0, .weight 1 65536 0, .weight 1 0 256, .destination 65536 0 false none, .destination 1 256 false none,
       .destination 1 0 false (some 256), .gate 65536, .exit 65536, .remove 65536 ] : List Instr).all (!·.WellFormed) = true := by decide

def configFields : ConfigureFields := { vectorBase := 255, noticeMode := 255, tTake := 65535, tResult := 65535, maxOutstanding := 255, lowThreshold := 4294967295 }
def jobFields : JobFields :=
  { id := 65535, product := 255, count := 65535, margin := 255, guardBand := 255, zoneMode := 255, column := 255, overrideAllowed := true }
def monitorFields : MonitorFields := { number := 255, mask := 0xFFFF#16, polarity := 255, function := 255, action := 255 }
def product : Product :=
  { defined := true, bandTable := 255, zoneMap := 255, maxWeight := 65535, maxLength := 65535, maxHeight := 65535, maxThickness := 65535
    upgrade := some 255, noReadColumn := 255, zeroOk := false }
def surcharge : SurchargeFields := { mask := 0#16, condition := 255, threshold := 65535, amountKind := 255, amount := 65535, last := false }

theorem test_requests_ill_formed :
    ([ .configure badHead configFields, .configure head { configFields with vectorBase := 256 }, .configure head { configFields with noticeMode := 256 },
       .configure head { configFields with tTake := 65536 }, .configure head { configFields with tResult := 65536 },
       .configure head { configFields with maxOutstanding := 256 }, .configure head { configFields with lowThreshold := 4294967296 },
       .lineReset badHead, .identify badHead, .credit badHead 0 0, .credit head 4294967296 0, .credit head 0 4294967296, .date badHead 0,
       .date head 65536, .accountQuery badHead, .jobAbort badHead 0, .jobAbort head 65536, .hold badHead, .resume badHead, .clearHalt badHead,
       .fetchCapture badHead, .status badHead, .peek badHead, .noticeEnable badHead 0 0, .endOfService badHead ] : List Instr).all
      (!·.WellFormed) = true := by decide

theorem test_jobs_and_monitors_ill_formed :
    ([ .jobAdd badHead jobFields, .jobAdd head { jobFields with id := 65536 }, .jobAdd head { jobFields with product := 256 },
       .jobAdd head { jobFields with count := 65536 }, .jobAdd head { jobFields with margin := 256 }, .jobAdd head { jobFields with guardBand := 256 },
       .jobAdd head { jobFields with zoneMode := 256 }, .jobAdd head { jobFields with column := 256 }, .monitorSet badHead monitorFields,
       .monitorSet head { monitorFields with number := 256 }, .monitorSet head { monitorFields with polarity := 256 },
       .monitorSet head { monitorFields with function := 256 }, .monitorSet head { monitorFields with action := 256 } ] : List Instr).all
      (!·.WellFormed) = true := by decide

theorem test_tariff_requests_ill_formed :
    ([ .tableBegin badHead 0 0, .tableBegin head 256 0, .tableBegin head 0 65536, .headerSegment badHead 0 0 0 0, .headerSegment head 65536 0 0 0,
       .headerSegment head 0 256 0 0, .headerSegment head 0 0 256 0, .headerSegment head 0 0 0 4294967296, .productSegment badHead 0 product,
       .productSegment head 256 product, .productSegment head 0 { product with bandTable := 256 }, .productSegment head 0 { product with zoneMap := 256 },
       .productSegment head 0 { product with maxWeight := 65536 }, .productSegment head 0 { product with maxLength := 65536 },
       .productSegment head 0 { product with maxHeight := 65536 }, .productSegment head 0 { product with maxThickness := 65536 },
       .productSegment head 0 { product with upgrade := some 256 }, .productSegment head 0 { product with noReadColumn := 256 },
       .bandTableSegment badHead 0 [], .bandTableSegment head 256 [], .bandTableSegment head 0 (List.replicate 29 1), .bandTableSegment head 0 [65536],
       .zoneBlockSegment badHead 0 0 (List.replicate 32 1), .zoneBlockSegment head 256 0 (List.replicate 32 1),
       .zoneBlockSegment head 0 256 (List.replicate 32 1), .zoneBlockSegment head 0 0 [1], .zoneBlockSegment head 0 0 (List.replicate 32 16),
       .surchargeSegment badHead 0 surcharge, .surchargeSegment head 256 surcharge, .surchargeSegment head 0 { surcharge with condition := 256 },
       .surchargeSegment head 0 { surcharge with threshold := 65536 }, .surchargeSegment head 0 { surcharge with amountKind := 256 },
       .surchargeSegment head 0 { surcharge with amount := 65536 }, .priceRunSegment badHead (.flat 0) [], .priceRunSegment head (.flat 65536) [],
       .priceRunSegment head (.coordinate 256 0 0) [], .priceRunSegment head (.coordinate 0 256 0) [], .priceRunSegment head (.coordinate 0 0 256) [],
       .priceRunSegment head (.unknownForm 1) [], .priceRunSegment head (.unknownForm 256) [], .priceRunSegment head (.flat 0) (List.replicate 27 1),
       .priceRunSegment head (.flat 0) [65536] ] : List Instr).all (!·.WellFormed) = true := by decide

theorem test_other_commands_ill_formed :
    ([ .unknownSegmentGroup badHead 6, .unknownSegmentGroup head 5, .unknownSegmentGroup head 256, .tableEnd badHead 0, .tableEnd head 65536,
       .bankSwitchImmediate badHead 0 0, .bankSwitchImmediate head 256 0, .bankSwitchImmediate head 0 2, .bankSwitchImmediate head 0 256,
       .bankSwitchAtDate badHead 0, .bankSwitchAtDate head 256, .bankSwitchAtJob badHead 0, .bankSwitchAtJob head 256, .unknownRequest 256 0x43,
       .unknownRequest 0 0x3F, .unknownRequest 0 0x80, .unknownRequest 0 0x40, .unknownRecord .line 256 0, .unknownRecord .line 0x09 61,
       .unknownRecord .line 0x01 2, .unknownRecord .print 0x22 3, .printerState 256, .orderTaken 65536, .printResult 65536 0, .printResult 0 256,
       .takeTimerExpiry 65536, .resultTimerExpiry 65536 ] : List Instr).all (!·.WellFormed) = true := by decide

theorem test_commands_well_formed :
    ([ .enter 65535, .dimension 1 65535 65535 65535 true, .destination 1 255 true (some 255), .configure head configFields, .jobAdd head jobFields,
       .monitorSet head monitorFields, .productSegment head 255 product, .bandTableSegment head 255 (List.replicate 28 65535),
       .zoneBlockSegment head 255 255 (List.replicate 32 15), .surchargeSegment head 255 surcharge,
       .priceRunSegment head (.coordinate 255 255 255) (List.replicate 26 65535), .unknownSegmentGroup head 6, .bankSwitchImmediate head 1 3,
       .unknownRequest 255 0x7F, .unknownRecord .line 0x40 0, .unknownRecord .print 0x22 2, .printResult 65535 255, .powerOn true ] : List Instr).all
      (·.WellFormed) = true := by decide

/-! ## Figures of the manual -/

def letterProduct : Product :=
  { defined := true, bandTable := 0, zoneMap := 0, maxWeight := 1000, maxLength := 2450, maxHeight := 1650, maxThickness := 100, upgrade := none
    noReadColumn := 7, zeroOk := false }

/-- The bank of the worked standard letter (04_rating.md 4.5), with step 5, mode NEAREST and cap 5,000. -/
def tariff (step : Nat) (rounding : RoundingMode) : Bank :=
  { Bank.cleared .active 340 with
    effectiveDay := 9000, rounding, step, cap := 5000, headerPresent := true
    products := (Vector.replicate 16 undefinedProduct).set 0 letterProduct
    bandTables := (Vector.replicate 8 []).set 0 [20, 50, 100, 250, 500, 1000]
    zoneMaps := (Vector.replicate 4 { entries := [], written := false }).set 0 { entries := [(37, 1)], written := true }
    prices := [(9, 145), (15, 205)]
    surcharges :=
      [ { mask := 1#16, condition := .thickOver, threshold := 50, amountKind := .fixed, amount := 30, last := false },
        { mask := 1#16, condition := .noRead, threshold := 0, amountKind := .fixed, amount := 20, last := true },
        { mask := 1#16, condition := .always, threshold := 0, amountKind := .percent, amount := 25, last := false } ] }

def letterInputs : RatingInputs :=
  { weight := some { reading := 473, quality := .settled }
    dimension := some { length := 2350, height := 1620, thickness := 62, nonMachinable := false }, destination := some (.code 37), override := none }

def letterJob : JobValues :=
  { id := 77, product := 0, count := 0, margin := 5, guardBand := 20, zoneMode := .read, column := 0, overrideAllowed := false }

/-- The worked standard letter: S = 178,625, and P = 179, 180 and 175 under the three headers (4.5). -/
theorem test_standard_letter :
    let r (q : Nat) (m : RoundingMode) := rate letterInputs letterJob (some (.a, tariff q m))
    (r 1 .up).exactSum = some 178625 ∧ (r 1 .up).postage = some 179 ∧ (r 5 .nearest).postage = some 180 ∧ (r 5 .down).postage = some 175 ∧
      (r 1 .up).outcome = .rated ∧ (r 1 .up).effectiveWeight = some 48 ∧ (r 1 .up).bandIndex = some 2 ∧ (r 1 .up).rounded = some true := by decide

/-- The same letter read NO_READ: 255 in both cases, not rounded (4.5); sent as an ESTIMATE, PROVISIONAL. -/
theorem test_standard_letter_without_code :
    let r (q : Nat) := rate { letterInputs with destination := some .noRead } letterJob (some (.a, tariff q .up))
    (r 1).postage = some 255 ∧ (r 5).postage = some 255 ∧ (r 5).rounded = some false ∧ (r 5).zoneColumn = some 7 ∧ (r 5).noReadDefault = some true ∧
      (rate { letterInputs with weight := some { reading := 473, quality := .estimate } } letterJob (some (.a, tariff 1 .up))).outcome = .provisional := by
  decide

/-- The comparisons of 4.7 and the guard examples of 2.6.1. -/
theorem test_bands_and_guard :
    ([(0, 0), (200, 0), (196, 5), (495, 5), (496, 5), (10000, 0), (9996, 5)].map fun x =>
      bandOf [20, 50, 100, 250, 500, 1000] (effectiveWeight x.1 x.2)) = [some 1, some 1, some 2, some 2, some 3, some 6, none] ∧
    ([(450, 20, 50), (475, 20, 50), (476, 20, 50), (492, 20, 50), (496, 20, 100), (450, 0, 50)].map fun x => guardPasses x.1 5 x.2.1 x.2.2) =
      [true, true, false, false, true, false] := by decide

/-- The roundings of 4.7, rows 1, 2, 4, 5, 7, 8, 9, 10 and 11, and the largest sum of 4.8. -/
theorem test_roundings :
    roundSum .nearest 10 145000 = 150 ∧ roundSum .down 10 145000 = 140 ∧ roundSum .nearest 1 7035 = 7 ∧ roundSum .up 1 7035 = 8 ∧
      roundSum .up 5 4996000 = 5000 ∧ roundSum .down 5 4996000 = 4995 ∧ roundSum .down 10 3000 = 0 ∧ roundSum .nearest 10 3000 = 0 ∧
      roundSum .up 10 3000 = 10 ∧ roundSum .up 100 1114094000 = 1114100 ∧ isRounded 5 150000 = false ∧ isRounded 1 7035 = true := by
  decide +kernel

/-- The check number of 5.7. -/
theorem test_check_number : checkNumber 179 1204 9100 40017 50179 = 5566 := by decide +kernel

/-- The frame check of the nine characters 1 to 9: the value published for the CRC that R190 describes. -/
theorem test_frame_check : frameCheck [0x31#8, 0x32#8, 0x33#8, 0x34#8, 0x35#8, 0x36#8, 0x37#8, 0x38#8, 0x39#8] = 0x29B1#16 := by decide +kernel

/-- The table of R152, for a monitor that watches flags 4 and 5. -/
theorem test_monitor_table :
    let r (f : MonitorFunction) (p : Polarity) := [0x0000#16, 0x0010#16, 0x0020#16, 0x0030#16].map
      (MonitorSettings.result { mask := 0x0030#16, polarity := p, function := f, action := .notify })
    r .any .high = [false, true, true, true] ∧ r .all .high = [false, false, false, true] ∧ r .any .low = [true, true, true, false] ∧
      r .all .low = [true, false, false, false] := by decide

/-- A frame that carries ENTER of tag 0x0102 becomes that command at its last byte, and a byte before SYNC is dropped (R190, R191). -/
theorem test_frame_received :
    let s := ([0x00#8] ++ frame 0x01 [0x01#8, 0x02#8]).foldl (fun s b => s.receive .line b) State.reset
    s.pending = [.enter 0x0102] ∧ s.lineFramer = Framer.idle := by decide +kernel

/-- A frame with a wrong check is discarded, and hunting goes on with the byte after its SYNC (R190). -/
theorem test_damaged_frame :
    let s := ([0xA5#8, 0x02#8] ++ frame 0x20 [0x00#8]).foldl (fun s b => s.receive .print b) State.reset
    s.pending = [.discardedFrame .print, .printerState 0] := by decide +kernel

/-- O13: a well-formed command and its record; an ENTER with one byte of its payload flipped; LEN 60 and LEN 61; a request whose LEN
matches its kind, and one whose LEN does not; the part without power. -/
theorem test_frame_premises :
    let received (s : State) (bytes : List Byte) := bytes.foldl (fun u b => u.receive .line b) s
    let pending (bytes : List Byte) := (received State.reset bytes).pending
    State.reset.power = .on ∧ State.reset.framer .line = { phase := .hunt, bytes := [] } ∧ (Instr.enter 0x0102).WellFormed = true ∧
      recordOf (.enter 0x0102) = some (.line, 0x01, [0x01#8, 0x02#8]) ∧
      (frame 0x01 [0x01#8, 0x02#8]).length = 7 ∧ pending ((frame 0x01 [0x01#8, 0x02#8]).set 4 0x03#8) = [.discardedFrame .line] ∧
      pending [0xA5#8, 60#8] = [] ∧ pending [0xA5#8, 61#8] = [.discardedFrame .line] ∧
      requestOf (decodeRecord .line 0x60 [9#8]) = some (head, .hold) ∧ requestOf (decodeRecord .line 0x60 [9#8, 0#8]) = some (shortHead, .hold) ∧
      (received { State.reset with power := .inReset } (frame 0x01 [0x01#8, 0x02#8])).pending = [] := by decide +kernel

/-! ## States that meet the premises of the statements -/

/-- The state a command leaves. -/
def after (c : Instr) (s : State) : State :=
  match exec c s with
  | .next t => t
  | .fault _ => s
  | .refused _ => s

def letterRecord : RatingRecord := rate letterInputs letterJob (some (.a, tariff 1 .up))

/-- A standard letter on the line. -/
def letter (tag : Nat) (state : PieceState) : Piece :=
  { tag, job := some 0, state, dimension := letterInputs.dimension, weight := letterInputs.weight, destination := letterInputs.destination
    override := none, rating := some letterRecord, commitData := none, flags := {}, disposition := none }

def currentJob : Job := { slot := 0, values := letterJob, state := .current, entered := 3, printed := 1, diverted := 0, inList := 2 }

/-- RUNNING, dated, the printer READY, a tariff ACTIVE, one job CURRENT and the pieces given; 821 in the funds and 179 pending on order 1. -/
def line (pieces : List Piece) : State :=
  { State.reset with
    settings := { State.reset.settings with lowThreshold := 700 }, franking := .running, mailingDate := some 9100, printer := .ready
    banks := { a := tariff 1 .up, b := .cleared .empty 0 }, ratingRef := some .a, jobs := [currentJob], pieces
    accounts :=
      { Accounts.factory with d := 821, e := 179, t := 1000, n := 1, lastUsed := some 9100, openOrders := [{ tag := 1, n := 1, p := 179 }] }
    orders := [{ tag := 1, n := 1, p := 179, taken := false, duration := 50 }] }

def commitData : CommitData := { n := 1, p := 179, ascending := 179, k := 0 }
def committed : Piece := { letter 1 .committed with commitData := some commitData }

/-- Piece 1 is at the printer, and the commit of piece 2 is in flight. -/
def busy (withheld : Option WithheldCause) : State :=
  { line [committed, letter 2 .committing] with
    queue := [.commit 2 179], writeBegun := true
    slot := some { tag := 2, p := 179, phase := .commit, withheld, order := (letter 2 .rated).orderFields } }

/-- A closing write is at the head of the queue. -/
def closing (kind : CloseKind) (by_ : Requester) (slot : Option CommitSlot) : State :=
  { line [committed] with queue := [.close kind 1 1 by_], orders := [], slot }

def followUp (w : WithheldCause) : CommitSlot :=
  { tag := 1, p := 179, phase := .followUp, withheld := some w, order := (letter 1 .rated).orderFields }

/-- A bank is loading beside the active one. -/
def loading : State := { line [] with banks := { a := tariff 1 .up, b := .cleared .loading 341 } }

/-- The other bank is READY, its effective day the day given. -/
def readyBank (day : Nat) : State := { line [] with banks := { a := tariff 1 .up, b := { tariff 5 .down with state := .ready, effectiveDay := day } } }

theorem line_takes (pieces : List Piece) {k : RequestKind} (h : k.stateRefusal .running = none) : (line pieces).Takes head k := ⟨rfl, rfl, h⟩

/-- The state of O1, O5: nothing waits; the part is off or in reset. -/
theorem test_idle_and_unpowered :
    State.reset.pending = [] ∧ ({ State.reset with power := .off } : State).power ≠ .on ∧ ({ State.reset with power := .inReset } : State).power ≠ .on ∧
      Instr.gate 1 ≠ .pfwAssert ∧ Instr.gate 1 ≠ .pfwRelease ∧ Instr.gate 1 ≠ .resetAssert ∧ losesOrdinary (.gate 1) = false := by decide

/-- A line with a commit in flight and its completion waiting, which meets all six invariants (O6 to O11, O26). -/
def running : State := { busy none with pending := [.commitComplete] }

theorem test_running_accounts : running.AccountsSafe := by
  refine ⟨⟨by decide, by decide, by decide, by decide, by decide, by decide, by decide, by decide, by decide⟩, by decide, by decide, by decide,
    by decide, by decide, ?_, by decide, by decide, by decide, by decide⟩
  intro w hw k hk
  simp [running, busy] at hw
  subst hw
  cases hk

theorem test_running_orders : running.OrdersSafe := by
  refine ⟨⟨by decide, by decide, by decide, by decide, by decide, ?_, by decide, fun _ => by decide⟩,
    ⟨by decide, by decide, by decide, fun c hc _ _ => ?_, by decide, fun _ _ _ _ h => by simp [running, busy] at h⟩⟩
  · intro pre w post hq _
    match pre, hq with
    | [], _ => decide
    | _ :: _, hq => simp [running, busy] at hq
  · cases hc
    exact ⟨letter 2 .committing, by decide, rfl, rfl, rfl⟩

theorem test_running_franking : running.FrankingSafe := by
  refine ⟨fun _ _ => by decide, fun _ h => (by cases h), fun _ => by decide, fun _ => by decide, fun _ h => (by cases h)⟩

/-- The lists of a state with one job CURRENT and the records given are safe when the checks that follow hold. -/
theorem lists_safe {s : State} (h : (s.pieces.length ≤ 32 ∧ (s.pieces.map (·.tag)).Nodup ∧ s.jobs.length ≤ 4 ∧ (s.jobs.map (·.slot)).Nodup) ∧
      ((∀ j ∈ s.jobs, j.slot < 4) ∧ (s.jobs.map (·.values.id)).Nodup ∧ (s.jobs.filter Job.isCurrent).length ≤ 1) ∧
      (∀ j ∈ s.jobs, j.inList = (s.pieces.map (·.job)).count (some j.slot)) ∧ (∀ j ∈ s.jobs, j.done = false) ∧
      ∀ o ∈ s.pieces.map (·.job), o.all fun slot => (s.jobs.map (·.slot)).contains slot) : s.ListsSafe :=
  ⟨h.1.1, h.1.2.1, h.1.2.2.1, h.1.2.2.2, h.2.1.1, h.2.1.2.1, h.2.1.2.2, h.2.2.1, fun slot hs => by simpa using h.2.2.2.2 _ hs, h.2.2.2.1⟩

theorem test_running_lists : running.ListsSafe := lists_safe (by decide)

theorem test_running_tariff : running.TariffSafe := by
  refine ⟨⟨⟨by decide, by decide, by decide, by decide, by decide⟩, ⟨by decide, by decide, by decide, by decide, by decide⟩⟩, by decide, by decide,
    fun _ => by decide, fun _ h => (by cases h)⟩

theorem test_running_channels : running.NoneReady := by unfold State.NoneReady; decide

theorem test_running_steps : ∃ t, step running = .next t := ⟨_, rfl⟩

/-- O12: a commit and a closing write at the head of the queue. -/
theorem test_heads_of_the_queue :
    (∃ t, exec .commitComplete (busy none) = .next t) ∧
      (closing .void .printPort none).queue = [.close .void 1 1 .printPort] ∧ (Write.close .void 1 1 .printPort).isCommit = false :=
  ⟨⟨_, rfl⟩, rfl, rfl⟩

/-- O14 to O17: NOTICE meets every premise of their clauses. -/
theorem test_frames_of_notice :
    (∃ t, exec .notice (busy none) = .next t) ∧ completesWrite .notice = false ∧ stopsWrites .notice = false ∧ testsCandidate .notice = false ∧
      isLineReset .notice = false ∧ losesOrdinary .notice = false ∧ requestOf .notice = none ∧ maySwitch .notice = false ∧
      isSegment .notice = false ∧ endsOrder .notice = false ∧ pieceTag .notice = none ∧ (∀ w, Instr.notice ≠ .lineStatus w) ∧
      (∀ tag, Instr.notice ≠ .orderTaken tag) ∧ (∀ code, Instr.notice ≠ .printerState code) ∧ (∀ l, Instr.notice ≠ .recordTransmit l) :=
  ⟨⟨_, rfl⟩, rfl, rfl, rfl, rfl, rfl, rfl, rfl, rfl, rfl, rfl, nofun, nofun, nofun, nofun⟩

/-- O18: WRITE_BEGIN meets every premise of its clauses. -/
theorem test_frames_of_write_begin :
    (∃ t, exec .writeBegin (busy none) = .next t) ∧ completesWrite .writeBegin = false ∧ testsCandidate .writeBegin = false ∧
      isLineReset .writeBegin = false ∧ stopsWrites .writeBegin = false ∧ requestOf .writeBegin = none ∧ Instr.writeBegin ≠ .notice ∧
      Instr.writeBegin ≠ .holdReply ∧ Instr.writeBegin ≠ .lineResetReply ∧ (∀ l, Instr.writeBegin ≠ .recordTransmit l) :=
  ⟨⟨_, rfl⟩, rfl, rfl, rfl, rfl, rfl, nofun, nofun, nofun, nofun⟩

def lockedOut : State := { line [] with franking := .lockout, lockoutFlag := true }

/-- O19: a request in UNCONFIGURED, in LOCKOUT, and in a state that serves all. -/
theorem test_requests_in_each_state :
    requestOf (.hold head) = some (head, .hold) ∧ head.lenOk = true ∧ State.reset.power = .on ∧ State.reset.franking = .unconfigured ∧
      RequestKind.hold ∉ [RequestKind.configure, .status, .peek, .identify, .accountQuery] ∧ lockedOut.power = .on ∧ lockedOut.franking = .lockout ∧
      RequestKind.hold ∉ [RequestKind.status, .peek, .identify, .accountQuery, .fetchCapture, .endOfService] ∧ (line []).serving = true ∧
      requestOf (.peek head) = some (head, .peek) ∧ requestOf (.configure head configFields) = some (head, .configure) ∧
      requestOf (.fetchCapture head) = some (head, .fetchCapture) := by decide

/-- O20: a short TABLE_SEGMENT while a bank loads, with none loading, and another short request. -/
theorem test_short_requests :
    requestOf (.bandTableSegment shortHead 0 []) = some (shortHead, .tableSegment) ∧ shortHead.lenOk = false ∧ loading.power = .on ∧
      loading.banks.loading.isSome = true ∧ loading.serving = true ∧ (line []).banks.loading = none ∧ (line []).power = .on ∧
      requestOf (.hold shortHead) = some (shortHead, .hold) := by decide

def full : State := line ((List.range 32).map fun k => letter k .opened)
def waitingJob : Job := { currentJob with state := .waiting }

/-- O21: a full list, one place left, a tag held, a current job, a waiting job, and none but closed jobs. -/
theorem test_entries :
    full.power = .on ∧ full.franking ≠ .unconfigured ∧ 32 ≤ full.pieces.length ∧ (line (full.pieces.take 31)).pieces.length < 32 ∧
      (line [letter 5 .rated]).piece? 5 = some (letter 5 .rated) ∧ (line []).piece? 5 = none ∧ (line []).currentJob = some currentJob ∧
      ({ line [] with jobs := [waitingJob] } : State).currentJob = none ∧
      ({ line [] with jobs := [waitingJob] } : State).jobs.find? (fun j => decide (j.state = .waiting)) = some waitingJob ∧
      (line []).pendingSwitch = none ∧ (∀ j ∈ [{ currentJob with state := .closed }], j.state = JobState.closed) ∧
      (letter 5 .rated).state.settled = false ∧ committed.state.settled = true := by decide

/-- A READY bank, a job waiting, and an AT_JOB switch pending. -/
def switching : State :=
  { readyBank 9100 with jobs := [{ waitingJob with inList := 0 }], pendingSwitch := some { target := .b, mode := .atJob } }

/-- O21, O40: an AT_JOB switch is taken at an ENTER, and its trap names the tag of that piece (R172); one taken at a JOB_ADD names none. -/
theorem test_switch_names_the_piece :
    switching.ListsSafe ∧ switching.pendingSwitch = some { target := .b, mode := .atJob } ∧ switching.currentJob = none ∧
      (let t := after (.enter 5) switching
       t.channels[(6 : Fin 8)].latest.map (fun c => (c.code, c.tag)) = some (.bankSwitched, some 5) ∧ (t.piece? 5).map (·.job) = some (some 0) ∧
         t.banks.active = some .b ∧ t.jobs.map (fun j => (j.state, j.inList)) = [(.current, 1)]) ∧
      (let t := after (.jobAdd head { jobFields with id := 5, product := 0, zoneMode := 0, column := 0 }) switching
       t.channels[(6 : Fin 8)].latest.map (fun c => (c.code, c.tag)) = some (.bankSwitched, none) ∧
         t.jobs.map (fun j => (j.slot, j.state)) = [(0, .current), (1, .waiting)]) :=
  ⟨lists_safe (by decide), by decide, by decide, by decide +kernel, by decide +kernel⟩

/-- O22: a tag that no record holds, and UNCONFIGURED. -/
theorem test_orphans :
    (line []).power = .on ∧ pieceTag (.gate 5) = some 5 ∧ Instr.gate 5 ≠ .enter 5 ∧ (line []).piece? 5 = none ∧
      State.reset.franking = .unconfigured ∧ State.reset.power = .on ∧ pieceTag (.enter 5) = some 5 := by decide

/-- A piece committed on an estimate (O25). -/
def onEstimate : Piece :=
  { committed with weight := some { reading := 473, quality := .estimate }, flags := { estimateCommitted := true } }

/-- O23, O25: an unsettled piece, and a settled one committed on an estimate. -/
theorem test_measured_pieces :
    (line [letter 2 .rated]).power = .on ∧ (line [letter 2 .rated]).franking ≠ .unconfigured ∧
      (line [letter 2 .rated]).piece? 2 = some (letter 2 .rated) ∧ (letter 2 .rated).state.settled = false ∧
      (line [onEstimate]).piece? 1 = some onEstimate ∧ onEstimate.state.settled = true ∧ onEstimate.flags.estimateCommitted = true ∧
      onEstimate.weight.map (·.quality) = some .estimate ∧ onEstimate.rating = some letterRecord ∧ (line [onEstimate]).jobOf onEstimate = some currentJob ∧
      (Weight.prepared 473 0).quality = .settled := by decide

/-- O25: the comparison with the same postage, with another, and unrateable. -/
theorem test_compared_weights :
    let again (w : Weight) := rate { onEstimate.inputs with weight := some w } letterJob ((line [onEstimate]).comparisonBank letterRecord)
    (again (Weight.prepared 473 0)).postage = some onEstimate.postage ∧ (again (Weight.prepared 60000 2)).outcome = .unrateable .overweight ∧
      (rate { onEstimate.inputs with weight := some (Weight.prepared 473 0) } letterJob
        (({ line [onEstimate] with banks := { a := { tariff 1 .up with cap := 5001, step := 5 }, b := .cleared .empty 0 } } : State).comparisonBank
          letterRecord)).postage = some 180 := by decide

/-- O25: the bank of a comparison is ACTIVE or READY and holds the tariff id of the record; it stands no longer once it is loaded again, even under its
own id, or holds another tariff; a record that names no bank has none. -/
theorem test_comparison_bank :
    let bank (b : Bank) := (({ line [onEstimate] with banks := { a := b, b := .cleared .empty 0 } } : State).comparisonBank letterRecord).map (·.1)
    letterRecord.bank = some (.a, 340) ∧ bank (tariff 1 .up) = some .a ∧ bank { tariff 1 .up with state := .ready } = some .a ∧
      bank { tariff 1 .up with state := .loading } = none ∧ bank { tariff 1 .up with state := .empty } = none ∧
      bank { tariff 1 .up with tariffId := 341 } = none ∧ ({ letterRecord with bank := none } : RatingRecord).bank = none ∧
      (line [onEstimate]).comparisonBank { letterRecord with bank := none } = none := by decide

/-- O24: a rating on a SETTLED weight clears estimate-committed though it ends UNRATEABLE, so the DISPOSITION does not carry it; one on an ESTIMATE
leaves it (R35, R37). -/
theorem test_unrateable_clears_estimate_committed :
    let gated (w : Weight) : Piece :=
      { letter 2 .rated with weight := some w, flags := { gatePassed := true, gateCommitted := true, estimateCommitted := true } }
    let unserved (w : Weight) : State := after (.destination 2 38 false none) { busy none with pieces := [committed, gated w] }
    let flag (w : Weight) := ((unserved w).piece? 2).map fun p => (p.disposition, p.flags.estimateCommitted)
    let told (w : Weight) := (unserved w).lineTx.waiting.filterMap fun r => match r with | .disposition d => some d.estimateCommitted | _ => none
    flag { reading := 473, quality := .settled } = some (some (.diverted .notServed), false) ∧
      told { reading := 473, quality := .settled } = [false] ∧
      flag { reading := 473, quality := .estimate } = some (some (.diverted .notServed), true) ∧
      told { reading := 473, quality := .estimate } = [true] := by decide +kernel

/-- O24: the four outcomes of a rating of an unsettled piece. -/
theorem test_rating_outcomes :
    let r (i : RatingInputs) := (rate i letterJob (line []).activeBank).outcome
    (line [letter 2 .rated]).piece? (letter 2 .rated).tag = some (letter 2 .rated) ∧ (line [letter 2 .rated]).jobOf (letter 2 .rated) = some currentJob ∧
      (letter 2 .committed).state.settled = true ∧ r letterInputs = .rated ∧ r { letterInputs with weight := none } = .incomplete ∧
      r { letterInputs with weight := some { reading := 473, quality := .estimate } } = .provisional ∧
      r { letterInputs with destination := some (.code 38) } = .unrateable .notServed := by decide

/-- O26, O27: two unsettled pieces ahead of the one at the gate end GATE_MISSED, from the head on, without gate-passed, and stay in the list. -/
theorem test_sweep :
    let s := line [letter 5 .opened, letter 6 .rated, letter 7 .opened]
    let u : State := { s with jobs := [{ currentJob with inList := 3 }] }
    u.ListsSafe ∧ (u.ahead 7).filter (fun p => !p.state.settled) = [letter 5 .opened, letter 6 .rated] ∧
      (∃ q ∈ u.ahead 7, q.state.settled = false) ∧ u.piece? 7 = some (letter 7 .opened) ∧ (u.ahead 6).length = 1 ∧
      (u.sweep 7).pieces.map (fun p => (p.tag, p.disposition, p.flags.gatePassed)) =
        [(5, some (.diverted .gateMissed), false), (6, some (.diverted .gateMissed), false), (7, none, false)] :=
  ⟨lists_safe (by decide), by decide, by decide, by decide, by decide, by decide +kernel⟩

/-- O27: each condition of R118 unmet with those before it met, in the order of the rule. -/
theorem test_first_unmet :
    let p := letter 2 .rated
    let unmet (f : FrankingState) (date : Option Nat) (before : PieceState) (printer : PrinterState) (most funds : Nat) (slot : Option CommitSlot) :=
      State.firstUnmet
        { line [letter 1 before, p] with
          franking := f, mailingDate := date, printer, settings := { State.reset.settings with maxOutstanding := most }
          accounts := { (line []).accounts with d := funds }, slot } p
    [ unmet .held none .opened .notReady 1 178 (busy none).slot, unmet .halted (some 1) .final .ready 2 179 none
    , unmet .lockout (some 1) .final .ready 2 179 none, unmet .running none .opened .notReady 1 178 none
    , unmet .running (some 1) .opened .notReady 1 178 none, unmet .running (some 1) .final .notReady 1 178 none
    , unmet .running (some 1) .final .ready 1 178 none, unmet .running (some 1) .final .ready 2 178 none
    , unmet .running (some 1) .final .ready 3 179 (busy none).slot, unmet .running (some 1) .final .ready 2 179 none ] =
    [ some (.reason .held), some (.reason .halted), some (.reason .locked), some (.reason .noDate), some .beltOrder
    , some (.reason .printerNotReady), some (.reason .printBacklog), some (.reason .fundsShort), some .inFlight, none ] := by decide

/-- O27, O28, O29: a piece in each state, with nothing unsettled ahead; the guard passing and failing. -/
theorem test_pieces_at_the_gate :
    let estimate (g : Nat) : Piece := { letter 2 .provisional with weight := some { reading := g, quality := .estimate } }
    let missing : Piece := { letter 2 .opened with weight := none }
    (∀ q ∈ (line [committed, letter 2 .rated]).ahead 2, q.state.settled = true) ∧ (line [committed]).piece? 1 = some committed ∧
      committed.state.settled = true ∧ (line [missing]).jobOf missing = some currentJob ∧ missingInput missing.inputs .read = some .noWeight ∧
      (line [estimate 473]).guard (estimate 473) = true ∧ (line [estimate 476]).guard (estimate 476) = false ∧
      ((line [letter 2 .rated]).sweep 2).piece? 2 = some (letter 2 .rated) ∧ committed.flags.withdrawSent = false ∧
      committed.commitData = some commitData := by decide +kernel

/-- O27: each missing input with those before it present, and none missing; the guard band met exactly, missed by one decigram, and off. -/
theorem test_missing_input_and_guard :
    let i := letterInputs
    let guard (reading band : Nat) : Bool :=
      let p : Piece := { letter 2 .provisional with weight := some { reading, quality := .estimate } }
      State.guard { line [p] with jobs := [{ currentJob with values := { letterJob with guardBand := band } }] } p
    missingInput { i with weight := none, dimension := none } .read = some .noWeight ∧
      missingInput { i with weight := some { reading := 0, quality := .fault }, dimension := none } .read = some .noWeight ∧
      missingInput { i with dimension := none, destination := none } .read = some .noDimension ∧
      missingInput { i with destination := none } .read = some .noDestination ∧ missingInput { i with destination := none } .fixed = none ∧
      missingInput i .read = none ∧ guard 475 20 = true ∧ guard 476 20 = false ∧ guard 450 0 = false ∧ guard 495 1 = false ∧ guard 494 1 = true := by
  decide +kernel

/-- O28: an unsettled piece that its gate decision makes FINAL, COMMITTING, and leaves unsettled behind a commit in flight. -/
theorem test_pieces_at_the_stacker :
    let decided (s : State) := (((s.sweep 3).gateDecision 3).piece? 3).map (·.state)
    decided { line [letter 3 .rated] with franking := .held } = some .final ∧ decided (line [letter 3 .rated]) = some .committing ∧
      decided { busy none with pieces := [letter 2 .committing, letter 3 .rated], orders := [] } = some .rated := by decide +kernel

/-- O30: a piece with a job, diverted, with the exited flag set and clear. -/
theorem test_ends :
    (line [letter 2 .rated]).piece? 2 = some (letter 2 .rated) ∧ ((letter 2 .rated).flags.exited || (letter 2 .rated).flags.removeRequested) = false ∧
      (({ letter 2 .rated with flags := { exited := true } } : Piece).flags.exited = true) := by decide

/-- O30: the last piece of a CLOSED job leaves and its job with it, DONE posted with the counts and the piece's tag; a piece that is not the last, or of a
job that is not CLOSED, lowers the pieces in list by one; a piece with the exited flag leaves when it ends, counted first. -/
theorem test_removal :
    let closed (inList : Nat) : Job := { currentJob with state := .closed, inList }
    let s (j : Job) (flags : PieceFlags) : State := { line [{ letter 2 .rated with flags }] with jobs := [j] }
    let removed (j : Job) := (s j {}).removePiece 2
    let ended := (s (closed 1) { exited := true }).finalize 2 .printed
    let done (t : State) := t.channels[(7 : Fin 8)].latest.map fun c => (c.code, c.tag, c.detail)
    (removed (closed 1)).jobs = [] ∧ done (removed (closed 1)) = some (.done, some 2, [some 77, some 3, some 1, some 0]) ∧
      (removed (closed 2)).jobs.map (·.inList) = [1] ∧ done (removed (closed 2)) = none ∧
      (removed { currentJob with inList := 1 }).jobs.map (·.inList) = [0] ∧ (removed (closed 1)).pieces = [] ∧
      ended.pieces = [] ∧ ended.jobs = [] ∧ done ended = some (.done, some 2, [some 77, some 3, some 2, some 0]) := by decide +kernel

/-- O31: inputs missing, no bank, OVERLOAD, and a rated and a provisional outcome. -/
theorem test_rating_premises :
    let bank := some (BankId.a, tariff 1 .up)
    ({ letterInputs with dimension := none } : RatingInputs).dimension = none ∧ letterInputs.dimension ≠ none ∧ letterInputs.destination ≠ none ∧
      letterInputs.weight.all (fun w => decide (w.quality = .fault)) = false ∧ (rate letterInputs letterJob none).outcome = .unrateable .noBank ∧
      (rate { letterInputs with weight := some { reading := 60000, quality := .overload } } letterJob bank).outcome = .unrateable .overweight ∧
      (rate letterInputs letterJob bank).outcome = .rated ∧ (rate letterInputs letterJob bank).upgradeCount = some 0 := by decide

/-- O31: an undefined product, a chain of three upgrades that ends the format check, and one that passes after the first upgrade; above the top band;
not served; not offered; over the cap; zero value. -/
theorem test_rating_stages :
    let small : Product := { letterProduct with maxWeight := 40, upgrade := some 1 }
    let chained (second : Product) : Bank := { tariff 1 .up with products := ((tariff 1 .up).products.set 0 small).set 1 second }
    let walked (b : Bank) (i : RatingInputs) (j : JobValues) :=
      let r := rate i j (some (.a, b))
      (r.outcome, r.ratedProduct, r.upgradeCount)
    walked (tariff 1 .up) letterInputs { letterJob with product := 15 } = (.unrateable .outOfFormat, some 15, some 0) ∧
      walked (chained { small with upgrade := some 0 }) letterInputs letterJob = (.unrateable .outOfFormat, some 1, some 3) ∧
      (walked (chained letterProduct) letterInputs letterJob).2 = (some 1, some 1) ∧
      (rate { letterInputs with destination := some (.code 38) } letterJob (some (.a, tariff 1 .up))).outcome = .unrateable .notServed ∧
      (rate { letterInputs with destination := some (.code 38) } { letterJob with zoneMode := .fixed, column := 2 } (some (.a, tariff 1 .up))).outcome =
        .unrateable .notOffered ∧
      (rate letterInputs letterJob (some (.a, { tariff 1 .up with cap := 178 }))).outcome = .unrateable .overCap ∧
      (rate letterInputs letterJob (some (.a, { tariff 1000 .down with cap := 178 }))).outcome = .unrateable .zeroValue := by decide +kernel

/-- O32, O33: the ends of the ranges, and a sum that is not rounded. -/
theorem test_ranges_at_their_ends :
    effectiveWeight 60000 50 = 6005 ∧ effectiveWeight 0 0 = 0 ∧ bandOf [20] 20 = some 1 ∧ bandOf [20] 21 = none ∧ isRounded 5 150000 = false ∧
      flatIndex 7 24 7 = 1535 ∧ flatIndex 0 1 0 = 0 ∧ flatIndex 3 5 6 = 614 ∧ Table.wf 65535 [(9, 145), (15, 205)] ∧
      Table.setRun 65535 [(9, 145), (15, 205)] 9 [65535, 7] = [(10, 7), (15, 205)] := by decide +kernel

/-- O34: codes of a bank at the ends of their range, an ACTIVE target, another bank LOADING, and a target free to load. -/
theorem test_table_begin_premises :
    (line []).Takes head .tableBegin ∧ BankId.ofCode 0 = some .a ∧ BankId.ofCode 1 = some .b ∧ ((line []).banks.get .a).state = .active ∧
      ((line []).banks.get .b).state ≠ .active ∧ ((line []).banks.get BankId.b.other).state ≠ .loading ∧ State.Takes loading head .tableBegin ∧
      ({ loading with banks := { a := .cleared .loading 1, b := tariff 1 .up } } : State).banks.a.state = .loading :=
  ⟨line_takes [] rfl, rfl, rfl, rfl, by decide, by decide, ⟨rfl, rfl, rfl⟩, rfl⟩

/-- O35: no bank loading, a load that passes every check, and one that fails the first. -/
theorem test_table_end_premises :
    (line []).Takes head .tableEnd ∧ (line []).banks.loading = none ∧ loading.Takes head .tableEnd ∧ loading.banks.loading = some .b ∧
      (tariff 1 .up).firstFailure { accepted := 5, flawed := false } 5 = none ∧
      (tariff 1 .up).firstFailure { accepted := 5, flawed := true } 5 = some 1 ∧
      (tariff 1 .up).firstFailure { accepted := 5, flawed := false } 6 = some 2 ∧ (tariff 3 .up).firstFailure { accepted := 5, flawed := false } 5 = some 3 :=
  ⟨line_takes [] rfl, rfl, ⟨rfl, rfl, rfl⟩, by decide, by decide +kernel, by decide +kernel, by decide +kernel, by decide +kernel⟩

/-- O36, O37: each segment at the ends of its ranges, and just outside them. -/
theorem test_segment_premises :
    let largest : Product :=
      { defined := true, bandTable := 7, zoneMap := 3, maxWeight := 6000, maxLength := 6000, maxHeight := 6000, maxThickness := 500, upgrade := some 15
        noReadColumn := 7, zeroOk := true }
    let entry : SurchargeFields := { mask := 1#16, condition := 7, threshold := 65535, amountKind := 1, amount := 65535, last := true }
    RoundingMode.ofCode 2 = some .down ∧ RoundingMode.ofCode 3 = none ∧ productInRange largest = true ∧
      productInRange { largest with maxWeight := 0 } = false ∧ productInRange { largest with maxWeight := 6001 } = false ∧
      productInRange { largest with upgrade := some 16 } = false ∧ (Surcharge.ofFields entry).isSome = true ∧
      Surcharge.ofFields { entry with condition := 8 } = none ∧ Surcharge.ofFields { entry with amountKind := 2 } = none ∧
      (loading.banks.get .b).surcharges.length = 0 ∧ priceIndex (.coordinate 7 24 7) = some 1535 ∧ priceIndex (.coordinate 8 1 0) = none ∧
      priceIndex (.coordinate 0 0 0) = none ∧ priceIndex (.coordinate 0 25 0) = none ∧ priceIndex (.coordinate 0 1 8) = none ∧
      priceIndex (.flat 1535) = some 1535 ∧ priceIndex (.flat 1536) = none ∧ priceIndex (.unknownForm 2) = none ∧
      loading.banks.loading = some .b ∧ (line []).banks.loading = none ∧ isSegment (.bandTableSegment head 7 (List.replicate 24 1)) = true ∧
      requestOf (.bandTableSegment head 7 []) = some (head, .tableSegment) := by decide +kernel

/-- O36, O37: segments at the ends of their ranges are written, and those just outside them mark the load flawed. -/
theorem test_segments_at_their_ends :
    let written (c : Instr) : Bool :=
      let t := after c loading
      decide (t.load.accepted = 1) && !t.load.flawed
    let flawed (c : Instr) : Bool :=
      let t := after c loading
      decide (t.load.accepted = 0) && t.load.flawed && decide (t.banks = loading.banks)
    let p := letterProduct
    let f : SurchargeFields := { mask := 1#16, condition := 7, threshold := 65535, amountKind := 1, amount := 65535, last := true }
    [ .headerSegment head 0 2 0 0, .productSegment head 15 { p with maxWeight := 1 }, .productSegment head 0 { p with maxWeight := 6000, upgrade := some 15 }
    , .productSegment head 0 { p with defined := false, maxWeight := 0, maxLength := 6000, maxHeight := 6000, maxThickness := 500 }
    , .productSegment head 0 { p with bandTable := 7, zoneMap := 3, noReadColumn := 7 }, .bandTableSegment head 7 (List.replicate 24 1)
    , .zoneBlockSegment head 3 224 (List.replicate 32 1), .surchargeSegment head 0 f, .surchargeSegment head 0 { f with condition := 0, amountKind := 0 }
    , .priceRunSegment head (.coordinate 7 24 7) [1], .priceRunSegment head (.flat 1512) (List.replicate 24 1)
    , .priceRunSegment head (.flat 1535) [1] ].all written = true ∧
    [ .headerSegment head 0 3 0 0, .productSegment head 16 p, .productSegment head 0 { p with maxWeight := 0 }
    , .productSegment head 0 { p with maxWeight := 6001 }, .productSegment head 0 { p with maxLength := 6001 }
    , .productSegment head 0 { p with maxHeight := 6001 }, .productSegment head 0 { p with maxThickness := 501 }
    , .productSegment head 0 { p with upgrade := some 16 }, .productSegment head 0 { p with bandTable := 8 }
    , .productSegment head 0 { p with zoneMap := 4 }, .productSegment head 0 { p with noReadColumn := 8 }
    , .bandTableSegment head 8 [], .bandTableSegment head 7 (List.replicate 25 1), .zoneBlockSegment head 4 224 (List.replicate 32 1)
    , .zoneBlockSegment head 3 225 (List.replicate 32 1), .surchargeSegment head 0 { f with condition := 8 }
    , .surchargeSegment head 0 { f with amountKind := 2 }, .surchargeSegment head 1 f, .priceRunSegment head (.coordinate 7 24 7) [1, 1]
    , .priceRunSegment head (.flat 1512) (List.replicate 25 1), .priceRunSegment head (.flat 1513) (List.replicate 24 1)
    , .priceRunSegment head (.flat 1536) [1], .priceRunSegment head (.flat 0) [], .priceRunSegment head (.coordinate 0 0 0) [1]
    , .priceRunSegment head (.unknownForm 2) [1], .unknownSegmentGroup head 6 ].all flawed = true := by decide +kernel

theorem test_segments_taken : loading.Takes head .tableSegment ∧ (line []).Takes head .tableSegment := ⟨⟨rfl, rfl, rfl⟩, line_takes [] rfl⟩

/-- O38: an ACTIVE, an EMPTY and a READY target; its effective day the mailing date itself, the day after, and no date set. -/
theorem test_bank_switch_premises :
    (readyBank 9100).Takes head .bankSwitch ∧ ((readyBank 9100).banks.get .a).state = .active ∧ ((readyBank 9100).banks.get .b).state = .ready ∧
      ((line []).banks.get .b).state = .empty ∧
      ((readyBank 9100).mailingDate.any fun day => decide (((readyBank 9100).banks.get .b).effectiveDay ≤ day)) = true ∧
      ((readyBank 9101).mailingDate.any fun day => decide (((readyBank 9101).banks.get .b).effectiveDay ≤ day)) = false ∧
      ({ readyBank 9100 with mailingDate := none } : State).mailingDate = none :=
  ⟨⟨rfl, rfl, rfl⟩, rfl, rfl, rfl, by decide, by decide, rfl⟩

/-- O39: a READY target beside an ACTIVE bank, and a job that becomes CURRENT with an AT_JOB switch pending. -/
theorem test_switch_premises :
    let s : State := { readyBank 9100 with jobs := [waitingJob], pendingSwitch := some { target := .b, mode := .atJob } }
    (s.banks.get .b).state ≠ .active ∧ ¬(s.banks.a.state = .active ∧ s.banks.b.state = .active) ∧ s.currentJob = none ∧
      s.jobs.find? (fun j => decide (j.state = .waiting)) = some waitingJob ∧ s.pendingSwitch = some { target := .b, mode := .atJob } := by decide

/-- O40: the values at the ends of their ranges; an id in use; a full list; a job added behind a CURRENT one and as the CURRENT one. -/
theorem test_job_add_premises :
    let four : State := { line [] with jobs := [0, 1, 2, 3].map fun k => { currentJob with slot := k, values := { letterJob with id := k } } }
    (line []).Takes head .jobAdd ∧ ZoneMode.ofCode 0 = some .read ∧ ZoneMode.ofCode 1 = some .fixed ∧ (∃ j ∈ (line []).jobs, j.values.id = 77) ∧
      (∀ j ∈ four.jobs, j.values.id ≠ 77) ∧ 4 ≤ four.jobs.length ∧ (line []).jobs.length < 4 ∧ (∀ j ∈ (line []).jobs, j.slot ≠ 1) ∧
      (∀ k, k < 1 → ∃ j ∈ (line []).jobs, j.slot = k) ∧ (line []).currentJob.isSome = true ∧
      ({ line [] with jobs := [] } : State).currentJob = none ∧ (line []).pendingSwitch = none := by
  refine ⟨line_takes [] rfl, rfl, rfl, by decide, by decide, by decide, by decide, by decide, by decide, by decide, by decide, by decide⟩

/-- O41: an unknown id, a CLOSED job, a CURRENT one with pieces in the list, and one without. -/
theorem test_job_abort_premises :
    (line []).Takes head .jobAbort ∧ (∀ j ∈ (line []).jobs, j.values.id ≠ 78) ∧ currentJob ∈ (line []).jobs ∧ currentJob.values.id = 77 ∧
      currentJob.state ≠ .closed ∧ currentJob.inList ≠ 0 ∧ ({ currentJob with state := .closed } : Job).state = .closed ∧
      ({ currentJob with inList := 0 } : Job).inList = 0 ∧ running.ListsSafe :=
  ⟨line_takes [] rfl, by decide, by decide, rfl, by decide, by decide, rfl, rfl, test_running_lists⟩

def watching (action : MonitorAction) (k : Nat) : State :=
  { line [] with
    monitors := (Vector.replicate 4 Monitor.fresh).setIfInBounds k
      { settings := { mask := 0x0030#16, polarity := .high, function := .any, action }, previous := false } }

/-- O42, O43: no monitor acts, and the lowest or the highest one acts with each action. -/
theorem test_monitor_premises :
    let acting (s : State) (word : Flags16) :=
      ([0, 1, 2, 3] : List (Fin 4)).filter fun i => s.monitors[i].settings.result word && !s.monitors[i].previous
    acting (watching .stop 0) 0x0000#16 = [] ∧ acting (watching .notify 0) 0x0010#16 = [0] ∧ acting (watching .stop 3) 0x0020#16 = [3] ∧
      acting (watching .halt 3) 0x0010#16 = [3] ∧ acting (watching .lock 0) 0x0010#16 = [0] ∧
      (watching .lock 0).monitors[(0 : Fin 4)].settings.action = .lock ∧ (watching .lock 0).power = .on ∧
      (watching .lock 0).franking ≠ .unconfigured := by decide

/-- O43: two monitors that act at one word are listed in one STOP_REQUEST and act in number order. -/
theorem test_two_monitors :
    let s : State := { watching .stop 0 with monitors := (watching .stop 0).monitors.set 3 (watching .lock 3).monitors[(3 : Fin 8).val] }
    let t := after (.lineStatus 0x0010#16) s
    t.lineTx.waiting.head? = some (.stopMonitors [0, 3] 0x0010#16) ∧ t.franking = .lockout ∧ t.causes.monitor = true ∧
      t.channels[(2 : Fin 8)].latest.map (·.code) = some .monitorStop ∧ t.channels[(0 : Fin 8)].latest.map (·.code) = some .monitorLock := by
  decide +kernel

theorem test_power_on_ends_in_next : ∃ t, exec (.powerOn true) (busy none) = .next t := ⟨_, rfl⟩

/-- O44: each field just out of its range, and the highest number with codes in range. -/
theorem test_monitor_set_premises :
    (line []).Takes head .monitorSet ∧ 3 < ({ monitorFields with number := 4 } : MonitorFields).number ∧ (3 : Nat) = (3 : Fin 4).val ∧
      Polarity.high.code ≤ 1 ∧ Polarity.low.code ≤ 1 ∧ MonitorFunction.all.code ≤ 1 ∧ MonitorAction.lock.code = 3 :=
  ⟨line_takes [] rfl, by decide, rfl, by decide, by decide, by decide, rfl⟩

def fault : Capture :=
  { errorClass := .contributory, code := .printUnknown, tag := some 1, before := .held, d := 821, e := 179, pieceCount := 1, detail := [some 1]
    secondary := 0 }

/-- O45, O46: no commit in flight and one in flight; HELD and another state; HALTED with the capture full and empty. -/
theorem test_hold_premises :
    (line []).Takes head .hold ∧ (line []).slot = none ∧ (busy none).slot.isSome = true ∧ (busy none).Takes head .hold ∧ (line []).Takes head .resume ∧
      (line []).franking ≠ .held ∧ ({ line [] with franking := .held } : State).Takes head .resume ∧
      ({ line [] with franking := .halted } : State).Takes head .clearHalt ∧ (line []).Takes head .clearHalt ∧ (line []).franking ≠ .halted ∧
      ({ line [] with franking := .halted, capture := some fault } : State).Takes head .fetchCapture ∧
      ({ line [] with franking := .halted, capture := some fault } : State).capture.isSome = true ∧
      requestOf (.hold head) = some (head, .hold) ∧ RequestKind.hold ≠ .fetchCapture :=
  ⟨line_takes [] rfl, rfl, rfl, ⟨rfl, rfl, rfl⟩, line_takes [] rfl, by decide, ⟨rfl, rfl, rfl⟩, ⟨rfl, rfl, rfl⟩, line_takes [] rfl, by decide,
    ⟨rfl, rfl, rfl⟩, rfl, rfl, by decide⟩

/-- O47, O48, O49: the franking states, with ERROR present and absent; the part on and off; a write under way. -/
theorem test_error_premises :
    (line []).franking = .running ∧ ({ line [] with franking := .held } : State).causes.error = false ∧ lockedOut.franking = .lockout ∧
      (line []).serving = true ∧ (line []).power = .on ∧ ({ line [] with power := .off } : State).power ≠ .on ∧ (busy none).writeBegun = true ∧
      (busy none).queue = [.commit 2 179] := by decide

/-- O50: a CREDIT in flight, and each test of a CREDIT and a DATE at the ends of its range. -/
theorem test_credit_and_date_premises :
    (line []).Takes head .credit ∧ (∃ w ∈ [Write.credit 1 1 1], w.isCredit = true) ∧ (¬∃ w ∈ (line []).queue, w.isCredit = true) ∧
      1 = ((line []).accounts.creditNumber + 1) % 4294967296 ∧ 2 ≠ ((line []).accounts.creditNumber + 1) % 4294967296 ∧
      (line []).accounts.d + (line []).accounts.e + 99998999 ≤ 99999999 ∧ 99999999 < (line []).accounts.d + (line []).accounts.e + 99999000 ∧
      (line []).Takes head .date ∧ (line []).accounts.lastUsed = some 9100 ∧ 9099 < 9100 ∧ 9100 + 31 < 9132 ∧
      (∀ last, (line []).accounts.lastUsed = some last → last ≤ 9131 ∧ 9131 ≤ last + 31) ∧ (line []).pendingSwitch = none ∧
      ((readyBank 9131).banks.get .b).effectiveDay ≤ 9131 := by
  refine ⟨line_takes [] rfl, by decide, by decide, by decide, by decide, by decide, by decide, line_takes [] rfl, rfl, by decide, by decide, ?_, rfl,
    by decide⟩
  intro last h
  cases h
  decide

/-- O51: a CREDIT at the head of the queue. -/
theorem test_credit_at_the_head :
    let s : State := { line [] with queue := [.credit 9 1 500] }
    s.power = .on ∧ s.queue = .credit 9 1 500 :: [] ∧
      (let t := after .creditComplete s; t.accounts.d = 1321 ∧ t.accounts.t = 1500 ∧ t.accounts.creditNumber = 1 ∧ t.queue = []) := by decide +kernel

/-- O52: the commit of piece 2 completes: its order sent, withheld for REMOVE, for LOCKOUT and for a line reset. -/
theorem test_commit_premises :
    (busy none).power = .on ∧ (busy none).queue = .commit 2 179 :: [] ∧ (busy none).slot.isSome = true ∧ (busy none).mailingDate = some 9100 ∧
      ((busy none).piece? 2).map (·.flags.removeRequested) = some false ∧ (busy none).franking ≠ .lockout ∧
      (({ busy none with pieces := [{ letter 2 .committing with flags := { removeRequested := true } }] } : State).piece? 2).map
        (·.flags.removeRequested) = some true ∧
      ((busy (some .lineReset)).slot.bind (·.withheld)) = some .lineReset ∧
      (let t := after .commitComplete (busy none)
       t.accounts.d = 642 ∧ t.accounts.e = 358 ∧ t.accounts.n = 2 ∧ t.orders.length = 2 ∧ t.slot = none ∧
         (t.piece? 2).map (·.state) = some .committed ∧ t.channels[(3 : Fin 8)].latest.map (·.code) = some .low) := by decide +kernel

/-- O53: each closing write, from each block that requests one. -/
theorem test_closing_premises :
    (closing .confirm .printPort none).queue = [.close .confirm 1 1 .printPort] ∧
      (closing .confirm .printPort none).accounts.openOrders.find? (·.n == 1) = some { tag := 1, n := 1, p := 179 } ∧
      (closing .void .commitUnit (some (followUp .remove))).slot = some (followUp .remove) ∧ (followUp .remove).withheld = some .remove ∧
      (followUp .lockout).withheld = some .lockout ∧ (followUp .lineReset).withheld = some .lineReset ∧
      ({ closing .spoil .powerOn none with pieces := [] } : State).pieces = [] ∧
      (let t := after .voidComplete (closing .void .printPort none)
       t.accounts.d = 1000 ∧ t.accounts.e = 0 ∧ t.accounts.voided = 1 ∧ (t.piece? 1).map (·.disposition) = some (some .voided)) := by decide +kernel

/-- O53: CONFIRM_COMPLETE and a print port's SPOIL of a piece that stays are no events of R119, so no SHORT is posted for a candidate short of funds; a
VOID and the end of a record that leaves are. -/
theorem test_closing_writes_told :
    let s (kind : CloseKind) (p : Piece) : State :=
      { closing kind .printPort none with pieces := [p, letter 2 .rated], accounts := { (line []).accounts with d := 100, a := 721, t := 1000 } }
    let leaving : Piece := { committed with flags := { exited := true } }
    (after .confirmComplete (s .confirm committed)).fundsMark = none ∧ (after .spoilComplete (s .spoil committed)).fundsMark = none ∧
      (after .confirmComplete (s .confirm leaving)).fundsMark = some 2 ∧ (after .voidComplete (s .void committed)).queue = [.commit 2 179] ∧
      (∀ q ∈ (line [letter 2 .rated]).pieces, q.commitData.map (·.n) ≠ some 1) := by decide +kernel

/-- A line reset was accepted with order 1 outstanding: its SPOIL is at the head of the queue, its reply waits, and no record holds the N. -/
def resetting : State :=
  { closing .spoil .lineReset none with
    pieces := [], jobs := [], franking := .held, causes := { operator := true, monitor := false, error := false, power := false }
    resetWait := some { request := 9, spoils := 1, remaining := 1, franking := .held } }

/-- O53: the SPOIL of a line reset, and that of a power-on, in states that meet the invariant; both find no piece, and the first completes the reset. -/
theorem test_reset_closing_premises :
    resetting.OrdersSafe ∧ resetting.power = .on ∧ resetting.queue = .close .spoil 1 1 .lineReset :: [] ∧
      resetting.accounts.openOrders.find? (·.n == 1) = some { tag := 1, n := 1, p := 179 } ∧
      (∀ q ∈ resetting.pieces, q.commitData.map (·.n) ≠ some 1) ∧
      (let t := after .spoilComplete resetting
       t.accounts.spoiled = 1 ∧ t.resetWait = none ∧
         t.lineTx.waiting.map (fun r => match r with | .reply r _ => some (r.number, r.kind) | _ => none) = [some (9, 0x41)]) ∧
      (let s : State := { closing .spoil .powerOn none with pieces := [letter 1 .opened] }
       (∀ q ∈ s.pieces, q.commitData.map (·.n) ≠ some 1) ∧ (after .spoilComplete s).pieces = s.pieces) := by
  refine ⟨⟨⟨by decide, by decide, by decide, by decide, by decide, ?_, by decide, fun _ => by decide⟩,
    ⟨by decide, by decide, by decide, fun c hc => ?_, by decide, fun _ _ _ _ _ _ p hp => ?_⟩⟩, by decide +kernel⟩
  · intro pre w post hq hc
    match pre, hq with
    | [], hq =>
      obtain ⟨rfl, -⟩ := List.cons.inj hq
      cases hc
    | _ :: _, hq => simp [resetting, closing] at hq
  · cases hc
  · cases hp

/-- O58: a SPOIL that completes with another still to come, and the last one. -/
theorem test_reset_spoils :
    let left (remaining : Nat) : State := { resetting with resetWait := some { request := 9, spoils := 2, remaining, franking := .held } }
    (∀ q ∈ (left 2).pieces, q.commitData.map (·.n) ≠ some 1) ∧ (left 2).accounts.openOrders.any (·.n == 1) = true ∧
      (after .spoilComplete (left 2)).resetWait = some { request := 9, spoils := 2, remaining := 1, franking := .held } ∧
      (after .spoilComplete (left 2)).lineTx.waiting = [] ∧ (after .spoilComplete (left 1)).resetWait = none ∧
      (after .spoilComplete (left 1)).lineTx.waiting =
        [.reply { number := 9, kind := 0x41, outcome := .accepted, reason := none, results := .lineReset 2 .held } 0] := by decide +kernel

/-- O52, O54: what the slot keeps of a rated letter; an order withheld queues its closing write. -/
theorem test_order_fields :
    let order : OrderFields :=
      { product := 0, upgrades := 0, column := 1, noReadDefault := false, rounded := true, tariffId := 340, estimate := false }
    (letter 2 .rated).orderFields = order ∧ ((after .commitStart (line [committed, letter 2 .rated])).slot.map (·.order)) = some order ∧
      (after .commitComplete (busy (some .lineReset))).queue = [.close .spoil 2 2 .commitUnit] ∧
      (after .commitComplete { busy none with franking := .lockout }).queue = [.close .void 2 2 .commitUnit] := by decide +kernel

/-- O55: the bytes of an order, a DISPOSITION, a NOTICE, a STOP_REQUEST and a refusal; the report is sent in two parts. -/
theorem test_record_bytes :
    let order : PrintOrder :=
      { tag := 2, n := 258, p := 179, date := 9100, ascending := 358, k := 5566, fields := (letter 2 .rated).orderFields }
    let report : DispositionRecord := (letter 2 .rated).report (some 77) (.diverted .held)
    let bytes (l : List Byte) : List Nat := l.map (·.toNat)
    bytes (PrintRecord.order order).payload =
        [0, 2, 0, 0, 1, 2, 0, 0, 0, 179, 35, 140, 0, 0, 0, 0, 1, 102, 21, 190, 0, 0, 1, 2, 1, 84] ∧
      bytes (LineRecord.disposition report).payload = [0, 2, 3, 16, 8, 0, 77, 0, 0, 0, 0, 0, 0, 0, 0] ∧
      bytes (LineRecord.notice 5 5 (some { code := .short, tag := some 2, detail := [some 179, none] }) 1).payload =
        [5, 5, 0x17, 3, 0, 2, 1, 0, 0, 0, 179, 0, 0, 0, 0] ∧
      bytes (LineRecord.stopMonitors [0, 3] 0x0110#16).payload = [0, 9, 1, 16, 0, 0] ∧
      bytes (LineRecord.reply { number := 9, kind := 0x60, outcome := .refused, reason := some .lockedOut, results := .nothing } 0).payload =
        [9, 0x60, 2, 16, 128] ∧
      ({ number := 9, kind := 0x69, outcome := .accepted, reason := none, results := .status (line []).report } : Reply).parts = 2 := by decide +kernel

/-- O54: a gate-committed candidate with the slot filled waits; with the slot empty it is attempted as at its gate, by its own check and by every test of
the commit unit: it commits, or ends diverted, short of funds with no SHORT posted; the candidate behind it is then tested. -/
theorem test_gate_committed :
    let waiting : Piece := { letter 3 .rated with flags := { gatePassed := true, gateCommitted := true } }
    let full : State := { busy none with pieces := [committed, letter 2 .committing, waiting], settings := { (line []).settings with maxOutstanding := 4 } }
    let empty (d : Nat) : State :=
      { line [committed, waiting, letter 4 .rated] with
        jobs := [{ currentJob with inList := 3 }], accounts := { (line []).accounts with d, a := 821 - d } }
    let poor := after .commitStart (empty 178)
    full.pieces.find? (fun p => !p.state.settled) = some waiting ∧ waiting.flags.gateCommitted = true ∧ full.slot.isSome = true ∧
      after .commitStart full = full ∧ after .gateCommittedCheck full = full ∧ (empty 821).slot = none ∧
      (empty 821).pieces.find? (fun p => !p.state.settled) = some waiting ∧ (empty 821).ListsSafe ∧
      after .gateCommittedCheck (empty 821) = after .commitStart (empty 821) ∧ (after .commitStart (empty 821)).queue = [.commit 3 179] ∧
      ((after .commitStart (empty 821)).piece? 3).map (fun p => (p.state, p.flags.gateCommitted)) = some (.committing, false) ∧
      after .gateCommittedCheck (empty 178) = poor ∧ (poor.piece? 3).map (·.disposition) = some (some (.diverted .fundsShort)) ∧
      poor.fundsMark = some 4 := by
  refine ⟨by decide, by decide, by decide, by decide +kernel, by decide +kernel, by decide, by decide, lists_safe (by decide), by decide +kernel⟩

/-- O54: a candidate that meets every condition, one short of funds, one that waits, one gate-committed, and the two ceilings. -/
theorem test_candidate_premises :
    let s := line [committed, letter 2 .rated]
    s.power = .on ∧ s.pieces.find? (fun p => !p.state.settled) = some (letter 2 .rated) ∧ (letter 2 .rated).flags.gateCommitted = false ∧
      (∀ q ∈ s.ahead 2, q.state.settled = true) ∧ s.franking = .running ∧ s.mailingDate.isSome = true ∧ s.printer = .ready ∧
      s.orders.length + s.slot.isSome.toNat < s.settings.maxOutstanding ∧ (letter 2 .rated).postage = 179 ∧ 179 ≤ s.accounts.d ∧ s.slot = none ∧
      s.accounts.a + s.accounts.e + 179 ≤ 281474976710655 ∧ s.accounts.n ≠ 4294967295 ∧
      281474976710655 < ({ s.accounts with a := 281474976710298 } : Accounts).a + s.accounts.e + 179 ∧
      ({ s.accounts with d := 178 } : Accounts).d < (letter 2 .rated).postage ∧ s.fundsMark ≠ some 2 ∧ (busy none).slot.isSome = true ∧
      (∀ p ∈ (line [committed]).pieces, p.state.settled = true) ∧ (letter 2 .opened).state ≠ .rated ∧ s.piece? 2 = some (letter 2 .rated) := by
  decide +kernel

/-- O54: at a ceiling the piece ends DIVERTED LOCKED and ACCOUNT_CEILING is raised with P and the ceiling that failed. -/
theorem test_ceiling :
    let s (a : Accounts) : State := { line [committed, letter 2 .rated] with accounts := a }
    let a := (line []).accounts
    let which (a : Accounts) := (after .commitStart (s a)).channels[(0 : Fin 8)].latest.map (fun c => (c.code, c.tag, c.detail))
    which { a with a := 281474976710298 } = some (.accountCeiling, some 2, [some 179, some 0]) ∧
      which { a with n := 4294967295 } = some (.accountCeiling, some 2, [some 179, some 1]) ∧
      which { a with a := 281474976710298, n := 4294967295 } = some (.accountCeiling, some 2, [some 179, some 2]) ∧
      ((after .commitStart (s { a with n := 4294967295 })).piece? 2).map (·.disposition) = some (some (.diverted .locked)) := by decide +kernel

/-- O56: the printer READY and not; an order not yet taken, one taken, and none of the tag. -/
theorem test_print_premises :
    (line []).printer = .ready ∧ State.reset.printer = .notReady ∧ (line []).order? 1 = some { tag := 1, n := 1, p := 179, taken := false, duration := 50 } ∧
      (line []).order? 2 = none ∧
      ({ line [] with orders := [{ tag := 1, n := 1, p := 179, taken := true, duration := 800 }] } : State).order? 1 =
        some { tag := 1, n := 1, p := 179, taken := true, duration := 800 } ∧
      (let t := after (.printResult 1 2) (line [])
       t.orders = [] ∧ t.queue = [.close .spoil 1 1 .printPort] ∧ t.franking = .held ∧ t.causes.error = true ∧ t.capture.isSome = true) := by decide +kernel

/-- O57, O58: the notice modes at the ends of their range; a LINE_RESET with an order outstanding and with none, and one that waits. -/
theorem test_line_port_premises :
    State.reset.Takes head .configure ∧ NoticeMode.ofCode 1 = some .level ∧ NoticeMode.ofCode 2 = none ∧ (line []).Takes head .lineReset ∧
      (line []).resetWait = none ∧ ((line []).orders.map (·.n)).Nodup ∧ (∀ o ∈ (line []).orders, (line []).closeTaken o.n = true) ∧
      ({ line [] with resetWait := some { request := 9, spoils := 1, remaining := 0, franking := .held } } : State).resetWait.isSome = true :=
  ⟨⟨rfl, rfl, rfl⟩, rfl, rfl, line_takes [] rfl, rfl, by decide, by decide, rfl⟩

/-- Two channels with causes: JOB under service, PIECE pending above it. -/
def noticed : State :=
  { line [] with
    gne := true
    channels := ((line []).channels.set 5 { enable := true, pending := true, underService := false, latest := none, count := 1 }).set 7
      { enable := true, pending := true, underService := true, latest := none, count := 1 } }

/-- O59, O60: the lowest ready channel, none ready, a channel under service, none, a reported channel, and records that wait. -/
theorem test_notice_premises :
    noticed.channelReady 5 = true ∧ (∀ k, k < (5 : Fin 8) → noticed.channelReady k = false) ∧ (∀ c, (line []).channelReady c = false) ∧
      noticed.channels[(7 : Fin 8)].underService = true ∧ (∀ k : Fin 8, k < 7 → noticed.channels[k].underService = false) ∧
      (∀ c : Fin 8, (line []).channels[c].underService = false) ∧ noticed.channels[(5 : Fin 8)].pending = true ∧
      (∀ k : Fin 8, k < 5 → noticed.channels[k].pending = false) ∧ (line []).lineTx.waiting = [] ∧ (line []).printTx.waiting = [] ∧
      ((line []).sendLine (.stopOverflow 1)).lineTx.waiting = [.stopOverflow 1] ∧
      ((line []).sendPrint (.withdraw 1 1)).printTx.waiting = [.withdraw 1 1] := by decide

theorem test_notice_requests_taken : noticed.Takes head .noticeEnable ∧ noticed.Takes head .endOfService := ⟨⟨rfl, rfl, rfl⟩, ⟨rfl, rfl, rfl⟩⟩

end Sys2Proof.Tests
end

/-! PROOFS. CREDIT_COMPLETE (O51). -/

namespace Sys2Proof.Machine

/-- A working part takes the command (R200); `taken_off` is the other case. -/
theorem taken_on {s : State} (hp : s.power = .on) (f : State → State) : s.taken f = .next (f s) := by
  unfold State.taken
  rw [if_pos hp]

theorem exec_creditComplete (s : State) : exec .creditComplete s = execCreditComplete s := rfl

/-! ### What CREDIT writes (R105) and what it leaves -/

@[simp] theorem Accounts.creditWrite_d (a : Accounts) (number amount : Nat) : (a.creditWrite number amount).d = a.d + amount := rfl
@[simp] theorem Accounts.creditWrite_t (a : Accounts) (number amount : Nat) : (a.creditWrite number amount).t = a.t + amount := rfl
@[simp] theorem Accounts.creditWrite_creditNumber (a : Accounts) (number amount : Nat) :
    (a.creditWrite number amount).creditNumber = number := rfl
@[simp] theorem Accounts.creditWrite_e (a : Accounts) (number amount : Nat) : (a.creditWrite number amount).e = a.e := rfl
@[simp] theorem Accounts.creditWrite_a (a : Accounts) (number amount : Nat) : (a.creditWrite number amount).a = a.a := rfl
@[simp] theorem Accounts.creditWrite_n (a : Accounts) (number amount : Nat) : (a.creditWrite number amount).n = a.n := rfl
@[simp] theorem Accounts.creditWrite_openOrders (a : Accounts) (number amount : Nat) :
    (a.creditWrite number amount).openOrders = a.openOrders := rfl

/-- Steps 1 and 2 of a CREDIT's completion (R100): only the accounts and the queue change, and no write is under way. -/
theorem State.performHead_credit (s : State) (request number amount : Nat) (rest : List Write) :
    s.performHead (.credit request number amount) rest =
      { s with accounts := s.accounts.creditWrite number amount, queue := rest, writeBegun := false } := rfl

/-- The completion of a CREDIT in its order (R100, R105, R110): the registers, the reply with their new values, the candidate's test, the next write. -/
theorem State.completeCredit_eq (s : State) (request number amount : Nat) (rest : List Write) :
    s.completeCredit request number amount rest =
      ((State.accept { s with accounts := s.accounts.creditWrite number amount, queue := rest, writeBegun := false } request .credit
        (.credited (s.accounts.d + amount) (s.accounts.t + amount) number)).commitTest).beginNext := by
  simp only [State.completeCredit, State.performHead_credit, Accounts.creditWrite_d, Accounts.creditWrite_t,
    Accounts.creditWrite_creditNumber]

/-- With a CREDIT at the head of the queue, a working part's CREDIT_COMPLETE is the completion of that write. -/
theorem exec_creditComplete_of_head {request number amount : Nat} {rest : List Write} {s : State} (hp : s.power = .on)
    (hq : s.queue = .credit request number amount :: rest) :
    exec .creditComplete s = .next (s.completeCredit request number amount rest) := by
  rw [exec_creditComplete, execCreditComplete, taken_on hp, hq]

/-- Settles O51: the completion of the CREDIT at the head, with the registers that `creditWrite` leaves. -/
theorem creditCompletes : Obligations.CreditCompletes := by
  intro request number amount rest s hp hq a credited told
  have hcredited : credited = a.creditWrite number amount := rfl
  have hexec : exec .creditComplete s = .next told.beginNext := by
    rw [exec_creditComplete_of_head hp hq, State.completeCredit_eq, ← hcredited]
  rw [hcredited]
  exact ⟨Accounts.creditWrite_e .., Accounts.creditWrite_a .., Accounts.creditWrite_n .., Accounts.creditWrite_openOrders .., hexec⟩

end Sys2Proof.Machine

/-! PROOFS. The result of a condition monitor (O42). -/

namespace Sys2Proof.Machine

/-! ### Watched flags and the polarity (R151, R152) -/

/-- Flag `i` is one of the sensor word that the monitor watches. -/
def MonitorSettings.Watches (m : MonitorSettings) (i : Nat) : Prop := i < 16 ∧ m.mask.getLsbD i = true

/-- Flag `i` of the word equals the monitor's polarity, set for HIGH and clear for LOW. -/
def MonitorSettings.Equals (m : MonitorSettings) (word : Flags16) (i : Nat) : Prop := word.getLsbD i = decide (m.polarity = .high)

theorem MonitorSettings.exists_watches_iff (m : MonitorSettings) : (∃ i, m.Watches i) ↔ m.mask ≠ 0#16 := by
  constructor
  · rintro ⟨i, -, hmask⟩ hzero
    simp [hzero] at hmask
  · intro hmask
    by_contra hnone
    refine hmask (BitVec.eq_of_getLsbD_eq fun i hi => ?_)
    simpa using fun hset => hnone ⟨i, hi, hset⟩

/-- The flags of `matching`: those watched that equal the polarity. -/
theorem MonitorSettings.getLsbD_matching (m : MonitorSettings) (word : Flags16) {i : Nat} (hi : i < 16) :
    (m.matching word).getLsbD i = true ↔ m.Watches i ∧ m.Equals word i := by
  cases hp : m.polarity <;> simp [MonitorSettings.matching, MonitorSettings.Watches, MonitorSettings.Equals, hp, hi]

theorem MonitorSettings.matching_ne_zero_iff (m : MonitorSettings) (word : Flags16) :
    m.matching word ≠ 0#16 ↔ ∃ i, m.Watches i ∧ m.Equals word i := by
  constructor
  · intro hne
    by_contra hnone
    refine hne (BitVec.eq_of_getLsbD_eq fun i hi => ?_)
    simpa using fun hset => hnone ⟨i, (m.getLsbD_matching word hi).mp hset⟩
  · rintro ⟨i, hw, he⟩ hzero
    have hset := (m.getLsbD_matching word hw.1).mpr ⟨hw, he⟩
    simp [hzero] at hset

theorem MonitorSettings.matching_eq_mask_iff (m : MonitorSettings) (word : Flags16) :
    m.matching word = m.mask ↔ ∀ i, m.Watches i → m.Equals word i := by
  constructor
  · rintro hall i ⟨hi, hmask⟩
    exact ((m.getLsbD_matching word hi).mp (hall ▸ hmask)).2
  · intro hall
    refine BitVec.eq_of_getLsbD_eq fun i hi => Bool.eq_iff_iff.mpr ?_
    rw [m.getLsbD_matching word hi]
    exact ⟨fun h => h.1.2, fun hmask => ⟨⟨hi, hmask⟩, hall i ⟨hi, hmask⟩⟩⟩

/-! ### The two functions (R152) -/

theorem MonitorSettings.result_any {m : MonitorSettings} (hf : m.function = .any) (word : Flags16) :
    m.result word = true ↔ ∃ i, m.Watches i ∧ m.Equals word i := by
  rw [← m.matching_ne_zero_iff word]
  simp [MonitorSettings.result, hf]

theorem MonitorSettings.result_all {m : MonitorSettings} (hf : m.function = .all) (word : Flags16) :
    m.result word = true ↔ (∃ i, m.Watches i) ∧ ∀ i, m.Watches i → m.Equals word i := by
  rw [m.exists_watches_iff, ← m.matching_eq_mask_iff word]
  simp [MonitorSettings.result, hf]

/-- Under both functions a true monitor watches a flag that equals the polarity. -/
theorem MonitorSettings.exists_of_result {m : MonitorSettings} {word : Flags16} (h : m.result word = true) :
    ∃ i, m.Watches i ∧ m.Equals word i := by
  cases hf : m.function with
  | any => exact (MonitorSettings.result_any hf word).mp h
  | all =>
    obtain ⟨⟨i, hi⟩, hall⟩ := (MonitorSettings.result_all hf word).mp h
    exact ⟨i, hi, hall i hi⟩

theorem MonitorSettings.result_of_mask_clear {m : MonitorSettings} (hm : m.mask = 0#16) (word : Flags16) : m.result word = false := by
  refine Bool.eq_false_iff.mpr fun h => ?_
  obtain ⟨i, hi, -⟩ := MonitorSettings.exists_of_result h
  exact m.exists_watches_iff.mp ⟨i, hi⟩ hm

theorem Monitor.acts_of_mask_clear {m : Monitor} (hm : m.settings.mask = 0#16) (word : Flags16) : m.acts word = false := by
  rw [Monitor.acts, MonitorSettings.result_of_mask_clear hm, Bool.false_and]

/-- With one watched flag the functions agree: the monitor is true when that flag equals the polarity. -/
theorem MonitorSettings.result_of_one_watched {m : MonitorSettings} {i : Nat} (hi : m.Watches i) (hone : ∀ k, m.Watches k → k = i)
    (word : Flags16) : m.result word = true ↔ m.Equals word i := by
  constructor
  · intro h
    obtain ⟨k, hk, he⟩ := MonitorSettings.exists_of_result h
    exact hone k hk ▸ he
  · intro he
    cases hf : m.function with
    | any => exact (MonitorSettings.result_any hf word).mpr ⟨i, hi, he⟩
    | all => exact (MonitorSettings.result_all hf word).mpr ⟨⟨i, hi⟩, fun k hk => (hone k hk).symm ▸ he⟩

/-! ### The monitors after a power-on (R151) -/

theorem exec_powerOn (service : Bool) (s : State) : exec (.powerOn service) s = .next (s.powerOn service) := rfl

@[simp] theorem State.powerOn_monitors (s : State) (service : Bool) : (s.powerOn service).monitors = Vector.replicate 4 .fresh := rfl

theorem State.powerOn_mask (s : State) (service : Bool) (i : Fin 4) : (s.powerOn service).monitors[i].settings.mask = 0#16 := by
  simp [Monitor.fresh]

/-- Settles O42: the two functions by their flags; the empty mask and the one watched flag follow from them. -/
theorem monitorResult : Obligations.MonitorResult := by
  refine ⟨fun m word => ⟨fun hany => MonitorSettings.result_any hany word, fun hall => MonitorSettings.result_all hall word,
    fun hm => ⟨MonitorSettings.result_of_mask_clear hm word, fun _ => Monitor.acts_of_mask_clear hm word⟩, fun i hi hone => ?_⟩,
    fun s service t ht i => ?_⟩
  · rw [Bool.eq_iff_iff, decide_eq_true_iff]
    exact MonitorSettings.result_of_one_watched hi hone word
  · cases (exec_powerOn service s).symm.trans ht
    exact s.powerOn_mask service i

end Sys2Proof.Machine

/-! PROOFS. The franking state's test of every request (O19). -/

namespace Sys2Proof.Machine

/-! ### A request passes the line port and the franking state before its owner (R163, R191) -/

/-- Every request is taken by the same two tests, of LEN and of the franking state, and then by an owner of its own. -/
theorem exec_of_requestOf {c : Instr} {h : ReqHead} {k : RequestKind} (hc : requestOf c = some (h, k)) :
    ∃ owner : State → State, ∀ s, exec c s = s.taken fun s => s.request h k owner := by
  cases c <;> cases hc <;> exact ⟨_, fun _ => rfl⟩

theorem State.request_of_refused {s : State} {h : ReqHead} {k : RequestKind} {r : Reason} (hl : h.lenOk = true)
    (hr : k.stateRefusal s.franking = some r) (owner : State → State) : s.request h k owner = s.refuse h.number k.code r := by
  simp [State.request, hl, hr]

theorem State.request_of_takes {s : State} {h : ReqHead} {k : RequestKind} (ht : s.Takes h k) (owner : State → State) :
    s.request h k owner = owner s := by
  simp [State.request, ht.length, ht.state]

/-- A working part answers a request that its franking state refuses with that refusal, whatever the request asks. -/
theorem exec_of_refused {c : Instr} {h : ReqHead} {k : RequestKind} {s : State} {r : Reason} (hc : requestOf c = some (h, k))
    (hp : s.power = .on) (hl : h.lenOk = true) (hr : k.stateRefusal s.franking = some r) :
    exec c s = .next (s.refuse h.number k.code r) := by
  obtain ⟨owner, howner⟩ := exec_of_requestOf hc
  rw [howner, taken_on hp, State.request_of_refused hl hr]

theorem taken_request {s : State} {h : ReqHead} {k : RequestKind} (ht : s.Takes h k) (owner : State → State) :
    (s.taken fun s => s.request h k owner) = .next (owner s) := by
  rw [taken_on ht.working, State.request_of_takes ht]

/-! ### The table of R163, by its columns -/

theorem RequestKind.stateRefusal_unconfigured {k : RequestKind} (hk : k ∉ [RequestKind.configure, .status, .peek, .identify, .accountQuery]) :
    k.stateRefusal .unconfigured = some .notConfigured := by
  cases k <;> simp_all [RequestKind.stateRefusal]

theorem RequestKind.stateRefusal_lockout {k : RequestKind}
    (hk : k ∉ [RequestKind.status, .peek, .identify, .accountQuery, .fetchCapture, .endOfService]) :
    k.stateRefusal .lockout = some .lockedOut := by
  cases k <;> simp_all [RequestKind.stateRefusal]

/-- The reports are refused in no state. -/
theorem RequestKind.stateRefusal_report {k : RequestKind} (hk : k ∈ [RequestKind.status, .peek, .identify, .accountQuery])
    (f : FrankingState) : k.stateRefusal f = none := by
  cases k <;> simp_all [RequestKind.stateRefusal]

theorem RequestKind.stateRefusal_lockout_allowed {k : RequestKind} (hk : k ∈ [RequestKind.fetchCapture, .endOfService]) :
    k.stateRefusal .lockout = none := by
  cases k <;> simp_all [RequestKind.stateRefusal]

theorem State.serving_iff (s : State) : s.serving = true ↔ s.franking = .running ∨ s.franking = .held ∨ s.franking = .halted := by
  simp [State.serving, or_assoc]

/-- RUNNING, HELD and HALTED refuse no request. -/
theorem RequestKind.stateRefusal_serving (k : RequestKind) {s : State} (hs : s.serving = true) : k.stateRefusal s.franking = none := by
  rcases s.serving_iff.mp hs with hf | hf | hf <;> rw [hf] <;> cases k <;> rfl

theorem exec_unknownRequest (number kind : Nat) (s : State) :
    exec (.unknownRequest number kind) s = s.taken fun s => s.refuse number kind .unknownRequest := rfl

/-- Settles O19: each cell of the table of R163 is a value of `stateRefusal`, which every request meets before its owner. -/
theorem requestsAreTestedAgainstTheFrankingState : Obligations.RequestsAreTestedAgainstTheFrankingState := by
  refine ⟨fun c h k s hc hp hl => ⟨fun hf hk => ?_, fun hf hk => ?_, fun hs => ⟨hp, hl, ?_⟩, fun hk => ⟨hp, hl, ?_⟩,
    fun hf hk => ⟨hp, hl, ?_⟩, fun hf hk => ⟨hp, hl, ?_⟩⟩, fun number kind s hp => ?_⟩
  · exact exec_of_refused hc hp hl (hf ▸ RequestKind.stateRefusal_unconfigured hk)
  · exact exec_of_refused hc hp hl (hf ▸ RequestKind.stateRefusal_lockout hk)
  · exact k.stateRefusal_serving hs
  · exact RequestKind.stateRefusal_report hk s.franking
  · rw [hf, hk]; rfl
  · exact hf ▸ RequestKind.stateRefusal_lockout_allowed hk
  · rw [exec_unknownRequest, taken_on hp]

end Sys2Proof.Machine

/-! PROOFS. FETCH_CAPTURE, the one request that empties the capture (O46). -/

namespace Sys2Proof.Machine

/-! ### A full capture stays full (R176)

Only the commit unit raises an error within a request, and an error fills an empty capture or counts in a full one. -/

/-- A capture that is full in `s` is full in `t`. -/
def State.KeepsCapture (s t : State) : Prop := s.capture.isSome = true → t.capture.isSome = true

namespace State.KeepsCapture

theorem refl (s : State) : s.KeepsCapture s := id

theorem trans {s t u : State} (h : s.KeepsCapture t) (h' : t.KeepsCapture u) : s.KeepsCapture u := h' ∘ h

theorem of_eq {s t : State} (h : t.capture = s.capture) : s.KeepsCapture t := fun hs => h ▸ hs

/-- Changes of other kinds leave the capture alone. -/
theorem of_reach {K : List Effect} {s t : State} (h : Reach False K s t)
    (hk : ∀ e ∈ K, e ∉ [Effect.capture, .unpowered, .poweredOn]) : s.KeepsCapture t := of_eq (h.capture_eq hk)

/-- What comes before need only leave the capture as it was. -/
theorem after {s s' t : State} (h : s'.KeepsCapture t) (he : s'.capture = s.capture) : s.KeepsCapture t := (of_eq he).trans h

theorem foldl {α : Type} (f : State → α → State) (hf : ∀ (s : State) (a : α), s.KeepsCapture (f s a)) (l : List α) (s : State) :
    s.KeepsCapture (l.foldl f s) := by
  induction l generalizing s with
  | nil => exact refl s
  | cons a l ih => exact (hf s a).trans (ih _)

end State.KeepsCapture

open State.KeepsCapture (of_eq of_reach)

theorem State.captureError_full (s : State) (cls : ErrorClass) (code : CauseCode) (tag : Option Nat) (before : FrankingState)
    (detail : List (Option Nat)) : (s.captureError cls code tag before detail).capture.isSome = true := by
  unfold State.captureError
  split <;> rfl

theorem post_keepsCapture (s : State) (code : CauseCode) (tag : Option Nat) (detail : List (Option Nat)) :
    s.KeepsCapture (s.post code tag detail) := of_reach (post_reach s code tag detail) (by decide)

theorem raiseAbort_keepsCapture (s : State) (code : CauseCode) (tag : Option Nat) (detail : List (Option Nat)) :
    s.KeepsCapture (s.raiseAbort code tag detail) := by
  intro _
  unfold State.raiseAbort
  exact post_keepsCapture _ code tag detail (State.captureError_full ..)

theorem finalize_keepsCapture (s : State) (tag : Nat) (d : Disposition) : s.KeepsCapture (s.finalize tag d) :=
  of_reach (finalize_reach s tag d False.elim) (by decide)

/-! ### The commit unit (R107, R119 to R121) -/

theorem startCommit_keepsCapture (s : State) (p : Piece) : s.KeepsCapture (s.startCommit p) := by
  unfold State.startCommit
  split
  · exact of_eq rfl
  · exact (raiseAbort_keepsCapture s _ _ _).trans (finalize_keepsCapture _ _ _)

theorem attemptAtGate_keepsCapture (s : State) (tag : Nat) : s.KeepsCapture (s.attemptAtGate tag) := by
  unfold State.attemptAtGate
  split
  · exact .refl s
  · split
    · exact startCommit_keepsCapture s _
    · exact of_eq rfl
    · exact finalize_keepsCapture s _ _
    · exact .refl s

theorem testCandidates_keepsCapture (fuel : Nat) (s : State) : s.KeepsCapture (State.testCandidates fuel s) := by
  induction fuel generalizing s with
  | zero => exact .refl s
  | succ fuel ih =>
    unfold State.testCandidates
    split
    · exact .refl s
    · split
      · exact .refl s
      · split
        · exact (attemptAtGate_keepsCapture s _).trans (ih _)
        · split
          · exact (startCommit_keepsCapture s _).trans (ih _)
          · exact of_reach (noteShort_reach s _) (by decide)
          · exact .refl s

theorem commitTest_keepsCapture (s : State) : s.KeepsCapture s.commitTest := testCandidates_keepsCapture _ s

/-- A test that is made or not made (R119). -/
theorem testIf_keepsCapture (c : Prop) [Decidable c] (s : State) : s.KeepsCapture (if c then s.commitTest else s) := by
  split
  · exact commitTest_keepsCapture s
  · exact .refl s

theorem passRatings_keepsCapture (s : State) (before : List Piece) : s.KeepsCapture (s.passRatings before) := testIf_keepsCapture _ s

theorem passRunning_keepsCapture (s : State) (before : FrankingState) : s.KeepsCapture (s.passRunning before) := testIf_keepsCapture _ s

/-! ### New ratings and bank switches (R5, R16, R66) -/

theorem gateDecision_keepsCapture (s : State) (tag : Nat) : s.KeepsCapture (s.gateDecision tag) := by
  unfold State.gateDecision
  have h0 : s.KeepsCapture (s.updatePiece tag fun p => { p with flags := { p.flags with gatePassed := true } }) := of_eq rfl
  refine h0.trans ?_
  simp only
  generalize s.updatePiece tag _ = m
  split
  · exact .refl _
  · split
    · split
      · exact finalize_keepsCapture _ _ _
      · exact .refl _
    · split
      · exact (attemptAtGate_keepsCapture _ _).after rfl
      · exact finalize_keepsCapture _ _ _
    · exact attemptAtGate_keepsCapture _ _
    all_goals exact .refl _

/-- A gate-committed piece whose rating falls away has its gate decision taken again (R19). -/
theorem reopened_keepsCapture (s : State) (p : Piece) (f : Piece → Piece) :
    s.KeepsCapture (if p.flags.gateCommitted then (s.updatePiece p.tag f).gateDecision p.tag else s.updatePiece p.tag f) := by
  split
  · exact (gateDecision_keepsCapture _ _).after rfl
  · exact of_eq rfl

theorem applyRating_keepsCapture (s : State) (p : Piece) (r : RatingRecord) : s.KeepsCapture (s.applyRating p r) := by
  unfold State.applyRating
  split
  · exact (finalize_keepsCapture _ _ _).after rfl
  · exact of_eq rfl
  · exact reopened_keepsCapture s p _
  · exact reopened_keepsCapture s p _

theorem rateAgain_keepsCapture (s : State) (tag : Nat) : s.KeepsCapture (s.rateAgain tag) := by
  unfold State.rateAgain
  split
  · exact .refl s
  · split
    · exact .refl s
    · split
      · exact .refl s
      · exact applyRating_keepsCapture s _ _

theorem rateAll_keepsCapture (s : State) : s.KeepsCapture s.rateAll := .foldl _ rateAgain_keepsCapture _ s

theorem switchTo_keepsCapture (s : State) (target : BankId) (tag : Option Nat) : s.KeepsCapture (s.switchTo target tag) := by
  unfold State.switchTo
  refine State.KeepsCapture.trans ?_ (post_keepsCapture _ _ _ _)
  exact (rateAll_keepsCapture _).after rfl

theorem takeJobSwitch_keepsCapture (s : State) (tag : Option Nat) : s.KeepsCapture (s.takeJobSwitch tag) := by
  unfold State.takeJobSwitch
  split
  · exact switchTo_keepsCapture s _ _
  all_goals exact .refl s

theorem takeDateSwitch_keepsCapture (s : State) (day : Nat) : s.KeepsCapture (s.takeDateSwitch day) := by
  unfold State.takeDateSwitch
  split
  · split
    · exact switchTo_keepsCapture s _ _
    · exact .refl s
  all_goals exact .refl s

theorem makeJobCurrent_keepsCapture (s : State) (tag : Option Nat) : s.KeepsCapture (s.makeJobCurrent tag) := by
  unfold State.makeJobCurrent
  split
  · exact .refl s
  · split
    · exact .refl s
    · exact (takeJobSwitch_keepsCapture _ _).after rfl

/-! ### The requests that pass to the commit unit (R119) -/

theorem refuse_keepsCapture (s : State) (number kind : Nat) (r : Reason) : s.KeepsCapture (s.refuse number kind r) := of_eq rfl

theorem request_keepsCapture {s : State} (h : ReqHead) (k : RequestKind) {owner : State → State} (ho : s.KeepsCapture (owner s)) :
    s.KeepsCapture (s.request h k owner) := by
  unfold State.request
  split
  · refine State.KeepsCapture.trans ?_ (refuse_keepsCapture _ _ _ _)
    unfold State.flawByLength
    split <;> exact of_eq rfl
  · split
    · exact refuse_keepsCapture s _ _ _
    · exact ho

theorem taken_keepsCapture {s t : State} {f : State → State} (ht : s.taken f = .next t) (hf : s.KeepsCapture (f s)) : s.KeepsCapture t := by
  cases ht
  split
  · exact hf
  · exact .refl s

theorem configure_keepsCapture (s : State) (number : Nat) (v : ConfigureFields) (mode : NoticeMode) :
    s.KeepsCapture (s.configure number v mode) := by
  unfold State.configure
  simp only
  generalize hm : (if s.settings.noticeMode ≠ mode then _ else _ : State) = m
  have hsent : m.capture = s.capture := by
    rw [← hm]
    split
    · exact (sendingTest_reach (Q := False) _).capture_eq (by decide)
    · rfl
  split
  · exact (commitTest_keepsCapture m).after hsent
  · exact (passRunning_keepsCapture m _).after hsent

theorem bankSwitch_keepsCapture (s : State) (number bank : Nat) {work : State → BankId → State} (hw : ∀ id, s.KeepsCapture (work s id)) :
    s.KeepsCapture (s.bankSwitch number bank work) := by
  unfold State.bankSwitch
  split
  · exact refuse_keepsCapture s _ _ _
  · split
    · exact refuse_keepsCapture s _ _ _
    · exact hw _
    all_goals exact refuse_keepsCapture s _ _ _

theorem switchNow_keepsCapture (s : State) (number : Nat) (id : BankId) (r : Results) : s.KeepsCapture (s.switchNow number id r) := by
  unfold State.switchNow
  exact (switchTo_keepsCapture s id none).trans ((passRatings_keepsCapture _ _).after rfl)

theorem switchImmediate_keepsCapture (s : State) (number : Nat) (id : BankId) : s.KeepsCapture (s.switchImmediate number id) := by
  unfold State.switchImmediate
  split
  · exact refuse_keepsCapture s _ _ _
  · split
    · exact refuse_keepsCapture s _ _ _
    · exact switchNow_keepsCapture s _ _ _

theorem addJob_keepsCapture (s : State) (number : Nat) (v : JobValues) (clamped : Bool) : s.KeepsCapture (s.addJob number v clamped) := by
  unfold State.addJob
  refine State.KeepsCapture.trans ?_ ((passRatings_keepsCapture _ _).after rfl)
  exact (makeJobCurrent_keepsCapture _ none).after rfl

/-- A request that may pass to the commit unit leaves a full capture full. -/
theorem exec_keepsCapture_of_tests {c : Instr} {k : ReqHead × RequestKind} {s t : State} (hc : requestOf c = some k)
    (htest : testsCandidate c = true) (ht : exec c s = .next t) : s.KeepsCapture t := by
  cases c with
  | configure h v =>
    unfold exec execConfigure at ht
    refine taken_keepsCapture ht (request_keepsCapture h .configure ?_)
    split
    · exact refuse_keepsCapture s _ _ _
    · exact configure_keepsCapture s _ _ _
  | bankSwitchImmediate h bank mode =>
    unfold exec execBankSwitchImmediate at ht
    refine taken_keepsCapture ht (request_keepsCapture h .bankSwitch ?_)
    split
    · exact refuse_keepsCapture s _ _ _
    · exact bankSwitch_keepsCapture s _ _ fun id => switchImmediate_keepsCapture s _ id
  | bankSwitchAtDate h bank =>
    unfold exec execBankSwitchAtDate at ht
    refine taken_keepsCapture ht (request_keepsCapture h .bankSwitch (bankSwitch_keepsCapture s _ _ fun id => ?_))
    split
    · exact switchNow_keepsCapture s _ _ _
    · exact of_eq rfl
  | bankSwitchAtJob h bank =>
    unfold exec execBankSwitchAtJob at ht
    exact taken_keepsCapture ht (request_keepsCapture h .bankSwitch (bankSwitch_keepsCapture s _ _ fun _ => of_eq rfl))
  | date h day =>
    unfold exec execDate at ht
    refine taken_keepsCapture ht (request_keepsCapture h .date ?_)
    split
    · exact refuse_keepsCapture s _ _ _
    · refine State.KeepsCapture.trans ?_ ((commitTest_keepsCapture _).after rfl)
      exact (takeDateSwitch_keepsCapture _ day).after rfl
  | jobAdd h v =>
    unfold exec execJobAdd at ht
    refine taken_keepsCapture ht (request_keepsCapture h .jobAdd ?_)
    split
    · exact refuse_keepsCapture s _ _ _
    · split
      · exact refuse_keepsCapture s _ _ _
      · split
        · exact refuse_keepsCapture s _ _ _
        · exact addJob_keepsCapture s _ _ _
  | resume h =>
    unfold exec execResume at ht
    refine taken_keepsCapture ht (request_keepsCapture h .resume ?_)
    split
    · exact (passRunning_keepsCapture _ _).after rfl
    · exact refuse_keepsCapture s _ _ _
  | _ => simp [requestOf, testsCandidate, pieceTag, completesWrite] at hc htest

/-- No other request but FETCH_CAPTURE makes a change of the capture. -/
theorem effectsOf_capture {c : Instr} {k : ReqHead × RequestKind} (hc : requestOf c = some k) (hk : k.2 ≠ .fetchCapture)
    (htest : testsCandidate c = false) : ∀ e ∈ effectsOf c, e ∉ [Effect.capture, .unpowered, .poweredOn] := by
  cases c with
  | fetchCapture h =>
    cases hc
    exact absurd rfl hk
  | _ => simp_all [requestOf, testsCandidate, pieceTag, completesWrite, effectsOf]

/-- FETCH_CAPTURE is the one request that empties the capture (R177). -/
theorem exec_keepsCapture {c : Instr} {k : ReqHead × RequestKind} {s t : State} (hc : requestOf c = some k) (hk : k.2 ≠ .fetchCapture)
    (ht : exec c s = .next t) : s.KeepsCapture t := by
  cases htest : testsCandidate c with
  | true => exact exec_keepsCapture_of_tests hc htest ht
  | false =>
    obtain ⟨u, hu, hreach⟩ := exec_does (Q := False) c s False.elim
    cases hu.symm.trans ht
    exact of_reach hreach (effectsOf_capture hc hk htest)

/-! ### FETCH_CAPTURE, and CLEAR_HALT after it (R169, R177) -/

theorem exec_fetchCapture_of_takes {h : ReqHead} {s : State} (ht : s.Takes h .fetchCapture) :
    exec (.fetchCapture h) s = .next (State.accept { s with capture := none } h.number .fetchCapture (.capture s.capture)) :=
  taken_request ht _

/-- FETCH_CAPTURE is refused in UNCONFIGURED alone (R163). -/
theorem stateRefusal_fetchCapture {f : FrankingState} (hf : f ∈ [FrankingState.running, .held, .halted, .lockout]) :
    RequestKind.fetchCapture.stateRefusal f = none := by
  cases f <;> simp_all [RequestKind.stateRefusal]

/-- With the capture empty, a CLEAR_HALT taken in HALTED leaves it for HELD, with OPERATOR and the level of PFW for its causes (R169). -/
theorem exec_clearHalt_of_empty {h : ReqHead} {s : State} (ht : s.Takes h .clearHalt) (hf : s.franking = .halted) (hc : s.capture = none) :
    exec (.clearHalt h) s =
      .next (State.accept { s with franking := .held, causes := .operatorWith s.pins.pfw } h.number .clearHalt
        (.franking .held (.operatorWith s.pins.pfw))) := by
  refine (taken_request ht _).trans ?_
  simp [hf, hc]

/-- What decides whether a request is taken stands where power and franking state do. -/
theorem State.Takes.congr {s t : State} {h : ReqHead} {k : RequestKind} (ht : s.Takes h k) (hp : t.power = s.power)
    (hf : t.franking = s.franking) : t.Takes h k := ⟨hp.trans ht.working, ht.length, hf ▸ ht.state⟩

theorem franking_of_fetch_then_clear {h h' : ReqHead} {s t u : State} (hfetch : s.Takes h .fetchCapture) (hclear : s.Takes h' .clearHalt)
    (hf : s.franking = .halted) (ht : exec (.fetchCapture h) s = .next t) (hu : exec (.clearHalt h') t = .next u) : u.franking = .held := by
  obtain ⟨hpower, hfranking, hcapture⟩ : t.power = s.power ∧ t.franking = s.franking ∧ t.capture = none := by
    cases (exec_fetchCapture_of_takes hfetch).symm.trans ht
    exact ⟨rfl, rfl, rfl⟩
  cases (exec_clearHalt_of_empty (hclear.congr hpower hfranking) (hfranking.trans hf) hcapture).symm.trans hu
  rfl

/-- Settles O46: the reply, the states that take the request, the one request that empties the capture, and the CLEAR_HALT after it. -/
theorem fetchCaptureEmptiesTheCapture : Obligations.FetchCaptureEmptiesTheCapture :=
  ⟨fun _ _ => exec_fetchCapture_of_takes, fun _ _ hp hl hf => ⟨hp, hl, stateRefusal_fetchCapture hf⟩,
    fun _ _ _ _ hc hk hs ht => exec_keepsCapture hc hk ht hs, fun _ _ _ _ _ => franking_of_fetch_then_clear⟩

end Sys2Proof.Machine

/-! PROOFS. What every step keeps (O6 to O11), the base at reset (O3, O4), and what a step is (O1, O2, O5). -/

namespace Sys2Proof.Machine

/-! ### Reset (R45, R94, R151, R179, R189) -/

/-- Settles O3: the record `State.reset` read field by field; the two vectors by their positions. -/
theorem resetValues : Obligations.ResetValues := by
  unfold Obligations.ResetValues
  intro s a
  have hmonitors : ∀ i : Fin 4, s.monitors[i] = .fresh := by decide
  have hchannels : ∀ c : Fin 8, s.channels[c] = .fresh (decide (c = 0)) := by decide
  refine ⟨?_, ?_, ?_, fun i => ?_, fun c => ?_, ?_, ?_, ?_, ?_, ?_⟩
  case refine_4 => rw [hmonitors i]; exact ⟨rfl, rfl, rfl, rfl, rfl⟩
  case refine_5 => rw [hchannels c]; exact ⟨rfl, rfl, rfl, rfl, rfl⟩
  all_goals and_intros <;> rfl

theorem factory_lawful : Accounts.factory.Lawful where
  balance := rfl
  pending := rfl
  funds := by decide
  ceiling := by decide
  numbered := by decide
  sequence := .nil
  issued := nofun
  credited := by decide
  counted := by decide

theorem reset_orderBounds : State.reset.OrderBounds where
  maximum := by decide
  outstanding := by decide
  sequence := .nil
  issued := nofun
  bounded := by decide
  room := fun pre w post h => absurd h (by simp [State.reset])
  idle := fun _ => rfl
  accounted := nofun

/-- With nothing tracked and no write queued there is no order, record or commit to speak of. -/
theorem orderPieces_of_empty {s : State} (ho : s.orders = []) (hp : s.pieces = []) (hs : s.slot = none) (hq : s.queue = []) :
    s.OrderPieces where
  tags := by simp [ho]
  unclosed := by simp [ho]
  committed := by simp [ho]
  committing := by simp [hs]
  uncommitted := by simp [hp]
  discarded := by simp [NoRecordHolds, hq]

theorem reset_frankingSafe : State.reset.FrankingSafe where
  running := nofun
  held := nofun
  warning := fun _ => rfl
  locked := fun _ => rfl
  untracked := fun _ _ => ⟨rfl, rfl, rfl, rfl⟩

theorem reset_tariffSafe : State.reset.TariffSafe where
  sound := ⟨cleared_sound _ _, cleared_sound _ _⟩
  oneActive := by decide
  oneLoading := by decide
  reference := fun _ => rfl
  target := nofun

/-- Settles O4: each invariant by its own fields, the lists and the queue being empty. -/
theorem safeAtReset : Obligations.SafeAtReset :=
  ⟨accountsSafe_idle factory_lawful rfl, ⟨reset_orderBounds, orderPieces_of_empty rfl rfl rfl rfl⟩, reset_frankingSafe, empty_listsSafe, reset_tariffSafe,
    fresh_noneReady⟩

/-! ### One step -/

/-- Settles O1: both clauses are the two branches of `step`. -/
theorem stepTakesTheFront : Obligations.StepTakesTheFront := by
  refine ⟨fun c q s => rfl, fun s hs => ?_⟩
  unfold step
  rw [hs]

/-- What a command that ends in `t` did: changes of its own kinds. -/
theorem exec_reaches {c : Instr} {s t : State} (ht : exec c s = .next t) : Reach False (effectsOf c) s t := by
  obtain ⟨u, hu, hreach⟩ := exec_does (Q := False) c s False.elim
  cases hu.symm.trans ht
  exact hreach

/-- Settles O2: every command does changes of its kinds, and no change touches the commands that wait. -/
theorem everyCommandEndsInNext : Obligations.EveryCommandEndsInNext := by
  intro c s
  obtain ⟨t, ht, hreach⟩ := exec_does (Q := False) c s False.elim
  exact ⟨t, ht, hreach.pending_eq fun _ _ => List.not_mem_nil⟩

/-- A command that is no event of the pins or the power goes through `State.taken`. -/
theorem exec_taken {c : Instr} (hassert : c ≠ .pfwAssert) (hrelease : c ≠ .pfwRelease) (hreset : c ≠ .resetAssert)
    (hloses : losesOrdinary c = false) : ∃ f : State → State, ∀ s, exec c s = s.taken f := by
  cases c <;> first | exact ⟨_, fun _ => rfl⟩ | contradiction

theorem exec_pfwAssert (s : State) :
    exec .pfwAssert s = State.taken { s with pins := { s.pins with pfw := true } } fun s => s.setCauses { s.causes with power := true } := rfl

theorem exec_pfwRelease (s : State) :
    exec .pfwRelease s =
      State.taken { s with pins := { s.pins with pfw := false } } fun s =>
        (s.setCauses { s.causes with power := false }).passRunning s.franking := rfl

/-- Settles O5: `State.taken` leaves a part that does not work as it is; PFW's two commands write the pin before it. -/
theorem nothingTakenWithoutPower : Obligations.NothingTakenWithoutPower := by
  intro s hp
  refine ⟨fun c hassert hrelease hreset hloses => ?_, ?_, ?_⟩
  · obtain ⟨f, hf⟩ := exec_taken hassert hrelease hreset hloses
    rw [hf, taken_off hp]
  · rw [exec_pfwAssert]
    exact taken_off (s := { s with pins := { s.pins with pfw := true } }) hp _
  · rw [exec_pfwRelease]
    exact taken_off (s := { s with pins := { s.pins with pfw := false } }) hp _

/-! ### The invariants -/

/-- Settles O6: no change breaks the money laws. -/
theorem stepKeepsTheMoneyLaws : Obligations.StepKeepsTheMoneyLaws := fun _ _ hs h =>
  step_keeps (fun _ _ hs => hs.of_fields rfl rfl rfl) (fun hc => hc.accountsSafe) h hs

/-- Settles O8: no change breaks the bond between the franking state, the causes, the pin and the flag. -/
theorem stepKeepsTheFrankingState : Obligations.StepKeepsTheFrankingState := fun _ _ hs h =>
  step_keeps (fun _ _ hs => hs.of_state rfl rfl rfl rfl rfl fun _ h => h) (fun hc => hc.frankingSafe) h hs

/-- Settles O9: no change breaks the bounds of the two lists. -/
theorem stepKeepsTheLists : Obligations.StepKeepsTheLists := fun _ _ hs h =>
  step_keeps (fun _ _ hs => hs.of_lists rfl rfl) (fun hc => hc.listsSafe) h hs

/-- Settles O10: no change breaks the capacities and states of the banks. -/
theorem stepKeepsTheTariff : Obligations.StepKeepsTheTariff := fun _ _ hs h =>
  step_keeps (fun _ _ hs => hs.of_banks rfl rfl rfl rfl) (fun hc => hc.tariffSafe) h hs

/-- Settles O11: no change leaves a channel ready where none was. -/
theorem stepLeavesNoChannelReady : Obligations.StepLeavesNoChannelReady := fun _ _ hs h =>
  step_keeps (fun _ _ hs => hs) (fun hc => hc.noneReady) h hs

/-- The invariants of the accounts, the lists and the orders, which are kept together. -/
structure State.OrdersInvariant (s : State) : Prop where
  accounts : s.AccountsSafe
  lists : s.ListsSafe
  orders : s.OrdersSafe

theorem State.OrdersInvariant.pending {s : State} (h : s.OrdersInvariant) (q : List Instr) :
    State.OrdersInvariant { s with pending := q } where
  accounts := h.accounts.of_fields rfl rfl rfl
  lists := h.lists.of_lists rfl rfl
  orders := ⟨h.orders.toOrderBounds.of_fields rfl rfl rfl rfl rfl rfl,
    h.orders.toOrderPieces.of_fields rfl rfl rfl rfl fun _ _ _ _ h => h⟩

theorem Change.ordersInvariant {e : Effect} {s t : State} (hc : Change True e s t) (hw : s.power = .on ∨ e ∈ powerEffects)
    (h : s.OrdersInvariant) : t.OrdersInvariant where
  accounts := hc.accountsSafe h.accounts
  lists := hc.listsSafe h.lists
  orders := hc.ordersSafe hw h.accounts h.lists h.orders

/-- Every write is a COMMIT, a CREDIT or a closing write. -/
theorem queue_length_by_kind (q : List Write) :
    q.length = q.countP Write.isCommit + q.countP Write.isCredit + (closings q).length := by
  induction q with
  | nil => rfl
  | cons w q ih =>
    cases w <;> simp [List.countP_cons, Write.isCommit, Write.isCredit, ih] <;> omega

/-- The writes that wait close different open orders, so no more of them close than orders are open (R99). -/
theorem closings_length_le {s : State} (h : s.AccountsSafe) : (closings s.queue).length ≤ s.accounts.openOrders.length := by
  have hsub : closings s.queue ⊆ s.accounts.openOrders.map (·.n) := h.open_
  simpa using (h.closedOnce.subperm hsub).length_le

theorem queue_length_le_six {s : State} (ha : s.AccountsSafe) (ho : s.OrdersSafe) : s.queue.length ≤ 6 := by
  have hcommits : s.queue.countP Write.isCommit ≤ 1 := ha.commits.trans (Bool.toNat_le _)
  have hcredits := ha.oneCredit
  have hclosings := (closings_length_le ha).trans ho.bounded
  rw [queue_length_by_kind]
  omega

/-- Settles O7: the three invariants are kept together while the part works; the queue's bound counts its writes by kind. -/
theorem stepKeepsTheOrderBounds : Obligations.StepKeepsTheOrderBounds :=
  ⟨fun _ _ ha hl ho h => (step_keeps_working (P := State.OrdersInvariant) (fun _ hs => hs.lists.tags) (fun _ q hs => hs.pending q)
    (fun hc hw hs => hc.ordersInvariant hw hs) h ⟨ha, hl, ho⟩).orders, fun _ => queue_length_le_six⟩

end Sys2Proof.Machine

/-! PROOFS. Frames: what each command leaves as it was (O14 to O18). -/

namespace Sys2Proof.Machine

variable {c : Instr} {s t : State}

/-! ### The accounts' side (R99, R100, R117) -/

theorem effectsOf_accounts (hc : (completesWrite c || stopsWrites c) = false) :
    ∀ e ∈ effectsOf c, e ∉ [Effect.commitOrdered, .commitWithheld, .commitOrphan, .closeDone, .creditDone, .lost] := by
  cases c <;> simp_all [effectsOf, completesWrite, stopsWrites, losesOrdinary]

theorem effectsOf_writeBegun (hc : (completesWrite c || stopsWrites c || decide (c = .writeBegin)) = false) :
    ∀ e ∈ effectsOf c,
      e ∉ [Effect.begun, .commitOrdered, .commitWithheld, .commitOrphan, .closeDone, .creditDone, .lost, .unpowered, .poweredOn] := by
  cases c <;> simp_all [effectsOf, completesWrite, stopsWrites, losesOrdinary]

theorem effectsOf_freeIndex (hc : stopsWrites c = false) : ∀ e ∈ effectsOf c, e ∉ [Effect.lost] := by
  cases c <;> simp_all [effectsOf, stopsWrites, losesOrdinary]

theorem effectsOf_queue (hc : (testsCandidate c || isLineReset c || stopsWrites c || (requestOf c).any (·.2 == .credit)) = false) :
    ∀ e ∈ effectsOf c,
      e ∉ [Effect.takeCommit, .cleared, .closeOrders, .takeCredit, .commitOrdered, .commitWithheld, .commitOrphan, .closeDone, .creditDone,
        .lost, .unpowered, .poweredOn] := by
  cases c <;> simp_all [effectsOf, testsCandidate, pieceTag, completesWrite, isLineReset, stopsWrites, losesOrdinary, requestOf]

theorem effectsOf_slot (hc : (testsCandidate c || isLineReset c || losesOrdinary c) = false) :
    ∀ e ∈ effectsOf c, e ∉ [Effect.takeCommit, .commitOrdered, .commitWithheld, .closeDone, .slotMark, .unpowered, .poweredOn] := by
  cases c <;> simp_all [effectsOf, testsCandidate, pieceTag, completesWrite, isLineReset, losesOrdinary]

theorem effectsOf_fundsMark (hc : (testsCandidate c || isLineReset c || losesOrdinary c) = false) :
    ∀ e ∈ effectsOf c, e ∉ [Effect.mark, .takeCommit, .unpowered, .poweredOn] := by
  cases c <;> simp_all [effectsOf, testsCandidate, pieceTag, completesWrite, isLineReset, losesOrdinary]

theorem effectsOf_mailingDate (hc : ((requestOf c).any (·.2 == .date) || losesOrdinary c) = false) :
    ∀ e ∈ effectsOf c, e ∉ [Effect.date, .unpowered, .poweredOn] := by
  cases c <;> simp_all [effectsOf, requestOf, losesOrdinary]

theorem effectsOf_lockoutFlag (hw : ∀ w, c ≠ .lineStatus w) (hc : testsCandidate c = false) (hl : losesOrdinary c = false) :
    ∀ e ∈ effectsOf c, e ∉ [Effect.lockout, .poweredOn] := by
  cases c <;> simp_all [effectsOf, testsCandidate, pieceTag, completesWrite, losesOrdinary]

/-- Settles O14: the kinds of change of the other commands do not touch the field. -/
theorem frameOfCommitsAndMoney : Obligations.FrameOfCommitsAndMoney := fun _ _ _ ht =>
  ⟨fun hc => (exec_reaches ht).accounts_eq (effectsOf_accounts hc), fun hc => (exec_reaches ht).writeBegun_eq (effectsOf_writeBegun hc),
    fun hc => (exec_reaches ht).freeIndex_eq (effectsOf_freeIndex hc), fun hc => (exec_reaches ht).queue_eq (effectsOf_queue hc),
    fun hc => ⟨(exec_reaches ht).slot_eq (effectsOf_slot hc), (exec_reaches ht).fundsMark_eq (effectsOf_fundsMark hc)⟩,
    fun hc => (exec_reaches ht).mailingDate_eq (effectsOf_mailingDate hc),
    fun hw hc hl => (exec_reaches ht).lockoutFlag_eq (effectsOf_lockoutFlag hw hc hl)⟩

/-! ### The lists, the print port and the counters (R1, R126, R138) -/

theorem effectsOf_pieces (hc : (testsCandidate c || isLineReset c || losesOrdinary c) = false) :
    ∀ e ∈ effectsOf c,
      e ∉ [Effect.pieces, .enter, .leave, .cleared, .takeCommit, .commitOrdered, .commitWithheld, .closeDone, .unpowered, .poweredOn] := by
  cases c <;> simp_all [effectsOf, testsCandidate, pieceTag, completesWrite, isLineReset, losesOrdinary]

theorem effectsOf_jobs (hc : (testsCandidate c || isLineReset c || losesOrdinary c || (requestOf c).any (·.2 == .jobAbort)) = false) :
    ∀ e ∈ effectsOf c, e ∉ [Effect.jobs, .enter, .leave, .cleared, .currentJob, .addJob, .abort, .unpowered, .poweredOn] := by
  cases c <;> simp_all [effectsOf, testsCandidate, pieceTag, completesWrite, isLineReset, losesOrdinary, requestOf]

theorem effectsOf_orders (htaken : ∀ tag, c ≠ .orderTaken tag) (hends : endsOrder c = false) (hcommit : c ≠ .commitComplete)
    (hreset : isLineReset c = false) (hl : losesOrdinary c = false) :
    ∀ e ∈ effectsOf c, e ∉ [Effect.orders, .cleared, .closeOrders, .commitOrdered, .unpowered, .poweredOn] := by
  cases c <;> simp_all [effectsOf, endsOrder, isLineReset, losesOrdinary]

theorem effectsOf_printer (hc : ∀ code, c ≠ .printerState code) (hl : losesOrdinary c = false) :
    ∀ e ∈ effectsOf c, e ∉ [Effect.printer, .unpowered, .poweredOn] := by
  cases c <;> simp_all [effectsOf, losesOrdinary]

theorem effectsOf_counters (htag : pieceTag c = none) (hw : ∀ w, c ≠ .lineStatus w) (hrecord : ∀ l k n, c ≠ .unknownRecord l k n)
    (hframe : ∀ l, c ≠ .discardedFrame l) (htaken : ∀ tag, c ≠ .orderTaken tag) (hends : endsOrder c = false)
    (hl : losesOrdinary c = false) : ∀ e ∈ effectsOf c, e ∉ [Effect.counter, .unpowered, .poweredOn] := by
  cases c <;> simp_all [effectsOf, pieceTag, endsOrder, losesOrdinary]

theorem effectsOf_printTx (hremove : ∀ tag, c ≠ .remove tag) (hcommit : c ≠ .commitComplete) (hsend : ∀ l, c ≠ .recordTransmit l)
    (hl : losesOrdinary c = false) : ∀ e ∈ effectsOf c, e ∉ [Effect.printRecord, .commitOrdered, .unpowered, .poweredOn] := by
  cases c <;> simp_all [effectsOf, losesOrdinary]

/-- Settles O15: the kinds of change of the other commands do not touch the field. -/
theorem frameOfPiecesAndOrders : Obligations.FrameOfPiecesAndOrders := fun _ _ _ ht =>
  ⟨fun hc => (exec_reaches ht).pieces_eq (effectsOf_pieces hc), fun hc => (exec_reaches ht).jobs_eq (effectsOf_jobs hc),
    fun htaken hends hcommit hreset hl => (exec_reaches ht).orders_eq (effectsOf_orders htaken hends hcommit hreset hl),
    fun hc hl => (exec_reaches ht).printer_eq (effectsOf_printer hc hl),
    fun hremove hcommit hsend hl => (exec_reaches ht).printTx_eq (effectsOf_printTx hremove hcommit hsend hl),
    fun htag hw hrecord hframe htaken hends hl =>
      (exec_reaches ht).counters_eq (effectsOf_counters htag hw hrecord hframe htaken hends hl)⟩

/-! ### The tariff store (R45, R55, R70) -/

theorem effectsOf_banks (hs : maySwitch c = false) (hg : isSegment c = false) (hb : ∀ h b i, c ≠ .tableBegin h b i)
    (he : ∀ h e, c ≠ .tableEnd h e) (hp : ∀ b, c ≠ .powerOn b) :
    ∀ e ∈ effectsOf c, e ∉ [Effect.loadBegin, .segment, .loadEnd, .switch, .poweredOn] := by
  cases c <;> simp_all [effectsOf, maySwitch, isSegment, requestOf]

theorem effectsOf_load (hg : isSegment c = false) (hb : ∀ h b i, c ≠ .tableBegin h b i) (hl : losesOrdinary c = false) :
    ∀ e ∈ effectsOf c, e ∉ [Effect.loadMark, .loadBegin, .unpowered, .poweredOn] := by
  cases c <;> simp_all [effectsOf, isSegment, requestOf, losesOrdinary]

theorem effectsOf_pendingSwitch (hs : maySwitch c = false) (hb : ∀ h b i, c ≠ .tableBegin h b i) (hr : isLineReset c = false)
    (hl : losesOrdinary c = false) : ∀ e ∈ effectsOf c, e ∉ [Effect.loadBegin, .switch, .pend, .unpowered, .poweredOn] := by
  cases c <;> simp_all [effectsOf, maySwitch, isLineReset, losesOrdinary]

theorem effectsOf_ratingRef (hs : maySwitch c = false) (hl : losesOrdinary c = false) :
    ∀ e ∈ effectsOf c, e ∉ [Effect.switch, .unpowered, .poweredOn] := by
  cases c <;> simp_all [effectsOf, maySwitch, losesOrdinary]

/-- Settles O16: the kinds of change of the other commands do not touch the field. -/
theorem frameOfTheTariff : Obligations.FrameOfTheTariff := fun _ _ _ ht =>
  ⟨fun hs hg hb he hp => (exec_reaches ht).banks_eq (effectsOf_banks hs hg hb he hp),
    fun hg hb hl => (exec_reaches ht).load_eq (effectsOf_load hg hb hl),
    fun hs hb hr hl => (exec_reaches ht).pendingSwitch_eq (effectsOf_pendingSwitch hs hb hr hl),
    fun hs hl => (exec_reaches ht).ratingRef_eq (effectsOf_ratingRef hs hl)⟩

/-! ### The franking state and the settings (R161, R176, R194) -/

theorem effectsOf_franking (hc : testsCandidate c = false) (hw : ∀ w, c ≠ .lineStatus w) (hr : isLineReset c = false)
    (hh : ∀ h, c ≠ .hold h) (hcl : ∀ h, c ≠ .clearHalt h) (hp : c ≠ .pfwAssert) (hl : losesOrdinary c = false) :
    ∀ e ∈ effectsOf c, e ∉ [Effect.causes, .halt, .lockout, .holdAnew, .configured, .warning, .unpowered, .poweredOn] := by
  cases c <;> simp_all [effectsOf, testsCandidate, pieceTag, completesWrite, isLineReset, losesOrdinary]

theorem effectsOf_causes (he : ∀ g, c ≠ .enter g) (hw : ∀ w, c ≠ .lineStatus w) (hr : isLineReset c = false) (hh : ∀ h, c ≠ .hold h)
    (hre : ∀ h, c ≠ .resume h) (hcl : ∀ h, c ≠ .clearHalt h) (ho : endsOrder c = false) (hp : c ≠ .pfwAssert) (hpr : c ≠ .pfwRelease)
    (hl : losesOrdinary c = false) : ∀ e ∈ effectsOf c, e ∉ [Effect.causes, .holdAnew, .warning, .unpowered, .poweredOn] := by
  cases c <;> simp_all [effectsOf, isLineReset, endsOrder, losesOrdinary]

theorem effectsOf_captureOnly (hc : testsCandidate c = false) (hw : ∀ w, c ≠ .lineStatus w) (hf : ∀ h, c ≠ .fetchCapture h)
    (hl : losesOrdinary c = false) : ∀ e ∈ effectsOf c, e ∉ [Effect.capture, .unpowered, .poweredOn] := by
  cases c <;> simp_all [effectsOf, testsCandidate, pieceTag, completesWrite, losesOrdinary]

theorem effectsOf_monitors (hw : ∀ w, c ≠ .lineStatus w) (hm : ∀ h v, c ≠ .monitorSet h v) (hl : losesOrdinary c = false) :
    ∀ e ∈ effectsOf c, e ∉ [Effect.monitors, .unpowered, .poweredOn] := by
  cases c <;> simp_all [effectsOf, losesOrdinary]

theorem effectsOf_settings (hc : ∀ h v, c ≠ .configure h v) (hl : losesOrdinary c = false) :
    ∀ e ∈ effectsOf c, e ∉ [Effect.settings, .unpowered, .poweredOn] := by
  cases c <;> simp_all [effectsOf, losesOrdinary]

/-- Settles O17: the kinds of change of the other commands do not touch the field. -/
theorem frameOfTheFrankingState : Obligations.FrameOfTheFrankingState := fun _ _ _ ht =>
  ⟨fun hc hw hr hh hcl hp hl => (exec_reaches ht).franking_eq (effectsOf_franking hc hw hr hh hcl hp hl),
    fun he hw hr hh hre hcl ho hp hpr hl => (exec_reaches ht).causes_eq (effectsOf_causes he hw hr hh hre hcl ho hp hpr hl),
    fun hc hw hf hl => (exec_reaches ht).capture_eq (effectsOf_captureOnly hc hw hf hl),
    fun hw hm hl => ⟨(exec_reaches ht).monitors_eq (effectsOf_monitors hw hm hl), (exec_reaches ht).sensorWord_eq (effectsOf_monitors hw hm hl)⟩,
    fun hc hl => (exec_reaches ht).settings_eq (effectsOf_settings hc hl)⟩

/-! ### The notice unit, the links, the pins and the power (R179, R190, R193, R200) -/

theorem effectsOf_channels (hc : testsCandidate c = false) (hw : ∀ w, c ≠ .lineStatus w) (hr : isLineReset c = false)
    (he : ∀ h e, c ≠ .tableEnd h e) (ha : ∀ h i, c ≠ .jobAbort h i) (hs : ∀ h, c ≠ .status h) (hn : ∀ h v m, c ≠ .noticeEnable h v m)
    (hen : ∀ h, c ≠ .endOfService h) (hno : c ≠ .notice) (hl : losesOrdinary c = false) :
    ∀ e ∈ effectsOf c, e ∉ [Effect.notice, .unpowered, .poweredOn] := by
  cases c <;> simp_all [effectsOf, testsCandidate, pieceTag, completesWrite, isLineReset, losesOrdinary]

theorem effectsOf_lineTx (hc : requestOf c = none ∧ testsCandidate c = false ∧ (∀ w, c ≠ .lineStatus w) ∧ (∀ n k, c ≠ .unknownRequest n k) ∧
    c ≠ .notice ∧ c ≠ .holdReply ∧ c ≠ .lineResetReply ∧ (∀ l, c ≠ .recordTransmit l) ∧ losesOrdinary c = false) :
    ∀ e ∈ effectsOf c, e ∉ [Effect.lineRecord, .unpowered, .poweredOn] := by
  cases c <;> simp_all [effectsOf, requestOf, testsCandidate, pieceTag, completesWrite, losesOrdinary]

theorem effectsOf_waiting (hr : isLineReset c = false) (hh : ∀ h, c ≠ .hold h) (hc : completesWrite c = false) (hhr : c ≠ .holdReply)
    (hlr : c ≠ .lineResetReply) (hl : losesOrdinary c = false) : ∀ e ∈ effectsOf c, e ∉ [Effect.waiting, .unpowered, .poweredOn] := by
  cases c <;> simp_all [effectsOf, isLineReset, completesWrite, losesOrdinary]

theorem effectsOf_framers (hl : losesOrdinary c = false) : ∀ e ∈ effectsOf c, e ∉ [Effect.unpowered, .poweredOn] := by
  cases c <;> simp_all [effectsOf, losesOrdinary]

theorem effectsOf_pins (hp : c ≠ .pfwAssert) (hpr : c ≠ .pfwRelease) (hr : c ≠ .resetAssert) (hl : losesOrdinary c = false) :
    ∀ e ∈ effectsOf c, e ∉ [Effect.warning, .stopped, .poweredOn] := by
  cases c <;> simp_all [effectsOf, losesOrdinary]

theorem effectsOf_noPower (hc : stopsWrites c = false) : ∀ e ∈ effectsOf c, e ∉ [Effect.lost, .unpowered, .poweredOn] := by
  cases c <;> simp_all [effectsOf, stopsWrites, losesOrdinary]

/-- Settles O18: the kinds of change of the other commands do not touch the field. -/
theorem frameOfNoticesAndLinks : Obligations.FrameOfNoticesAndLinks := by
  intro c s t ht
  have hreach := exec_reaches ht
  refine ⟨fun hc hw hr he ha hs hn hen hno hl => ?_, fun hc => hreach.lineTx_eq (effectsOf_lineTx hc), fun hr hh hc hhr hlr hl => ?_,
    fun hl => ⟨hreach.lineFramer_eq (effectsOf_framers hl), hreach.printFramer_eq (effectsOf_framers hl)⟩,
    fun hp hpr hr hl => hreach.pins_eq (effectsOf_pins hp hpr hr hl), fun hc => hreach.power_eq (effectsOf_noPower hc)⟩
  · have hk := effectsOf_channels hc hw hr he ha hs hn hen hno hl
    exact ⟨hreach.channels_eq hk, hreach.gne_eq hk, hreach.gneSaved_eq hk⟩
  · have hk := effectsOf_waiting hr hh hc hhr hlr hl
    exact ⟨hreach.holdWaiting_eq hk, hreach.resetWait_eq hk⟩

end Sys2Proof.Machine

/-! PROOFS. The accounts and the write at the head of the queue (O12). -/

namespace Sys2Proof.Machine

/-! ### The writes on the registers (R101 to R105) -/

theorem Accounts.apply_close (a : Accounts) (date : Option Nat) (kind : CloseKind) (tag n : Nat) (by_ : Requester) :
    a.apply date (.close kind tag n by_) = a.closeWrite kind n := rfl

theorem Accounts.closeWrite_confirm {a : Accounts} {n : Nat} {o : OpenOrder} (h : a.openOrder? n = some o) :
    a.closeWrite .confirm n =
      { a with e := a.e - o.p, a := a.a + o.p, printed := satSucc Config.countMax a.printed, openOrders := a.closed n } := by
  unfold Accounts.closeWrite
  rw [h]

theorem Accounts.closeWrite_void {a : Accounts} {n : Nat} {o : OpenOrder} (h : a.openOrder? n = some o) :
    a.closeWrite .void n =
      { a with e := a.e - o.p, d := a.d + o.p, voided := satSucc Config.countMax a.voided, openOrders := a.closed n } := by
  unfold Accounts.closeWrite
  rw [h]

theorem Accounts.closeWrite_spoil {a : Accounts} {n : Nat} {o : OpenOrder} (h : a.openOrder? n = some o) :
    a.closeWrite .spoil n =
      { a with e := a.e - o.p, a := a.a + o.p, spoiled := satSucc Config.countMax a.spoiled, openOrders := a.closed n } := by
  unfold Accounts.closeWrite
  rw [h]

theorem Accounts.closeWrite_of_closed {a : Accounts} {n : Nat} (h : a.openOrder? n = none) (kind : CloseKind) : a.closeWrite kind n = a := by
  unfold Accounts.closeWrite
  rw [h]

/-- What a closing write cannot do: lower A, or touch T or N. -/
theorem Accounts.closeWrite_monotone (a : Accounts) (kind : CloseKind) (n : Nat) :
    a.a ≤ (a.closeWrite kind n).a ∧ (a.closeWrite kind n).t = a.t ∧ (a.closeWrite kind n).n = a.n := by
  cases h : a.openOrder? n with
  | none => simp [Accounts.closeWrite_of_closed h]
  | some o => cases kind <;> simp [Accounts.closeWrite_confirm h, Accounts.closeWrite_void h, Accounts.closeWrite_spoil h]

/-- A write raises N by one if it is a COMMIT, lowers neither A nor T, and does nothing else to them. -/
theorem Accounts.apply_monotone (a : Accounts) (date : Option Nat) (w : Write) :
    a.a ≤ (a.apply date w).a ∧ a.t ≤ (a.apply date w).t ∧ (a.apply date w).n = a.n + w.isCommit.toNat := by
  cases w with
  | commit tag p => exact ⟨Nat.le_refl _, Nat.le_refl _, rfl⟩
  | close kind tag n by_ =>
    obtain ⟨ha, ht, hn⟩ := a.closeWrite_monotone kind n
    exact ⟨ha, ht.ge, hn⟩
  | credit request number amount => exact ⟨Nat.le_refl _, Nat.le_add_right _ _, rfl⟩

/-! ### The completions perform the head write and nothing else on the accounts (R100) -/

theorem commitTest_accounts (s : State) : s.commitTest.accounts = s.accounts :=
  (commitTest_reach (Q := False) s False.elim).accounts_eq (by decide)

theorem answerHolds_accounts (s : State) : s.answerHolds.accounts = s.accounts :=
  (answerHolds_reach (Q := False) s).accounts_eq (by decide)

theorem resetSpoilDone_accounts (s : State) : s.resetSpoilDone.accounts = s.accounts :=
  (resetSpoilDone_reach (Q := False) s).accounts_eq (by decide)

theorem withhold_accounts (s : State) (slot : CommitSlot) (c : CommitData) (w : WithheldCause) : (s.withhold slot c w).accounts = s.accounts := by
  rw [withhold_eq]
  dsimp only
  split <;> rfl

theorem handCommit_accounts (s : State) (c : CommitData) (date : Nat) : (s.handCommit c date).accounts = s.accounts := by
  unfold State.handCommit
  split
  · rfl
  · split
    · exact withhold_accounts s _ c _
    · rw [ordered_eq, commitTest_accounts, answerHolds_accounts]
      rfl

theorem postLow_accounts (s : State) (tag before after : Nat) : (s.postLow tag before after).accounts = s.accounts := by
  unfold State.postLow
  split
  · exact (post_reach (Q := False) s _ _ _).accounts_eq (by decide)
  · rfl

theorem completeCommit_accounts (s : State) (tag p : Nat) (rest : List Write) :
    (s.completeCommit tag p rest).accounts = s.accounts.apply s.mailingDate (.commit tag p) :=
  (postLow_accounts _ _ _ _).trans (handCommit_accounts _ _ _)

theorem finalizeByNumber_accounts (s : State) (n : Nat) (d : Option Disposition) : (s.finalizeByNumber n d).accounts = s.accounts := by
  unfold State.finalizeByNumber
  split
  · exact (finalize_reach (Q := False) s _ _ False.elim).accounts_eq (by decide)
  · rfl

theorem completeClose_accounts (s : State) (kind : CloseKind) (tag n : Nat) (by_ : Requester) (rest : List Write) :
    (s.completeClose kind tag n by_ rest).accounts = s.accounts.apply s.mailingDate (.close kind tag n by_) := by
  unfold State.completeClose State.beginNext
  simp only [apply_ite State.accounts, commitTest_accounts, resetSpoilDone_accounts, answerHolds_accounts, finalizeByNumber_accounts, ite_self]
  rfl

theorem completeCredit_accounts (s : State) (request number amount : Nat) (rest : List Write) :
    (s.completeCredit request number amount rest).accounts = s.accounts.apply s.mailingDate (.credit request number amount) :=
  commitTest_accounts _

/-- The accounts stand, or have become what the write at the head of the queue gives. -/
def State.TakesHead (s t : State) : Prop :=
  t.accounts = s.accounts ∨ ∃ w rest, s.queue = w :: rest ∧ t.accounts = s.accounts.apply s.mailingDate w

theorem settleWrite_takesHead (s : State) : s.TakesHead s.settleWrite := by
  unfold State.settleWrite
  split
  next w rest _ hq =>
    cases Config.writeKept s.freeIndex with
    | true => exact .inr ⟨w, rest, hq, rfl⟩
    | false => exact .inl rfl
  · exact .inl rfl

theorem taken_takesHead {s t : State} {f : State → State} (h : s.taken f = .next t) (hf : s.TakesHead (f s)) : s.TakesHead t := by
  cases h
  split
  · exact hf
  · exact .inl rfl

theorem closeComplete_takesHead (s : State) (kind : CloseKind) : s.TakesHead (s.closeComplete kind) := by
  unfold State.closeComplete
  split
  next k tag n by_ rest hq =>
    split
    · exact .inr ⟨_, rest, hq, completeClose_accounts s k tag n by_ rest⟩
    · exact .inl rfl
  all_goals exact .inl rfl

/-- The completions, and the events that cut a write short, take the write at the head of the queue. -/
theorem exec_takesHead {c : Instr} {s t : State} (hc : (completesWrite c || stopsWrites c) = true) (ht : exec c s = .next t) :
    s.TakesHead t := by
  cases c with
  | commitComplete =>
    unfold exec execCommitComplete at ht
    refine taken_takesHead ht ?_
    cases hq : s.queue with
    | nil => exact .inl rfl
    | cons w rest =>
      cases w with
      | commit tag p => exact .inr ⟨_, rest, hq, completeCommit_accounts s tag p rest⟩
      | _ => exact .inl rfl
  | creditComplete =>
    unfold exec execCreditComplete at ht
    refine taken_takesHead ht ?_
    cases hq : s.queue with
    | nil => exact .inl rfl
    | cons w rest =>
      cases w with
      | credit request number amount => exact .inr ⟨_, rest, hq, completeCredit_accounts s request number amount rest⟩
      | _ => exact .inl rfl
  | confirmComplete =>
    unfold exec execConfirmComplete at ht
    exact taken_takesHead ht (closeComplete_takesHead s .confirm)
  | voidComplete =>
    unfold exec execVoidComplete at ht
    exact taken_takesHead ht (closeComplete_takesHead s .void)
  | spoilComplete =>
    unfold exec execSpoilComplete at ht
    exact taken_takesHead ht (closeComplete_takesHead s .spoil)
  | powerLoss => cases ht; exact settleWrite_takesHead s
  | powerOn service => cases ht; exact settleWrite_takesHead s
  | resetAssert =>
    cases ht
    simp only
    split
    · exact settleWrite_takesHead { s with pins := { s.pins with reset := true } }
    all_goals exact .inl rfl
  | _ => cases hc

/-- Settles O12: the five writes on the registers; the commands that take the head write; A, T and N under any write. -/
theorem accountsChangeOnlyByTheHeadWrite : Obligations.AccountsChangeOnlyByTheHeadWrite := by
  refine ⟨fun a day => ⟨fun tag p => rfl, fun request number amount => rfl, ?_⟩, fun c s t ht => ?_⟩
  · intro tag n by_ o ho
    exact ⟨Accounts.closeWrite_confirm ho, Accounts.closeWrite_void ho, Accounts.closeWrite_spoil ho⟩
  have hhead : t.accounts = s.accounts ∨
      ((completesWrite c || stopsWrites c) = true ∧ ∃ w rest, s.queue = w :: rest ∧ t.accounts = s.accounts.apply s.mailingDate w) := by
    cases hc : completesWrite c || stopsWrites c with
    | false => exact .inl ((exec_reaches ht).accounts_eq (effectsOf_accounts hc))
    | true => exact (exec_takesHead hc ht).imp_right fun h => ⟨rfl, h⟩
  refine ⟨hhead, ?_⟩
  rcases hhead with he | ⟨-, w, rest, hq, he⟩
  · simp [he]
  · obtain ⟨ha, ht', hn⟩ := s.accounts.apply_monotone s.mailingDate w
    rw [he]
    refine ⟨ha, ht', ?_, fun w' rest' hq' hw => ?_⟩
    · cases hw : w.isCommit <;> simp [hn, hw]
    · cases hq.symm.trans hq'
      simp [hn, hw]

end Sys2Proof.Machine

/-! PROOFS. Requests of a wrong LEN, and the sensor records that place nothing (O20, O22). -/

namespace Sys2Proof.Machine

/-! ### A request whose LEN does not match (R191) -/

theorem RequestKind.stateRefusal_tableSegment (s : State) : RequestKind.tableSegment.stateRefusal s.franking = none ↔ s.serving = true := by
  rw [s.serving_iff]
  cases s.franking <;> simp [RequestKind.stateRefusal]

/-- The flawed mark is set by a TABLE_SEGMENT while a bank is loading in a state that takes segments. -/
theorem State.flawByLength_segment {s : State} (hb : s.banks.loading.isSome = true) (hs : s.serving = true) :
    s.flawByLength .tableSegment = { s with load := { s.load with flawed := true } } :=
  if_pos ⟨rfl, hb, (RequestKind.stateRefusal_tableSegment s).mpr hs⟩

theorem State.flawByLength_other {s : State} {k : RequestKind} (h : k ≠ .tableSegment ∨ s.banks.loading = none ∨ s.serving = false) :
    s.flawByLength k = s := by
  refine if_neg ?_
  rintro ⟨rfl, hb, hs⟩
  have hserving := (RequestKind.stateRefusal_tableSegment s).mp hs
  simp_all

/-- A request of a wrong LEN is refused whatever the franking state. -/
theorem exec_of_wrongLength {c : Instr} {h : ReqHead} {k : RequestKind} {s : State} (hc : requestOf c = some (h, k)) (hp : s.power = .on)
    (hl : h.lenOk = false) : exec c s = .next ((s.flawByLength k).refuse h.number k.code .badValue) := by
  obtain ⟨owner, howner⟩ := exec_of_requestOf hc
  rw [howner, taken_on hp, State.request, if_pos hl]

/-- Settles O20: the refusal, with and without the flawed mark. -/
theorem wrongLengthIsRefused : Obligations.WrongLengthIsRefused := by
  refine fun c h k s hc hp hl => ⟨?_, fun hk => ?_⟩
  · rintro rfl hb hs
    rw [exec_of_wrongLength hc hp hl, State.flawByLength_segment hb hs]
  · rw [exec_of_wrongLength hc hp hl, State.flawByLength_other hk]

/-! ### Sensor records about a piece (R14, R27) -/

theorem exec_enter (tag : Nat) (s : State) : exec (.enter tag) s = s.taken fun s => s.enter tag := rfl

theorem exec_dimension (tag l h t : Nat) (nm : Bool) (s : State) :
    exec (.dimension tag l h t nm) s =
      s.taken fun s => s.measurement tag (fun p => { p with dimension := some (.ofSent l h t nm) }) fun s _ => s.lateMeasurement := rfl

theorem exec_weight (tag reading quality : Nat) (s : State) :
    exec (.weight tag reading quality) s =
      s.taken fun s =>
        s.measurement tag (fun p => { p with weight := replaceWeight p.weight (.prepared reading quality) })
          (State.lateWeight (.prepared reading quality)) := rfl

theorem exec_destination (tag code : Nat) (noRead : Bool) (service : Option Nat) (s : State) :
    exec (.destination tag code noRead service) s =
      s.taken fun s =>
        s.measurement tag
          (fun p =>
            { p with
              destination := replaceDestination p.destination (if noRead then .noRead else .code code)
              override := replaceOverride p.override service })
          fun s _ => s.lateMeasurement := rfl

theorem exec_gate (tag : Nat) (s : State) :
    exec (.gate tag) s = s.taken fun s => s.pieceEvent tag State.gateTells fun s _ => s.gateTreatment tag := rfl

theorem exec_exit (tag : Nat) (s : State) :
    exec (.exit tag) s =
      s.taken fun s =>
        s.pieceEvent tag (fun _ p => p.endsAtExit) fun s p => if p.state.settled then s.leaveLine tag else (s.gateTreatment tag).leaveLine tag :=
  rfl

theorem exec_remove (tag : Nat) (s : State) :
    exec (.remove tag) s = s.taken fun s => s.pieceEvent tag (fun _ p => p.endsAtExit) State.operatorRemove := rfl

section
variable {s : State} {tag : Nat} {apply : Piece → Piece} {late : State → Piece → State} {told : State → Piece → Bool}
  {f : State → Piece → State}

theorem enter_unconfigured (hf : s.franking = .unconfigured) : s.enter tag = s.orphan := if_pos hf

theorem measurement_unconfigured (hf : s.franking = .unconfigured) : s.measurement tag apply late = s.orphan := if_pos hf

theorem pieceEvent_unconfigured (hf : s.franking = .unconfigured) : s.pieceEvent tag told f = s.orphan := if_pos hf

theorem measurement_untracked (h : s.piece? tag = none) : s.measurement tag apply late = s.orphan := by
  simp [State.measurement, h]

theorem pieceEvent_untracked (h : s.piece? tag = none) : s.pieceEvent tag told f = s.orphan := by
  simp [State.pieceEvent, h]

theorem measurement_unsettled {p : Piece} (hf : s.franking ≠ .unconfigured) (h : s.piece? tag = some p) (hs : p.state.settled = false) :
    s.measurement tag apply late = ((s.updatePiece tag apply).rateAgain tag).passRatings [p] := by
  simp [State.measurement, hf, h, hs]

theorem measurement_settled {p : Piece} (hf : s.franking ≠ .unconfigured) (h : s.piece? tag = some p) (hs : p.state.settled = true) :
    s.measurement tag apply late = late s p := by
  simp [State.measurement, hf, h, hs]

theorem pieceEvent_tracked {p : Piece} (hf : s.franking ≠ .unconfigured) (h : s.piece? tag = some p) :
    s.pieceEvent tag told f = if told s p then (f s p).commitTest else f s p := by
  simp [State.pieceEvent, hf, h]

end

/-- In UNCONFIGURED every sensor record about a piece is an orphan. -/
theorem exec_sensor_unconfigured {c : Instr} {tag : Nat} {s : State} (hc : pieceTag c = some tag) (hp : s.power = .on)
    (hf : s.franking = .unconfigured) : exec c s = .next s.orphan := by
  cases c with
  | enter => rw [exec_enter, taken_on hp, enter_unconfigured hf]
  | dimension => rw [exec_dimension, taken_on hp, measurement_unconfigured hf]
  | weight => rw [exec_weight, taken_on hp, measurement_unconfigured hf]
  | destination => rw [exec_destination, taken_on hp, measurement_unconfigured hf]
  | gate => rw [exec_gate, taken_on hp, pieceEvent_unconfigured hf]
  | exit => rw [exec_exit, taken_on hp, pieceEvent_unconfigured hf]
  | remove => rw [exec_remove, taken_on hp, pieceEvent_unconfigured hf]
  | _ => cases hc

/-- A sensor record but ENTER is an orphan where no record holds its tag. -/
theorem exec_sensor_untracked {c : Instr} {tag : Nat} {s : State} (hc : pieceTag c = some tag) (he : c ≠ .enter tag) (hp : s.power = .on)
    (ht : s.piece? tag = none) : exec c s = .next s.orphan := by
  cases c with
  | enter => cases hc; exact absurd rfl he
  | dimension => cases hc; rw [exec_dimension, taken_on hp, measurement_untracked ht]
  | weight => cases hc; rw [exec_weight, taken_on hp, measurement_untracked ht]
  | destination => cases hc; rw [exec_destination, taken_on hp, measurement_untracked ht]
  | gate => cases hc; rw [exec_gate, taken_on hp, pieceEvent_untracked ht]
  | exit => cases hc; rw [exec_exit, taken_on hp, pieceEvent_untracked ht]
  | remove => cases hc; rw [exec_remove, taken_on hp, pieceEvent_untracked ht]
  | _ => cases hc

theorem exec_lineStatus (word : Flags16) (s : State) :
    exec (.lineStatus word) s = s.taken fun s => if s.franking = .unconfigured then s.orphan else s.takeWord word := rfl

/-- Settles O22: `State.orphan` is the counter's rise. -/
theorem orphansAreCounted : Obligations.OrphansAreCounted := by
  refine fun s hp => ⟨fun c tag hc he ht => exec_sensor_untracked hc he hp ht, fun c tag hc hf => exec_sensor_unconfigured hc hp hf,
    fun word hf => ?_⟩
  rw [exec_lineStatus, taken_on hp, if_pos hf]
  rfl

end Sys2Proof.Machine

/-! PROOFS. Measurements and ratings (O23, O24, O25). -/

namespace Sys2Proof.Machine

/-! ### What is stored (R28 to R33) -/

theorem Quality.ofCode_eq (quality : Nat) :
    Quality.ofCode quality =
      if quality = 0 then .settled else if quality = 1 then .estimate else if quality = 2 then .overload else .fault := by
  rcases quality with _ | _ | _ | quality <;> rfl

/-- An ESTIMATE does not displace a SETTLED or OVERLOAD reading; any other reading is stored (R31). -/
theorem weight_replaced (p : Piece) (w : Weight) :
    { p with weight := replaceWeight p.weight w } =
      if w.quality = .estimate ∧ (p.weight.map (·.quality) = some .settled ∨ p.weight.map (·.quality) = some .overload) then p
      else { p with weight := some w } := by
  cases hw : p.weight with
  | none => simp [replaceWeight]
  | some old =>
    simp only [replaceWeight, Option.map_some, Option.some.injEq]
    split
    · rw [← hw]
    · rfl

theorem replaceDestination_eq (stored : Option Destination) (code : Nat) (noRead : Bool) :
    replaceDestination stored (if noRead then .noRead else .code code) =
      if noRead = true then some (stored.getD .noRead) else some (.code code) := by
  cases noRead <;> rcases stored with _ | _ | _ <;> rfl

theorem replaceOverride_eq (stored service : Option Nat) :
    replaceOverride stored service = if service.any (· ≤ 15) then service else stored := by
  cases service with
  | none => rfl
  | some n => by_cases hn : n ≤ 15 <;> simp [replaceOverride, serviceProduct, hn]

/-! ### What a new rating tells the commit unit (R119) -/

theorem State.tells_iff (s : State) (p : Piece) :
    s.tells p = true ↔ p.state = .rated ∨ ∀ q, s.piece? p.tag = some q → q.state = .rated ∨ q.state.settled = true := by
  unfold State.tells
  cases s.piece? p.tag with
  | none => simp
  | some q => simp [or_comm (a := q.state = .rated)]

theorem State.any_tells_iff (s : State) (before : List Piece) :
    before.any s.tells = true ↔
      ∃ p ∈ before, p.state = .rated ∨ ∀ q, s.piece? p.tag = some q → q.state = .rated ∨ q.state.settled = true := by
  simp only [List.any_eq_true, State.tells_iff]

/-- Settles O23: the three records by what they store; the telling by `State.tells`. -/
theorem measurementsAreApplied : Obligations.MeasurementsAreApplied := by
  refine ⟨fun tag p s hp hf ht hs => ⟨fun l h t nm => ?_, ?_, fun code noRead service => ?_⟩,
    fun before s => ⟨fun htold => ?_, fun htold => ?_⟩⟩
  · rw [exec_dimension, taken_on hp, measurement_unsettled hf ht hs]
    rfl
  · intro reading quality w
    have hw : Weight.prepared reading quality = w := by
      simp only [Weight.prepared, Quality.ofCode_eq, w]
      rfl
    rw [exec_weight, taken_on hp, measurement_unsettled hf ht hs, hw]
    simp only [weight_replaced]
  · rw [exec_destination, taken_on hp, measurement_unsettled hf ht hs]
    simp only [replaceDestination_eq, replaceOverride_eq]
  · exact if_pos ((s.any_tells_iff before).mpr htold)
  · exact if_neg fun h => htold ((s.any_tells_iff before).mp h)

/-! ### A new rating (R5, R19) -/

theorem rateAgain_settled {s : State} {p : Piece} (h : s.piece? p.tag = some p) (hs : p.state.settled = true) : s.rateAgain p.tag = s := by
  simp [State.rateAgain, h, hs]

theorem rateAgain_unsettled {s : State} {p : Piece} {j : Job} (h : s.piece? p.tag = some p) (hj : s.jobOf p = some j)
    (hs : p.state.settled = false) : s.rateAgain p.tag = s.applyRating p (rate p.inputs j.values s.activeBank) := by
  simp [State.rateAgain, h, hj, hs]

section
variable {r : RatingRecord}

theorem applyRating_unrateable (s : State) (p : Piece) {reason : DivertReason} (h : r.outcome = .unrateable reason) :
    s.applyRating p r = (s.updatePiece p.tag (·.newlyRated r)).finalize p.tag (.diverted reason) := by
  unfold State.applyRating
  rw [h]

theorem applyRating_rated (s : State) (p : Piece) (h : r.outcome = .rated) : s.applyRating p r = s.updatePiece p.tag (·.rerated r) := by
  unfold State.applyRating
  rw [h]

theorem applyRating_incomplete (s : State) (p : Piece) (h : r.outcome = .incomplete) :
    s.applyRating p r =
      if p.flags.gateCommitted then (s.updatePiece p.tag (·.reopened r .opened)).gateDecision p.tag
      else s.updatePiece p.tag (·.reopened r .opened) := by
  unfold State.applyRating
  rw [h]

theorem applyRating_provisional (s : State) (p : Piece) (h : r.outcome = .provisional) :
    s.applyRating p r =
      if p.flags.gateCommitted then (s.updatePiece p.tag (·.reopened r .provisional)).gateDecision p.tag
      else s.updatePiece p.tag (·.reopened r .provisional) := by
  unfold State.applyRating
  rw [h]

end

/-- Settles O24: the branches of `State.rateAgain` and of `State.applyRating`. -/
theorem ratingSetsTheState : Obligations.RatingSetsTheState := by
  refine fun p j s h hj => ⟨rateAgain_settled h, fun hs => ⟨fun reason hr => ?_, fun hr => ?_, fun hr => ?_, fun hr => ?_⟩⟩
  · exact (rateAgain_unsettled h hj hs).trans (applyRating_unrateable s p hr)
  · exact (rateAgain_unsettled h hj hs).trans (applyRating_rated s p hr)
  · exact (rateAgain_unsettled h hj hs).trans (applyRating_incomplete s p hr)
  · exact (rateAgain_unsettled h hj hs).trans (applyRating_provisional s p hr)

/-! ### Late measurements and the comparison (R38, R41 to R43) -/

/-- The conditions of R41, for a settled piece. -/
theorem Piece.comparable_iff {p : Piece} (hs : p.state.settled = true) (w : Weight) :
    p.comparable w = true ↔
      p.flags.estimateCommitted = true ∧ (p.state = .final → p.commitData.isSome = true) ∧ p.weight.map (·.quality) = some .estimate ∧
        (w.quality = .settled ∨ w.quality = .overload) := by
  have hrequested : p.commitRequested = true ↔ (p.state = .final → p.commitData.isSome = true) := by
    cases hst : p.state <;> simp_all [Piece.commitRequested, PieceState.settled]
  simp only [Piece.comparable, Bool.and_eq_true, Bool.or_eq_true, decide_eq_true_eq, hrequested]
  tauto

theorem comparisonBank_of_unnamed {s : State} {r : RatingRecord} (h : r.bank = none) : s.comparisonBank r = none := by
  unfold State.comparisonBank
  rw [h]

theorem comparisonBank_of_named {s : State} {r : RatingRecord} {id : BankId} {tariffId : Nat} (h : r.bank = some (id, tariffId)) :
    s.comparisonBank r =
      if ((s.banks.get id).state = .active ∨ (s.banks.get id).state = .ready) ∧ (s.banks.get id).tariffId = tariffId then
        some (id, s.banks.get id)
      else none := by
  unfold State.comparisonBank
  rw [h]

theorem compareWeight_eq {s : State} {p : Piece} {r : RatingRecord} {j : Job} (hr : p.rating = some r) (hj : s.jobOf p = some j) (w : Weight) :
    s.compareWeight p w =
      match disagreement p.postage (rate { p.inputs with weight := some w } j.values (s.comparisonBank r)) with
      | some detail => (s.updatePiece p.tag fun q => { q with weight := some w }).post .weightDisagrees (some p.tag) detail
      | none => s.updatePiece p.tag fun q => { q with weight := some w } := by
  have hj' : (s.updatePiece p.tag fun q => { q with weight := some w }).jobOf p = some j := hj
  simp only [State.compareWeight, hr, hj']
  rfl

theorem disagreement_unrateable {postage : Nat} {r : RatingRecord} {reason : DivertReason} (h : r.outcome = .unrateable reason) :
    disagreement postage r = some [some postage, none, some reason.code] := by
  simp [disagreement, h]

theorem disagreement_rateable {postage : Nat} {r : RatingRecord} (h : ∀ reason, r.outcome ≠ .unrateable reason) :
    disagreement postage r = if r.postage = some postage then none else some [some postage, r.postage] := by
  unfold disagreement
  split
  next reason hr => exact absurd hr (h reason)
  · rfl

/-- With no bank to compare in, complete inputs are UNRATEABLE, NO_BANK (R73, R42). -/
theorem rate_noBank {i : RatingInputs} {j : JobValues} (h : missingInput i j.zoneMode = none) :
    (rate i j none).outcome = .unrateable .noBank := by
  simp [rate, h, RatingRecord.bare]

theorem missingInput_none {i : RatingInputs} {zone : ZoneMode} {w : Weight} (hw : i.weight = some w) (hq : w.quality ≠ .fault)
    (hd : i.dimension.isSome = true) (hz : zone = .read → i.destination.isSome = true) : missingInput i zone = none := by
  have hdest : ¬(zone = .read ∧ i.destination = none) := by
    rintro ⟨hread, hnone⟩
    simpa [hnone] using hz hread
  simp [missingInput, hw, hq, Option.isSome_iff_ne_none.mp hd, hdest]

theorem exec_weight_settled {s : State} {tag : Nat} {p : Piece} (hp : s.power = .on) (hf : s.franking ≠ .unconfigured)
    (ht : s.piece? tag = some p) (hs : p.state.settled = true) (reading quality : Nat) :
    exec (.weight tag reading quality) s =
      .next (if p.comparable (.prepared reading quality) then s.compareWeight p (.prepared reading quality) else s.lateMeasurement) := by
  rw [exec_weight, taken_on hp, measurement_settled hf ht hs]
  rfl

/-- Settles O25: what is late is counted; what is compared is stored, rated in the bank of the record, and posted where the postages differ. -/
theorem lateMeasurementsAreCounted : Obligations.LateMeasurementsAreCounted := by
  refine ⟨fun r s => ⟨comparisonBank_of_unnamed, fun id tariffId hb => ?_⟩, fun tag p s hp hf ht hs => ⟨?_, ?_, ?_⟩⟩
  · rw [comparisonBank_of_named hb]
    exact ⟨fun h => if_pos h, fun h => if_neg h⟩
  · intro l h t nm
    rw [exec_dimension, taken_on hp, measurement_settled hf ht hs]
    rfl
  · intro code noRead service
    rw [exec_destination, taken_on hp, measurement_settled hf ht hs]
    rfl
  · intro reading quality w compared stored
    have hiff : p.comparable w = true ↔ compared := Piece.comparable_iff hs w
    have htag : p.tag = tag := (piece?_mem ht).2
    refine ⟨fun hnot => ?_, fun hcompared r j hr hj => ?_⟩
    · rw [exec_weight_settled hp hf ht hs, if_neg fun h => hnot (hiff.mp h)]
      rfl
    · intro again
      have hexec : exec (.weight tag reading quality) s = .next (s.compareWeight p w) := by
        rw [exec_weight_settled hp hf ht hs, if_pos (hiff.mpr hcompared)]
      rw [hexec, compareWeight_eq hr hj]
      refine ⟨fun hb hd hz => ?_, fun hsame hrate => ?_, fun p' hother hne hrate => ?_, fun reason hrate => ?_⟩
      · obtain ⟨-, -, -, hq⟩ := hcompared
        have hmissing : missingInput { p.inputs with weight := some w } j.values.zoneMode = none :=
          missingInput_none rfl (by rcases hq with hq | hq <;> simp [hq]) hd hz
        simp only [again, hb]
        exact rate_noBank hmissing
      · rw [disagreement_rateable hrate, if_pos hsame, htag]
      · rw [disagreement_rateable hrate, if_neg (by simpa [again] using hother ▸ fun h => hne (Option.some.inj h)), hother, htag]
      · rw [disagreement_unrateable hrate, htag]

end Sys2Proof.Machine

/-! PROOFS. What a posting leaves (R180, R182), the end of a piece (O30), EXIT (O28) and REMOVE (O29). -/

namespace Sys2Proof.Machine

/-! ### Postings on the channels and on the link (R180, R182) -/

theorem sendNotice_waiting (s : State) (c : Fin 8) :
    (s.sendNotice c).lineTx.waiting =
      s.lineTx.waiting ++ [.notice (noticeVector s.settings.vectorBase c) c.val s.channels[c].latest s.channels[c].count] := by
  unfold State.sendNotice
  simp only
  split <;> rfl

theorem sendNotice_channels (s : State) (c : Fin 8) :
    (s.sendNotice c).channels = s.channels.set c (s.channels[c].sent s.settings.noticeMode) := by
  unfold State.sendNotice
  simp only
  split <;> rfl

@[simp] theorem Channel.sent_latest (ch : Channel) (m : NoticeMode) : (ch.sent m).latest = ch.latest := by cases m <;> rfl

/-- The sending test puts at most one record on the link, a notice. -/
theorem sendingTest_waiting (s : State) :
    s.sendingTest.lineTx.waiting = s.lineTx.waiting ∨
      ∃ vector channel cause count, s.sendingTest.lineTx.waiting = s.lineTx.waiting ++ [.notice vector channel cause count] := by
  unfold State.sendingTest
  split
  · exact .inl rfl
  · exact .inr ⟨_, _, _, _, sendNotice_waiting s _⟩

theorem sendNotice_latest (s : State) (c k : Fin 8) : (s.sendNotice c).channels[k].latest = s.channels[k].latest := by
  rw [sendNotice_channels]
  by_cases hk : (c : Nat) = k
  · obtain rfl := Fin.ext hk
    simp
  · simp [hk]

/-- Sending leaves the latest cause of every channel. -/
theorem sendingTest_latest (s : State) (k : Fin 8) : s.sendingTest.channels[k].latest = s.channels[k].latest := by
  unfold State.sendingTest
  split
  · rfl
  · exact sendNotice_latest s _ k

/-- A posting's cause is the latest of its channel; the other channels keep theirs. -/
theorem post_latest (s : State) (code : CauseCode) (tag : Option Nat) (detail : List (Option Nat)) (k : Fin 8) :
    (s.post code tag detail).channels[k].latest = if k = code.channel then some { code, tag, detail } else s.channels[k].latest := by
  unfold State.post
  rw [sendingTest_latest]
  by_cases hk : k = code.channel
  · subst hk
    simp [Channel.posted]
  · have hne : (code.channel : Nat) ≠ k := fun h => hk (Fin.ext h.symm)
    simp [hk, hne]

theorem post_jobs (s : State) (code : CauseCode) (tag : Option Nat) (detail : List (Option Nat)) : (s.post code tag detail).jobs = s.jobs :=
  (post_reach (Q := False) s code tag detail).jobs_eq (by decide)

/-! ### The records that the end of a piece sends -/

/-- The records of the line link are those of `s` and then others. -/
def State.Sends (s t : State) : Prop := s.lineTx.waiting <+: t.lineTx.waiting

theorem State.Sends.refl (s : State) : s.Sends s := List.prefix_refl _

theorem State.Sends.trans {s t u : State} (h : s.Sends t) (h' : t.Sends u) : s.Sends u := List.IsPrefix.trans h h'

theorem State.Sends.of_lineTx {s t : State} (h : t.lineTx = s.lineTx) : s.Sends t := by
  simp [State.Sends, h]

/-- What comes before need only leave the link as it was. -/
theorem State.Sends.after {s s' t : State} (h : s'.Sends t) (he : s'.lineTx = s.lineTx) : s.Sends t := (State.Sends.of_lineTx he).trans h

theorem sendingTest_sends (s : State) : s.Sends s.sendingTest := by
  rcases sendingTest_waiting s with h | ⟨v, c, cause, n, h⟩ <;> simp [State.Sends, h]

theorem post_sends (s : State) (code : CauseCode) (tag : Option Nat) (detail : List (Option Nat)) : s.Sends (s.post code tag detail) :=
  (sendingTest_sends _).after rfl

theorem postDivert_sends (s : State) (tag : Nat) (d : Disposition) : s.Sends (s.postDivert tag d) := by
  cases d with
  | diverted r => exact post_sends s _ _ _
  | _ => exact .refl s

theorem countDisposition_lineTx (s : State) (job : Option Nat) (d : Disposition) : (s.countDisposition job d).lineTx = s.lineTx := by
  cases job <;> rfl

theorem testDone_sends (s : State) (slot : Nat) (tag : Option Nat) : s.Sends (s.testDone slot tag) := by
  unfold State.testDone
  split
  · exact .refl s
  · split
    · exact (post_sends _ _ _ _).after rfl
    · exact .refl s

theorem removePiece_sends (s : State) (tag : Nat) : s.Sends (s.removePiece tag) := by
  unfold State.removePiece
  split
  · exact .refl s
  · simp only
    split
    · exact .refl s
    · exact (testDone_sends _ _ _).after rfl

theorem removeIf_sends (s : State) (tag : Nat) (c : Bool) : s.Sends (if c then s.removePiece tag else s) := by
  cases c with
  | true => exact removePiece_sends s tag
  | false => exact .refl s

/-- The DISPOSITION goes to the link ahead of the records of the divert and of the removal (R9). -/
theorem reportEnd_sends (s : State) (tag : Nat) (d : Disposition) (p : Piece) :
    (s.sendLine (.disposition (p.report ((s.jobOf p).map (·.values.id)) d))).Sends (s.reportEnd tag d p) := by
  unfold State.reportEnd
  exact (postDivert_sends _ tag d).trans ((removeIf_sends _ tag _).after (countDisposition_lineTx _ _ _))

/-! ### What the end of a piece leaves of the channels, the pieces and the jobs (R9, R143) -/

theorem countDisposition_channels (s : State) (job : Option Nat) (d : Disposition) : (s.countDisposition job d).channels = s.channels := by
  cases job <;> rfl

theorem postDivert_jobs (s : State) (tag : Nat) (d : Disposition) : (s.postDivert tag d).jobs = s.jobs := by
  cases d with
  | diverted r => exact post_jobs s _ _ _
  | _ => rfl

/-- A removal posts on no channel but that of DONE. -/
theorem removePiece_latest (s : State) (tag : Nat) {k : Fin 8} (hk : k ≠ CauseCode.done.channel) : (s.removePiece tag).channels[k].latest = s.channels[k].latest := by
  unfold State.removePiece
  split
  · rfl
  · simp only
    split
    · rfl
    · unfold State.testDone
      split
      · rfl
      · split
        · rw [post_latest, if_neg hk]
          rfl
        · rfl

theorem removeIf_latest (s : State) (tag : Nat) (c : Bool) {k : Fin 8} (hk : k ≠ CauseCode.done.channel) :
    (if c then s.removePiece tag else s).channels[k].latest = s.channels[k].latest := by
  cases c with
  | true => exact removePiece_latest s tag hk
  | false => rfl

theorem divert_channel (r : DivertReason) : (CauseCode.divert r).channel = if r = .fundsShort then 3 else 5 := by cases r <;> rfl

/-- The cause of a divert is the latest of its channel, on FUNDS or on PIECE (R173). -/
theorem reportEnd_latest (s : State) (tag : Nat) (r : DivertReason) (p : Piece) :
    (s.reportEnd tag (.diverted r) p).channels[(if r = .fundsShort then 3 else 5 : Fin 8)].latest =
      some { code := .divert r, tag := some tag, detail := [] } := by
  have hk : (if r = .fundsShort then 3 else 5 : Fin 8) ≠ CauseCode.done.channel := by split <;> decide
  unfold State.reportEnd
  rw [removeIf_latest _ tag _ hk, countDisposition_channels, State.postDivert, post_latest, if_pos (divert_channel r).symm]

/-- How a disposition counts into a job (R143). -/
theorem Job.count_eq (j : Job) (d : Disposition) :
    j.count d = if d = .printed then { j with printed := min (j.printed + 1) 4294967295 } else { j with diverted := min (j.diverted + 1) 4294967295 } := by
  cases d <;> simp [Job.count, satSucc, Config.countMax]

@[simp] theorem Job.count_slot (j : Job) (d : Disposition) : (j.count d).slot = j.slot := by cases d <;> rfl
@[simp] theorem Job.count_state (j : Job) (d : Disposition) : (j.count d).state = j.state := by cases d <;> rfl
@[simp] theorem Job.count_inList (j : Job) (d : Disposition) : (j.count d).inList = j.inList := by cases d <;> rfl
@[simp] theorem Job.count_values (j : Job) (d : Disposition) : (j.count d).values = j.values := by cases d <;> rfl
@[simp] theorem Job.count_entered (j : Job) (d : Disposition) : (j.count d).entered = j.entered := by cases d <;> rfl

/-- The state in which a piece that has ended leaves the list, or stays: its DISPOSITION sent, its divert posted, its job counted (R9 steps 2 to 4). -/
def State.reported (s : State) (tag : Nat) (d : Disposition) (p : Piece) : State :=
  ((s.sendLine (.disposition (p.report ((s.jobOf p).map (·.values.id)) d))).postDivert tag d).countDisposition p.job d

theorem reportEnd_eq (s : State) (tag : Nat) (d : Disposition) (p : Piece) :
    s.reportEnd tag d p =
      if (p.flags.exited || p.flags.removeRequested) = true then (s.reported tag d p).removePiece tag else s.reported tag d p := rfl

theorem reported_pieces (s : State) (tag : Nat) (d : Disposition) (p : Piece) : (s.reported tag d p).pieces = s.pieces := by
  rw [State.reported, countDisposition_pieces, postDivert_pieces]
  rfl

theorem reported_piece? (s : State) (tag : Nat) (d : Disposition) (p : Piece) (t : Nat) : (s.reported tag d p).piece? t = s.piece? t := by
  unfold State.piece?
  rw [reported_pieces]

theorem reported_jobs_none (s : State) (tag : Nat) (d : Disposition) {p : Piece} (h : p.job = none) : (s.reported tag d p).jobs = s.jobs := by
  rw [State.reported, h]
  exact postDivert_jobs _ tag d

theorem reported_jobs_some (s : State) (tag : Nat) (d : Disposition) {p : Piece} {slot : Nat} (h : p.job = some slot) :
    (s.reported tag d p).jobs = s.jobs.map fun j => if j.slot == slot then j.count d else j := by
  rw [State.reported, h]
  show ((State.postDivert _ tag d).jobs).map _ = _
  rw [postDivert_jobs]
  rfl

theorem find_atSlot {f : Job → Job} (hf : ∀ j, (f j).slot = j.slot) (slot : Nat) (js : List Job) :
    (js.map fun j => if j.slot == slot then f j else j).find? (·.slot == slot) = (js.find? (·.slot == slot)).map f :=
  job?_updateJob { State.reset with jobs := js } slot hf

theorem reported_job? (s : State) (tag : Nat) (d : Disposition) {p : Piece} {slot : Nat} (h : p.job = some slot) :
    (s.reported tag d p).job? slot = (s.job? slot).map (·.count d) := by
  unfold State.job?
  rw [reported_jobs_some s tag d h]
  exact find_atSlot (fun j => j.count_slot d) slot s.jobs

theorem filter_updatePiece (s : State) (tag : Nat) {f : Piece → Piece} (hf : ∀ p, (f p).tag = p.tag) :
    (s.updatePiece tag f).pieces.filter (·.tag != tag) = s.pieces.filter (·.tag != tag) := by
  show (s.pieces.map _).filter _ = _
  induction s.pieces with
  | nil => rfl
  | cons p l ih =>
    rw [List.map_cons, List.filter_cons, List.filter_cons, ih]
    by_cases h : p.tag = tag
    · simp [h, hf]
    · simp [h]

/-- A record that no job refers to leaves the list and nothing else changes (R10). -/
theorem removePiece_jobless {s : State} {tag : Nat} {p : Piece} (hp : s.piece? tag = some p) (h : p.job = none) :
    s.removePiece tag = { s with pieces := s.pieces.filter (·.tag != tag) } := by
  simp [State.removePiece, hp, h]

/-- The jobs as a piece that leaves its CLOSED job empty takes them (R144), and DONE on its channel. -/
theorem removePiece_done {s : State} {tag slot : Nat} {p : Piece} {j : Job} (hp : s.piece? tag = some p) (h : p.job = some slot)
    (hj : s.job? slot = some j) (hd : j.state = .closed ∧ j.inList ≤ 1) :
    (s.removePiece tag).jobs = s.jobs.filter (·.slot != slot) ∧
      (s.removePiece tag).channels[(7 : Fin 8)].latest =
        some { code := .done, tag := some tag, detail := [some j.values.id, some j.entered, some j.printed, some j.diverted] } := by
  rw [removePiece_job hp h hj, if_pos hd, post_jobs, post_latest]
  exact ⟨rfl, rfl⟩

theorem removePiece_undone {s : State} {tag slot : Nat} {p : Piece} {j : Job} (hp : s.piece? tag = some p) (h : p.job = some slot)
    (hj : s.job? slot = some j) (hd : ¬(j.state = .closed ∧ j.inList ≤ 1)) :
    (s.removePiece tag).jobs = s.jobs.map fun x => if x.slot == slot then { x with inList := x.inList - 1 } else x := by
  rw [removePiece_job hp h hj, if_neg hd]

/-- Counting and then releasing a job is one change of its record. -/
theorem map_count_release (slot : Nat) (d : Disposition) (js : List Job) :
    ((js.map fun j => if j.slot == slot then j.count d else j).map fun x => if x.slot == slot then { x with inList := x.inList - 1 } else x) =
      js.map fun x => if x.slot == slot then { x.count d with inList := x.inList - 1 } else x := by
  rw [List.map_map]
  refine List.map_congr_left fun j _ => ?_
  by_cases h : j.slot = slot <;> simp [h]

section
variable {s : State} {tag : Nat} {p : Piece}

theorem ended_found (h : s.piece? tag = some p) (d : Disposition) : (s.updatePiece tag (·.ended d)).piece? tag = some (p.ended d) := by
  rw [updatePiece_find (f := (·.ended d)) fun _ => rfl, h]
  rfl

/-- A piece that has exited, or is to be removed, leaves with its end (R9 step 5). -/
theorem finalize_leaving (h : s.piece? tag = some p) (hf : (p.flags.exited || p.flags.removeRequested) = true) (d : Disposition) :
    s.finalize tag d = ((s.updatePiece tag (·.ended d)).reported tag d p).removePiece tag := by
  rw [finalize_eq h, reportEnd_eq, if_pos hf]

theorem finalize_staying (h : s.piece? tag = some p) (hf : (p.flags.exited || p.flags.removeRequested) = false) (d : Disposition) :
    s.finalize tag d = (s.updatePiece tag (·.ended d)).reported tag d p := by
  rw [finalize_eq h, reportEnd_eq, if_neg (by simp [hf])]

theorem finalize_staying_found (h : s.piece? tag = some p) (hf : (p.flags.exited || p.flags.removeRequested) = false) (d : Disposition) :
    (s.finalize tag d).piece? tag = some (p.ended d) := by
  rw [finalize_staying h hf, reported_piece?, ended_found h]

theorem finalize_leaving_gone (h : s.piece? tag = some p) (hf : (p.flags.exited || p.flags.removeRequested) = true) (d : Disposition) :
    (s.finalize tag d).piece? tag = none := by
  rw [finalize_leaving h hf, removePiece_gone]

theorem finalize_leaving_pieces (h : s.piece? tag = some p) (hf : (p.flags.exited || p.flags.removeRequested) = true) (d : Disposition) :
    (s.finalize tag d).pieces = s.pieces.filter (·.tag != tag) := by
  rw [finalize_leaving h hf, removePiece_pieces, reported_pieces, filter_updatePiece s tag (f := (·.ended d)) fun _ => rfl]

/-- The record that leaves, as the state that reported its end holds it. -/
theorem reported_found (h : s.piece? tag = some p) (d : Disposition) :
    ((s.updatePiece tag (·.ended d)).reported tag d p).piece? tag = some (p.ended d) := by
  rw [reported_piece?, ended_found h]

theorem finalize_leaving_jobless (h : s.piece? tag = some p) (hf : (p.flags.exited || p.flags.removeRequested) = true) (hj : p.job = none)
    (d : Disposition) : (s.finalize tag d).jobs = s.jobs := by
  rw [finalize_leaving h hf, removePiece_jobless (reported_found h d) hj]
  exact reported_jobs_none _ tag d hj

theorem finalize_leaving_done {slot : Nat} {j : Job} (h : s.piece? tag = some p) (hf : (p.flags.exited || p.flags.removeRequested) = true)
    (hp : p.job = some slot) (hj : s.job? slot = some j) (hd : j.state = .closed ∧ j.inList ≤ 1) (d : Disposition) :
    (s.finalize tag d).jobs = s.jobs.filter (·.slot != slot) ∧
      (s.finalize tag d).channels[(7 : Fin 8)].latest =
        some { code := .done, tag := some tag
               detail := [some j.values.id, some j.entered, some (j.count d).printed, some (j.count d).diverted] } := by
  have hfound : ((s.updatePiece tag (·.ended d)).reported tag d p).job? slot = some (j.count d) := by
    rw [reported_job? _ tag d hp]
    exact congrArg (Option.map (·.count d)) hj
  obtain ⟨hjobs, hlatest⟩ := removePiece_done (reported_found h d) hp hfound (by simpa using hd)
  rw [finalize_leaving h hf]
  refine ⟨hjobs.trans ?_, by simpa using hlatest⟩
  rw [reported_jobs_some _ tag d hp]
  exact filter_updateJob s slot fun j => j.count_slot d

theorem finalize_leaving_undone {slot : Nat} {j : Job} (h : s.piece? tag = some p) (hf : (p.flags.exited || p.flags.removeRequested) = true)
    (hp : p.job = some slot) (hj : s.job? slot = some j) (hd : ¬(j.state = .closed ∧ j.inList ≤ 1)) (d : Disposition) :
    (s.finalize tag d).jobs = s.jobs.map fun x => if x.slot == slot then { x.count d with inList := x.inList - 1 } else x := by
  have hfound : ((s.updatePiece tag (·.ended d)).reported tag d p).job? slot = some (j.count d) := by
    rw [reported_job? _ tag d hp]
    exact congrArg (Option.map (·.count d)) hj
  rw [finalize_leaving h hf, removePiece_undone (reported_found h d) hp hfound (by simpa using hd), reported_jobs_some _ tag d hp]
  exact map_count_release slot d s.jobs

end

/-- Settles O30: the end of a piece by its report and its removal; the removal by what it does to the job. -/
theorem endOfAPiece : Obligations.EndOfAPiece := by
  refine ⟨fun tag d p s h => ?_, fun tag p s h => ⟨fun hjob => removePiece_jobless h hjob, fun slot j hp hj => ?_⟩⟩
  · intro t report counted
    have htag : p.tag = tag := (piece?_mem h).2
    have hcount : ∀ j, j.count d = counted j := fun j => j.count_eq d
    refine ⟨?_, fun r hr => ?_, fun hf => ⟨finalize_leaving_gone h hf d, finalize_leaving_pieces h hf d, fun hjob => ?_, fun slot j hp hj => ?_⟩,
      fun hf => ⟨finalize_staying_found h hf d, ?_⟩⟩
    · have hsent := reportEnd_sends (s.updatePiece tag (·.ended d)) tag d p
      rw [← finalize_eq h] at hsent
      have hreport : report = p.report ((s.jobOf p).map (·.values.id)) d := by simp only [Piece.report, htag, report]
      rw [hreport]
      exact hsent
    · subst hr
      simp only [t, finalize_eq h]
      exact reportEnd_latest _ tag r p
    · exact finalize_leaving_jobless h hf hjob d
    · simp only [← hcount]
      exact ⟨fun hd => finalize_leaving_done h hf hp hj hd d, fun hd => finalize_leaving_undone h hf hp hj hd d⟩
    · simp only [t, ← hcount, finalize_staying h hf]
      cases hp : p.job with
      | none => exact reported_jobs_none _ tag d hp
      | some slot => exact reported_jobs_some _ tag d hp
  · rw [removePiece_job h hp hj]
    exact ⟨fun hd => if_pos hd, fun hd => if_neg hd⟩

/-! ### EXIT (R20) -/

section
variable {s : State} {tag : Nat} {p : Piece}

theorem leaveLine_final (h : s.piece? tag = some p) (hs : p.state = .final) : s.leaveLine tag = s.removePiece tag := by
  simp [State.leaveLine, h, hs]

theorem leaveLine_moving (h : s.piece? tag = some p) (hs : p.state = .committing ∨ p.state = .committed) :
    s.leaveLine tag = s.updatePiece tag fun q => { q with flags := { q.flags with exited := true } } := by
  rcases hs with hs | hs <;> simp [State.leaveLine, h, hs]

theorem leaveLine_unsettled (h : s.piece? tag = some p) (hs : p.state.settled = false) :
    s.leaveLine tag = (s.finalize tag (.diverted .gateMissed)).removePiece tag := by
  cases hst : p.state <;> simp_all [State.leaveLine, PieceState.settled]

theorem Piece.endsAtExit_unsettled (hs : p.state.settled = false) : p.endsAtExit = true := by
  cases hst : p.state <;> simp_all [Piece.endsAtExit, PieceState.settled]

theorem Piece.endsAtExit_final (hs : p.state = .final) : p.endsAtExit = true := by
  simp [Piece.endsAtExit, hs]

theorem Piece.endsAtExit_moving (hs : p.state = .committing ∨ p.state = .committed) : p.endsAtExit = false := by
  rcases hs with hs | hs <;> simp [Piece.endsAtExit, hs]

theorem Piece.settled_moving (hs : p.state = .committing ∨ p.state = .committed) : p.state.settled = true := by
  rcases hs with hs | hs <;> rw [hs] <;> rfl

/-- An EXIT that ends or removes its piece passes to the commit unit; one that only marks it does not (R119). -/
theorem exec_exit_tracked (hp : s.power = .on) (hf : s.franking ≠ .unconfigured) (h : s.piece? tag = some p) :
    exec (.exit tag) s =
      let left := if p.state.settled then s.leaveLine tag else (s.gateTreatment tag).leaveLine tag
      .next (if p.endsAtExit then left.commitTest else left) := by
  rw [exec_exit, taken_on hp, pieceEvent_tracked hf h]

theorem exec_exit_unsettled (hp : s.power = .on) (hf : s.franking ≠ .unconfigured) (h : s.piece? tag = some p) (hs : p.state.settled = false) :
    exec (.exit tag) s = .next (((s.sweep tag).gateDecision tag).leaveLine tag).commitTest := by
  rw [exec_exit_tracked hp hf h]
  simp only [Piece.endsAtExit_unsettled hs, hs, if_true]
  rfl

/-- Settles O28: EXIT by the piece's state, before the GATE treatment and after it. -/
theorem exitLeavesTheLine : Obligations.ExitLeavesTheLine := by
  refine fun tag p s hp hf h => ⟨fun hs => ?_, fun hs => ?_, fun hs q hq => ⟨fun hst => ?_, fun hst => ?_, fun hst => ?_⟩⟩
  · rw [exec_exit_tracked hp hf h]
    simp [Piece.endsAtExit_final hs, hs, PieceState.settled, leaveLine_final h hs]
  · rw [exec_exit_tracked hp hf h]
    simp only [Piece.endsAtExit_moving hs, Piece.settled_moving hs, leaveLine_moving h hs]
    rfl
  · rw [exec_exit_unsettled hp hf h hs, leaveLine_final hq hst]
  · rw [exec_exit_unsettled hp hf h hs, leaveLine_moving hq (.inl hst)]
  · rw [exec_exit_unsettled hp hf h hs, leaveLine_unsettled hq hst]

/-! ### REMOVE (R21 to R23) -/

theorem exec_remove_tracked (hp : s.power = .on) (hf : s.franking ≠ .unconfigured) (h : s.piece? tag = some p) :
    exec (.remove tag) s = .next (if p.endsAtExit then (s.operatorRemove p).commitTest else s.operatorRemove p) := by
  rw [exec_remove, taken_on hp, pieceEvent_tracked hf h]

theorem operatorRemove_unsettled (hs : p.state.settled = false) : s.operatorRemove p = (s.finalize p.tag .removed).removePiece p.tag := by
  cases hst : p.state <;> simp_all [State.operatorRemove, PieceState.settled]

theorem operatorRemove_final (hs : p.state = .final) : s.operatorRemove p = s.removePiece p.tag := by
  simp [State.operatorRemove, hs]

theorem operatorRemove_committing (hs : p.state = .committing) :
    s.operatorRemove p = s.updatePiece p.tag fun q => { q with flags := { q.flags with removeRequested := true } } := by
  simp [State.operatorRemove, hs]

theorem operatorRemove_committed (hs : p.state = .committed) :
    s.operatorRemove p = (s.updatePiece p.tag fun q => { q with flags := { q.flags with removeRequested := true } }).withdraw p := by
  simp [State.operatorRemove, hs]

theorem withdraw_sent (hw : p.flags.withdrawSent = true) : s.withdraw p = s := by
  simp [State.withdraw, hw]

theorem withdraw_unsent {c : CommitData} (hw : p.flags.withdrawSent = false) (hc : p.commitData = some c) :
    s.withdraw p =
      (s.sendPrint (.withdraw p.tag c.n)).updatePiece p.tag fun q => { q with flags := { q.flags with withdrawSent := true } } := by
  simp [State.withdraw, hw, hc]

end

/-- Settles O29: REMOVE by the piece's state; a COMMITTED piece is asked back from the printer once. -/
theorem removeByState : Obligations.RemoveByState := by
  intro tag p s hp hf h
  obtain rfl : p.tag = tag := (piece?_mem h).2
  refine ⟨fun hs => ?_, fun hs => ?_, fun hs => ?_, fun hs hw => ?_, fun hs hw c hc => ?_⟩
  · rw [exec_remove_tracked hp hf h, if_pos (Piece.endsAtExit_unsettled hs), operatorRemove_unsettled hs]
  · rw [exec_remove_tracked hp hf h, if_pos (Piece.endsAtExit_final hs), operatorRemove_final hs]
  · rw [exec_remove_tracked hp hf h, if_neg (by simp [Piece.endsAtExit_moving (.inl hs)]), operatorRemove_committing hs]
  · rw [exec_remove_tracked hp hf h, if_neg (by simp [Piece.endsAtExit_moving (.inr hs)]), operatorRemove_committed hs, withdraw_sent hw]
  · rw [exec_remove_tracked hp hf h, if_neg (by simp [Piece.endsAtExit_moving (.inr hs)]), operatorRemove_committed hs, withdraw_unsent hw hc]

end Sys2Proof.Machine

/-! PROOFS. The sweep of a GATE (O26). -/

namespace Sys2Proof.Machine

/-! ### The DISPOSITIONs on the link (R8) -/

/-- What a record of the line link reports of a piece. -/
def LineRecord.disposition? : LineRecord → Option DispositionRecord
  | .disposition d => some d
  | .reply _ _ => none
  | .notice _ _ _ _ => none
  | .stopMonitors _ _ => none
  | .stopOverflow _ => none

def State.dispositions (s : State) : List DispositionRecord := s.lineTx.waiting.filterMap LineRecord.disposition?

theorem dispositions_eq (s : State) :
    s.dispositions = s.lineTx.waiting.filterMap fun r => match r with | .disposition d => some d | _ => none :=
  congrArg (fun f => s.lineTx.waiting.filterMap f) (funext fun r => by cases r <;> rfl)

theorem dispositions_of_lineTx {s t : State} (h : t.lineTx = s.lineTx) : t.dispositions = s.dispositions := by
  unfold State.dispositions
  rw [h]

theorem sendLine_dispositions (s : State) (d : DispositionRecord) : (s.sendLine (.disposition d)).dispositions = s.dispositions ++ [d] := by
  simp [State.dispositions, LineRecord.disposition?]

theorem sendingTest_dispositions (s : State) : s.sendingTest.dispositions = s.dispositions := by
  unfold State.dispositions
  rcases sendingTest_waiting s with h | ⟨v, c, cause, n, h⟩
  · rw [h]
  · rw [h, List.filterMap_append]
    exact List.append_nil _

/-- A posting sends no DISPOSITION. -/
theorem post_dispositions (s : State) (code : CauseCode) (tag : Option Nat) (detail : List (Option Nat)) :
    (s.post code tag detail).dispositions = s.dispositions := sendingTest_dispositions _

theorem postDivert_dispositions (s : State) (tag : Nat) (d : Disposition) : (s.postDivert tag d).dispositions = s.dispositions := by
  cases d with
  | diverted r => exact post_dispositions s _ _ _
  | _ => rfl

theorem testDone_dispositions (s : State) (slot : Nat) (tag : Option Nat) : (s.testDone slot tag).dispositions = s.dispositions := by
  unfold State.testDone
  split
  · rfl
  · split
    · exact post_dispositions { s with jobs := s.jobs.filter (·.slot != slot) } _ _ _
    · rfl

theorem removePiece_dispositions (s : State) (tag : Nat) : (s.removePiece tag).dispositions = s.dispositions := by
  unfold State.removePiece
  split
  · rfl
  · simp only
    split
    · rfl
    · exact testDone_dispositions (State.updateJob { s with pieces := s.pieces.filter (·.tag != tag) } _ _) _ _

theorem reported_dispositions (s : State) (tag : Nat) (d : Disposition) (p : Piece) :
    (s.reported tag d p).dispositions = s.dispositions ++ [p.report ((s.jobOf p).map (·.values.id)) d] := by
  rw [State.reported, dispositions_of_lineTx (countDisposition_lineTx _ p.job d), postDivert_dispositions, sendLine_dispositions]

/-- The end of a piece sends its DISPOSITION and no other. -/
theorem finalize_dispositions {s : State} {tag : Nat} {p : Piece} (h : s.piece? tag = some p) (d : Disposition) :
    (s.finalize tag d).dispositions = s.dispositions ++ [p.report ((s.jobOf p).map (·.values.id)) d] := by
  rw [finalize_eq h, reportEnd_eq]
  split
  · rw [removePiece_dispositions, reported_dispositions]
    rfl
  · rw [reported_dispositions]
    rfl

/-! ### The other records, and their jobs, while a piece ends -/

theorem State.TagsDistinct.found {s : State} (hd : s.TagsDistinct) {p : Piece} (hp : p ∈ s.pieces) : s.piece? p.tag = some p := by
  cases h : s.piece? p.tag with
  | none => simpa using List.find?_eq_none.mp h p hp
  | some q =>
    obtain ⟨hq, ht⟩ := piece?_mem h
    rw [hd.only hp hq ht]

theorem updatePiece_find_other (s : State) {tag t : Nat} (hne : t ≠ tag) {f : Piece → Piece} (hf : ∀ p, (f p).tag = p.tag) :
    (s.updatePiece tag f).piece? t = s.piece? t := by
  show (s.pieces.map _).find? _ = s.pieces.find? _
  induction s.pieces with
  | nil => rfl
  | cons p l ih =>
    rw [List.map_cons, List.find?_cons, List.find?_cons, ih]
    by_cases h : p.tag = tag
    · have htag : (tag == t) = false := by simpa using hne.symm
      simp [h, hf, htag]
    · simp [h]

theorem find_filter_other {ps : List Piece} {tag t : Nat} (hne : t ≠ tag) :
    (ps.filter (·.tag != tag)).find? (·.tag == t) = ps.find? (·.tag == t) := by
  induction ps with
  | nil => rfl
  | cons p l ih =>
    rw [List.filter_cons]
    by_cases h : p.tag = tag
    · have htag : (tag == t) = false := by simpa using hne.symm
      simp [h, ih, htag]
    · simp [h, ih, List.find?_cons]

theorem removePiece_find_other (s : State) {tag t : Nat} (hne : t ≠ tag) : (s.removePiece tag).piece? t = s.piece? t := by
  unfold State.piece?
  rw [removePiece_pieces, find_filter_other hne]

theorem finalize_find_other (s : State) {tag t : Nat} (hne : t ≠ tag) (d : Disposition) : (s.finalize tag d).piece? t = s.piece? t := by
  have hended : (s.updatePiece tag (·.ended d)).piece? t = s.piece? t := updatePiece_find_other s hne fun _ => rfl
  cases h : s.piece? tag with
  | none => simp [State.finalize, h]
  | some p =>
    rw [finalize_eq h, reportEnd_eq]
    split
    · rw [removePiece_find_other _ hne, reported_piece?, hended]
    · rw [reported_piece?, hended]

theorem finalize_mem_other {s : State} (hd : s.TagsDistinct) {tag : Nat} {p : Piece} (hp : p ∈ s.pieces) (hne : p.tag ≠ tag) (d : Disposition) :
    p ∈ (s.finalize tag d).pieces := by
  have h := finalize_find_other s hne d
  rw [hd.found hp] at h
  exact (piece?_mem h).1

theorem finalize_listsSafe {s : State} (h : s.ListsSafe) (tag : Nat) (d : Disposition) : (s.finalize tag d).ListsSafe :=
  (finalize_reach (Q := False) s tag d False.elim).keeps (fun _ hc => hc.listsSafe) h

/-- The end of a piece makes no job and changes the slot and the id of none. -/
theorem Reach.job_keys {s t : State} (h : Reach False pieceEffects s t) : ∀ j ∈ t.jobs, ∃ i ∈ s.jobs, i.key = j.key := by
  refine h.keeps (P := fun u => ∀ j ∈ u.jobs, ∃ i ∈ s.jobs, i.key = j.key) (fun {e u v} he hc hu => ?_) fun j hj => ⟨j, hj, rfl⟩
  cases hc with
  | jobs _ f hk =>
    intro j hj
    obtain ⟨i, hi, rfl⟩ := List.mem_map.mp hj
    exact hk i ▸ hu i hi
  | leave _ tag p =>
    intro j hj
    have hj : j ∈ releaseJob p.job u.jobs := hj
    unfold releaseJob at hj
    split at hj
    · exact hu j hj
    next slot _ =>
      have hat : j ∈ atSlot slot Job.released u.jobs := by
        unfold dropDone at hj
        split at hj
        · exact hj
        · split at hj
          · exact (List.mem_filter.mp hj).1
          · exact hj
      obtain ⟨i, hi | hi⟩ := mem_atSlot hat
      · exact hi.2.2 ▸ hu i hi.1
      · exact hi.2.2 ▸ hu i hi.1
  | pieces => exact hu
  | lineRecord => exact hu
  | notice => exact hu
  | _ => simp at he

theorem job?_some_of_slot {s : State} {slot : Nat} (h : slot ∈ s.jobs.map (·.slot)) : ∃ j ∈ s.jobs, j.slot = slot ∧ s.job? slot = some j := by
  cases hj : s.job? slot with
  | none =>
    obtain ⟨i, hi, rfl⟩ := List.mem_map.mp h
    simpa using List.find?_eq_none.mp hj i hi
  | some j => exact ⟨j, List.mem_of_find?_eq_some hj, by simpa using List.find?_some hj, rfl⟩

theorem State.ListsSafe.job_only {s : State} (h : s.ListsSafe) {i j : Job} (hi : i ∈ s.jobs) (hj : j ∈ s.jobs) (he : i.slot = j.slot) : i = j :=
  List.inj_on_of_nodup_map h.slots hi hj he

/-- A record that stays keeps its job, by id: the job holds the record, so it is not done (R144). -/
theorem jobOf_id_of_reach {s t : State} (hs : s.ListsSafe) (ht : t.ListsSafe) (h : Reach False pieceEffects s t) {p : Piece}
    (hp : p ∈ s.pieces) (hp' : p ∈ t.pieces) : (t.jobOf p).map (·.values.id) = (s.jobOf p).map (·.values.id) := by
  unfold State.jobOf
  cases hj : p.job with
  | none => rfl
  | some slot =>
    obtain ⟨i, hi, hislot, hifound⟩ := job?_some_of_slot (hs.referred slot (List.mem_map.mpr ⟨p, hp, hj⟩))
    obtain ⟨j, hjmem, hjslot, hjfound⟩ := job?_some_of_slot (ht.referred slot (List.mem_map.mpr ⟨p, hp', hj⟩))
    obtain ⟨k, hk, hkey⟩ := h.job_keys j hjmem
    obtain ⟨hkslot, hkid⟩ := Prod.ext_iff.mp hkey
    obtain rfl : k = i := hs.job_only hk hi (hkslot.trans (hjslot.trans hislot.symm))
    simp only [Option.bind_some, hifound, hjfound, Option.map_some]
    exact congrArg some hkid.symm

/-! ### Pieces that end one after another -/

/-- The pieces end in order, each with the same disposition. -/
def State.finalizeAll (s : State) (d : Disposition) (tags : List Nat) : State := tags.foldl (fun s t => s.finalize t d) s

section
variable {d : Disposition}

theorem finalizeAll_cons (s : State) (t : Nat) (l : List Nat) : s.finalizeAll d (t :: l) = (s.finalize t d).finalizeAll d l := rfl

theorem finalizeAll_reach (s : State) (l : List Nat) : Reach False pieceEffects s (s.finalizeAll d l) :=
  foldl_finalize_reach l d s False.elim

theorem finalizeAll_find_other (s : State) {l : List Nat} {t : Nat} (ht : t ∉ l) : (s.finalizeAll d l).piece? t = s.piece? t := by
  induction l generalizing s with
  | nil => rfl
  | cons a l ih =>
    obtain ⟨hne, hl⟩ := not_or.mp (mt List.mem_cons.mpr ht)
    rw [finalizeAll_cons, ih _ hl, finalize_find_other s hne]

theorem finalizeAll_mem_other {s : State} (hd : s.TagsDistinct) {l : List Nat} {p : Piece} (hp : p ∈ s.pieces) (ht : p.tag ∉ l) :
    p ∈ (s.finalizeAll d l).pieces := by
  have h := finalizeAll_find_other (d := d) s ht
  rw [hd.found hp] at h
  exact (piece?_mem h).1

/-- Each of the pieces holds its disposition, or has left the list. -/
theorem finalizeAll_found {s : State} {l : List Piece} (hl : (l.map (·.tag)).Nodup) (hf : ∀ p ∈ l, s.piece? p.tag = some p) {p : Piece}
    (hp : p ∈ l) :
    ((p.flags.exited || p.flags.removeRequested) = false → (s.finalizeAll d (l.map (·.tag))).piece? p.tag = some (p.ended d)) ∧
      ((p.flags.exited || p.flags.removeRequested) = true → (s.finalizeAll d (l.map (·.tag))).piece? p.tag = none) := by
  induction l generalizing s with
  | nil => cases hp
  | cons q l ih =>
    obtain ⟨hq, hnodup⟩ := List.nodup_cons.mp hl
    rw [List.map_cons, finalizeAll_cons]
    rcases List.mem_cons.mp hp with rfl | hp
    · rw [finalizeAll_find_other _ hq]
      have h := hf p List.mem_cons_self
      exact ⟨fun hflags => finalize_staying_found h hflags d, fun hflags => finalize_leaving_gone h hflags d⟩
    · refine ih hnodup (fun x hx => ?_) hp
      have hne : x.tag ≠ q.tag := fun e => hq (List.mem_map.mpr ⟨x, hx, e⟩)
      rw [finalize_find_other s hne]
      exact hf x (List.mem_cons_of_mem _ hx)

/-- Their DISPOSITIONs go to the link in order, each with the id of the job as it stood before the first. -/
theorem finalizeAll_dispositions {s : State} (hs : s.ListsSafe) {l : List Piece} (hl : (l.map (·.tag)).Nodup)
    (hf : ∀ p ∈ l, s.piece? p.tag = some p) :
    (s.finalizeAll d (l.map (·.tag))).dispositions = s.dispositions ++ l.map fun p => p.report ((s.jobOf p).map (·.values.id)) d := by
  induction l generalizing s with
  | nil => exact (List.append_nil _).symm
  | cons q l ih =>
    obtain ⟨hq, hnodup⟩ := List.nodup_cons.mp hl
    have hne : ∀ x ∈ l, x.tag ≠ q.tag := fun x hx e => hq (List.mem_map.mpr ⟨x, hx, e⟩)
    have hmem : ∀ x ∈ l, x ∈ s.pieces := fun x hx => (piece?_mem (hf x (List.mem_cons_of_mem _ hx))).1
    have hsafe := finalize_listsSafe hs q.tag d
    have hids : (l.map fun p => p.report (((s.finalize q.tag d).jobOf p).map (·.values.id)) d) =
        l.map fun p => p.report ((s.jobOf p).map (·.values.id)) d :=
      List.map_congr_left fun x hx => by
        rw [jobOf_id_of_reach hs hsafe (finalize_reach s q.tag d False.elim) (hmem x hx) (finalize_mem_other hs.tags (hmem x hx) (hne x hx) d)]
    rw [List.map_cons, finalizeAll_cons, ih hsafe hnodup, hids, finalize_dispositions (hf q List.mem_cons_self) d]
    · simp
    · intro x hx
      rw [finalize_find_other s (hne x hx)]
      exact hf x (List.mem_cons_of_mem _ hx)

/-- What is left unsettled is none of them, and stood before. -/
theorem finalizeAll_settles {s : State} (hd : s.TagsDistinct) {l : List Nat} {q : Piece} (hq : q ∈ (s.finalizeAll d l).pieces)
    (hs : q.state.settled = false) : q ∈ s.pieces ∧ q.tag ∉ l := by
  induction l generalizing s with
  | nil => exact ⟨hq, List.not_mem_nil⟩
  | cons t l ih =>
    have hd' : (s.finalize t d).TagsDistinct := (finalize_reach (Q := False) s t d False.elim).distinct hd
    obtain ⟨hmem, hnot⟩ := ih hd' hq
    obtain ⟨hmem', hne⟩ := finalize_settles hd' hmem hs
    exact ⟨hmem', fun h => (List.mem_cons.mp h).elim hne hnot⟩

end

/-! ### The records ahead of a tag's (R15) -/

theorem ahead_of_split {s : State} {tag : Nat} {p : Piece} {pre post : List Piece} (h : s.pieces = pre ++ p :: post) (ht : p.tag = tag)
    (hpre : ∀ q ∈ pre, q.tag ≠ tag) : s.ahead tag = pre := by
  unfold State.ahead
  rw [h, List.takeWhile_append_of_pos fun q hq => by simpa using hpre q hq]
  simp [ht]

theorem ahead_mem {s : State} {tag : Nat} {p : Piece} (h : p ∈ s.ahead tag) : p ∈ s.pieces ∧ p.tag ≠ tag :=
  ⟨(List.takeWhile_prefix _).subset h, by simpa using List.mem_takeWhile_imp h⟩

theorem ahead_tags (s : State) (tag : Nat) : (s.ahead tag).map (·.tag) = (s.pieces.map (·.tag)).takeWhile (· != tag) := by
  rw [List.takeWhile_map]
  rfl

/-- When some of the tags leave and `a` does not, the tags ahead of it are some of those that were. -/
theorem takeWhile_sublist {a : Nat} {l l' : List Nat} (h : l'.Sublist l) (hl : l.Nodup) (ha : a ∈ l → a ∈ l') :
    (l'.takeWhile (· != a)).Sublist (l.takeWhile (· != a)) := by
  induction h with
  | slnil => exact List.Sublist.refl _
  | @cons l' l b hsub ih =>
    obtain ⟨hb, hnodup⟩ := List.nodup_cons.mp hl
    have hne : b ≠ a := by
      rintro rfl
      exact hb (hsub.subset (ha List.mem_cons_self))
    rw [List.takeWhile_cons_of_pos (by simpa using hne)]
    exact (ih hnodup fun h => ha (List.mem_cons_of_mem _ h)).cons b
  | @cons_cons l' l b hsub ih =>
    obtain ⟨hb, hnodup⟩ := List.nodup_cons.mp hl
    by_cases hne : b = a
    · simp [hne]
    · rw [List.takeWhile_cons_of_pos (by simpa using hne), List.takeWhile_cons_of_pos (by simpa using hne)]
      refine (ih hnodup fun h => ?_).cons_cons b
      exact (List.mem_cons.mp (ha (List.mem_cons_of_mem _ h))).resolve_left fun e => hne e.symm

/-- The pieces that the sweep of a GATE ends (R15). -/
def State.swept (s : State) (tag : Nat) : List Piece := (s.ahead tag).filter fun p => !p.state.settled

theorem swept_mem {s : State} {tag : Nat} {p : Piece} (h : p ∈ s.swept tag) : p ∈ s.ahead tag ∧ p.state.settled = false := by
  simpa [State.swept] using h

theorem sweep_eq (s : State) (tag : Nat) : s.sweep tag = s.finalizeAll (.diverted .gateMissed) ((s.swept tag).map (·.tag)) := rfl

section
variable {s : State} {tag : Nat}

theorem swept_tags_nodup (hd : s.TagsDistinct) : ((s.swept tag).map (·.tag)).Nodup :=
  hd.sublist ((List.filter_sublist.trans (List.takeWhile_prefix _).sublist).map _)

theorem swept_found (hd : s.TagsDistinct) : ∀ p ∈ s.swept tag, s.piece? p.tag = some p := fun _ hp =>
  hd.found (ahead_mem (swept_mem hp).1).1

theorem not_mem_swept_tags : tag ∉ (s.swept tag).map (·.tag) := by
  intro h
  obtain ⟨p, hp, ht⟩ := List.mem_map.mp h
  exact (ahead_mem (swept_mem hp).1).2 ht

/-- The record that the GATE names stays as it was. -/
theorem sweep_find (s : State) (tag : Nat) : (s.sweep tag).piece? tag = s.piece? tag := finalizeAll_find_other s not_mem_swept_tags

theorem sweep_settled_mem (hd : s.TagsDistinct) {p : Piece} (hp : p ∈ s.pieces) (hs : p.state.settled = true) : p ∈ (s.sweep tag).pieces := by
  refine finalizeAll_mem_other hd hp fun h => ?_
  obtain ⟨q, hq, ht⟩ := List.mem_map.mp h
  obtain ⟨hahead, hunsettled⟩ := swept_mem hq
  obtain rfl := hd.only hp (ahead_mem hahead).1 ht
  simp [hs] at hunsettled

theorem piece?_isSome_iff (s : State) (t : Nat) : (s.piece? t).isSome = true ↔ t ∈ s.pieces.map (·.tag) := by
  simp [State.piece?, List.find?_isSome]

/-- After the sweep every record ahead is settled. -/
theorem sweep_ahead_settled (hd : s.TagsDistinct) : ∀ p ∈ (s.sweep tag).ahead tag, p.state.settled = true := by
  intro q hq
  by_contra hunsettled
  rw [Bool.not_eq_true] at hunsettled
  obtain ⟨hmem, hnot⟩ := finalizeAll_settles hd (ahead_mem hq).1 hunsettled
  have hsub : (((s.sweep tag).ahead tag).map (·.tag)).Sublist ((s.ahead tag).map (·.tag)) := by
    rw [ahead_tags, ahead_tags]
    refine takeWhile_sublist ((finalizeAll_reach s _).tags (by decide)) hd fun h => ?_
    rw [← piece?_isSome_iff] at h ⊢
    exact (sweep_find s tag).symm ▸ h
  obtain ⟨x, hx, hxt⟩ := List.mem_map.mp (hsub.subset (List.mem_map.mpr ⟨q, hq, rfl⟩))
  obtain rfl := hd.only hmem (ahead_mem hx).1 hxt
  exact hnot (List.mem_map.mpr ⟨x, by simp [State.swept, hx, hunsettled], rfl⟩)

end

/-- Settles O26: the sweep ends the unsettled records ahead one after another; the rest by what ends leave. -/
theorem sweepSettlesAllAhead : Obligations.SweepSettlesAllAhead := by
  refine ⟨fun tag p pre post s => ahead_of_split, fun tag s hs => ⟨rfl, ?_, fun p hp => ?_, sweep_ahead_settled hs.tags, sweep_find s tag,
    fun p hp hst => sweep_settled_mem hs.tags hp hst⟩⟩
  · have h := finalizeAll_dispositions (d := .diverted .gateMissed) hs (swept_tags_nodup hs.tags) (swept_found (tag := tag) hs.tags)
    rw [← sweep_eq, dispositions_eq, dispositions_eq] at h
    exact h
  · exact finalizeAll_found (swept_tags_nodup hs.tags) (swept_found hs.tags) hp

end Sys2Proof.Machine

/-! PROOFS. GATE (O27) and ENTER (O21). -/

namespace Sys2Proof.Machine

/-! ### The first unmet condition (R118) -/

theorem firstUnmet_of_gateReason {s : State} {r : DivertReason} (h : s.franking.gateReason = some r) (p : Piece) :
    s.firstUnmet p = some (.reason r) := by
  simp [State.firstUnmet, h]

/-- In RUNNING the conditions are those of R118 from the second on. -/
theorem firstUnmet_running {s : State} (h : s.franking = .running) (p : Piece) :
    s.firstUnmet p =
      if ¬s.mailingDate.isSome = true then some (.reason .noDate)
      else if ¬∀ q ∈ s.ahead p.tag, q.state.settled = true then some .beltOrder
      else if ¬s.printer = .ready then some (.reason .printerNotReady)
      else if ¬s.orders.length + (if s.slot.isSome then 1 else 0) < s.settings.maxOutstanding then some (.reason .printBacklog)
      else if ¬p.postage ≤ s.accounts.d then some (.reason .fundsShort)
      else if s.slot.isSome = true then some .inFlight
      else none := by
  have hprinter : s.printer = .notReady ↔ ¬s.printer = .ready := by cases s.printer <;> simp
  have hslot : s.slot.isSome.toNat = if s.slot.isSome then 1 else 0 := by cases s.slot <;> rfl
  unfold State.firstUnmet
  simp [h, FrankingState.gateReason, hprinter, hslot]

/-! ### The first missing input (R16) and the estimate guard (R39) -/

theorem missingInput_weight {i : RatingInputs} {zone : ZoneMode} (h : ¬∃ w, i.weight = some w ∧ w.quality ≠ .fault) :
    missingInput i zone = some .noWeight := by
  cases hw : i.weight with
  | none => simp [missingInput, hw]
  | some w =>
    have hq : w.quality = .fault := by_contra fun hq => h ⟨w, hw, hq⟩
    simp [missingInput, hw, hq]

theorem missingInput_dimension {i : RatingInputs} {zone : ZoneMode} {w : Weight} (hw : i.weight = some w) (hq : w.quality ≠ .fault)
    (hd : ¬i.dimension.isSome = true) : missingInput i zone = some .noDimension := by
  simp_all [missingInput]

theorem missingInput_destination {i : RatingInputs} {zone : ZoneMode} {w : Weight} (hw : i.weight = some w) (hq : w.quality ≠ .fault)
    (hd : i.dimension.isSome = true) (hz : ¬(zone = .read → i.destination.isSome = true)) : missingInput i zone = some .noDestination := by
  obtain ⟨hread, hnone⟩ := Classical.not_imp.mp hz
  simp_all [missingInput, Option.isSome_iff_ne_none]

theorem guardPasses_iff (w m g upper : Nat) : guardPasses w m g upper = true ↔ 0 < g ∧ (g : Int) ≤ 10 * upper - (w + m) := by
  simp only [guardPasses, Bool.and_eq_true, decide_eq_true_eq]
  omega

theorem guard_eq {s : State} {p : Piece} {w : Weight} {r : RatingRecord} {j : Job} (hw : p.weight = some w) (hr : p.rating = some r)
    (hj : s.jobOf p = some j) : s.guard p = guardPasses w.reading j.values.margin j.values.guardBand (s.guardBreakpoint r) := by
  simp [State.guard, hw, hr, hj]

theorem guardBreakpoint_eq {s : State} {r : RatingRecord} {id : BankId} {tariffId product band : Nat} (hb : r.bank = some (id, tariffId))
    (hp : r.ratedProduct = some product) (hi : r.bandIndex = some band) :
    s.guardBreakpoint r =
      (((s.banks.get id).bandTable ((s.banks.get id).product product).bandTable)[band - 1]?).getD 0 := by
  simp [State.guardBreakpoint, hb, hp, hi]

/-- A guard band is kept only below a breakpoint that the record names, for none is above 0. -/
theorem guardBreakpoint_some {s : State} {r : RatingRecord} (h : s.guardBreakpoint r ≠ 0) :
    ∃ id tariffId product band upper, r.bank = some (id, tariffId) ∧ r.ratedProduct = some product ∧ r.bandIndex = some band ∧
      ((s.banks.get id).bandTable ((s.banks.get id).product product).bandTable)[band - 1]? = some upper ∧ s.guardBreakpoint r = upper := by
  cases hb : r.bank with
  | none => simp [State.guardBreakpoint, hb] at h
  | some x =>
    cases hp : r.ratedProduct with
    | none => simp [State.guardBreakpoint, hb, hp] at h
    | some product =>
      cases hi : r.bandIndex with
      | none => simp [State.guardBreakpoint, hb, hp, hi] at h
      | some band =>
        have heq := guardBreakpoint_eq (s := s) hb hp hi
        cases hu : ((s.banks.get x.1).bandTable ((s.banks.get x.1).product product).bandTable)[band - 1]? with
        | none => simp [heq, hu] at h
        | some upper => exact ⟨x.1, x.2, product, band, upper, rfl, rfl, rfl, hu, by simp [heq, hu]⟩

theorem guard_iff (s : State) (p : Piece) :
    s.guard p = true ↔
      ∃ w r j id tariffId product band upper, p.weight = some w ∧ p.rating = some r ∧ s.jobOf p = some j ∧ r.bank = some (id, tariffId) ∧
        r.ratedProduct = some product ∧ r.bandIndex = some band ∧
        ((s.banks.get id).bandTable ((s.banks.get id).product product).bandTable)[band - 1]? = some upper ∧
        0 < j.values.guardBand ∧ (j.values.guardBand : Int) ≤ 10 * upper - (w.reading + j.values.margin) := by
  constructor
  · intro h
    cases hw : p.weight with
    | none => simp [State.guard, hw] at h
    | some w =>
      cases hr : p.rating with
      | none => simp [State.guard, hw, hr] at h
      | some r =>
        cases hj : s.jobOf p with
        | none => simp [State.guard, hw, hr, hj] at h
        | some j =>
          rw [guard_eq hw hr hj, guardPasses_iff] at h
          obtain ⟨hpos, hle⟩ := h
          obtain ⟨id, tariffId, product, band, upper, hb, hp, hi, hu, heq⟩ := guardBreakpoint_some (s := s) (r := r) (by omega)
          exact ⟨w, r, j, id, tariffId, product, band, upper, rfl, rfl, rfl, hb, hp, hi, hu, hpos, heq ▸ hle⟩
  · rintro ⟨w, r, j, id, tariffId, product, band, upper, hw, hr, hj, hb, hp, hi, hu, hpos, hle⟩
    rw [guard_eq hw hr hj, guardPasses_iff, guardBreakpoint_eq hb hp hi, hu]
    exact ⟨hpos, hle⟩

/-! ### The gate decision (R16 to R18) -/

/-- A piece that has passed its gate. -/
def Piece.passed (p : Piece) : Piece := { p with flags := { p.flags with gatePassed := true } }

/-- A PROVISIONAL piece whose estimate stands (R18). -/
def Piece.ratedByEstimate (p : Piece) : Piece := { p with state := .rated, flags := { p.flags with estimateCommitted := true } }

def State.pass (s : State) (tag : Nat) : State := s.updatePiece tag Piece.passed

/-- The attempt at a commit by the first condition that its piece does not meet (R17, R121). -/
def State.attempt (s : State) (tag : Nat) (p : Piece) : State :=
  match s.firstUnmet p with
  | none => s.startCommit p
  | some .inFlight => s.updatePiece tag fun p => { p with flags := { p.flags with gateCommitted := true } }
  | some (.reason r) => s.finalize tag (.diverted r)
  | some .beltOrder => s

theorem attemptAtGate_found {s : State} {tag : Nat} {p : Piece} (h : s.piece? tag = some p) : s.attemptAtGate tag = s.attempt tag p := by
  unfold State.attemptAtGate
  rw [h]
  rfl

section
variable {s : State} {tag : Nat} {p : Piece}

theorem pass_found (h : s.piece? tag = some p) : (s.pass tag).piece? tag = some p.passed := by
  rw [State.pass, updatePiece_find (f := Piece.passed) fun _ => rfl, h]
  rfl

/-- The decision on a piece that has passed its gate, by its state. -/
def State.decision (s : State) (tag : Nat) (p : Piece) : State :=
  match p.state with
  | .opened =>
    match (s.jobOf p).bind fun j => missingInput p.inputs j.values.zoneMode with
    | some r => s.finalize tag (.diverted r)
    | none => s
  | .provisional =>
    if s.guard p then (s.updatePiece tag Piece.ratedByEstimate).attemptAtGate tag else s.finalize tag (.diverted .weightUnsettled)
  | .rated => s.attemptAtGate tag
  | .committing => s
  | .committed => s
  | .final => s

theorem gateDecision_found (h : s.piece? tag = some p) : s.gateDecision tag = (s.pass tag).decision tag p.passed := by
  have hpass : (s.updatePiece tag fun p => { p with flags := { p.flags with gatePassed := true } }).piece? tag = some p.passed := pass_found h
  unfold State.gateDecision
  dsimp only
  rw [hpass]
  rfl

theorem gateDecision_settled (h : s.piece? tag = some p) (hs : p.state.settled = true) : s.gateDecision tag = s.pass tag := by
  have hs' : p.passed.state.settled = true := hs
  rw [gateDecision_found h]
  cases hst : p.passed.state <;> simp_all [State.decision, PieceState.settled]

theorem gateDecision_opened {j : Job} {r : DivertReason} (h : s.piece? tag = some p) (hs : p.state = .opened) (hj : s.jobOf p = some j)
    (hr : missingInput p.inputs j.values.zoneMode = some r) : s.gateDecision tag = (s.pass tag).finalize tag (.diverted r) := by
  have hs' : p.passed.state = .opened := hs
  have hj' : (s.pass tag).jobOf p.passed = some j := hj
  have hr' : missingInput p.passed.inputs j.values.zoneMode = some r := hr
  rw [gateDecision_found h]
  simp [State.decision, hs', hj', hr']

theorem gateDecision_unguarded (h : s.piece? tag = some p) (hs : p.state = .provisional) (hg : s.guard p = false) :
    s.gateDecision tag = (s.pass tag).finalize tag (.diverted .weightUnsettled) := by
  have hs' : p.passed.state = .provisional := hs
  have hg' : (s.pass tag).guard p.passed = false := hg
  rw [gateDecision_found h]
  simp [State.decision, hs', hg']

theorem gateDecision_guarded (h : s.piece? tag = some p) (hs : p.state = .provisional) (hg : s.guard p = true) :
    s.gateDecision tag = ((s.pass tag).updatePiece tag Piece.ratedByEstimate).attempt tag p.passed.ratedByEstimate := by
  have hrated : ((s.pass tag).updatePiece tag Piece.ratedByEstimate).piece? tag = some p.passed.ratedByEstimate := by
    rw [updatePiece_find (f := Piece.ratedByEstimate) fun _ => rfl, pass_found h]
    rfl
  have hs' : p.passed.state = .provisional := hs
  have hg' : (s.pass tag).guard p.passed = true := hg
  rw [gateDecision_found h, ← attemptAtGate_found hrated]
  simp [State.decision, hs', hg']

theorem gateDecision_rated (h : s.piece? tag = some p) (hs : p.state = .rated) : s.gateDecision tag = (s.pass tag).attempt tag p.passed := by
  have hs' : p.passed.state = .rated := hs
  rw [gateDecision_found h, ← attemptAtGate_found (pass_found h)]
  simp [State.decision, hs']

/-! ### GATE (R15, R16) -/

theorem sweep_of_settled (h : ∀ q ∈ s.ahead tag, q.state.settled = true) : s.sweep tag = s := by
  have hnone : s.swept tag = [] := List.filter_eq_nil_iff.mpr fun q hq => by simp [h q hq]
  rw [sweep_eq, hnone]
  rfl

theorem gateTells_unsettled (hs : p.state.settled = false) : s.gateTells p = true := by
  simp [State.gateTells, hs]

theorem gateTells_ahead (h : ∃ q ∈ s.ahead p.tag, q.state.settled = false) : s.gateTells p = true := by
  simp only [State.gateTells, Bool.or_eq_true, List.any_eq_true]
  exact .inr (h.imp fun q ⟨hq, hs⟩ => ⟨hq, by simp [hs]⟩)

theorem gateTells_settled (hs : p.state.settled = true) (h : ∀ q ∈ s.ahead p.tag, q.state.settled = true) : s.gateTells p = false := by
  simpa [State.gateTells, hs] using h

theorem exec_gate_tracked (hp : s.power = .on) (hf : s.franking ≠ .unconfigured) (h : s.piece? tag = some p) :
    exec (.gate tag) s =
      .next (if s.gateTells p then ((s.sweep tag).gateDecision tag).commitTest else (s.sweep tag).gateDecision tag) := by
  rw [exec_gate, taken_on hp, pieceEvent_tracked hf h]
  rfl

theorem exec_gate_told (hp : s.power = .on) (hf : s.franking ≠ .unconfigured) (h : s.piece? tag = some p) (ht : s.gateTells p = true) :
    exec (.gate tag) s = .next ((s.sweep tag).gateDecision tag).commitTest := by
  rw [exec_gate_tracked hp hf h, if_pos ht]

/-- A GATE of an unsettled piece is the sweep and then the GATE of the piece at the head of what is not settled. -/
theorem exec_gate_swept (hp : s.power = .on) (hf : s.franking ≠ .unconfigured) (hd : s.TagsDistinct) (h : s.piece? tag = some p)
    (hs : p.state.settled = false) : exec (.gate tag) s = exec (.gate tag) (s.sweep tag) := by
  have hreach : Reach False pieceEffects s (s.sweep tag) := finalizeAll_reach s _
  have hp' : (s.sweep tag).power = .on := (hreach.power_eq (by decide)).trans hp
  have hf' : (s.sweep tag).franking ≠ .unconfigured := hreach.stays_configured (by decide) hf
  have h' : (s.sweep tag).piece? tag = some p := (sweep_find s tag).trans h
  rw [exec_gate_told hp hf h (gateTells_unsettled hs), exec_gate_told hp' hf' h' (gateTells_unsettled hs),
    sweep_of_settled (sweep_ahead_settled hd)]

end

/-- Settles O27: the conditions and the inputs in their order, the guard, the gate decision by the piece's state, and GATE with and without a sweep. -/
theorem gateDecides : Obligations.GateDecides := by
  refine ⟨fun p s => ?_, fun i zone => ?_, fun p s => guard_iff s p, fun tag p s h => ⟨?_, fun hp hf => ?_⟩⟩
  · intro dated first ready room funded
    refine ⟨fun hf => firstUnmet_of_gateReason (hf ▸ rfl) p, fun hf => firstUnmet_of_gateReason (hf ▸ rfl) p,
      fun hf => firstUnmet_of_gateReason (hf ▸ rfl) p, fun hf => ?_⟩
    rw [firstUnmet_running hf]
    refine ⟨fun h1 => if_pos h1, fun h1 h2 => ?_, fun h1 h2 h3 => ?_, fun h1 h2 h3 h4 => ?_, fun h1 h2 h3 h4 h5 => ?_,
      fun h1 h2 h3 h4 h5 h6 => ?_, fun h1 h2 h3 h4 h5 h6 => ?_⟩
    · rw [if_neg (not_not_intro h1), if_pos h2]
    · rw [if_neg (not_not_intro h1), if_neg (not_not_intro h2), if_pos h3]
    · rw [if_neg (not_not_intro h1), if_neg (not_not_intro h2), if_neg (not_not_intro h3), if_pos h4]
    · rw [if_neg (not_not_intro h1), if_neg (not_not_intro h2), if_neg (not_not_intro h3), if_neg (not_not_intro h4), if_pos h5]
    · rw [if_neg (not_not_intro h1), if_neg (not_not_intro h2), if_neg (not_not_intro h3), if_neg (not_not_intro h4),
        if_neg (not_not_intro h5), if_pos h6]
    · rw [if_neg (not_not_intro h1), if_neg (not_not_intro h2), if_neg (not_not_intro h3), if_neg (not_not_intro h4),
        if_neg (not_not_intro h5), if_neg (by simp [h6])]
  · refine ⟨fun hw => missingInput_weight hw, ?_, ?_, ?_⟩
    · rintro ⟨w, hw, hq⟩ hd
      exact missingInput_dimension hw hq hd
    · rintro ⟨w, hw, hq⟩ hd hz
      exact missingInput_destination hw hq hd hz
    · rintro ⟨w, hw, hq⟩ hd hz
      exact missingInput_none hw hq hd hz
  · exact ⟨gateDecision_settled h, fun hs j r hj hr => gateDecision_opened h hs hj hr, gateDecision_unguarded h, gateDecision_guarded h,
      gateDecision_rated h⟩
  · obtain rfl : p.tag = tag := (piece?_mem h).2
    refine ⟨fun hahead => ⟨exec_gate_told hp hf h (gateTells_ahead hahead), fun hs hst => ?_, fun hs hst => exec_gate_swept hp hf hs.tags h hst⟩,
      fun hahead => ⟨fun hst => ?_, fun hst j r hj hr => ?_, fun hst hg => ?_, fun hst hg => ?_, fun hst => ?_⟩⟩
    · rw [exec_gate_told hp hf h (gateTells_ahead hahead), gateDecision_settled ((sweep_find s p.tag).trans h) hst]
      rfl
    · rw [exec_gate_tracked hp hf h, gateTells_settled hst hahead, sweep_of_settled hahead, gateDecision_settled h hst]
      rfl
    · rw [exec_gate_told hp hf h (gateTells_unsettled (by rw [hst]; rfl)), sweep_of_settled hahead, gateDecision_opened h hst hj hr]
      rfl
    · rw [exec_gate_told hp hf h (gateTells_unsettled (by rw [hst]; rfl)), sweep_of_settled hahead, gateDecision_unguarded h hst hg]
      rfl
    · rw [exec_gate_told hp hf h (gateTells_unsettled (by rw [hst]; rfl)), sweep_of_settled hahead, gateDecision_guarded h hst hg]
      rfl
    · rw [exec_gate_told hp hf h (gateTells_unsettled (by rw [hst]; rfl)), sweep_of_settled hahead, gateDecision_rated h hst]
      rfl

end Sys2Proof.Machine

/-! PROOFS. ENTER (O21). -/

namespace Sys2Proof.Machine

section
variable {s : State} {tag : Nat}

/-! ### The tests before a piece is placed (R12, R13) -/

theorem enter_full (hf : s.franking ≠ .unconfigured) (hl : Config.maxPieces ≤ s.pieces.length) : s.enter tag = s.refuseEntry tag := by
  rw [State.enter, if_neg hf, if_pos hl]

theorem enter_held {p : Piece} (hf : s.franking ≠ .unconfigured) (hl : s.pieces.length < Config.maxPieces) (h : s.piece? tag = some p) :
    s.enter tag = s.tagConflict p := by
  rw [State.enter, if_neg hf, if_neg (Nat.not_le.mpr hl), h]

theorem enter_new (hf : s.franking ≠ .unconfigured) (hl : s.pieces.length < Config.maxPieces) (h : s.piece? tag = none) : s.enter tag = s.placeEntry tag := by
  rw [State.enter, if_neg hf, if_neg (Nat.not_le.mpr hl), h]

theorem tagConflict_settled {p : Piece} (hs : p.state.settled = true) :
    s.tagConflict p =
      (s.updatePiece p.tag fun p => { p with flags := { p.flags with tagConflict := true } }).post (.divert .tagConflict) (some p.tag) [] :=
  if_pos hs

theorem tagConflict_unsettled {p : Piece} (hs : p.state.settled = false) :
    s.tagConflict p =
      ((s.updatePiece p.tag fun p => { p with flags := { p.flags with tagConflict := true } }).finalize p.tag
        (.diverted .tagConflict)).commitTest :=
  if_neg (by simp [hs])

/-! ### The job that takes the piece (R141, R142) -/

theorem makeJobCurrent_current {t : Option Nat} {j : Job} (h : s.currentJob = some j) : s.makeJobCurrent t = s := by
  simp [State.makeJobCurrent, h]

theorem makeJobCurrent_none {t : Option Nat} (hc : s.currentJob = none) (hw : s.jobs.find? (fun j => decide (j.state = .waiting)) = none) :
    s.makeJobCurrent t = s := by
  simp [State.makeJobCurrent, hc, hw]

/-- The job in a slot becomes CURRENT. -/
def State.promote (s : State) (slot : Nat) : State := s.updateJob slot fun j => { j with state := .current }

theorem makeJobCurrent_waiting {t : Option Nat} {j : Job} (hc : s.currentJob = none)
    (hw : s.jobs.find? (fun j => decide (j.state = .waiting)) = some j) : s.makeJobCurrent t = (s.promote j.slot).takeJobSwitch t := by
  simp [State.makeJobCurrent, hc, hw, State.promote]

theorem takeJobSwitch_atDate {t : Option Nat} (h : ∀ x, s.pendingSwitch = some x → x.mode = .atDate) : s.takeJobSwitch t = s := by
  unfold State.takeJobSwitch
  split
  next target hp => cases h _ hp
  all_goals rfl

theorem takeJobSwitch_atJob {t : Option Nat} {target : BankId} (h : s.pendingSwitch = some { target, mode := .atJob }) :
    s.takeJobSwitch t = s.switchTo target t := by
  simp [State.takeJobSwitch, h]

/-- With no job CURRENT, the promoted slot's job is the CURRENT one. -/
theorem promote_current {j : Job} (hc : s.currentJob = none) (hj : j ∈ s.jobs) :
    ∃ i, (s.promote j.slot).currentJob = some i ∧ i.slot = j.slot := by
  have hsome : ((s.promote j.slot).currentJob).isSome = true := by
    rw [State.currentJob, List.find?_isSome]
    exact ⟨{ j with state := .current }, List.mem_map.mpr ⟨j, hj, by simp⟩, by simp⟩
  obtain ⟨i, hi⟩ := Option.isSome_iff_exists.mp hsome
  refine ⟨i, hi, ?_⟩
  obtain ⟨x, hx, rfl⟩ := List.mem_map.mp (List.mem_of_find?_eq_some hi)
  by_cases hslot : x.slot = j.slot
  · simp [hslot]
  · have hcurrent := List.find?_some hi
    have hnot := List.find?_eq_none.mp hc x hx
    simp_all

/-! ### The piece that is placed -/

/-- A record entered under a job, whose count it raises (R142). -/
def State.place (s : State) (tag slot : Nat) : State :=
  { s.updateJob slot Job.assigned with pieces := s.pieces ++ [Piece.entered tag (some slot)] }

theorem placeEntry_of_current {j : Job} (h : (s.makeJobCurrent (some tag)).currentJob = some j) :
    s.placeEntry tag = ((s.makeJobCurrent (some tag)).place tag j.slot).passRatings (s.ratedBySwitch (s.makeJobCurrent (some tag))) := by
  simp only [State.placeEntry, h]
  rfl

theorem placeEntry_of_none (h : (s.makeJobCurrent (some tag)).currentJob = none) :
    s.placeEntry tag =
      (State.finalize { s.makeJobCurrent (some tag) with pieces := (s.makeJobCurrent (some tag)).pieces ++ [Piece.entered tag none] } tag
        (.diverted .noJob)).commitTest := by
  simp only [State.placeEntry, h]

theorem ratedBySwitch_same {t : State} (h : t.pendingSwitch = s.pendingSwitch) : s.ratedBySwitch t = [] := by
  unfold State.ratedBySwitch
  rw [h]
  cases s.pendingSwitch <;> rfl

theorem ratedBySwitch_taken {t : State} (h : s.pendingSwitch.isSome = true) (ht : t.pendingSwitch = none) :
    s.ratedBySwitch t = s.unsettled := by
  simp [State.ratedBySwitch, h, ht]

theorem passRatings_nil : s.passRatings [] = s := rfl

/-- A switch clears the pending switch and leaves which job is CURRENT (R66). -/
theorem switchTo_pendingSwitch (target : BankId) (t : Option Nat) : (s.switchTo target t).pendingSwitch = none := by
  unfold State.switchTo
  rw [(post_reach (Q := False) _ _ _ _).pendingSwitch_eq (by decide), (rateAll_reach (Q := False) _ False.elim).pendingSwitch_eq (by decide)]

/-- The slot of the CURRENT job, which is the one job that is CURRENT. -/
theorem currentJob_of_stands {slot : Nat} (h : (s.job? slot).map (·.state) = some .current)
    (hone : ∀ j ∈ s.jobs, j.state = .current → j.slot = slot) : ∃ i, s.currentJob = some i ∧ i.slot = slot := by
  obtain ⟨j, hj, hst⟩ := Option.map_eq_some_iff.mp h
  have hsome : s.currentJob.isSome = true := by
    rw [State.currentJob, List.find?_isSome]
    exact ⟨j, List.mem_of_find?_eq_some hj, by simpa using hst⟩
  obtain ⟨i, hi⟩ := Option.isSome_iff_exists.mp hsome
  exact ⟨i, hi, hone i (List.mem_of_find?_eq_some hi) (by simpa using List.find?_some hi)⟩

/-- The job promoted stays CURRENT through the switch taken with it. -/
theorem promote_switch_current {j : Job} {target : BankId} (hs : s.ListsSafe) (hc : s.currentJob = none) (hj : j ∈ s.jobs)
    (hp : s.pendingSwitch = some { target, mode := .atJob }) (t : Option Nat) :
    ∃ i, ((s.promote j.slot).switchTo target t).currentJob = some i ∧ i.slot = j.slot := by
  have hnone : ∀ x ∈ s.jobs, x.state ≠ .current := fun x hx => by simpa using List.find?_eq_none.mp hc x hx
  have hreach : Reach False switchEffects (s.promote j.slot) ((s.promote j.slot).switchTo target t) :=
    switchTo_reach t (.inr (congrArg (Option.map (·.target)) hp)) False.elim
  refine currentJob_of_stands (hreach.job_stands (by decide) ?_) (hreach.current_stands fun x hx hst => ?_)
  · rw [State.promote, job?_updateJob s j.slot (f := fun j => { j with state := .current }) fun _ => rfl]
    obtain ⟨i, -, -, hi⟩ := job?_some_of_slot (List.mem_map.mpr ⟨j, hj, rfl⟩)
    simp [hi]
  · obtain ⟨y, hy, rfl⟩ := List.mem_map.mp hx
    by_cases hslot : y.slot = j.slot
    · simp [hslot]
    · simp only [beq_iff_eq, hslot, if_false] at hst
      exact absurd hst (hnone y hy)

theorem placeEntry_current {j : Job} (h : s.currentJob = some j) : s.placeEntry tag = s.place tag j.slot := by
  have hmake := makeJobCurrent_current (t := some tag) h
  rw [placeEntry_of_current (hmake.symm ▸ h), hmake, ratedBySwitch_same rfl, passRatings_nil]

theorem placeEntry_promoted {j : Job} (hc : s.currentJob = none) (hw : s.jobs.find? (fun j => decide (j.state = .waiting)) = some j)
    (hp : ∀ x, s.pendingSwitch = some x → x.mode = .atDate) : s.placeEntry tag = (s.promote j.slot).place tag j.slot := by
  have hmake : s.makeJobCurrent (some tag) = s.promote j.slot :=
    (makeJobCurrent_waiting hc hw).trans (takeJobSwitch_atDate (s := s.promote j.slot) hp)
  obtain ⟨i, hi, hslot⟩ := promote_current hc (List.mem_of_find?_eq_some hw)
  rw [placeEntry_of_current (hmake.symm ▸ hi), hmake, hslot, ratedBySwitch_same (s := s) (t := s.promote j.slot) rfl, passRatings_nil]

theorem placeEntry_switched {j : Job} {target : BankId} (hs : s.ListsSafe) (hc : s.currentJob = none)
    (hw : s.jobs.find? (fun j => decide (j.state = .waiting)) = some j) (hp : s.pendingSwitch = some { target, mode := .atJob }) :
    s.placeEntry tag = (((s.promote j.slot).switchTo target (some tag)).place tag j.slot).passRatings s.unsettled := by
  have hmake : s.makeJobCurrent (some tag) = (s.promote j.slot).switchTo target (some tag) :=
    (makeJobCurrent_waiting hc hw).trans (takeJobSwitch_atJob (s := s.promote j.slot) hp)
  obtain ⟨i, hi, hslot⟩ := promote_switch_current hs hc (List.mem_of_find?_eq_some hw) hp (some tag)
  rw [placeEntry_of_current (hmake.symm ▸ hi), hmake, hslot, ratedBySwitch_taken (by simp [hp]) (switchTo_pendingSwitch target _)]

theorem placeEntry_jobless (hj : ∀ j ∈ s.jobs, j.state = .closed) :
    s.placeEntry tag =
      (State.finalize { s with pieces := s.pieces ++ [Piece.entered tag none] } tag (.diverted .noJob)).commitTest := by
  have hc : s.currentJob = none := List.find?_eq_none.mpr fun j h => by simp [hj j h]
  have hw : s.jobs.find? (fun j => decide (j.state = .waiting)) = none := List.find?_eq_none.mpr fun j h => by simp [hj j h]
  have hmake := makeJobCurrent_none (t := some tag) hc hw
  rw [placeEntry_of_none (hmake.symm ▸ hc), hmake]

end

/-- Settles O21: the tests of ENTER in order, then the job that takes the piece. -/
theorem enterPlacesAPiece : Obligations.EnterPlacesAPiece := by
  intro tag s hp hf fresh assigned place
  have hexec : exec (.enter tag) s = .next (s.enter tag) := by rw [exec_enter, taken_on hp]
  rw [hexec]
  refine ⟨fun hl => ?_, fun hl p h => ?_, fun hl h j hj => ?_, fun hl h hc j hw => ⟨fun hd => ?_, fun target hs hsw => ?_⟩, fun hl h hj => ?_⟩
  · rw [enter_full hf hl]
    rfl
  · obtain rfl : p.tag = tag := (piece?_mem h).2
    rw [enter_held hf hl h]
    exact ⟨fun hs => congrArg _ (tagConflict_settled hs), fun hs => congrArg _ (tagConflict_unsettled hs)⟩
  · rw [enter_new hf hl h, placeEntry_current hj]
    rfl
  · rw [enter_new hf hl h, placeEntry_promoted hc hw hd]
    rfl
  · rw [enter_new hf hl h, placeEntry_switched hs hc hw hsw]
    rfl
  · rw [enter_new hf hl h, placeEntry_jobless hj]
    rfl

end Sys2Proof.Machine

/-! PROOFS. The arithmetic of a rating (O32) and the indexed stores (O33). -/

namespace Sys2Proof.Machine

/-! ### The effective weight (R74) and the band (R78) -/

theorem effectiveWeight_bounds (w m : Nat) : w + m ≤ 10 * effectiveWeight w m ∧ 10 * effectiveWeight w m < w + m + 10 := by
  unfold effectiveWeight
  omega

theorem bandOf_eq (bs : List Nat) (weff : Nat) : bandOf bs weff = (bs.findIdx? fun b => decide (weff ≤ b)).map (· + 1) := by
  induction bs with
  | nil => rfl
  | cons b bs ih =>
    rw [bandOf, List.findIdx?_cons, ih]
    by_cases h : weff ≤ b <;> simp [h]

/-- The band is the first whose breakpoint is not below the weight. -/
theorem bandOf_some_iff (bs : List Nat) (weff i : Nat) :
    bandOf bs weff = some i ↔ 1 ≤ i ∧ (∃ b, bs[i - 1]? = some b ∧ weff ≤ b) ∧ ∀ k b, k < i - 1 → bs[k]? = some b → b < weff := by
  rw [bandOf_eq, Option.map_eq_some_iff]
  constructor
  · rintro ⟨k, hk, rfl⟩
    obtain ⟨hlt, hhit, hmiss⟩ := List.findIdx?_eq_some_iff_getElem.mp hk
    refine ⟨Nat.le_add_left 1 k, ⟨bs[k], by simp [hlt], by simpa using hhit⟩, fun m b hm hb => ?_⟩
    obtain ⟨hml, rfl⟩ := List.getElem?_eq_some_iff.mp hb
    simpa using hmiss m (by omega)
  · rintro ⟨hi, ⟨b, hb, hle⟩, hmiss⟩
    obtain ⟨hlt, rfl⟩ := List.getElem?_eq_some_iff.mp hb
    refine ⟨i - 1, List.findIdx?_eq_some_iff_getElem.mpr ⟨hlt, by simpa using hle, fun k hk => ?_⟩, by omega⟩
    simpa using hmiss k _ hk (List.getElem?_eq_getElem (by omega))

theorem bandOf_none_iff (bs : List Nat) (weff : Nat) : bandOf bs weff = none ↔ ∀ b ∈ bs, b < weff := by
  simp [bandOf_eq, List.findIdx?_eq_none_iff]

/-! ### Rounding to the step (R85, R86) -/

/-- The quotient by the step, back at the scale of the sum. -/
theorem step_quotient_bounds {q : Nat} (hq : 0 < q) (x : Nat) :
    1000 * (x / (1000 * q) * q) ≤ x ∧ x < 1000 * (x / (1000 * q) * q) + 1000 * q := by
  have hassoc : 1000 * (x / (1000 * q) * q) = x / (1000 * q) * (1000 * q) := by ring
  rw [hassoc]
  exact ⟨Nat.div_mul_le_self x _, Nat.lt_div_mul_add (by omega)⟩

theorem step_dvd_roundSum (mode : RoundingMode) (q s : Nat) : q ∣ roundSum mode q s := by
  cases mode <;> exact Nat.dvd_mul_left _ _

theorem roundSum_down_bounds {q : Nat} (hq : 0 < q) (s : Nat) :
    1000 * roundSum .down q s ≤ s ∧ s < 1000 * roundSum .down q s + 1000 * q := step_quotient_bounds hq s

theorem roundSum_up_bounds {q : Nat} (hq : 0 < q) (s : Nat) :
    s ≤ 1000 * roundSum .up q s ∧ 1000 * roundSum .up q s < s + 1000 * q := by
  have h := step_quotient_bounds hq (s + (1000 * q - 1))
  simp only [roundSum]
  omega

theorem roundSum_nearest_bounds {q : Nat} (hq : 0 < q) (s : Nat) :
    1000 * roundSum .nearest q s ≤ s + 500 * q ∧ s + 500 * q < 1000 * roundSum .nearest q s + 1000 * q := step_quotient_bounds hq (s + 500 * q)

theorem isRounded_iff (q s : Nat) : isRounded q s = true ↔ ¬1000 * q ∣ s := by
  simp [isRounded, Nat.dvd_iff_mod_eq_zero]

/-- A sum that the step divides is met by every mode. -/
theorem roundSum_exact {q : Nat} (hq : 0 < q) {s : Nat} (h : 1000 * q ∣ s) (mode : RoundingMode) : 1000 * roundSum mode q s = s := by
  obtain ⟨c, rfl⟩ := h
  have hu : 0 < 1000 * q := by omega
  have hquotient : ∀ r, r < 1000 * q → 1000 * ((1000 * q * c + r) / (1000 * q) * q) = 1000 * q * c := by
    intro r hr
    rw [Nat.mul_add_div hu, Nat.div_eq_of_lt hr]
    ring
  cases mode with
  | down => exact hquotient 0 hu
  | up => exact hquotient _ (by omega)
  | nearest => exact hquotient _ (by omega)

/-- Settles O32: the least gram, the first band, and the multiple of the step of each mode. -/
theorem weightBandAndRounding : Obligations.WeightBandAndRounding := by
  refine ⟨effectiveWeight_bounds, fun w m hw hm => ?_, bandOf_some_iff, bandOf_none_iff, fun q s hq => ⟨fun mode => step_dvd_roundSum mode q s,
    roundSum_down_bounds hq s, roundSum_up_bounds hq s, roundSum_nearest_bounds hq s, isRounded_iff q s, fun h mode => ?_⟩⟩
  · have h := effectiveWeight_bounds w m
    omega
  · refine roundSum_exact hq (not_not.mp fun hnot => ?_) mode
    rw [(isRounded_iff q s).mpr hnot] at h
    cases h

/-! ### The indexed stores of a bank (R51, R53, R57, R59) -/

theorem flatIndex_coordinates {t b z : Nat} (ht : t ≤ 7) (hb : 1 ≤ b) (hb' : b ≤ 24) (hz : z ≤ 7) :
    flatIndex t b z < 1536 ∧ flatIndex t b z / 192 = t ∧ flatIndex t b z % 192 / 8 + 1 = b ∧ flatIndex t b z % 8 = z := by
  unfold flatIndex
  omega

theorem flatIndex_of_index (f : Nat) : flatIndex (f / 192) (f % 192 / 8 + 1) (f % 8) = f := by
  unfold flatIndex
  omega

theorem cleared_zoneMap (st : BankState) (tid m : Nat) : (Bank.cleared st tid).zoneMap m = { entries := [], written := false } := by
  by_cases hm : m < 4 <;> simp [Bank.zoneMap, Bank.cleared, hm]

/-- A run is read where it was written, and the rest of the store elsewhere. -/
theorem get_setRun_eq {dflt : Nat} {t : Table} (ht : Table.wf dflt t) (start : Nat) (values : List Nat) (i : Nat) :
    Table.get dflt (Table.setRun dflt t start values) i =
      if start ≤ i then (values[i - start]?).getD (Table.get dflt t i) else Table.get dflt t i := by
  rw [Table.get_setRun ht]
  by_cases hs : start ≤ i
  · by_cases hl : i < start + values.length
    · have hlt : i - start < values.length := by omega
      simp [hs, hl, hlt]
    · have hge : values.length ≤ i - start := by omega
      simp [hs, hl, hge]
  · simp [hs]

/-- Settles O33: the flat index by its quotients, the cleared bank, and the runs read back. -/
theorem tablesReadBack : Obligations.TablesReadBack := by
  refine ⟨fun t b z => flatIndex_coordinates, fun f _ => flatIndex_of_index f, fun st tid f m d => ⟨rfl, ?_⟩,
    fun dflt t start values ht => ⟨Table.setRun_wf ht start values, get_setRun_eq ht start values⟩⟩
  rw [cleared_zoneMap]
  rfl

end Sys2Proof.Machine

/-! PROOFS. Loading a bank (O34 to O37). -/

namespace Sys2Proof.Machine

/-! ### TABLE_BEGIN (R53, R54) -/

theorem BankId.ofCode_none {bank : Nat} (h : 2 ≤ bank) : BankId.ofCode bank = none := by
  rcases bank with _ | _ | bank
  · omega
  · omega
  · rfl

theorem exec_tableBegin_of_takes {h : ReqHead} {s : State} (ht : s.Takes h .tableBegin) (bank tid : Nat) :
    exec (.tableBegin h bank tid) s =
      .next (match BankId.ofCode bank with
        | none => s.refuse h.number RequestKind.tableBegin.code .badValue
        | some id =>
          if (s.banks.get id).state = .active then s.refuse h.number RequestKind.tableBegin.code .bankActive
          else if (s.banks.get id.other).state = .loading then s.refuse h.number RequestKind.tableBegin.code .busy
          else (s.beginLoad id tid).accept h.number .tableBegin (.tableBegun (decide (s.pendingSwitch.map (·.target) = some id)))) :=
  taken_request ht _

/-- Settles O34: the tests of TABLE_BEGIN in order, then the load's beginning. -/
theorem tableBeginStartsALoad : Obligations.TableBeginStartsALoad := by
  refine fun h bank tid s ht => ⟨fun hb => ?_, fun id hid => ⟨fun ha => ?_, fun ha ho => ?_, fun ha ho => ?_⟩⟩
  · rw [exec_tableBegin_of_takes ht, BankId.ofCode_none hb]
    rfl
  · rw [exec_tableBegin_of_takes ht, hid]
    exact congrArg _ (if_pos ha)
  · rw [exec_tableBegin_of_takes ht, hid]
    exact congrArg _ ((if_neg ha).trans (if_pos ho))
  · rw [exec_tableBegin_of_takes ht, hid]
    exact congrArg _ ((if_neg ha).trans (if_neg ho))

/-! ### TABLE_SEGMENT (R55) -/

/-- A segment in range is written and counted. -/
theorem segment_written {s : State} {id : BankId} {w : SegmentWrite} {b : Bank} (hl : s.banks.loading = some id)
    (hw : w (s.banks.get id) = some b) (number : Nat) :
    s.segment number w =
      State.accept
        { s with banks := s.banks.set id b, load := { s.load with accepted := min (s.load.accepted + 1) 65535 } }
        number .tableSegment (.segment (min (s.load.accepted + 1) 65535) s.load.flawed) := by
  simp only [State.segment, hl, hw]
  rfl

/-- A segment out of range sets the flawed mark and writes nothing. -/
theorem segment_flawed {s : State} {id : BankId} {w : SegmentWrite} (hl : s.banks.loading = some id) (hw : w (s.banks.get id) = none)
    (number : Nat) :
    s.segment number w =
      State.refuse { s with load := { s.load with flawed := true } } number 0x49 .badValue (.segment s.load.accepted true) := by
  simp only [State.segment, hl, hw]
  rfl

theorem segment_notLoading {s : State} (hl : s.banks.loading = none) (number : Nat) (w : SegmentWrite) :
    s.segment number w = s.refuse number 0x49 .notLoading (.segment s.load.accepted s.load.flawed) := by
  simp only [State.segment, hl]
  rfl

/-- Every TABLE_SEGMENT goes to the tariff store with what it writes. -/
theorem exec_of_segment {c : Instr} {h : ReqHead} (hc : requestOf c = some (h, .tableSegment)) :
    ∃ w : SegmentWrite, ∀ s, exec c s = s.taken fun s => s.request h .tableSegment fun s => s.segment h.number w := by
  cases c <;> cases hc <;> exact ⟨_, fun _ => rfl⟩

section
variable {h : ReqHead} {s : State} (ht : s.Takes h .tableSegment)
include ht

theorem exec_headerSegment (day mode step cap : Nat) :
    exec (.headerSegment h day mode step cap) s = .next (s.segment h.number (writeHeader day mode step cap)) := taken_request ht _

theorem exec_productSegment (n : Nat) (p : Product) :
    exec (.productSegment h n p) s = .next (s.segment h.number (writeProduct n p)) := taken_request ht _

theorem exec_bandTableSegment (t : Nat) (bs : List Nat) :
    exec (.bandTableSegment h t bs) s = .next (s.segment h.number (writeBandTable t bs)) := taken_request ht _

theorem exec_zoneBlockSegment (m first : Nat) (es : List Nat) :
    exec (.zoneBlockSegment h m first es) s = .next (s.segment h.number (writeZoneBlock m first es)) := taken_request ht _

theorem exec_surchargeSegment (position : Nat) (f : SurchargeFields) :
    exec (.surchargeSegment h position f) s = .next (s.segment h.number (writeSurcharge position f)) := taken_request ht _

theorem exec_priceRunSegment (start : PriceStart) (vs : List Nat) :
    exec (.priceRunSegment h start vs) s = .next (s.segment h.number (writePriceRun start vs)) := taken_request ht _

theorem exec_unknownSegmentGroup (group : Nat) : exec (.unknownSegmentGroup h group) s = .next (s.segment h.number fun _ => none) :=
  taken_request (h := { h with lenOk := true }) ⟨ht.working, rfl, ht.state⟩ _

end

/-! ### What each group writes (R56 to R59) -/

theorem RoundingMode.ofCode_eq (mode : Nat) : RoundingMode.ofCode mode = [RoundingMode.up, .nearest, .down][mode]? := by
  rcases mode with _ | _ | _ | mode <;> rfl

theorem Condition.ofCode_eq (code : Nat) :
    Condition.ofCode code =
      [Condition.always, .thickOver, .lengthOver, .heightOver, .weightOver, .nonMachinable, .noRead, .zoneAtLeast][code]? := by
  rcases code with _ | _ | _ | _ | _ | _ | _ | _ | code <;> rfl

theorem AmountKind.ofCode_eq (code : Nat) : AmountKind.ofCode code = [AmountKind.fixed, .percent][code]? := by
  rcases code with _ | _ | code <;> rfl

theorem Surcharge.ofFields_some {f : SurchargeFields} {c : Condition} {k : AmountKind} (hc : Condition.ofCode f.condition = some c)
    (hk : AmountKind.ofCode f.amountKind = some k) :
    Surcharge.ofFields f =
      some { mask := f.mask, condition := c, threshold := f.threshold, amountKind := k, amount := f.amount, last := f.last } := by
  simp [Surcharge.ofFields, hc, hk]

theorem Surcharge.ofFields_none {f : SurchargeFields} (h : 7 < f.condition ∨ 1 < f.amountKind) : Surcharge.ofFields f = none := by
  unfold Surcharge.ofFields
  rw [Condition.ofCode_eq, AmountKind.ofCode_eq]
  split
  next c k hc hk =>
    have hc' := (List.getElem?_eq_some_iff.mp hc).1
    have hk' := (List.getElem?_eq_some_iff.mp hk).1
    simp only [List.length_cons, List.length_nil] at hc' hk'
    omega
  · rfl

theorem productInRange_iff (p : Product) :
    productInRange p = true ↔
      p.bandTable ≤ 7 ∧ p.zoneMap ≤ 3 ∧ (if p.defined then 1 else 0) ≤ p.maxWeight ∧ p.maxWeight ≤ 6000 ∧ p.maxLength ≤ 6000 ∧ p.maxHeight ≤ 6000 ∧
        p.maxThickness ≤ 500 ∧ (∀ u, p.upgrade = some u → u ≤ 15) ∧ p.noReadColumn ≤ 7 := by
  have hupgrade : p.upgrade.all (· ≤ 15) = true ↔ ∀ u, p.upgrade = some u → u ≤ 15 := by cases p.upgrade <;> simp
  have hdefined : (!p.defined || decide (1 ≤ p.maxWeight)) = true ↔ (if p.defined then 1 else 0) ≤ p.maxWeight := by
    cases p.defined <;> simp
  simp only [productInRange, Bool.and_eq_true, decide_eq_true_eq, hupgrade, hdefined]
  simp only [Config.maxGrams, Config.maxLength, Config.maxThickness]
  tauto

theorem writeProduct_inRange {n : Nat} {p : Product} (hn : n ≤ 15) (hp : productInRange p = true) (b : Bank) :
    writeProduct n p b = some { b with products := b.products.setIfInBounds n p } := if_pos ⟨hn, hp⟩

theorem writeBandTable_inRange {t : Nat} {bs : List Nat} (ht : t ≤ 7) (hb : bs.length ≤ 24) (b : Bank) :
    writeBandTable t bs b = some { b with bandTables := b.bandTables.setIfInBounds t bs } := if_pos ⟨ht, hb⟩

theorem writeZoneBlock_inRange {m first : Nat} (hm : m ≤ 3) (hf : first ≤ 224) (es : List Nat) (b : Bank) :
    writeZoneBlock m first es b =
      some { b with zoneMaps := b.zoneMaps.setIfInBounds m { entries := Table.setRun 15 (b.zoneMap m).entries first es, written := true } } :=
  if_pos ⟨hm, hf⟩

theorem writeSurcharge_inRange {position : Nat} {f : SurchargeFields} {e : Surcharge} {b : Bank} (he : Surcharge.ofFields f = some e)
    (hp : position ≤ 15) (hl : position ≤ b.surcharges.length) :
    writeSurcharge position f b =
      some { b with surcharges := if position = b.surcharges.length then b.surcharges ++ [e] else b.surcharges.set position e } := by
  simp only [writeSurcharge, he]
  rw [if_neg (by omega)]
  split <;> rfl

theorem writeSurcharge_outside {position : Nat} {f : SurchargeFields} {b : Bank}
    (h : 7 < f.condition ∨ 1 < f.amountKind ∨ 15 < position ∨ b.surcharges.length < position) : writeSurcharge position f b = none := by
  unfold writeSurcharge
  cases he : Surcharge.ofFields f with
  | none => rfl
  | some e =>
    have hcodes : ¬(7 < f.condition ∨ 1 < f.amountKind) := fun h => by simp [Surcharge.ofFields_none h] at he
    exact if_pos (by tauto)

theorem priceIndex_coordinate {t b z : Nat} (ht : t ≤ 7) (hb : 1 ≤ b) (hb' : b ≤ 24) (hz : z ≤ 7) :
    priceIndex (.coordinate t b z) = some ((t * 24 + (b - 1)) * 8 + z) := if_pos ⟨ht, hb, hb', hz⟩

theorem writePriceRun_inRange {start : PriceStart} {vs : List Nat} {f : Nat} (hf : priceIndex start = some f) (h1 : 1 ≤ vs.length)
    (h24 : vs.length ≤ 24) (hend : f + vs.length ≤ 1536) (b : Bank) :
    writePriceRun start vs b = some { b with prices := Table.setRun 65535 b.prices f vs } := by
  simp only [writePriceRun, hf]
  exact if_pos ⟨h1, h24, hend⟩

theorem writePriceRun_outside {start : PriceStart} {vs : List Nat}
    (h : ∀ f, priceIndex start = some f → ¬(1 ≤ vs.length ∧ vs.length ≤ 24 ∧ f + vs.length ≤ 1536)) (b : Bank) :
    writePriceRun start vs b = none := by
  unfold writePriceRun
  cases hf : priceIndex start with
  | none => rfl
  | some f => exact if_neg (h f hf)

/-- A coordinate in range names a cell of the table. -/
theorem priceIndex_coordinate_some {t b z f : Nat} (h : priceIndex (.coordinate t b z) = some f) :
    (t ≤ 7 ∧ 1 ≤ b ∧ b ≤ 24 ∧ z ≤ 7) ∧ f = (t * 24 + (b - 1)) * 8 + z := by
  obtain ⟨hin, hf⟩ := Option.ite_none_right_eq_some.mp h
  exact ⟨hin, (Option.some.inj hf).symm⟩

theorem priceIndex_flat_some {x f : Nat} (h : priceIndex (.flat x) = some f) : x < 1536 ∧ f = x := by
  obtain ⟨hin, hf⟩ := Option.ite_none_right_eq_some.mp h
  exact ⟨hin, (Option.some.inj hf).symm⟩

/-- Settles O36: an accepted segment of each group by what it writes. -/
theorem segmentsAreWritten : Obligations.SegmentsAreWritten := by
  intro h s id ht hl
  refine ⟨fun day mode step cap m hm => ?_, fun n p hn hp => ?_, fun t bs htt hbs => ?_, fun m first es hm hf => ?_,
    fun position f condition kind hc hk hp hlen => ?_, fun start vs f h1 h24 hend hstart => ?_⟩
  · have hw : writeHeader day mode step cap (s.banks.get id) =
        some { s.banks.get id with effectiveDay := day, rounding := m, step := step, cap := cap, headerPresent := true } := by
      simp [writeHeader, RoundingMode.ofCode_eq, hm]
    rw [exec_headerSegment ht, segment_written hl hw]
  · rw [exec_productSegment ht, segment_written hl (writeProduct_inRange hn ((productInRange_iff p).mpr hp) _)]
  · rw [exec_bandTableSegment ht, segment_written hl (writeBandTable_inRange htt hbs _)]
  · rw [exec_zoneBlockSegment ht, segment_written hl (writeZoneBlock_inRange hm hf es _)]
  · rw [← Condition.ofCode_eq] at hc
    rw [← AmountKind.ofCode_eq] at hk
    rw [exec_surchargeSegment ht, segment_written hl (writeSurcharge_inRange (Surcharge.ofFields_some hc hk) hp hlen)]
  · have hf : priceIndex start = some f := by
      rcases hstart with rfl | ⟨t, b, z, rfl, htt, hb, hb', hz, rfl⟩
      · exact if_pos (show f < 1536 by omega)
      · exact priceIndex_coordinate htt hb hb' hz
    rw [exec_priceRunSegment ht, segment_written hl (writePriceRun_inRange hf h1 h24 hend _)]

/-- Settles O37: with no bank loading every segment is refused; with one, a group that writes nothing is flawed. -/
theorem segmentsOutOfRange : Obligations.SegmentsOutOfRange := by
  refine fun h s ht => ⟨fun c _ hc hl => ?_, fun id hl => ⟨fun day mode step cap hm => ?_, ?_, fun t bs hout => ?_, fun m first es hout => ?_,
    fun position f hout => ?_, ?_, fun group => ?_⟩⟩
  · obtain ⟨w, hw⟩ := exec_of_segment hc
    rw [hw, taken_request ht, segment_notLoading hl]
  · have hw : writeHeader day mode step cap (s.banks.get id) = none := by
      simp [writeHeader, RoundingMode.ofCode_eq, List.getElem?_eq_none (show [RoundingMode.up, .nearest, .down].length ≤ mode from hm)]
    rw [exec_headerSegment ht, segment_flawed hl hw]
  · intro n p inRange hout
    have hw : writeProduct n p (s.banks.get id) = none := by
      refine if_neg fun ⟨hn, hp⟩ => ?_
      rcases hout with hout | hout
      · omega
      · exact hout ((productInRange_iff p).mp hp)
    rw [exec_productSegment ht, segment_flawed hl hw]
  · have hw : writeBandTable t bs (s.banks.get id) = none := if_neg (by omega)
    rw [exec_bandTableSegment ht, segment_flawed hl hw]
  · have hw : writeZoneBlock m first es (s.banks.get id) = none := if_neg (by omega)
    rw [exec_zoneBlockSegment ht, segment_flawed hl hw]
  · rw [exec_surchargeSegment ht, segment_flawed hl (writeSurcharge_outside hout)]
  · intro start vs outside hout
    have hw : writePriceRun start vs (s.banks.get id) = none := by
      refine writePriceRun_outside (fun f hf => ?_) _
      rcases hout with rfl | hout | ⟨t, b, z, rfl, hout⟩ | ⟨x, rfl, hout⟩ | ⟨c, rfl⟩
      · simp
      · omega
      · obtain ⟨hin, rfl⟩ := priceIndex_coordinate_some hf
        omega
      · obtain ⟨hin, rfl⟩ := priceIndex_flat_some hf
        omega
      · cases hf
    rw [exec_priceRunSegment ht, segment_flawed hl hw]
  · rw [exec_unknownSegmentGroup ht, segment_flawed hl rfl]

end Sys2Proof.Machine

/-! PROOFS. The end of a load (O35). -/

namespace Sys2Proof.Machine

/-! ### The nine checks of a bank (R60) -/

section
variable {b : Bank}

theorem breakpointsRise_iff (below : Nat) (t : List Nat) :
    breakpointsRise below t = true ↔ t.Pairwise (· < ·) ∧ ∀ x ∈ t, below < x ∧ x ≤ 6000 := by
  induction t generalizing below with
  | nil => simp [breakpointsRise]
  | cons x xs ih =>
    simp only [breakpointsRise, Bool.and_eq_true, decide_eq_true_eq, ih, List.pairwise_cons, List.forall_mem_cons]
    show (below < x ∧ x ≤ 6000) ∧ _ ↔ _
    constructor
    · rintro ⟨hx, hrise, hin⟩
      exact ⟨⟨fun y hy => (hin y hy).1, hrise⟩, hx, fun y hy => ⟨hx.1.trans (hin y hy).1, (hin y hy).2⟩⟩
    · rintro ⟨⟨hlt, hrise⟩, hx, hin⟩
      exact ⟨hx, hrise, fun y hy => ⟨hlt y hy, (hin y hy).2⟩⟩

theorem allDefined_iff (test : Product → Bool) : b.allDefined test = true ↔ ∀ p ∈ b.products.toList, p.defined = true → test p = true := by
  simp only [Bank.allDefined, List.all_eq_true, Bool.or_eq_true, Bool.not_eq_true']
  refine forall₂_congr fun p _ => ?_
  cases p.defined <;> simp

theorem check_header_iff :
    (b.headerPresent && [1, 2, 5, 10, 20, 50, 100].contains b.step && decide (1 ≤ b.cap) && decide (b.cap ≤ Config.capMax)) = true ↔
      b.headerPresent = true ∧ b.step ∈ [1, 2, 5, 10, 20, 50, 100] ∧ 1 ≤ b.cap ∧ b.cap ≤ 1000000 := by
  simp only [Bool.and_eq_true, decide_eq_true_eq, List.contains_iff_mem, and_assoc]
  rfl

theorem check_tables_iff :
    (b.allDefined fun p => !(b.bandTable p.bandTable).isEmpty && (b.zoneMap p.zoneMap).written) = true ↔
      ∀ p ∈ b.products.toList, p.defined = true → b.bandTable p.bandTable ≠ [] ∧ (b.zoneMap p.zoneMap).written = true := by
  simp [allDefined_iff]

theorem check_breakpoints_iff :
    b.bandTables.toList.all (breakpointsRise 0) = true ↔ ∀ t ∈ b.bandTables.toList, t.Pairwise (· < ·) ∧ ∀ x ∈ t, 1 ≤ x ∧ x ≤ 6000 := by
  simp only [List.all_eq_true, breakpointsRise_iff]
  rfl

theorem check_zones_iff :
    (b.zoneMaps.toList.all fun m => m.entries.all fun e => decide (e.2 ≤ 7) || e.2 == Config.notServed) = true ↔
      ∀ m ∈ b.zoneMaps.toList, ∀ e ∈ m.entries, e.2 ≤ 7 ∨ e.2 = 15 := by
  simp only [List.all_eq_true, Bool.or_eq_true, decide_eq_true_eq, beq_iff_eq]
  rfl

theorem check_upgrades_iff :
    (b.allDefined fun p => p.upgrade.all fun n => (b.product n).defined) = true ↔
      ∀ p ∈ b.products.toList, p.defined = true → ∀ n, p.upgrade = some n → (b.product n).defined = true := by
  rw [allDefined_iff]
  refine forall₃_congr fun p _ _ => ?_
  cases p.upgrade <;> simp

theorem check_percents_iff :
    (b.surcharges.all fun e => decide (e.amountKind = .fixed) || decide (e.amount ≤ 1000)) = true ↔
      ∀ e ∈ b.surcharges, e.amountKind = .percent → e.amount ≤ 1000 := by
  simp only [List.all_eq_true, Bool.or_eq_true, decide_eq_true_eq]
  refine forall₂_congr fun e _ => ?_
  cases e.amountKind <;> simp

/-- A check passes. -/
def Bank.Passes (b : Bank) (load : Load) (expected check : Nat) : Prop := (b.checks load expected)[check - 1]? = some true

variable (b) (load : Load) (expected : Nat)

@[simp] theorem Bank.checks_length : (b.checks load expected).length = 9 := rfl

/-- The number of the first check that fails, those before it passing. -/
theorem firstFailure_some_iff (k : Nat) :
    b.firstFailure load expected = some k ↔
      (1 ≤ k ∧ k ≤ 9) ∧ ¬b.Passes load expected k ∧ ∀ i, 1 ≤ i → i < k → b.Passes load expected i := by
  unfold Bank.firstFailure Bank.Passes
  rw [Option.map_eq_some_iff]
  constructor
  · rintro ⟨m, hm, rfl⟩
    obtain ⟨hlt, hhit, hmiss⟩ := List.findIdx?_eq_some_iff_getElem.mp hm
    have hlt9 : m < 9 := hlt
    refine ⟨by omega, ?_, fun i hi hik => ?_⟩
    · rw [Nat.add_sub_cancel, List.getElem?_eq_getElem hlt]
      simpa using hhit
    · rw [List.getElem?_eq_getElem (show i - 1 < (b.checks load expected).length by simp; omega)]
      simpa using hmiss (i - 1) (by omega)
  · rintro ⟨⟨hk, hk9⟩, hhit, hmiss⟩
    have hlt : k - 1 < (b.checks load expected).length := by simp; omega
    refine ⟨k - 1, List.findIdx?_eq_some_iff_getElem.mpr ⟨hlt, ?_, fun i hi => ?_⟩, by omega⟩
    · rw [List.getElem?_eq_getElem hlt] at hhit
      simpa using hhit
    · have h := hmiss (i + 1) (by omega) (by omega)
      rw [Nat.add_sub_cancel, List.getElem?_eq_getElem (by omega)] at h
      simpa using h

theorem firstFailure_none_iff : b.firstFailure load expected = none ↔ ∀ i, 1 ≤ i → i ≤ 9 → b.Passes load expected i := by
  unfold Bank.firstFailure Bank.Passes
  rw [Option.map_eq_none_iff, List.findIdx?_eq_none_iff]
  constructor
  · intro hall i hi hi9
    have hlt : i - 1 < (b.checks load expected).length := by simp; omega
    rw [List.getElem?_eq_getElem hlt]
    simpa using hall _ (List.getElem_mem hlt)
  · intro hall x hx
    obtain ⟨i, hlt, rfl⟩ := List.mem_iff_getElem.mp hx
    have hlt9 : i < 9 := hlt
    have h := hall (i + 1) (by omega) (by omega)
    rw [Nat.add_sub_cancel, List.getElem?_eq_getElem hlt] at h
    simpa using h

end

/-! ### TABLE_END (R61) -/

theorem exec_tableEnd_of_takes {h : ReqHead} {s : State} (ht : s.Takes h .tableEnd) (expected : Nat) :
    exec (.tableEnd h expected) s =
      .next (match s.banks.loading with
        | none => s.refuse h.number RequestKind.tableEnd.code .notLoading
        | some id => s.endLoad h.number id expected) :=
  taken_request ht _

theorem endLoad_ready {s : State} {id : BankId} {expected : Nat} (h : (s.banks.get id).firstFailure s.load expected = none) (number : Nat) :
    s.endLoad number id expected =
      (State.accept { s with banks := s.banks.setState id .ready } number .tableEnd
        (.loadReady (s.banks.get id).tariffId s.load.accepted)).post .tableReady none [] := by
  simp [State.endLoad, h]

theorem endLoad_invalid {s : State} {id : BankId} {expected check : Nat}
    (h : (s.banks.get id).firstFailure s.load expected = some check) (number : Nat) :
    s.endLoad number id expected =
      (State.accept { s with banks := s.banks.setState id .invalid } number .tableEnd
        (.loadInvalid check s.load.accepted)).post .tableInvalid none [some check] := by
  simp [State.endLoad, h]

/-- Settles O35: the end of a load by its first failing check, and each check by what it asks of the bank. -/
theorem tableEndValidates : Obligations.TableEndValidates := by
  refine fun h expected s ht => ⟨fun hl => ?_, fun id hl => ?_⟩
  · rw [exec_tableEnd_of_takes ht, hl]
    rfl
  intro b passes
  have hpasses : ∀ k, 1 ≤ k → k ≤ 9 → (b.Passes s.load expected k ↔ passes k) := by
    intro k hk hk9
    unfold Bank.Passes
    interval_cases k <;> refine Option.some_inj.trans ?_
    · simp [passes]
    · simp [passes]
    · exact check_header_iff
    · exact List.any_eq_true
    · exact check_tables_iff
    · exact check_breakpoints_iff
    · exact check_zones_iff
    · exact check_upgrades_iff
    · exact check_percents_iff
  refine ⟨fun hnone => ?_, fun check hsome => ?_, fun k => ?_, ?_⟩
  · rw [exec_tableEnd_of_takes ht, hl]
    exact congrArg _ (endLoad_ready hnone h.number)
  · rw [exec_tableEnd_of_takes ht, hl]
    exact congrArg _ (endLoad_invalid hsome h.number)
  · rw [firstFailure_some_iff]
    refine and_congr_right fun ⟨hk, hk9⟩ => and_congr (not_congr (hpasses k hk hk9)) ?_
    exact forall₃_congr fun i hi hik => hpasses i hi (by omega)
  · rw [firstFailure_none_iff]
    exact forall₃_congr hpasses

end Sys2Proof.Machine

/-! PROOFS. Bank switches (O38, O39). -/

namespace Sys2Proof.Machine

/-! ### BANK_SWITCH (R62 to R65) -/

section
variable {s : State} {number bank : Nat} {work : State → BankId → State}

theorem bankSwitch_noBank (h : 2 ≤ bank) : s.bankSwitch number bank work = s.refuse number 0x4B .badValue := by
  simp only [State.bankSwitch, BankId.ofCode_none h]
  rfl

theorem bankSwitch_active {id : BankId} (hid : BankId.ofCode bank = some id) (ha : (s.banks.get id).state = .active) :
    s.bankSwitch number bank work = s.refuse number 0x4B .bankActive := by
  simp only [State.bankSwitch, hid, ha]
  rfl

theorem bankSwitch_notReady {id : BankId} (hid : BankId.ofCode bank = some id)
    (hn : (s.banks.get id).state ∉ [BankState.active, .ready]) : s.bankSwitch number bank work = s.refuse number 0x4B .notReadyBank := by
  simp only [State.bankSwitch, hid]
  split <;> simp_all [RequestKind.code]

theorem bankSwitch_ready {id : BankId} (hid : BankId.ofCode bank = some id) (hr : (s.banks.get id).state = .ready) :
    s.bankSwitch number bank work = work s id := by
  simp only [State.bankSwitch, hid, hr]

theorem switchImmediate_noDate {id : BankId} (hd : s.mailingDate = none) : s.switchImmediate number id = s.refuse number 0x4B .noDate := by
  simp only [State.switchImmediate, hd]
  rfl

theorem switchImmediate_dated {id : BankId} {day : Nat} (hd : s.mailingDate = some day) :
    s.switchImmediate number id =
      if day < (s.banks.get id).effectiveDay then s.refuse number 0x4B .notYetEffective
      else s.switchNow number id (.switchedNow (s.banks.get id).tariffId) := by
  simp only [State.switchImmediate, hd]
  rfl

end

section
variable {h : ReqHead} {s : State} (ht : s.Takes h .bankSwitch)
include ht

theorem exec_bankSwitchImmediate_of_takes (bank mode : Nat) :
    exec (.bankSwitchImmediate h bank mode) s =
      .next (if mode ≠ 0 then s.refuse h.number 0x4B .badValue
        else s.bankSwitch h.number bank fun s id => s.switchImmediate h.number id) := taken_request ht _

theorem exec_bankSwitchAtDate_of_takes (bank : Nat) :
    exec (.bankSwitchAtDate h bank) s =
      .next (s.bankSwitch h.number bank fun s id =>
        if s.mailingDate.any fun day => decide ((s.banks.get id).effectiveDay ≤ day) then s.switchNow h.number id .switchedAtDate
        else s.pendSwitch h.number id .atDate) := taken_request ht _

theorem exec_bankSwitchAtJob_of_takes (bank : Nat) :
    exec (.bankSwitchAtJob h bank) s = .next (s.bankSwitch h.number bank fun s id => s.pendSwitch h.number id .atJob) := taken_request ht _

/-- The tests common to the three modes (R62). -/
theorem exec_bankSwitch_common {c : Instr} {bank : Nat}
    (hc : c ∈ [Instr.bankSwitchImmediate h bank 0, .bankSwitchAtDate h bank, .bankSwitchAtJob h bank]) :
    ∃ work : State → BankId → State, exec c s = .next (s.bankSwitch h.number bank work) := by
  simp only [List.mem_cons, List.not_mem_nil, or_false] at hc
  rcases hc with rfl | rfl | rfl
  · exact ⟨_, (exec_bankSwitchImmediate_of_takes ht bank 0).trans (congrArg _ (if_neg (by simp)))⟩
  · exact ⟨_, exec_bankSwitchAtDate_of_takes ht bank⟩
  · exact ⟨_, exec_bankSwitchAtJob_of_takes ht bank⟩

theorem exec_bankSwitchImmediate_ready {bank : Nat} {id : BankId} (hid : BankId.ofCode bank = some id)
    (hr : (s.banks.get id).state = .ready) : exec (.bankSwitchImmediate h bank 0) s = .next (s.switchImmediate h.number id) := by
  rw [exec_bankSwitchImmediate_of_takes ht, if_neg (by simp), bankSwitch_ready hid hr]

end

/-- Settles O38: the tests common to the modes, then each mode on a READY bank. -/
theorem bankSwitchRequests : Obligations.BankSwitchRequests := by
  refine fun h bank s ht => ⟨fun mode hm => ?_, fun c hc => ?_, fun id hid hr => ?_⟩
  · rw [exec_bankSwitchImmediate_of_takes ht, if_pos hm]
  · obtain ⟨work, hwork⟩ := exec_bankSwitch_common ht hc
    rw [hwork]
    exact ⟨fun hb => congrArg _ (bankSwitch_noBank hb), fun id hid ha => congrArg _ (bankSwitch_active hid ha),
      fun id hid hn => congrArg _ (bankSwitch_notReady hid hn)⟩
  · intro pending unsettled due
    refine ⟨fun hd => ?_, fun hd hdue => ?_, fun hdue => ?_, fun hdue => ?_, fun hdue => ?_, ?_⟩
    · rw [exec_bankSwitchImmediate_ready ht hid hr, switchImmediate_noDate hd]
    · obtain ⟨day, hday⟩ := Option.isSome_iff_exists.mp hd
      rw [exec_bankSwitchImmediate_ready ht hid hr, switchImmediate_dated hday, if_pos]
      simpa [due, hday] using hdue
    · obtain ⟨day, hday⟩ : ∃ day, s.mailingDate = some day := by
        cases hd : s.mailingDate with
        | none => simp [due, hd] at hdue
        | some day => exact ⟨day, rfl⟩
      have hle : ¬day < (s.banks.get id).effectiveDay := by simpa [due, hday] using hdue
      rw [exec_bankSwitchImmediate_ready ht hid hr, switchImmediate_dated hday, if_neg hle]
      rfl
    · rw [exec_bankSwitchAtDate_of_takes ht, bankSwitch_ready hid hr, if_pos hdue]
      rfl
    · rw [exec_bankSwitchAtDate_of_takes ht, bankSwitch_ready hid hr, if_neg (by simpa [due] using hdue)]
      rfl
    · rw [exec_bankSwitchAtJob_of_takes ht, bankSwitch_ready hid hr]
      rfl

/-! ### The work of a switch (R66) -/

section
variable {s : State} {target : BankId}

theorem BankId.other_ne (id : BankId) : id.other ≠ id := by cases id <;> decide

/-- With the target not ACTIVE, the ACTIVE bank is the other one or there is none. -/
theorem Banks.active_other {bs : Banks} (ht : (bs.get target).state ≠ .active) :
    bs.active = if (bs.get target.other).state = .active then some target.other else none := by
  rw [Banks.active_eq]
  cases target
  · exact if_neg ht
  · show _ = if bs.a.state = .active then some BankId.a else none
    rw [if_neg (show ¬bs.b.state = .active from ht)]

/-- The two banks after a switch (R66 step 1). -/
theorem Banks.switched_eq {bs : Banks} (ht : (bs.get target).state ≠ .active) :
    bs.switched target =
      (bs.set target { bs.get target with state := .active }).set target.other
        { bs.get target.other with
          state := if (bs.get target.other).state = .active then .ready else (bs.get target.other).state } := by
  unfold Banks.switched
  rw [Banks.active_other ht]
  by_cases ho : (bs.get target.other).state = .active
  · rw [if_pos ho, if_pos ho]
    cases target <;> rfl
  · rw [if_neg ho, if_neg ho]
    cases target <;> rfl

theorem switchTo_banks (target : BankId) (tag : Option Nat) : (s.switchTo target tag).banks = s.banks.switched target := by
  unfold State.switchTo
  rw [(post_reach (Q := False) _ _ _ _).banks_eq (by decide), (rateAll_reach (Q := False) _ False.elim).banks_eq (by decide)]

theorem switchTo_ratingRef (target : BankId) (tag : Option Nat) : (s.switchTo target tag).ratingRef = some target := by
  unfold State.switchTo
  rw [(post_reach (Q := False) _ _ _ _).ratingRef_eq (by decide), (rateAll_reach (Q := False) _ False.elim).ratingRef_eq (by decide)]

/-- A job is made CURRENT and the slot of the CURRENT job is its slot, whether or not a switch is taken. -/
theorem makeJobCurrent_slot {j : Job} (hs : s.ListsSafe) (hc : s.currentJob = none)
    (hw : s.jobs.find? (fun j => decide (j.state = .waiting)) = some j) (tag : Option Nat) :
    (s.makeJobCurrent tag).currentJob.map (·.slot) = some j.slot := by
  have hj : j ∈ s.jobs := List.mem_of_find?_eq_some hw
  rw [makeJobCurrent_waiting hc hw]
  rcases hp : s.pendingSwitch with _ | ⟨target, mode⟩
  · rw [takeJobSwitch_atDate (s := s.promote j.slot) (by simp [State.promote, State.updateJob, hp])]
    obtain ⟨i, hi, hslot⟩ := promote_current hc hj
    rw [hi, Option.map_some, hslot]
  · cases mode with
    | atDate =>
      rw [takeJobSwitch_atDate (s := s.promote j.slot) fun x hx => by cases hp.symm.trans hx; rfl]
      obtain ⟨i, hi, hslot⟩ := promote_current hc hj
      rw [hi, Option.map_some, hslot]
    | atJob =>
      rw [takeJobSwitch_atJob (s := s.promote j.slot) hp]
      obtain ⟨i, hi, hslot⟩ := promote_switch_current hs hc hj hp tag
      rw [hi, Option.map_some, hslot]

end

/-- Settles O39: the banks that a switch leaves, its work in order, and the job that becomes CURRENT. -/
theorem bankSwitchWork : Obligations.BankSwitchWork := by
  refine ⟨fun target tag s ht _ => ⟨⟨?_, ?_, switchTo_pendingSwitch target tag, switchTo_ratingRef target tag⟩, ?_⟩,
    fun tag s => ⟨fun h => ?_, fun j hc hw => ⟨fun hd => ?_, fun target hp => ?_, fun hs => makeJobCurrent_slot hs hc hw tag⟩⟩⟩
  · rw [switchTo_banks, Banks.switched_eq ht, Banks.get_set_other _ target.other_ne.symm, Banks.get_set_same]
  · rw [switchTo_banks, Banks.switched_eq ht, Banks.get_set_same]
  · rw [State.switchTo, Banks.switchDetail, Banks.switched_eq ht, Banks.active_other ht]
    rfl
  · rcases h with h | h
    · obtain ⟨j, hj⟩ := Option.isSome_iff_exists.mp h
      exact makeJobCurrent_current hj
    · cases hc : s.currentJob with
      | none => exact makeJobCurrent_none hc h
      | some j => exact makeJobCurrent_current hc
  · exact (makeJobCurrent_waiting hc hw).trans (takeJobSwitch_atDate (s := s.promote j.slot) hd)
  · exact (makeJobCurrent_waiting hc hw).trans (takeJobSwitch_atJob (s := s.promote j.slot) hp)

end Sys2Proof.Machine

/-! PROOFS. The franking state, its errors and the PFW pin (O45, O47, O48). -/

namespace Sys2Proof.Machine

/-! ### The requests of the franking unit (R166, R167, R169) -/

/-- Where a part serves, adding OPERATOR turns RUNNING into HELD and leaves every other state (R161). -/
theorem FrankingState.follow_operator (f : FrankingState) (c : HoldCauses) :
    f.follow { c with operator := true } = if f = .running then .held else f := by
  cases f <;> rfl

theorem FrankingState.follow_power (f : FrankingState) (c : HoldCauses) :
    f.follow { c with power := true } = if f = .running then .held else f := by
  cases f <;> simp [FrankingState.follow, HoldCauses.isEmpty]

/-- Of the causes only POWER outlives a RESUME, and it keeps the part HELD (R167). -/
theorem FrankingState.follow_resumed (c : HoldCauses) : FrankingState.held.follow c.resumed = if c.power then .held else .running := by
  cases hp : c.power <;> simp [FrankingState.follow, HoldCauses.isEmpty, HoldCauses.resumed, HoldCauses.none, hp]

section
variable {h : ReqHead} {s : State}

theorem exec_hold_of_takes (ht : s.Takes h .hold) :
    exec (.hold h) s =
      .next (let t := s.setCauses { s.causes with operator := true }
        if t.slot.isNone then t.accept h.number .hold (.franking t.franking t.causes)
        else { t with holdWaiting := t.holdWaiting ++ [h.number] }) :=
  taken_request ht _

theorem exec_resume_of_takes (ht : s.Takes h .resume) :
    exec (.resume h) s =
      .next (if s.franking = .held then
          ((s.setCauses s.causes.resumed).accept h.number .resume
            (.franking (s.setCauses s.causes.resumed).franking (s.setCauses s.causes.resumed).causes)).passRunning .held
        else s.refuse h.number RequestKind.resume.code .badState) :=
  taken_request ht _

theorem exec_clearHalt_of_takes (ht : s.Takes h .clearHalt) :
    exec (.clearHalt h) s =
      .next (if s.franking ≠ .halted then s.refuse h.number RequestKind.clearHalt.code .badState
        else if s.capture.isSome then s.refuse h.number RequestKind.clearHalt.code .captureUnread
        else State.accept { s with franking := .held, causes := .operatorWith s.pins.pfw } h.number .clearHalt
          (.franking .held (.operatorWith s.pins.pfw))) :=
  taken_request ht _

end

theorem exec_holdReply (s : State) : exec .holdReply s = s.taken fun s => if s.slot.isNone then s.answerHolds else s := rfl

theorem holdReplies_states (l : List Nat) (f : FrankingState) (c : HoldCauses) {s : State} (hf : s.franking = f) (hc : s.causes = c) :
    l.foldl (fun s number => s.accept number .hold (.franking s.franking s.causes)) s =
      l.foldl (fun s number => s.accept number .hold (.franking f c)) s := by
  induction l generalizing s with
  | nil => rfl
  | cons number rest ih =>
    rw [List.foldl_cons, List.foldl_cons, hf, hc]
    exact ih hf hc

/-- The replies carry the franking state of the state they are sent in, which no reply changes. -/
theorem answerHolds_eq (s : State) :
    s.answerHolds =
      { s.holdWaiting.foldl (fun u number => u.accept number .hold (.franking s.franking s.causes)) s with holdWaiting := [] } := by
  unfold State.answerHolds
  rw [holdReplies_states _ s.franking s.causes rfl rfl]

/-- Settles O45: HOLD, RESUME and CLEAR_HALT by the franking state they find. -/
theorem holdResumeClear : Obligations.HoldResumeClear := by
  intro h s held
  have hheld : s.setCauses { s.causes with operator := true } = held := by
    unfold State.setCauses
    rw [FrankingState.follow_operator]
  refine ⟨fun ht hs => ?_, fun ht hs => ?_, fun hp hs => ?_, fun hp hs => ?_, fun ht hf => ?_, fun ht hf => ?_, fun ht hf => ?_,
    fun ht hf hc => ?_, fun ht hf hc => ?_⟩
  · rw [exec_hold_of_takes ht, hheld]
    simp only [held, hs, Option.isNone_none, if_true]
  · rw [exec_hold_of_takes ht, hheld]
    obtain ⟨slot, hslot⟩ := Option.isSome_iff_exists.mp hs
    simp only [held, hslot, Option.isNone_some, Bool.false_eq_true, if_false]
  · rw [exec_holdReply, taken_on hp, hs, Option.isNone_none, if_pos rfl, answerHolds_eq]
  · rw [exec_holdReply, taken_on hp, if_neg (by simpa [Option.isSome_iff_ne_none] using hs)]
  · rw [exec_resume_of_takes ht, if_neg hf]
    rfl
  · intro causes franking released
    rw [exec_resume_of_takes ht, if_pos hf]
    have hset : s.setCauses s.causes.resumed = { s with causes, franking } := by
      simp only [State.setCauses, hf, FrankingState.follow_resumed]
      rfl
    rw [hset]
    have hreleased : released.franking = if s.causes.power then .held else .running := rfl
    cases hpow : s.causes.power
    · exact congrArg _ (if_pos ⟨by decide, hreleased.trans (by rw [hpow]; rfl)⟩)
    · exact congrArg _ (if_neg fun hn => by rw [hreleased, hpow] at hn; exact absurd hn.2 (by decide))
  · rw [exec_clearHalt_of_takes ht, if_pos hf]
    rfl
  · rw [exec_clearHalt_of_takes ht, if_neg (not_not.mpr hf), if_pos hc]
    rfl
  · rw [exec_clearHalt_of_takes ht, if_neg (not_not.mpr hf), hc]
    rfl

/-! ### The PFW pin (R168) -/

/-- Settles O48: the state follows the set of causes with POWER added or taken out. -/
theorem pfwFollowsThePin : Obligations.PfwFollowsThePin := by
  intro s hp follows others released
  constructor
  · rw [exec_pfwAssert, taken_on (s := { s with pins := { s.pins with pfw := true } }) hp]
    simp only [State.setCauses, FrankingState.follow_power, follows]
    cases s.franking <;> rfl
  · rw [exec_pfwRelease, taken_on (s := { s with pins := { s.pins with pfw := false } }) hp]
    have hset : State.setCauses { s with pins := { s.pins with pfw := false } } { s.causes with power := false } = released := by
      simp only [State.setCauses, released, follows, others]
      cases s.franking <;> simp [FrankingState.follow, HoldCauses.isEmpty]
    show Host.Outcome.next ((State.setCauses { s with pins := { s.pins with pfw := false } } { s.causes with power := false }).passRunning _) = _
    rw [hset]
    refine congrArg _ ?_
    by_cases hback : s.franking = .held ∧ others = false
    · rw [if_pos hback]
      exact if_pos (by simp [released, follows, hback])
    · rw [if_neg hback]
      refine if_neg fun ⟨hne, hrun⟩ => hback ?_
      revert hne hrun
      simp only [released, follows]
      cases s.franking <;> simp

/-! ### Errors (R170, R174 to R176) -/

/-- Settles O47: the error's class and the franking state decide, then the capture is filled and the cause posted. -/
theorem errorsActByClass : Obligations.ErrorsActByClass := by
  intro code tag detail s captured held run lock
  have hcap (cls : ErrorClass) (u : State) (hc : u.capture = s.capture) (ha : u.accounts = s.accounts) (hp : u.pieces = s.pieces) :
      u.captureError cls code tag s.franking detail = { u with capture := some (captured cls) } := by
    simp only [State.captureError, captured, hc, ha, hp]
    cases s.capture <;> rfl
  have hrun {u : State} (hu : s.contribute = u) (hc : u.capture = s.capture) (ha : u.accounts = s.accounts) (hp : u.pieces = s.pieces) :
      s.raiseContributory code tag detail = run u := by
    simp only [State.raiseContributory, hu, hcap .contributory u hc ha hp, run]
  have hlock {u : State} (hu : s.enterLockout = u) (hc : u.capture = s.capture) (ha : u.accounts = s.accounts) (hp : u.pieces = s.pieces) :
      s.raiseAbort code tag detail = lock u := by
    simp only [State.raiseAbort, hu, hcap .abort u hc ha hp, lock]
  have hset (hf : s.franking = .running ∨ s.franking = .held) : s.setCauses { s.causes with error := true } = held := by
    rcases hf with hf | hf <;> simp [State.setCauses, hf, FrankingState.follow, HoldCauses.isEmpty, held]
  refine ⟨fun hf => hrun ?_ rfl rfl rfl, fun hf he => hrun ?_ rfl rfl rfl, fun hf he => hrun ?_ rfl rfl rfl, fun hf => hrun ?_ rfl rfl rfl,
    fun hs => hlock ?_ rfl rfl rfl, fun hf => hlock ?_ rfl rfl rfl⟩
  · simpa [State.contribute, hf] using hset (.inl hf)
  · simpa [State.contribute, hf, he] using hset (.inr hf)
  · simp [State.contribute, hf, he]
  · rcases hf with hf | hf <;> simp [State.contribute, hf]
  · rcases s.serving_iff.mp hs with hf | hf | hf <;> simp [State.enterLockout, hf]
  · simp [State.enterLockout, hf]

end Sys2Proof.Machine

/-! PROOFS. The condition monitors (O43, O44). -/

namespace Sys2Proof.Machine

/-! ### MONITOR_SET (R159) -/

theorem MonitorSettings.ofFields_none {v : MonitorFields} (h : 1 < v.polarity ∨ 1 < v.function ∨ 3 < v.action) :
    MonitorSettings.ofFields v = none := by
  unfold MonitorSettings.ofFields
  rcases h with h | h | h
  · obtain ⟨k, hk⟩ := Nat.exists_eq_add_of_le' h
    simp [hk]
  · obtain ⟨k, hk⟩ := Nat.exists_eq_add_of_le' h
    simp [hk]
  · obtain ⟨k, hk⟩ := Nat.exists_eq_add_of_le' h
    simp [hk]

theorem MonitorSettings.ofFields_some {v : MonitorFields} {m : MonitorSettings} (hmask : m.mask = v.mask) (hp : m.polarity.code = v.polarity)
    (hf : m.function.code = v.function) (ha : m.action.code = v.action) : MonitorSettings.ofFields v = some m := by
  obtain ⟨mask, polarity, function, action⟩ := m
  subst hmask
  simp only [MonitorSettings.ofFields, ← hp, ← hf, ← ha]
  cases polarity <;> cases function <;> cases action <;> rfl

theorem exec_monitorSet_of_takes {h : ReqHead} {s : State} (ht : s.Takes h .monitorSet) (v : MonitorFields) :
    exec (.monitorSet h v) s =
      .next (match MonitorSettings.ofFields v with
        | some m =>
          if v.number ≤ 3 then
            State.accept { s with monitors := s.monitors.setIfInBounds v.number { settings := m, previous := false } } h.number .monitorSet
              (.monitor m (m.result s.sensorWord))
          else s.refuse h.number RequestKind.monitorSet.code .badValue
        | none => s.refuse h.number RequestKind.monitorSet.code .badValue) :=
  taken_request ht _

/-- Settles O44: codes outside the ranges name no settings, those inside name the settings stored. -/
theorem monitorSetReplacesSettings : Obligations.MonitorSetReplacesSettings := by
  refine fun h v s ht => ⟨fun hbad => ?_, fun i m hi hmask hp hf ha => ?_⟩
  · rw [exec_monitorSet_of_takes ht]
    rcases hbad with hn | hv
    · cases MonitorSettings.ofFields v with
      | none => rfl
      | some m => exact congrArg _ (if_neg (by omega))
    · rw [MonitorSettings.ofFields_none hv]
      rfl
  · rw [exec_monitorSet_of_takes ht, MonitorSettings.ofFields_some hmask hp hf ha, hi]
    refine congrArg _ ((if_pos (by omega)).trans ?_)
    have hset (x : Monitor) : s.monitors.setIfInBounds i.val x = s.monitors.set i x :=
      Vector.ext fun k hk => by rw [Vector.getElem_setIfInBounds, Vector.getElem_set]
    rw [hset]

/-! ### What the action of one monitor does (R155 to R158) -/

/-- A posting changes the channels and what waits for the line, nothing else. -/
theorem post_franking (s : State) (code : CauseCode) (tag : Option Nat) (detail : List (Option Nat)) :
    (s.post code tag detail).franking = s.franking :=
  (post_reach (Q := False) s code tag detail).franking_eq (by decide)

theorem post_causes (s : State) (code : CauseCode) (tag : Option Nat) (detail : List (Option Nat)) :
    (s.post code tag detail).causes = s.causes :=
  (post_reach (Q := False) s code tag detail).causes_eq (by decide)

theorem post_lockoutFlag (s : State) (code : CauseCode) (tag : Option Nat) (detail : List (Option Nat)) :
    (s.post code tag detail).lockoutFlag = s.lockoutFlag :=
  (post_reach (Q := False) s code tag detail).lockoutFlag_eq (by decide)

/-- An abort error leaves a configured part in LOCKOUT, with the lockout flag written where it was not there before (R170, R175). -/
theorem raiseAbort_locks {s : State} (hs : s.franking ≠ .unconfigured) (code : CauseCode) (tag : Option Nat) (detail : List (Option Nat)) :
    (s.raiseAbort code tag detail).franking = .lockout ∧ (s.franking = .lockout ∨ (s.raiseAbort code tag detail).lockoutFlag = true) := by
  have hcap (u : State) := captureError_reach (Q := False) u .abort code tag s.franking detail
  unfold State.raiseAbort
  rw [post_franking, post_lockoutFlag, (hcap _).franking_eq (by decide), (hcap _).lockoutFlag_eq (by decide)]
  cases hf : s.franking <;> simp_all [State.enterLockout]

theorem raiseAbort_lockoutFlag {s : State} (hflag : s.lockoutFlag = true) (code : CauseCode) (tag : Option Nat) (detail : List (Option Nat)) :
    (s.raiseAbort code tag detail).lockoutFlag = true := by
  have hcap (u : State) := captureError_reach (Q := False) u .abort code tag s.franking detail
  unfold State.raiseAbort
  rw [post_lockoutFlag, (hcap _).lockoutFlag_eq (by decide)]
  cases hf : s.franking <;> simp [State.enterLockout, hf, hflag]

/-- The franking state that a monitor's action leaves (R155 to R158). -/
def MonitorAction.leaves : MonitorAction → FrankingState → FrankingState
  | .notify, f => f
  | .stop, f => if f = .running then .held else f
  | .halt, f => if f = .lockout then .lockout else .halted
  | .lock, _ => .lockout

theorem FrankingState.follow_monitor (f : FrankingState) (c : HoldCauses) :
    f.follow { c with monitor := true } = if f = .running then .held else f := by
  cases f <;> simp [FrankingState.follow, HoldCauses.isEmpty]

section
variable {u : State} (hu : u.franking ≠ .unconfigured) (word : Flags16) (number : Nat) (a : MonitorAction)

theorem monitorHalt_eq (hu : u.franking ≠ .unconfigured) :
    u.monitorHalt = { u with franking := if u.franking = .lockout then .lockout else .halted } := by
  unfold State.monitorHalt
  cases hf : u.franking <;> simp_all
  · rw [← hf]
  · rw [← hf]

include hu in
theorem monitorAction_franking : (u.monitorAction word number a).franking = a.leaves u.franking := by
  cases a with
  | notify => exact post_franking _ _ _ _
  | stop => exact (post_franking _ _ _ _).trans (FrankingState.follow_monitor _ _)
  | halt => exact (post_franking _ _ _ _).trans (by rw [monitorHalt_eq hu]; rfl)
  | lock => exact (raiseAbort_locks hu _ _ _).1

include hu in
theorem monitorAction_causes :
    (u.monitorAction word number a).causes = if a = .stop then { u.causes with monitor := true } else u.causes := by
  cases a with
  | notify => exact post_causes _ _ _ _
  | stop => exact post_causes _ _ _ _
  | halt => exact (post_causes _ _ _ _).trans (by rw [monitorHalt_eq hu]; rfl)
  | lock => exact (raiseAbort_reach (Q := False) u _ _ _).causes_eq (by decide)

include hu in
theorem monitorAction_lockoutFlag (hflag : u.lockoutFlag = true) : (u.monitorAction word number a).lockoutFlag = true := by
  cases a with
  | notify => exact (post_lockoutFlag _ _ _ _).trans hflag
  | stop => exact (post_lockoutFlag _ _ _ _).trans hflag
  | halt => exact (post_lockoutFlag _ _ _ _).trans (by rw [monitorHalt_eq hu]; exact hflag)
  | lock => exact raiseAbort_lockoutFlag hflag _ _ _

include hu in
theorem monitorAction_word :
    (u.monitorAction word number a).sensorWord = u.sensorWord ∧ (u.monitorAction word number a).monitors = u.monitors := by
  have hpost (v : State) (code : CauseCode) (detail : List (Option Nat)) := post_reach (Q := False) v code none detail
  cases a with
  | notify => exact ⟨(hpost _ _ _).sensorWord_eq (by decide), (hpost _ _ _).monitors_eq (by decide)⟩
  | stop => exact ⟨(hpost _ _ _).sensorWord_eq (by decide), (hpost _ _ _).monitors_eq (by decide)⟩
  | halt =>
    have hhalt := monitorHalt_eq hu
    exact ⟨((hpost _ _ _).sensorWord_eq (by decide)).trans (by rw [hhalt]), ((hpost _ _ _).monitors_eq (by decide)).trans (by rw [hhalt])⟩
  | lock =>
    have hlock := raiseAbort_reach (Q := False) u .monitorLock none [some number, some word.toNat]
    exact ⟨hlock.sensorWord_eq (by decide), hlock.monitors_eq (by decide)⟩

end

/-! ### The actions of the monitors in turn -/

theorem MonitorAction.leaves_configured {f : FrankingState} (hf : f ≠ .unconfigured) (a : MonitorAction) : a.leaves f ≠ .unconfigured := by
  cases a <;> simp only [MonitorAction.leaves] <;> cases f <;> simp_all

theorem MonitorAction.leaves_lockout {f : FrankingState} {a : MonitorAction} (h : a.leaves f = .lockout) : a = .lock ∨ f = .lockout := by
  cases a <;> cases f <;> simp_all [MonitorAction.leaves]

/-- The acting monitors' actions, carried out in turn (R153). -/
def State.actInTurn (s : State) (word : Flags16) (action : Fin 4 → MonitorAction) (l : List (Fin 4)) : State :=
  l.foldl (fun u i => u.monitorAction word i.val (action i)) s

section
variable {s : State} (hs : s.franking ≠ .unconfigured) {word : Flags16} {action : Fin 4 → MonitorAction} {l : List (Fin 4)}

include hs

/-- What holds at first, or what one of the actions makes true, holds at the end where each action keeps it. -/
theorem actInTurn_establishes {I P : State → Prop}
    (hI : ∀ i ∈ l, ∀ u, u.franking ≠ .unconfigured → I u → I (u.monitorAction word i.val (action i)))
    (hP : ∀ i ∈ l, ∀ u, u.franking ≠ .unconfigured → I u → P u → P (u.monitorAction word i.val (action i))) (hstart : I s)
    (hmake : P s ∨ ∃ i ∈ l, ∀ u, u.franking ≠ .unconfigured → I u → P (u.monitorAction word i.val (action i))) :
    I (s.actInTurn word action l) ∧ P (s.actInTurn word action l) := by
  induction l generalizing s with
  | nil => exact ⟨hstart, hmake.resolve_right (by simp)⟩
  | cons i l ih =>
    obtain ⟨hIi, hIl⟩ := List.forall_mem_cons.mp hI
    obtain ⟨hPi, hPl⟩ := List.forall_mem_cons.mp hP
    refine ih (by rw [monitorAction_franking hs]; exact MonitorAction.leaves_configured hs _) hIl hPl (hIi s hs hstart) ?_
    rcases hmake with hp | ⟨k, hk, hmake⟩
    · exact .inl (hPi s hs hstart hp)
    · rcases List.mem_cons.mp hk with rfl | hk
      · exact .inl (hmake s hs hstart)
      · exact .inr ⟨k, hk, hmake⟩

theorem actInTurn_word : (s.actInTurn word action l).sensorWord = s.sensorWord ∧ (s.actInTurn word action l).monitors = s.monitors := by
  refine (actInTurn_establishes hs (I := fun _ => True) (P := fun u => u.sensorWord = s.sensorWord ∧ u.monitors = s.monitors)
    (fun _ _ _ _ _ => trivial) (fun i _ u hu _ hP => ?_) trivial (.inl ⟨rfl, rfl⟩)).2
  obtain ⟨hword, hmonitors⟩ := monitorAction_word hu word i.val (action i)
  exact ⟨hword.trans hP.1, hmonitors.trans hP.2⟩

/-- LOCK wins over every other action (R158). -/
theorem actInTurn_lock (h : ∃ i ∈ l, action i = .lock) :
    (s.actInTurn word action l).franking = .lockout ∧ (s.franking = .lockout ∨ (s.actInTurn word action l).lockoutFlag = true) := by
  obtain ⟨i, hi, hlock⟩ := h
  have hend := actInTurn_establishes hs (word := word) (action := action) (l := l)
    (I := fun u => u.franking = .lockout → s.franking = .lockout ∨ u.lockoutFlag = true) (P := fun u => u.franking = .lockout)
    (fun i _ u hu hI hl => ?_) (fun i _ u hu _ hP => ?_) .inl (.inr ⟨i, hi, fun u hu _ => ?_⟩)
  · exact ⟨hend.2, hend.1 hend.2⟩
  · rw [monitorAction_franking hu] at hl
    have hkeep (hf : u.franking = .lockout) := (hI hf).imp_right (monitorAction_lockoutFlag hu word i.val (action i))
    rcases MonitorAction.leaves_lockout hl with ha | hf
    · rw [ha] at hkeep ⊢
      exact (raiseAbort_locks hu .monitorLock none [some i.val, some word.toNat]).2.elim hkeep .inr
    · exact hkeep hf
  · rw [monitorAction_franking hu, hP]
    cases action i <;> simp [MonitorAction.leaves]
  · rw [monitorAction_franking hu, hlock]
    rfl

/-- HALT wins over STOP (R157). -/
theorem actInTurn_halt (hno : ∀ i ∈ l, action i ≠ .lock) (h : ∃ i ∈ l, action i = .halt) :
    (s.actInTurn word action l).franking = if s.franking = .lockout then .lockout else .halted := by
  obtain ⟨i, hi, hhalt⟩ := h
  refine (actInTurn_establishes hs (I := fun u => u.franking = .lockout ↔ s.franking = .lockout)
    (P := fun u => u.franking = if s.franking = .lockout then .lockout else .halted)
    (fun i hi u hu hI => ?_) (fun i hi u hu _ hP => ?_) Iff.rfl (.inr ⟨i, hi, fun u hu hI => ?_⟩)).2
  · have ha := hno i hi
    rw [monitorAction_franking hu, ← hI]
    refine ⟨fun hl => (MonitorAction.leaves_lockout hl).resolve_left ha, fun hf => ?_⟩
    cases hact : action i <;> simp_all [MonitorAction.leaves]
  · have ha := hno i hi
    rw [monitorAction_franking hu, hP]
    cases hact : action i <;> split <;> simp_all [MonitorAction.leaves]
  · rw [monitorAction_franking hu, hhalt]
    simp only [MonitorAction.leaves, hI]

theorem actInTurn_stop (h : ∃ i ∈ l, action i = .stop) : (s.actInTurn word action l).causes = { s.causes with monitor := true } := by
  obtain ⟨i, hi, hstop⟩ := h
  refine (actInTurn_establishes hs
    (I := fun u => ({ u.causes with monitor := true } : HoldCauses) = { s.causes with monitor := true })
    (P := fun u => u.causes = { s.causes with monitor := true })
    (fun i hi u hu hI => ?_) (fun i hi u hu _ hP => ?_) rfl (.inr ⟨i, hi, fun u hu hI => ?_⟩)).2
  · rw [monitorAction_causes hu, ← hI]
    split <;> rfl
  · rw [monitorAction_causes hu, hP]
    split <;> rfl
  · rw [monitorAction_causes hu, if_pos hstop, hI]

end

/-! ### LINE_STATUS (R150, R153) -/

/-- The state in which the monitors act: the word and the results are kept, and a STOP_REQUEST lists the monitors that call for one. -/
def State.evaluated (s : State) (word : Flags16) : State :=
  { s with sensorWord := word, monitors := s.monitors.map fun m => { m with previous := m.settings.result word } }

theorem takeWord_eq (s : State) (word : Flags16) :
    s.takeWord word =
      ((s.evaluated word).requestStop word
        (((actingMonitors s.monitors word).filter fun i => s.monitors[i].settings.action.stops).map (·.val))).actInTurn word
          (fun i => s.monitors[i].settings.action) (actingMonitors s.monitors word) := rfl

theorem requestStop_eq (u : State) (word : Flags16) (l : List (Fin 4)) :
    u.requestStop word (l.map (·.val)) = if l = [] then u else u.sendLine (.stopMonitors (l.map (·.val)) word) := by
  cases l <;> rfl

theorem MonitorAction.stops_eq (a : MonitorAction) : a.stops = decide (a ≠ .notify) := by
  cases a <;> rfl

theorem exec_lineStatus_configured {s : State} (hp : s.power = .on) (hf : s.franking ≠ .unconfigured) (word : Flags16) :
    exec (.lineStatus word) s = .next (s.takeWord word) := by
  rw [exec_lineStatus, taken_on hp, if_neg hf]

/-- Settles O43: the monitors' actions, taken in turn, each keep what a stronger one has done. -/
theorem lineStatusIsEvaluated : Obligations.LineStatusIsEvaluated := by
  intro word s hp hf acting stopping evaluated stopped
  have hstopped : s.takeWord word = stopped.actInTurn word (fun i => s.monitors[i].settings.action) acting := by
    rw [takeWord_eq, requestStop_eq]
    simp only [MonitorAction.stops_eq]
    rfl
  have hkeeps : stopped.franking = s.franking ∧ stopped.causes = s.causes ∧ stopped.sensorWord = word ∧
      stopped.monitors = evaluated.monitors := by
    simp only [stopped]
    split <;> exact ⟨rfl, rfl, rfl, rfl⟩
  obtain ⟨hfranking, hcauses, hword, hmonitors⟩ := hkeeps
  have hconf : stopped.franking ≠ .unconfigured := by rwa [hfranking]
  rw [exec_lineStatus_configured hp hf, hstopped]
  refine ⟨⟨_, rfl, ?_, ?_, fun hlock => ?_, fun hno hhalt => ?_, fun hstop => ?_⟩, fun hnone => ?_, ?_⟩
  · exact (actInTurn_word hconf).1.trans hword
  · exact (actInTurn_word hconf).2.trans hmonitors
  · rw [← hfranking]
    exact actInTurn_lock hconf hlock
  · rw [← hfranking]
    exact actInTurn_halt hconf hno hhalt
  · rw [← hcauses]
    exact actInTurn_stop hconf hstop
  · have hquiet : stopped = evaluated := if_pos (by simp only [stopping, hnone, List.filter_nil])
    rw [hnone, hquiet]
    rfl
  · intro act
    have hact (u : State) (hu : u.franking ≠ .unconfigured) (i : Fin 4) :
        u.monitorAction word i.val s.monitors[i].settings.action = act u i := by
      simp only [act]
      cases s.monitors[i].settings.action with
      | halt => exact congrArg (fun v : State => v.post _ _ _) (monitorHalt_eq hu)
      | _ => rfl
    refine congrArg _ ?_
    suffices hall : ∀ (l : List (Fin 4)) (u : State), u.franking ≠ .unconfigured →
        u.actInTurn word (fun i => s.monitors[i].settings.action) l = l.foldl act u from hall acting stopped hconf
    intro l
    induction l with
    | nil => exact fun _ _ => rfl
    | cons i l ih =>
      intro u hu
      rw [List.foldl_cons, ← hact u hu]
      exact ih _ (by rw [monitorAction_franking hu]; exact MonitorAction.leaves_configured hu _)

end Sys2Proof.Machine

/-! PROOFS. CREDIT and DATE, and what the print port takes (O50, O56). -/

namespace Sys2Proof.Machine

/-! ### CREDIT and DATE (R109, R111) -/

section
variable {h : ReqHead} {s : State}

theorem exec_credit_of_takes (ht : s.Takes h .credit) (number amount : Nat) :
    exec (.credit h number amount) s =
      .next (match s.creditRefusal number amount with
        | some r => s.refuse h.number RequestKind.credit.code r
        | none => { s with queue := s.queue ++ [.credit h.number number amount] }) :=
  taken_request ht _

theorem exec_credit_refused (ht : s.Takes h .credit) {number amount : Nat} {r : Reason} (hr : s.creditRefusal number amount = some r) :
    exec (.credit h number amount) s = .next (s.refuse h.number 0x50 r) := by
  rw [exec_credit_of_takes ht, hr]
  rfl

theorem creditInFlight_iff (s : State) : s.creditInFlight = true ↔ ∃ w ∈ s.queue, w.isCredit = true := List.any_eq_true

theorem exec_date_of_takes (ht : s.Takes h .date) (day : Nat) :
    exec (.date h day) s =
      .next (match dateRefusal s.accounts.lastUsed day with
        | some r => s.refuse h.number RequestKind.date.code r
        | none => ((State.takeDateSwitch { s with mailingDate := some day } day).accept h.number .date .nothing).commitTest) :=
  taken_request ht _

theorem exec_date_refused (ht : s.Takes h .date) {day : Nat} {r : Reason} (hr : dateRefusal s.accounts.lastUsed day = some r) :
    exec (.date h day) s = .next (s.refuse h.number 0x51 r) := by
  rw [exec_date_of_takes ht, hr]
  rfl

theorem dateRefusal_none {lastUsed : Option Nat} {day : Nat} (h : ∀ last, lastUsed = some last → last ≤ day ∧ day ≤ last + 31) :
    dateRefusal lastUsed day = none := by
  cases lastUsed with
  | none => rfl
  | some last =>
    obtain ⟨hlow, hhigh⟩ := h last rfl
    exact (if_neg (by omega)).trans (if_neg (show ¬last + 31 < day by omega))

theorem takeDateSwitch_stays {day : Nat} (h : ∀ x, s.pendingSwitch = some x → x.mode = .atJob ∨ day < (s.banks.get x.target).effectiveDay) :
    s.takeDateSwitch day = s := by
  unfold State.takeDateSwitch
  split
  · next target hx => exact if_neg (by simpa using h _ hx)
  · rfl
  · rfl

theorem takeDateSwitch_due {day : Nat} {x : PendingSwitch} (hx : s.pendingSwitch = some x) (hm : x.mode = .atDate)
    (hd : (s.banks.get x.target).effectiveDay ≤ day) : s.takeDateSwitch day = s.switchTo x.target none := by
  obtain ⟨target, mode⟩ := x
  cases hm
  simp only [State.takeDateSwitch, hx]
  exact if_pos hd

end

/-- Settles O50: the tests of R109 and R111 in their order. -/
theorem creditAndDateRequests : Obligations.CreditAndDateRequests := by
  refine ⟨fun h number amount s ht => ?_, fun h day s ht => ?_⟩
  · intro a busy
    have hbusy : busy ↔ s.creditInFlight = true := (creditInFlight_iff s).symm
    refine ⟨fun hb => ?_, fun hb h0 => ?_, fun hb h0 hn => ?_, fun hb h0 hn hd => ?_, fun hb h0 hn hd => ?_⟩
    · exact exec_credit_refused ht (if_pos (hbusy.mp hb))
    · exact exec_credit_refused ht ((if_neg (hbusy.not.mp hb)).trans (if_pos h0))
    · exact exec_credit_refused ht ((if_neg (hbusy.not.mp hb)).trans ((if_neg h0).trans (if_pos hn)))
    · exact exec_credit_refused ht
        ((if_neg (hbusy.not.mp hb)).trans ((if_neg h0).trans ((if_neg (not_not.mpr hn)).trans (if_pos hd))))
    · have hnone : s.creditRefusal number amount = none :=
        (if_neg (hbusy.not.mp hb)).trans ((if_neg h0).trans ((if_neg (not_not.mpr hn)).trans (if_neg (Nat.not_lt.mpr hd))))
      rw [exec_credit_of_takes ht, hnone]
  · intro dated
    refine ⟨fun last hl hd => ?_, fun last hl hd => ?_, fun hin => ⟨fun hstay => ?_, fun x hx hm hdue => ?_⟩⟩
    · exact exec_date_refused ht (by rw [hl]; exact if_pos hd)
    · exact exec_date_refused ht (by rw [hl]; exact (if_neg (by omega)).trans (if_pos hd))
    · rw [exec_date_of_takes ht, dateRefusal_none hin]
      exact congrArg (fun u : State => Host.Outcome.next (u.accept h.number .date .nothing).commitTest) (takeDateSwitch_stays (s := dated) hstay)
    · rw [exec_date_of_takes ht, dateRefusal_none hin]
      exact congrArg (fun u : State => Host.Outcome.next (u.accept h.number .date .nothing).commitTest)
        (takeDateSwitch_due (s := dated) hx hm hdue)

/-! ### The print port (R125 to R133) -/

theorem exec_printerState (code : Nat) (s : State) :
    exec (.printerState code) s = s.taken fun s =>
      if PrinterState.ofCode code = .ready ∧ s.printer ≠ .ready then State.commitTest { s with printer := .ofCode code }
      else { s with printer := .ofCode code } := rfl

theorem PrinterState.ofCode_pos {code : Nat} (h : code ≠ 0) : PrinterState.ofCode code = .notReady := by
  obtain ⟨k, rfl⟩ := Nat.exists_eq_succ_of_ne_zero h
  rfl

theorem CloseKind.ofResult_unknown {outcome : Nat} (h : 2 ≤ outcome) : CloseKind.ofResult outcome = .spoil := by
  obtain ⟨k, rfl⟩ := Nat.exists_eq_add_of_le' h
  rfl

theorem resultCode_eq (outcome : Nat) : resultCode outcome = if outcome = 0 then 0 else if outcome = 1 then 1 else 2 := by
  unfold resultCode
  split_ifs <;> omega

/-- The entry that a tag finds holds the tag. -/
theorem order?_tag {s : State} {tag : Nat} {o : Order} (h : s.order? tag = some o) : o.tag = tag := by
  simpa using List.find?_some h

theorem exec_orderTaken (tag : Nat) (s : State) :
    exec (.orderTaken tag) s = s.taken fun s =>
      match s.order? tag with
      | none => s.lateRecord
      | some o =>
        if o.taken then s.lateRecord
        else
          { s with orders := s.orders.map fun o => if o.tag == tag then { o with taken := true, duration := s.settings.tResult } else o } := rfl

theorem exec_printResult (tag outcome : Nat) (s : State) :
    exec (.printResult tag outcome) s = s.taken fun s =>
      match s.order? tag with
      | none => s.lateResult tag outcome
      | some o => State.commitTest (if CloseKind.ofResult outcome = .spoil then
          (s.closeOrder o (.ofResult outcome)).raiseContributory .printUnknown (some tag) [some o.n]
        else s.closeOrder o (.ofResult outcome)) := rfl

/-- A closing write of an order waits in a queue. -/
theorem any_closes (q : List Write) (n : Nat) :
    q.any (Write.closes n) = q.any fun w => match w with | .close _ _ m _ => m == n | _ => false :=
  congrArg q.any (funext fun w => by cases w <;> rfl)

section
variable {s : State} {tag : Nat}

theorem exec_orderTaken_late (hp : s.power = .on) (h : ∀ o, s.order? tag = some o → o.taken = true) :
    exec (.orderTaken tag) s = .next s.lateRecord := by
  rw [exec_orderTaken, taken_on hp]
  cases ho : s.order? tag with
  | none => rfl
  | some o => exact congrArg _ (if_pos (h o ho))

theorem exec_orderTaken_first (hp : s.power = .on) {o : Order} (ho : s.order? tag = some o) (hf : o.taken = false) :
    exec (.orderTaken tag) s =
      .next { s with orders := s.orders.map fun o => if o.tag == tag then { o with taken := true, duration := s.settings.tResult } else o } := by
  rw [exec_orderTaken, taken_on hp, ho]
  exact congrArg _ (if_neg (by simp [hf]))

theorem exec_printResult_late (hp : s.power = .on) (ho : s.order? tag = none) (outcome : Nat) :
    exec (.printResult tag outcome) s = .next (s.lateResult tag outcome) := by
  rw [exec_printResult, taken_on hp, ho]

theorem exec_printResult_of_order (hp : s.power = .on) {o : Order} (ho : s.order? tag = some o) (outcome : Nat) :
    exec (.printResult tag outcome) s =
      .next (State.commitTest (if CloseKind.ofResult outcome = .spoil then
          (s.closeOrder o (.ofResult outcome)).raiseContributory .printUnknown (some tag) [some o.n]
        else s.closeOrder o (.ofResult outcome))) := by
  rw [exec_printResult, taken_on hp, ho]

theorem exec_takeTimerExpiry (s : State) (tag : Nat) :
    exec (.takeTimerExpiry tag) s = s.taken fun s =>
      match s.order? tag with
      | none => s
      | some o => if o.taken then s else s.timeout o .printTakeTimeout := rfl

theorem exec_resultTimerExpiry (s : State) (tag : Nat) :
    exec (.resultTimerExpiry tag) s = s.taken fun s =>
      match s.order? tag with
      | none => s
      | some o => if o.taken then s.timeout o .printResultTimeout else s := rfl

end

/-- Settles O56: an order that a tag finds is closed by its result or its timer, any other record is late. -/
theorem printRecordsAndTimeouts : Obligations.PrintRecordsAndTimeouts := by
  refine ⟨fun code s hp => ⟨?_, ?_, fun hcode => ?_⟩, fun tag s hp => ⟨fun o ho hf => exec_orderTaken_first hp ho hf, exec_orderTaken_late hp⟩,
    fun tag s hp => ⟨fun ho => ⟨fun outcome => ?_, ?_, ?_⟩, fun o ho => ?_⟩⟩
  · rintro rfl hn
    rw [exec_printerState, taken_on hp]
    exact congrArg _ (if_pos ⟨rfl, by simp [hn]⟩)
  · rintro rfl hr
    rw [exec_printerState, taken_on hp, if_neg (by simp [hr])]
    exact congrArg (fun r => Host.Outcome.next { s with printer := r }) hr.symm
  · rw [exec_printerState, taken_on hp, PrinterState.ofCode_pos hcode]
    rfl
  · rw [exec_printResult_late hp ho, ← resultCode_eq]
    rfl
  · rw [exec_takeTimerExpiry, taken_on hp, ho]
  · rw [exec_resultTimerExpiry, taken_on hp, ho]
  · intro isOpen closing asked
    have hasked (kind : CloseKind) : s.closeOrder o kind = asked kind := by
      rw [State.closeOrder, requestClose_eq]
      simp only [State.closeTaken, any_closes, asked, isOpen, closing] <;> rfl
    have htag := order?_tag ho
    refine ⟨?_, ?_, fun outcome hout => ?_, fun hf => ⟨?_, ?_⟩, fun hf => ⟨?_, ?_⟩⟩
    · rw [exec_printResult_of_order hp ho]
      exact congrArg (fun u : State => Host.Outcome.next u.commitTest) (hasked .confirm)
    · rw [exec_printResult_of_order hp ho]
      exact congrArg (fun u : State => Host.Outcome.next u.commitTest) (hasked .void)
    · rw [exec_printResult_of_order hp ho, CloseKind.ofResult_unknown hout, if_pos rfl, hasked]
    · rw [exec_takeTimerExpiry, taken_on hp, ho]
      simp only [hf, Bool.false_eq_true, if_false, State.timeout, hasked, htag]
    · rw [exec_resultTimerExpiry, taken_on hp, ho]
      simp only [hf, Bool.false_eq_true, if_false]
    · rw [exec_resultTimerExpiry, taken_on hp, ho]
      simp only [hf, if_true, State.timeout, hasked, htag]
    · rw [exec_takeTimerExpiry, taken_on hp, ho]
      simp only [hf, if_true]

end Sys2Proof.Machine

/-! PROOFS. CONFIGURE, and the commands that report, count or transmit (O57, O60). -/

namespace Sys2Proof.Machine

/-! ### CONFIGURE (R165, R194) -/

theorem NoticeMode.ofCode_none {code : Nat} (h : 2 ≤ code) : NoticeMode.ofCode code = none := by
  obtain ⟨k, rfl⟩ := Nat.exists_eq_add_of_le' h
  rfl

theorem clamp_eq (lo hi v : Nat) (h : lo ≤ hi) : clamp lo hi v = max lo (min hi v) := by
  unfold clamp
  split_ifs <;> omega

theorem clamp_zero (hi v : Nat) : clamp 0 hi v = min hi v := by
  rw [clamp_eq 0 hi v (Nat.zero_le _), Nat.zero_max]

theorem clamp_ne_iff {lo hi v : Nat} (h : lo ≤ hi) : (clamp lo hi v != v) = true ↔ ¬(lo ≤ v ∧ v ≤ hi) := by
  rw [bne_iff_ne, clamp_eq lo hi v h]
  omega

section
variable {v : ConfigureFields} {mode : NoticeMode}

theorem Settings.ofFields_eq (v : ConfigureFields) (mode : NoticeMode) :
    Settings.ofFields v mode =
      { vectorBase := v.vectorBase, noticeMode := mode, tTake := max 5 (min 500 v.tTake), tResult := max 50 (min 5000 v.tResult)
        maxOutstanding := max 1 (min 4 v.maxOutstanding), lowThreshold := min 99999999 v.lowThreshold } := by
  simp only [Settings.ofFields, clamp_zero, clamp_eq 5 500 _ (by decide), clamp_eq 50 5000 _ (by decide), clamp_eq 1 4 _ (by decide)]
  rfl

theorem clampedFrom_eq (v : ConfigureFields) (mode : NoticeMode) :
    (Settings.ofFields v mode).clampedFrom v =
      !decide (5 ≤ v.tTake ∧ v.tTake ≤ 500 ∧ 50 ≤ v.tResult ∧ v.tResult ≤ 5000 ∧ 1 ≤ v.maxOutstanding ∧ v.maxOutstanding ≤ 4 ∧
        v.lowThreshold ≤ 99999999) := by
  rw [Bool.eq_iff_iff]
  simp only [Settings.clampedFrom, Settings.ofFields, Bool.or_eq_true, clamp_ne_iff (show 5 ≤ 500 by decide),
    clamp_ne_iff (show 50 ≤ 5000 by decide), clamp_ne_iff (show 1 ≤ 4 by decide), clamp_ne_iff (Nat.zero_le _), Bool.not_eq_true',
    decide_eq_false_iff_not]
  show (_ ∨ ¬(0 ≤ v.lowThreshold ∧ v.lowThreshold ≤ 99999999)) ↔ _
  omega

end

theorem FrankingState.configured_eq (f : FrankingState) (c : HoldCauses) :
    f.configured c = if f = .unconfigured then (if c.isEmpty then .running else .held) else f := by
  cases f <;> rfl

theorem exec_configure_of_takes {h : ReqHead} {s : State} (ht : s.Takes h .configure) (v : ConfigureFields) :
    exec (.configure h v) s =
      .next (match NoticeMode.ofCode v.noticeMode with
        | none => s.refuse h.number RequestKind.configure.code .badValue
        | some mode => s.configure h.number v mode) :=
  taken_request ht _

/-- Settles O57: the clamped values, then whom a change is told to. -/
theorem configureSetsTheValues : Obligations.ConfigureSetsTheValues := by
  refine fun h v s ht => ⟨fun hbad => ?_, fun mode hmode => ?_⟩
  · rw [exec_configure_of_takes ht, NoticeMode.ofCode_none hbad]
    rfl
  · intro st fits franking set tested
    have hst : Settings.ofFields v mode = st := Settings.ofFields_eq v mode
    have hfits : (Settings.ofFields v mode).clampedFrom v = !fits := clampedFrom_eq v mode
    have hset : State.acceptClamped { s with settings := Settings.ofFields v mode, franking := s.franking.configured s.causes } h.number .configure
        ((Settings.ofFields v mode).clampedFrom v) (.configured (Settings.ofFields v mode)) = set := by
      rw [hfits, hst, FrankingState.configured_eq]
    have htested : (if s.settings.noticeMode ≠ mode then set.sendingTest else set) = tested := by
      by_cases hm : mode = s.settings.noticeMode
      · simp only [tested, hm, ne_eq, not_true, if_false, if_true]
      · simp only [tested, hm, if_false, if_pos (Ne.symm hm)]
    have hfranking : tested.franking = franking := by
      simp only [tested]
      split
      · rfl
      · exact (sendingTest_reach (Q := False) set).franking_eq (by decide)
    rw [exec_configure_of_takes ht, hmode]
    have hconfigure : s.configure h.number v mode =
        if s.settings.maxOutstanding ≠ (Settings.ofFields v mode).maxOutstanding then tested.commitTest else tested.passRunning s.franking := by
      rw [← htested, ← hset]
      rfl
    refine congrArg _ (hconfigure.trans ?_)
    rw [hst]
    by_cases hmax : s.settings.maxOutstanding ≠ st.maxOutstanding
    · rw [if_pos hmax, if_pos (.inl hmax)]
    · rw [if_neg hmax]
      unfold State.passRunning
      refine if_congr ?_ rfl rfl
      rw [hfranking]
      simp only [hmax, false_or]
      refine and_congr_left fun hrun => ?_
      simp only [franking] at hrun
      split at hrun
      · next hun => simp [hun]
      · next hun => simp [hun, hrun]

end Sys2Proof.Machine

namespace Sys2Proof.Machine

/-! ### The first channel of a kind (R179, R186) -/

/-- The search through the channels finds the lowest-numbered one that passes. -/
theorem channelOrder_find {q : Fin 8 → Bool} {c : Fin 8} (hc : q c = true) (hlow : ∀ k, k < c → q k = false) :
    channelOrder.find? q = some c := by
  have hfin : channelOrder = List.finRange 8 := rfl
  rw [hfin]
  cases hf : (List.finRange 8).find? q with
  | none => exact absurd hc (List.find?_eq_none.mp hf c (List.mem_finRange c))
  | some d =>
    obtain ⟨hd, pre, post, hsplit, hpre⟩ := List.find?_eq_some_iff_append.mp hf
    have hsorted : (pre ++ d :: post).Pairwise (· < ·) := hsplit ▸ List.pairwise_lt_finRange 8
    have hmem : c ∈ pre ++ d :: post := hsplit ▸ List.mem_finRange c
    obtain ⟨-, hright, -⟩ := List.pairwise_append.mp hsorted
    rcases lt_trichotomy d c with hlt | rfl | hgt
    · rw [hlow d hlt] at hd
      cases hd
    · rfl
    · rcases List.mem_append.mp hmem with hm | hm
      · have := hpre c hm
        simp [hc] at this
      · rcases List.mem_cons.mp hm with rfl | hm
        · rfl
        · exact absurd ((List.pairwise_cons.mp hright).1 c hm) (not_lt.mpr hgt.le)

theorem channelOrder_find_none {q : Fin 8 → Bool} (h : ∀ c, q c = false) : channelOrder.find? q = none :=
  List.find?_eq_none.mpr fun c _ => by simp [h c]

section
variable {s : State}

theorem reportedChannel_none (h : ∀ c : Fin 8, s.channels[c].pending = false) : s.reportedChannel = none :=
  channelOrder_find_none h

theorem reportedChannel_some {c : Fin 8} (hc : s.channels[c].pending = true) (hlow : ∀ k : Fin 8, k < c → s.channels[k].pending = false) :
    s.reportedChannel = some c :=
  channelOrder_find hc hlow

/-! ### The requests that every franking state takes (R163) -/

/-- A working part takes a request of matching length that no franking state refuses. -/
theorem takes_always {h : ReqHead} {k : RequestKind} (hp : s.power = .on) (hl : h.lenOk = true) (hk : ∀ f, k.stateRefusal f = none) : s.Takes h k :=
  { working := hp, length := hl, state := hk _ }

theorem exec_identify_of_takes {h : ReqHead} (ht : s.Takes h .identify) :
    exec (.identify h) s = .next (s.accept h.number .identify (.identity s.accounts.serial)) :=
  taken_request ht _

theorem exec_accountQuery_of_takes {h : ReqHead} (ht : s.Takes h .accountQuery) :
    exec (.accountQuery h) s = .next (s.accept h.number .accountQuery (.accounts s.accountReport)) :=
  taken_request ht _

theorem exec_peek_of_takes {h : ReqHead} (ht : s.Takes h .peek) :
    exec (.peek h) s = .next (s.accept h.number .peek (.status s.report)) :=
  taken_request ht _

theorem exec_status_of_takes {h : ReqHead} (ht : s.Takes h .status) :
    exec (.status h) s = .next (s.consumeReported.accept h.number .status (.status s.report)) :=
  taken_request ht _

/-! ### The records that are only counted, and the transmitters (R190, R191, R193) -/

theorem exec_unknownRecord (link : Link) (kind length : Nat) (s : State) :
    exec (.unknownRecord link kind length) s = s.taken fun s =>
      { s with counters := { s.counters with unknownRecords := satSucc Config.counterMax s.counters.unknownRecords } } := rfl

theorem exec_discardedFrame (link : Link) (s : State) :
    exec (.discardedFrame link) s = s.taken fun s =>
      { s with counters := { s.counters with discardedFrames := satSucc Config.counterMax s.counters.discardedFrames } } := rfl

theorem exec_transmitLine (s : State) : exec (.recordTransmit .line) s = s.taken State.transmitLine := rfl

theorem exec_transmitPrint (s : State) : exec (.recordTransmit .print) s = s.taken State.transmitPrint := rfl

end

/-- Settles O60: the lowest-numbered pending channel is the one reported and consumed. -/
theorem reportsCountsAndTransmission : Obligations.ReportsCountsAndTransmission := by
  refine ⟨fun h s hp hl => ⟨?_, ?_, ?_, ?_, fun hnone => ?_, fun c hc hlow => ?_⟩, fun s hp => ⟨?_, ?_, ?_, ?_, ?_, ?_⟩⟩
  · exact exec_identify_of_takes (takes_always hp hl fun _ => rfl)
  · exact exec_accountQuery_of_takes (takes_always hp hl fun _ => rfl)
  · exact exec_peek_of_takes (takes_always hp hl fun _ => rfl)
  · exact ⟨⟨rfl, rfl, rfl⟩, ⟨rfl, rfl, rfl, rfl, rfl⟩, ⟨rfl, rfl, rfl, rfl⟩, ⟨rfl, rfl, rfl⟩, ⟨rfl, rfl⟩, ⟨rfl, rfl⟩, rfl⟩
  · have hr := reportedChannel_none hnone
    refine ⟨by simp only [State.report, hr, Option.map_none], ?_⟩
    rw [exec_status_of_takes (takes_always hp hl fun _ => rfl)]
    simp only [State.consumeReported, hr]
  · have hr := reportedChannel_some hc hlow
    refine ⟨by simp only [State.report, hr, Option.map_some], ?_⟩
    rw [exec_status_of_takes (takes_always hp hl fun _ => rfl)]
    simp only [State.consumeReported, hr]
  · intro link kind length
    rw [exec_unknownRecord, taken_on hp]
    rfl
  · intro link
    rw [exec_discardedFrame, taken_on hp]
    rfl
  · intro hw
    rw [exec_transmitLine, taken_on hp]
    simp only [State.transmitLine, hw]
  · intro hw
    rw [exec_transmitPrint, taken_on hp]
    simp only [State.transmitPrint, hw]
  · intro r rest hw
    rw [exec_transmitLine, taken_on hp]
    simp only [State.transmitLine, hw]
  · intro r rest hw
    rw [exec_transmitPrint, taken_on hp]
    simp only [State.transmitPrint, hw]

end Sys2Proof.Machine

/-! PROOFS. The notice unit (O59). -/

namespace Sys2Proof.Machine

/-! ### The sending test (R181, R182) -/

theorem unblocked_iff (s : State) (c : Fin 8) : s.unblocked c = true ↔ ∀ k : Fin 8, k ≤ c → s.channels[k].underService = false := by
  simp only [State.unblocked, List.all_eq_true, Bool.or_eq_true, decide_eq_true_eq, Bool.not_eq_true']
  exact ⟨fun h k hk => (h k (mem_channelOrder k)).resolve_left (not_lt.mpr hk), fun h k _ => (lt_or_ge c k).imp_right (h k)⟩

theorem channelReady_iff (s : State) (c : Fin 8) :
    s.channelReady c = true ↔
      s.channels[c].pending = true ∧ (∀ k : Fin 8, k ≤ c → s.channels[k].underService = false) ∧
        (c = 0 ∨ (s.channels[c].enable = true ∧ s.gne = true)) := by
  simp only [State.channelReady, Bool.and_eq_true, Bool.or_eq_true, decide_eq_true_eq, unblocked_iff, and_assoc]

theorem sendingTest_none {s : State} (h : ∀ c, s.channelReady c = false) : s.sendingTest = s := by
  simp only [State.sendingTest, channelOrder_find_none h]

theorem sendingTest_some {s : State} {c : Fin 8} (hc : s.channelReady c = true) (hlow : ∀ k, k < c → s.channelReady k = false) :
    s.sendingTest = s.sendNotice c := by
  simp only [State.sendingTest, channelOrder_find hc hlow]

theorem noticeVector_eq (base : Nat) (c : Fin 8) : noticeVector base c = base - base % 8 + c.val := by
  unfold noticeVector
  omega

theorem Channel.sent_eq (ch : Channel) (m : NoticeMode) :
    ch.sent m = if m = .pulse then { ch with underService := true, pending := false, count := 0 } else { ch with underService := true } := by
  cases m <;> rfl

/-- Sending channel 0 saves GNE and clears it; the other channels leave both. -/
theorem sendNotice_eq (s : State) (c : Fin 8) :
    s.sendNotice c =
      { s with
        lineTx :=
          { s.lineTx with
            waiting :=
              s.lineTx.waiting ++ [.notice (noticeVector s.settings.vectorBase c) c.val s.channels[c].latest s.channels[c].count] }
        channels := s.channels.set c (s.channels[c].sent s.settings.noticeMode)
        gneSaved := if c = 0 then s.gne else s.gneSaved
        gne := if c = 0 then false else s.gne } := by
  by_cases h0 : c = 0
  · simp only [State.sendNotice, h0, if_true]
    rfl
  · simp only [State.sendNotice, h0, if_false]
    rfl

/-! ### NOTICE_ENABLE and END_OF_SERVICE (R184, R185) -/

section
variable {h : ReqHead} {s : State}

theorem writeEnables_channel (value mask : Flags16) (c : Fin 8) :
    (s.writeEnables value mask).channels[c] =
      { s.channels[c] with enable := if c ≠ 0 ∧ mask.getLsbD c.val = true then value.getLsbD c.val else s.channels[c].enable } := by
  have hzero : (c.val ≠ 0) = (c ≠ 0) := propext Fin.val_ne_zero_iff
  simp only [State.writeEnables, Fin.getElem_fin, Vector.getElem_mapFinIdx, enabledBy, hzero]

theorem exec_noticeEnable_of_takes (ht : s.Takes h .noticeEnable) (value mask : Flags16) :
    exec (.noticeEnable h value mask) s =
      .next (((s.writeEnables value mask).accept h.number .noticeEnable
        (.enables (s.writeEnables value mask).channels (s.writeEnables value mask).gne)).sendingTest) :=
  taken_request ht _

theorem exec_endOfService_of_takes (ht : s.Takes h .endOfService) :
    exec (.endOfService h) s =
      .next (match s.servedChannel with
        | none => s.refuse h.number RequestKind.endOfService.code .badState
        | some c => ((s.endService c).accept h.number .endOfService (.serviceEnded c.val (s.endService c).gne)).sendingTest) :=
  taken_request ht _

end

/-- Settles O59: the search through the channels finds the lowest-numbered one that is ready. -/
theorem noticesAreSentInPriority : Obligations.NoticesAreSentInPriority := by
  refine ⟨⟨fun c => ?_, by decide, fun r => by cases r <;> rfl, by decide⟩, fun s => ⟨?_, fun hp => ?_, channelReady_iff s, sendingTest_none,
    fun c hc hlow => ?_, fun h value mask ht => ?_, fun h ht => ⟨fun hnone => ?_, fun c hc hlow => ?_⟩⟩⟩
  · cases c with
    | divert r => cases r <;> simp
    | _ => simp
  · exact fun _ _ _ => rfl
  · exact taken_on hp _
  · intro ch sent
    have hsent : sent = ch.sent s.settings.noticeMode := (ch.sent_eq _).symm
    rw [sendingTest_some hc hlow, sendNotice_eq, hsent, noticeVector_eq]
  · exact ⟨_, _, exec_noticeEnable_of_takes ht value mask, rfl, writeEnables_channel value mask⟩
  · rw [exec_endOfService_of_takes ht, State.servedChannel, channelOrder_find_none hnone]
    rfl
  · intro gne
    rw [exec_endOfService_of_takes ht, State.servedChannel, channelOrder_find hc hlow]
    rfl

end Sys2Proof.Machine

/-! PROOFS. The completions of the closing writes (O53). -/

namespace Sys2Proof.Machine

/-! ### The reply of a LINE_RESET (R116, R196) -/

theorem answerReset_none {s : State} (h : s.resetWait = none) : s.answerReset = s := by
  simp only [State.answerReset, h]

theorem answerReset_some {s : State} {w : ResetWait} (h : s.resetWait = some w) :
    s.answerReset =
      if w.remaining = 0 then State.accept { s with resetWait := none } w.request .lineReset (.lineReset w.spoils w.franking) else s := by
  simp only [State.answerReset, h]

theorem resetSpoilDone_none {s : State} (h : s.resetWait = none) : s.resetSpoilDone = s := by
  unfold State.resetSpoilDone
  rw [answerReset_none (by simp [h])]
  simp only [h, Option.map_none]
  rw [← h]

/-- The last SPOIL write that a LINE_RESET waits for sends its reply; one before it is counted off. -/
theorem resetSpoilDone_some {s : State} {w : ResetWait} (h : s.resetWait = some w) :
    s.resetSpoilDone =
      if w.remaining ≤ 1 then State.accept { s with resetWait := none } w.request .lineReset (.lineReset w.spoils w.franking)
      else { s with resetWait := some { w with remaining := w.remaining - 1 } } := by
  unfold State.resetSpoilDone
  rw [answerReset_some (w := { w with remaining := w.remaining - 1 }) (by simp [h])]
  have hlast : (w.remaining - 1 = 0) = (w.remaining ≤ 1) := propext (by omega)
  simp only [h, Option.map_some, hlast]

/-! ### A closing write (R100, R102 to R104, R123, R129) -/

/-- The completion that performs a closing write. -/
def CloseKind.completion : CloseKind → Instr
  | .confirm => .confirmComplete
  | .void => .voidComplete
  | .spoil => .spoilComplete

/-- The disposition by the write (R129). -/
def CloseKind.disposition : CloseKind → Disposition
  | .confirm => .printed
  | .void => .voided
  | .spoil => .spoiled

section
variable {s : State} {kind : CloseKind} {tag n : Nat} {by_ : Requester} {rest : List Write}

theorem exec_completion (hp : s.power = .on) (hq : s.queue = .close kind tag n by_ :: rest) :
    exec kind.completion s = .next (s.completeClose kind tag n by_ rest) := by
  have htaken : exec kind.completion s = s.taken fun s => s.closeComplete kind := by cases kind <;> rfl
  rw [htaken, taken_on hp]
  simp only [State.closeComplete, hq, if_true]

theorem closeWrite_open {a : Accounts} {o : OpenOrder} (h : a.openOrders.find? (·.n == n) = some o) (kind : CloseKind) :
    a.closeWrite kind n =
      match kind with
      | .confirm => { a with e := a.e - o.p, a := a.a + o.p, printed := satSucc Config.countMax a.printed, openOrders := a.closed n }
      | .void => { a with e := a.e - o.p, d := a.d + o.p, voided := satSucc Config.countMax a.voided, openOrders := a.closed n }
      | .spoil => { a with e := a.e - o.p, a := a.a + o.p, spoiled := satSucc Config.countMax a.spoiled, openOrders := a.closed n } := by
  cases kind with
  | confirm => exact Accounts.closeWrite_confirm h
  | void => exact Accounts.closeWrite_void h
  | spoil => exact Accounts.closeWrite_spoil h

theorem finalizeByNumber_none (s : State) (n : Nat) : s.finalizeByNumber n none = s := by
  unfold State.finalizeByNumber
  split
  · next hd => cases hd
  · rfl

theorem finalizeByNumber_gone (h : s.pieces.find? (fun q => q.commitData.map (·.n) == some n) = none) (d : Option Disposition) :
    s.finalizeByNumber n d = s := by
  simp only [State.finalizeByNumber, h]

theorem finalizeByNumber_found {q : Piece} (h : s.pieces.find? (fun q => q.commitData.map (·.n) == some n) = some q) (d : Disposition) :
    s.finalizeByNumber n (some d) = s.finalize q.tag d := by
  simp only [State.finalizeByNumber, h]

theorem find_number_none (h : ∀ q ∈ s.pieces, q.commitData.map (·.n) ≠ some n) :
    s.pieces.find? (fun q => q.commitData.map (·.n) == some n) = none :=
  List.find?_eq_none.mpr fun q hq => by simpa using h q hq

theorem leavesAtClose_iff (s : State) (n : Nat) :
    s.leavesAtClose n = true ↔
      ∃ q, s.pieces.find? (fun q => q.commitData.map (·.n) == some n) = some q ∧ (q.flags.exited || q.flags.removeRequested) = true :=
  Option.any_eq_true _ _

/-- A closing write of another requester than the commit unit gives the disposition by the write. -/
theorem closingDisposition_byWrite (h : by_ ≠ .commitUnit) : s.closingDisposition kind by_ = some kind.disposition := by
  cases by_ with
  | commitUnit => exact absurd rfl h
  | _ => cases kind <;> rfl

/-- A closing write of another requester leaves the slot and the HOLD requests that wait. -/
theorem completeClose_byOther (h : by_ ≠ .commitUnit) :
    s.completeClose kind tag n by_ rest =
      (let ended := (s.performHead (.close kind tag n by_) rest).finalizeByNumber n (some kind.disposition)
       let counted := if by_ = .lineReset then ended.resetSpoilDone else ended
       (if decide (kind = .void) || s.leavesAtClose n then counted.commitTest else counted).beginNext) := by
  have hslot : ({ s.performHead (.close kind tag n by_) rest with slot := s.slotAfterClose by_ } : State) =
      s.performHead (.close kind tag n by_) rest := by
    simp only [State.slotAfterClose, if_neg h]
    rfl
  have hwaits : s.resetWaitsFor by_ = decide (by_ = .lineReset) := by
    cases by_ with
    | commitUnit => exact absurd rfl h
    | _ => rfl
  simp only [State.completeClose, hslot, closingDisposition_byWrite h, if_neg h, hwaits, decide_eq_true_eq, State.closeTells, h, decide_false,
    Bool.or_false, if_false]

theorem completeClose_byCommitUnit {slot : CommitSlot} {w : WithheldCause} (hs : s.slot = some slot) (hw : slot.withheld = some w) :
    s.completeClose kind tag n .commitUnit rest =
      (let emptied : State := { s.performHead (.close kind tag n .commitUnit) rest with slot := none }
       let answered := (emptied.finalizeByNumber n (match w with | .remove => some .removed | .lockout => some (.diverted .locked) | .lineReset => none)).answerHolds
       (if w = .lineReset then answered.resetSpoilDone else answered).commitTest.beginNext) := by
  have hd : s.closingDisposition kind .commitUnit =
      match w with | .remove => some .removed | .lockout => some (.diverted .locked) | .lineReset => none := by
    simp only [State.closingDisposition, hs, Option.bind_some, hw]
    cases w <;> rfl
  have hwaits : s.resetWaitsFor .commitUnit = decide (w = .lineReset) := by
    simp only [State.resetWaitsFor, hs, Option.bind_some, hw]
    cases w <;> rfl
  have htells : s.closeTells kind n .commitUnit = true := by simp [State.closeTells]
  simp only [State.completeClose, State.slotAfterClose, hd, hwaits, htells, if_true, decide_eq_true_eq]

end

/-- Settles O53: the requester of the write decides what ends with it. -/
theorem closingWritesComplete : Obligations.ClosingWritesComplete := by
  intro kind tag n by_ rest o s hp hq ho a orders closed command performed finish ended byWrite answered spoilDone told
  have hexec : exec command s = .next (s.completeClose kind tag n by_ rest) := by
    rw [← exec_completion hp hq]
    cases kind <;> rfl
  have hperformed : s.performHead (.close kind tag n by_) rest = performed := by
    have hclosed : s.accounts.apply s.mailingDate (.close kind tag n by_) = closed := by
      rw [Accounts.apply_close, closeWrite_open ho]
      cases kind <;> rfl
    simp only [State.performHead, hclosed, performed]
  have hbyWrite : kind.disposition = byWrite := by cases kind <;> rfl
  have hspoil (u : State) : u.resetSpoilDone = spoilDone u := by
    simp only [spoilDone]
    cases hw : u.resetWait with
    | none => exact resetSpoilDone_none hw
    | some w => exact resetSpoilDone_some hw
  have hended {u : State} (hu : u.pieces = s.pieces) (d : Disposition) : u.finalizeByNumber n (some d) = ended u d := by
    cases hf : s.pieces.find? (fun q => q.commitData.map (·.n) == some n) with
    | none => simp only [ended, hf, finalizeByNumber_gone (s := u) (by rw [hu]; exact hf)]
    | some q => simp only [ended, hf, finalizeByNumber_found (s := u) (by rw [hu]; exact hf)]
  have htold : (decide (kind = .void) || s.leavesAtClose n) = true ↔ told := by
    rw [Bool.or_eq_true, decide_eq_true_eq, leavesAtClose_iff]
  have hother (hby : by_ ≠ .commitUnit) (counted : State)
      (hcounted : counted = if by_ = .lineReset then spoilDone (ended performed byWrite) else ended performed byWrite) :
      (told → exec command s = .next (finish counted.commitTest)) ∧ (¬told → exec command s = .next (finish counted)) := by
    rw [hexec, completeClose_byOther hby]
    simp only [hperformed, hended (u := performed) rfl, hbyWrite, hspoil, ← hcounted]
    exact ⟨fun h => by rw [if_pos (htold.mpr h)]; rfl, fun h => by rw [if_neg (mt htold.mp h)]; rfl⟩
  refine ⟨fun hby => ?_, fun hby => ?_, fun hby hgone => ?_, fun hs hby => ?_, fun slot hby hs => ?_⟩
  · have hby' : by_ ≠ .commitUnit ∧ by_ ≠ .lineReset := by rcases hby with rfl | rfl <;> decide
    exact hother hby'.1 _ (if_neg hby'.2).symm
  · exact hother (by rw [hby]; decide) _ (if_pos hby).symm
  · intro counted
    have hfind := find_number_none hgone
    have hnone : ended performed byWrite = performed := by simp only [ended, hfind]
    obtain ⟨htell, hquiet⟩ := hother hby counted (by rw [hnone])
    have hvoid : told ↔ kind = .void := by simp only [told, hfind]; simp
    by_cases hk : kind = .void
    · rw [if_pos hk]
      exact htell (hvoid.mpr hk)
    · rw [if_neg hk]
      exact hquiet (mt hvoid.mp hk)
  · exact fun q hm => hs.discarded kind tag n by_ (by rw [hq]; exact List.mem_cons_self) hby q hm
  · subst hby
    intro emptied
    refine ⟨fun hw => ?_, fun hw => ?_, fun hw => ?_⟩
    · rw [hexec, completeClose_byCommitUnit hs hw, hperformed]
      exact congrArg (fun u : State => Host.Outcome.next (finish (answered u).commitTest)) (hended (u := emptied) rfl .removed)
    · rw [hexec, completeClose_byCommitUnit hs hw, hperformed]
      exact congrArg (fun u : State => Host.Outcome.next (finish (answered u).commitTest)) (hended (u := emptied) rfl (.diverted .locked))
    · rw [hexec, completeClose_byCommitUnit hs hw, hperformed]
      simp only [finalizeByNumber_none, if_true, hspoil]
      rfl

end Sys2Proof.Machine

/-! PROOFS. LINE_RESET (O58). -/

namespace Sys2Proof.Machine

/-! ### The SPOIL writes of the outstanding orders (R136) -/

theorem closeTaken_requestClose_other {u : State} {n m : Nat} (h : n ≠ m) (kind : CloseKind) (tag : Nat) (by_ : Requester) :
    (u.requestClose kind tag m by_).closeTaken n = u.closeTaken n := by
  have hother : Write.closes n (.close kind tag m by_) = false := beq_eq_false_iff_ne.mpr (Ne.symm h)
  rw [requestClose_eq]
  unfold State.closeTaken
  split
  · rw [List.any_append, List.any_cons, hother, List.any_nil, Bool.or_false, Bool.or_false]
  · rfl

/-- Closing requests in turn change the queue only; where each is for an open order that none before it names, all are taken. -/
theorem foldl_requestClose (l : List Order) (u : State) :
    ∃ q, l.foldl (fun s o => s.requestClose .spoil o.tag o.n .lineReset) u = { u with queue := q } ∧
      ((l.map (·.n)).Nodup → (∀ o ∈ l, u.closeTaken o.n = true) → q = u.queue ++ l.map fun o => .close .spoil o.tag o.n .lineReset) := by
  induction l generalizing u with
  | nil => exact ⟨u.queue, rfl, fun _ _ => (List.append_nil _).symm⟩
  | cons o l ih =>
    obtain ⟨q, heq, hq⟩ := ih (u.requestClose .spoil o.tag o.n .lineReset)
    refine ⟨q, ?_, fun hd hall => ?_⟩
    · rw [List.foldl_cons, heq, requestClose_eq]
    · obtain ⟨hnot, hd⟩ := List.nodup_cons.mp hd
      obtain ⟨ho, hall⟩ := List.forall_mem_cons.mp hall
      have hrest : ∀ x ∈ l, (u.requestClose .spoil o.tag o.n .lineReset).closeTaken x.n = true := fun x hx => by
        rw [closeTaken_requestClose_other (fun he => hnot (List.mem_map.mpr ⟨x, hx, he⟩))]
        exact hall x hx
      rw [hq hd hrest, requestClose_eq, if_pos ho, List.append_assoc]
      rfl

/-! ### The work of a line reset (R136, R171, R189, R195) -/

/-- What a line reset makes of the franking state and the hold causes (R171). -/
def FrankingState.lineReset (f : FrankingState) (c : HoldCauses) (pfw : Bool) : FrankingState × HoldCauses :=
  if f = .running ∨ f = .held then (.held, .operatorWith pfw) else (f, c)

/-- The part after a line reset, but for its queue. -/
def State.lineCleared (s : State) (q : List Write) : State :=
  { s with
    pieces := [], jobs := [], orders := [], queue := q, slot := s.slot.map CommitSlot.resetMarked, fundsMark := none
    channels := s.channels.map Channel.lineReset, pendingSwitch := none
    franking := (s.franking.lineReset s.causes s.pins.pfw).1, causes := (s.franking.lineReset s.causes s.pins.pfw).2 }

theorem resetLine_eq (s : State) :
    ∃ q, s.resetLine = s.lineCleared q ∧
      ((s.orders.map (·.n)).Nodup → (∀ o ∈ s.orders, s.closeTaken o.n = true) →
        q = s.queue ++ s.orders.map fun o => .close .spoil o.tag o.n .lineReset) := by
  obtain ⟨q, heq, hq⟩ := foldl_requestClose s.orders { s with pieces := [], jobs := [], orders := [] }
  refine ⟨q, ?_, hq⟩
  have horders : State.resetOrders { s with pieces := [], jobs := [] } = { s with pieces := [], jobs := [], orders := [], queue := q } := heq
  unfold State.resetLine
  rw [horders]
  unfold State.resetFranking State.lineCleared FrankingState.lineReset
  cases hf : s.franking <;> rfl

theorem resetSpoils_eq {s : State} (h : ∀ o ∈ s.orders, s.closeTaken o.n = true) :
    s.resetSpoils = s.orders.length + if s.slot.map (·.phase) = some .commit then 1 else 0 := by
  unfold State.resetSpoils State.commitPhase
  rw [List.filter_eq_self.mpr h]
  split <;> simp_all

theorem CommitSlot.resetMarked_eq (c : CommitSlot) :
    c.resetMarked = if c.phase = .commit then { c with withheld := some .lineReset } else c := by
  unfold CommitSlot.resetMarked
  cases c.phase <;> rfl

theorem lineReset_parts (number spoils : Nat) (f : FrankingState) :
    ({ number, kind := 0x41, outcome := .accepted, reason := none, results := .lineReset spoils f } : Reply).parts = 1 := by
  simp [Reply.parts, Results.bytes, be, Config.replyPart]

/-- The reply is sent at once where no SPOIL write is waited for. -/
theorem answerReset_waiting (s : State) (w : ResetWait) :
    State.answerReset { s with resetWait := some w } =
      { s with
        resetWait := if w.remaining = 0 then none else some w
        lineTx :=
          if w.remaining = 0 then
            { s.lineTx with
              waiting := s.lineTx.waiting ++ [.reply { number := w.request, kind := 0x41, outcome := .accepted, reason := none
                                                       results := .lineReset w.spoils w.franking } 0] }
          else s.lineTx } := by
  rw [answerReset_some (s := { s with resetWait := some w }) rfl]
  by_cases h0 : w.remaining = 0
  · simp only [h0, if_true, State.accept, State.sendReply, RequestKind.code, lineReset_parts]
    rfl
  · simp only [h0, if_false]

theorem exec_lineResetReply (s : State) : exec .lineResetReply s = s.taken State.answerReset := rfl

section
variable {h : ReqHead} {s : State}

theorem exec_lineReset_of_takes (ht : s.Takes h .lineReset) :
    exec (.lineReset h) s =
      .next (if s.resetWait.isSome then s.refuse h.number RequestKind.lineReset.code .busy
        else State.answerReset { s.resetLine with
          resetWait := some { request := h.number, spoils := s.resetSpoils, remaining := s.resetSpoils, franking := s.resetLine.franking } }) :=
  taken_request ht _

end

/-- Settles O58: the closing requests in turn are all taken, and the reply waits for their writes. -/
theorem lineResetDiscards : Obligations.LineResetDiscards := by
  refine fun s => ⟨fun h ht hw => ?_, fun h ht hw => ?_, fun hp => ⟨fun hw => ?_, fun w hw => ⟨fun h0 => ?_, fun h0 => ?_⟩⟩,
    fun tag n rest w hp hq ho hgone hw => ?_⟩
  · rw [exec_lineReset_of_takes ht, if_pos hw]
    rfl
  · obtain ⟨q, hline, hqueue⟩ := resetLine_eq s
    rw [exec_lineReset_of_takes ht, if_neg (by simp [hw]), hline, answerReset_waiting]
    refine ⟨_, rfl, rfl, rfl, rfl, rfl, rfl, ?_, fun c => ?_, fun hf => ?_, fun hf => ?_, fun hd hall => ⟨hqueue hd hall, ?_⟩,
      rfl, rfl, rfl, rfl, rfl, rfl, rfl, rfl, rfl, rfl, rfl, rfl, rfl⟩
    · exact congrArg (s.slot.map ·) (funext CommitSlot.resetMarked_eq)
    · exact Vector.getElem_map _ _
    · simp [State.lineCleared, FrankingState.lineReset, hf]
    · simp only [State.lineCleared, FrankingState.lineReset, if_pos hf]
      exact ⟨trivial, rfl⟩
    · intro spoils
      have hspoils : s.resetSpoils = spoils := resetSpoils_eq hall
      rw [hspoils]
      refine ⟨fun h0 => ?_, fun h0 => ?_⟩
      · simp only [h0, if_true]
        exact ⟨trivial, rfl⟩
      · simp only [h0, if_false]
        exact ⟨trivial, rfl⟩
  · rw [exec_lineResetReply, taken_on hp, answerReset_none hw]
  · rw [exec_lineResetReply, taken_on hp, answerReset_some hw, if_neg h0]
  · rw [exec_lineResetReply, taken_on hp, answerReset_some hw, if_pos h0]
  · intro performed
    have hexec : exec .spoilComplete s =
        .next (State.beginNext (State.resetSpoilDone (s.performHead (.close .spoil tag n .lineReset) rest))) := by
      have hfind := find_number_none hgone
      refine (exec_completion (kind := .spoil) hp hq).trans (congrArg _ ?_)
      have hstays : s.leavesAtClose n = false := by rw [State.leavesAtClose, hfind]; rfl
      rw [completeClose_byOther (by decide), finalizeByNumber_gone (s := s.performHead _ rest) hfind, hstays]
      rfl
    have hdone := resetSpoilDone_some (s := s.performHead (.close .spoil tag n .lineReset) rest) hw
    rw [hexec, hdone]
    refine ⟨fun h2 => ?_, fun h1 => ?_⟩
    · rw [if_neg (by omega)]
      rfl
    · rw [if_pos h1.le]
      rfl

end Sys2Proof.Machine

/-! PROOFS. The job list's requests (O40, O41). -/

namespace Sys2Proof.Machine

/-! ### JOB_ADD (R138, R140, R141) -/

/-- A job record at the end of the list. -/
def State.append (s : State) (r : Job) : State := { s with jobs := s.jobs ++ [r] }

section
variable {s : State} {r : Job}

theorem append_job (hfresh : ∀ j ∈ s.jobs, j.slot ≠ r.slot) : (s.append r).job? r.slot = some r := by
  have hnone : s.jobs.find? (·.slot == r.slot) = none := List.find?_eq_none.mpr fun j hj => by simpa using hfresh j hj
  simp [State.job?, State.append, List.find?_append, hnone]

theorem append_currentJob (hr : r.state ≠ .current) : (s.append r).currentJob = s.currentJob := by
  simp [State.currentJob, State.append, List.find?_append, hr]

theorem append_waiting {j : Job} (h : s.jobs.find? (fun j => decide (j.state = .waiting)) = some j) :
    (s.append r).jobs.find? (fun j => decide (j.state = .waiting)) = some j := by
  simp [State.append, List.find?_append, h]

theorem append_waiting_alone (hno : ∀ j ∈ s.jobs, j.state ≠ .waiting) (hr : r.state = .waiting) :
    (s.append r).jobs.find? (fun j => decide (j.state = .waiting)) = some r := by
  have hnone : s.jobs.find? (fun j => decide (j.state = .waiting)) = none := List.find?_eq_none.mpr fun j hj => by simpa using hno j hj
  simp [State.append, List.find?_append, hnone, hr]

theorem append_promote_other {slot : Nat} (h : r.slot ≠ slot) : (s.append r).promote slot = (s.promote slot).append r := by
  simp [State.append, State.promote, State.updateJob, h]

theorem append_promote_self (hfresh : ∀ j ∈ s.jobs, j.slot ≠ r.slot) :
    (s.append r).promote r.slot = s.append { r with state := .current } := by
  have hid : (s.jobs.map fun j => if j.slot == r.slot then { j with state := JobState.current } else j) = s.jobs :=
    (List.map_congr_left fun j hj => if_neg (by simpa using hfresh j hj)).trans (List.map_id _)
  simp [State.append, State.promote, State.updateJob] at hid ⊢
  exact hid

/-- The slots of the jobs outlast a promotion. -/
theorem promote_fresh {slot free : Nat} (h : ∀ j ∈ s.jobs, j.slot ≠ free) : ∀ j ∈ (s.promote slot).jobs, j.slot ≠ free := by
  intro j hj
  obtain ⟨i, hi, rfl⟩ := List.mem_map.mp hj
  have := h i hi
  split <;> exact this

/-- A job that is not closed stands in its state through the switch taken with a promotion. -/
theorem switchTo_job {target : BankId} {j : Job} (hp : s.pendingSwitch = some { target, mode := .atJob }) (hj : s.job? j.slot = some j)
    (hopen : j.state ≠ .closed) (tag : Option Nat) : ((s.switchTo target tag).job? j.slot).map (·.state) = some j.state :=
  (switchTo_reach (Q := False) tag (.inr (congrArg (Option.map (·.target)) hp)) False.elim).job_stands hopen (by simp [hj])

/-- The lowest-numbered free slot (R138). -/
theorem freeSlot_eq {slot : Nat} (hlt : slot < 4) (hfree : ∀ j ∈ s.jobs, j.slot ≠ slot) (hlow : ∀ k, k < slot → ∃ j ∈ s.jobs, j.slot = k) :
    s.freeSlot = slot := by
  have hfind : (List.range Config.maxJobs).find? (fun k => (s.job? k).isNone) = some slot := by
    rw [List.find?_range_eq_some]
    refine ⟨?_, List.mem_range.mpr hlt, fun k hk => ?_⟩
    · simpa [State.job?] using hfree
    · obtain ⟨j, hj, rfl⟩ := hlow k hk
      simpa [State.job?] using ⟨j, hj, rfl⟩
  rw [State.freeSlot, hfind, Option.getD_some]

theorem productUndefined_eq (s : State) (product : Nat) :
    s.productUndefined product = s.banks.active.all fun id => !((s.banks.get id).product product).defined := by
  unfold State.productUndefined
  cases s.banks.active <;> rfl

theorem addJob_eq {current : State} {state : JobState} {v : JobValues} {slot : Nat} (hslot : s.freeSlot = slot)
    (hmake : (s.append (Job.waiting slot v)).makeJobCurrent none = current) (hstate : (current.job? slot).map (·.state) = some state)
    (number : Nat) (clamped : Bool) :
    s.addJob number v clamped =
      (current.acceptClamped number .jobAdd clamped (.jobAdded slot state (s.productUndefined v.product))).passRatings
        (s.ratedBySwitch current) := by
  subst hslot
  have hmake' : State.makeJobCurrent { s with jobs := s.jobs ++ [Job.waiting s.freeSlot v] } none = current := hmake
  simp only [State.addJob, hmake', hstate, Option.getD_some]

end

/-! ### The values of a JOB_ADD (R140) -/

theorem ZoneMode.ofCode_none {code : Nat} (h : 1 < code) : ZoneMode.ofCode code = none := by
  obtain ⟨k, rfl⟩ := Nat.exists_eq_add_of_le' h
  rfl

theorem JobValues.ofFields_none {v : JobFields} (h : 15 < v.product ∨ 7 < v.column ∨ 1 < v.zoneMode) : JobValues.ofFields v = none := by
  unfold JobValues.ofFields
  cases hz : ZoneMode.ofCode v.zoneMode with
  | none => rfl
  | some z =>
    have hle : ¬1 < v.zoneMode := fun hlt => by rw [ZoneMode.ofCode_none hlt] at hz; cases hz
    exact if_pos (by omega)

theorem JobValues.ofFields_some {v : JobFields} {z : ZoneMode} (hp : v.product ≤ 15) (hc : v.column ≤ 7)
    (hz : ZoneMode.ofCode v.zoneMode = some z) :
    JobValues.ofFields v =
      some
        { id := v.id, product := v.product, count := v.count, margin := min v.margin 50, guardBand := min v.guardBand 200, zoneMode := z
          column := v.column, overrideAllowed := v.overrideAllowed } := by
  simp only [JobValues.ofFields, hz, clamp_zero, min_comm]
  exact if_neg (by omega)

theorem exec_jobAdd_of_takes {h : ReqHead} {s : State} (ht : s.Takes h .jobAdd) (v : JobFields) :
    exec (.jobAdd h v) s =
      .next (match JobValues.ofFields v with
        | none => s.refuse h.number RequestKind.jobAdd.code .badValue
        | some j =>
          if s.jobs.any (·.values.id == v.id) then s.refuse h.number RequestKind.jobAdd.code .jobIdInUse
          else if Config.maxJobs ≤ s.jobs.length then s.refuse h.number RequestKind.jobAdd.code .jobListFull
          else s.addJob h.number j (decide (50 < v.margin) || decide (200 < v.guardBand))) :=
  taken_request ht _

/-- Settles O40: the record appended, then the job that becomes CURRENT and the switch it takes. -/
theorem jobAddAppendsAJob : Obligations.JobAddAppendsAJob := by
  refine fun h v s ht => ⟨fun hbad => ?_, fun hp hc z hz => ⟨fun hin => ?_, fun hnew hfull => ?_, fun hnew hroom slot hlt hfree hlow => ?_⟩⟩
  · rw [exec_jobAdd_of_takes ht, JobValues.ofFields_none hbad]
    rfl
  · rw [exec_jobAdd_of_takes ht, JobValues.ofFields_some hp hc hz]
    exact congrArg _ (if_pos (by simpa using hin))
  · rw [exec_jobAdd_of_takes ht, JobValues.ofFields_some hp hc hz]
    exact congrArg _ ((if_neg (by simpa using hnew)).trans (if_pos hfull))
  · intro alone record clamped replied promoted unsettled noSwitch
    have hexec : exec (.jobAdd h v) s = .next (s.addJob h.number record.values clamped) := by
      rw [exec_jobAdd_of_takes ht, JobValues.ofFields_some hp hc hz]
      exact congrArg _ ((if_neg (by simpa using hnew)).trans (if_neg (Nat.not_le.mpr hroom)))
    have hadd {current : State} {state : JobState} (hmake : (s.append record).makeJobCurrent none = current)
        (hstate : (current.job? slot).map (·.state) = some state) :
        exec (.jobAdd h v) s = .next ((replied current state).passRatings (s.ratedBySwitch current)) := by
      rw [hexec, addJob_eq (freeSlot_eq hlt hfree hlow) hmake hstate, productUndefined_eq]
    have hcurrent : (s.append record).currentJob = s.currentJob := append_currentJob nofun
    have hself := append_job (r := record) hfree
    refine ⟨fun hsome => ?_, fun ⟨hnone, hno⟩ hd => ?_, fun target ⟨hnone, hno⟩ hsw => ?_, fun j hnone hj => ⟨fun hd => ?_, fun target hsw => ?_⟩⟩
    · obtain ⟨j, hj⟩ := Option.isSome_iff_exists.mp hsome
      rw [hadd (makeJobCurrent_current (hcurrent.trans hj)) (by rw [hself]; rfl), ratedBySwitch_same (by rfl), passRatings_nil]
      rfl
    · have hmake : (s.append record).makeJobCurrent none = s.append { record with state := .current } :=
        (makeJobCurrent_waiting (hcurrent.trans hnone) (append_waiting_alone hno rfl)).trans
          ((takeJobSwitch_atDate (s := (s.append record).promote record.slot) hd).trans (append_promote_self hfree))
      rw [hadd hmake (by rw [append_job (r := { record with state := .current }) hfree]; rfl), ratedBySwitch_same (by rfl), passRatings_nil]
      rfl
    · have hmake : (s.append record).makeJobCurrent none = (s.append { record with state := .current }).switchTo target none :=
        (makeJobCurrent_waiting (hcurrent.trans hnone) (append_waiting_alone hno rfl)).trans
          ((takeJobSwitch_atJob (s := (s.append record).promote record.slot) hsw).trans
            (congrArg (State.switchTo · target none) (append_promote_self hfree)))
      rw [hadd hmake (switchTo_job (s := s.append { record with state := .current }) (j := { record with state := .current }) hsw (append_job hfree) nofun none),
        ratedBySwitch_taken (by simp [hsw]) (switchTo_pendingSwitch target none)]
      rfl
    · have hother : record.slot ≠ j.slot := (hfree j (List.mem_of_find?_eq_some hj)).symm
      have hmake : (s.append record).makeJobCurrent none = (s.promote j.slot).append record :=
        (makeJobCurrent_waiting (hcurrent.trans hnone) (append_waiting hj)).trans
          ((takeJobSwitch_atDate (s := (s.append record).promote j.slot) hd).trans (append_promote_other hother))
      rw [hadd hmake (by rw [append_job (r := record) (promote_fresh hfree)]; rfl), ratedBySwitch_same (by rfl), passRatings_nil]
      rfl
    · have hother : record.slot ≠ j.slot := (hfree j (List.mem_of_find?_eq_some hj)).symm
      have hmake : (s.append record).makeJobCurrent none = ((s.promote j.slot).append record).switchTo target none :=
        (makeJobCurrent_waiting (hcurrent.trans hnone) (append_waiting hj)).trans
          ((takeJobSwitch_atJob (s := (s.append record).promote j.slot) hsw).trans
            (congrArg (State.switchTo · target none) (append_promote_other hother)))
      rw [hadd hmake (switchTo_job (s := (s.promote j.slot).append record) (j := record) hsw (append_job (promote_fresh hfree)) nofun none),
        ratedBySwitch_taken (by simp [hsw]) (switchTo_pendingSwitch target none)]
      rfl

end Sys2Proof.Machine

namespace Sys2Proof.Machine

/-! ### JOB_ABORT (R144, R145) -/

/-- A job becomes CLOSED and is tested for being done (R144). -/
def State.closeJob (s : State) (slot : Nat) : State := (s.updateJob slot fun j => { j with state := .closed }).testDone slot none

section
variable {s : State} {j : Job}

theorem testDone_undone {tag : Option Nat} (h : s.job? j.slot = some j) (hd : j.done = false) : s.testDone j.slot tag = s := by
  simp [State.testDone, h, hd]

theorem testDone_done {tag : Option Nat} (h : s.job? j.slot = some j) (hd : j.done = true) :
    s.testDone j.slot tag =
      State.post { s with jobs := s.jobs.filter (·.slot != j.slot) } .done tag [some j.values.id, some j.entered, some j.printed, some j.diverted] := by
  simp [State.testDone, h, hd]

/-- The record of a job that is closed, in its slot. -/
theorem closed_job (h : s.job? j.slot = some j) :
    (s.updateJob j.slot fun j => { j with state := .closed }).job? j.slot = some { j with state := .closed } := by
  rw [job?_updateJob s j.slot (f := fun j => { j with state := .closed }) fun _ => rfl, h]
  rfl

theorem closeJob_listed (h : s.job? j.slot = some j) (hl : j.inList ≠ 0) :
    s.closeJob j.slot = s.updateJob j.slot fun j => { j with state := .closed } :=
  testDone_undone (j := { j with state := .closed }) (closed_job h) (by simp [Job.done, hl])

theorem closeJob_empty (h : s.job? j.slot = some j) (hl : j.inList = 0) :
    s.closeJob j.slot =
      State.post { s with jobs := s.jobs.filter fun x => x.slot != j.slot } .done none
        [some j.values.id, some j.entered, some j.printed, some j.diverted] := by
  refine (testDone_done (s := s.updateJob j.slot fun j => { j with state := .closed }) (j := { j with state := .closed }) (closed_job h) (by simp [Job.done, hl])).trans ?_
  show State.post { s with jobs := (s.updateJob j.slot fun j => { j with state := .closed }).jobs.filter (·.slot != j.slot) } _ _ _ = _
  rw [filter_updateJob s j.slot (f := fun j => { j with state := .closed }) fun _ => rfl]

theorem abortJob_closed (hc : j.state = .closed) (number : Nat) :
    s.abortJob number j = s.accept number .jobAbort (.jobAborted .closed (s.job? j.slot).isNone j.remaining) := by
  simp only [State.abortJob, hc]

theorem abortJob_open (hc : j.state ≠ .closed) (number : Nat) :
    s.abortJob number j =
      (s.closeJob j.slot).accept number .jobAbort (.jobAborted j.state ((s.closeJob j.slot).job? j.slot).isNone j.remaining) := by
  unfold State.abortJob
  cases hst : j.state with
  | closed => exact absurd hst hc
  | current => rfl
  | waiting => rfl

theorem exec_jobAbort_of_takes {h : ReqHead} (ht : s.Takes h .jobAbort) (id : Nat) :
    exec (.jobAbort h id) s =
      .next (match s.jobs.find? (·.values.id == id) with
        | none => s.refuse h.number RequestKind.jobAbort.code .unknownJob
        | some j => s.abortJob h.number j) :=
  taken_request ht _

/-- No two jobs have the same id (R140). -/
theorem State.ListsSafe.find_id (hs : s.ListsSafe) (hj : j ∈ s.jobs) : s.jobs.find? (·.values.id == j.values.id) = some j := by
  cases hf : s.jobs.find? (·.values.id == j.values.id) with
  | none => simpa using List.find?_eq_none.mp hf j hj
  | some i =>
    have hid : i.values.id = j.values.id := by simpa using List.find?_some hf
    rw [List.inj_on_of_nodup_map hs.ids (List.mem_of_find?_eq_some hf) hj hid]

end

/-- Settles O41: a job closed with no piece in the list is done at once. -/
theorem jobAbortClosesAJob : Obligations.JobAbortClosesAJob := by
  refine fun h id s hs ht => ⟨fun hno => ?_, fun j hj hid => ?_⟩
  · have hnone : s.jobs.find? (·.values.id == id) = none := List.find?_eq_none.mpr fun j hj => by simpa using hno j hj
    rw [exec_jobAbort_of_takes ht, hnone]
    rfl
  · subst hid
    intro remaining closed
    have hexec : exec (.jobAbort h j.values.id) s = .next (s.abortJob h.number j) := by
      rw [exec_jobAbort_of_takes ht, hs.find_id hj]
    obtain ⟨i, hi, hslot, hfound⟩ := job?_some_of_slot (List.mem_map.mpr ⟨j, hj, rfl⟩)
    obtain rfl := hs.job_only hi hj hslot
    rw [hexec]
    refine ⟨fun hc => ?_, fun hc hl => ?_, fun hc hl => ?_⟩
    · rw [abortJob_closed hc, hfound]
      rfl
    · rw [abortJob_open hc, closeJob_listed hfound hl, closed_job hfound]
      rfl
    · have hgone : ((s.closeJob i.slot).job? i.slot).isNone = true := by
        rw [closeJob_empty hfound hl, State.job?, post_jobs]
        simp [List.find?_filter]
      rw [abortJob_open hc, hgone, closeJob_empty hfound hl]
      rfl

end Sys2Proof.Machine

/-! PROOFS. RESET, loss of power and power-on (O49). -/

namespace Sys2Proof.Machine

/-- What the accounts may be once the write under way is settled: its whole effect, or none (R100). -/
def State.SettlesTo (s : State) (a : Accounts) : Prop :=
  a = s.accounts ∨ (s.writeBegun = true ∧ ∃ w rest, s.queue = w :: rest ∧ a = s.accounts.apply s.mailingDate w)

/-- Settling the write under way empties the queue and changes nothing else but the accounts and the model's counter. -/
theorem settleWrite_eq (s : State) :
    ∃ a i, s.SettlesTo a ∧ s.settleWrite = { s with accounts := a, freeIndex := i, queue := [], writeBegun := false } := by
  unfold State.settleWrite
  split
  · next w rest hb hq =>
    by_cases hkept : Config.writeKept s.freeIndex = true
    · exact ⟨_, _, .inr ⟨hb, w, rest, hq, rfl⟩, by rw [if_pos hkept]⟩
    · exact ⟨_, _, .inl rfl, by rw [if_neg hkept]⟩
  · exact ⟨s.accounts, s.freeIndex, .inl rfl, rfl⟩

theorem Bank.poweredOn_active (b : Bank) : b.poweredOn.state = .active ↔ b.state = .active := by
  unfold Bank.poweredOn
  split <;> simp_all

/-- A bank that is ACTIVE is ACTIVE after power-on (R70). -/
theorem Banks.poweredOn_active (bs : Banks) :
    Banks.active { a := bs.a.poweredOn, b := bs.b.poweredOn } =
      if bs.a.state = .active then some .a else if bs.b.state = .active then some .b else none := by
  simp only [Banks.active, Banks.inState, Bank.poweredOn_active]

theorem exec_resetAssert_working {s : State} (hp : s.power = .on) :
    exec .resetAssert s = .next { State.settleWrite { s with pins := { s.pins with reset := true } } with power := .inReset } := by
  show execResetAssert s = _
  simp only [execResetAssert, hp]

theorem exec_resetAssert_idle {s : State} (hp : s.power ≠ .on) :
    exec .resetAssert s = .next { s with pins := { s.pins with reset := true } } := by
  show execResetAssert s = _
  cases hpow : s.power <;> simp_all [execResetAssert]

theorem exec_powerLoss (s : State) : exec .powerLoss s = .next (s.settleWrite.volatileLost .off) := rfl

/-- Settles O49: the write under way is settled whole or not at all, then the rest is lost. -/
theorem powerEvents : Obligations.PowerEvents := by
  intro s settled
  refine ⟨fun hp => ?_, fun hp => ?_, ?_, fun service => ?_⟩
  · obtain ⟨a, i, ha, heq⟩ := settleWrite_eq { s with pins := { s.pins with reset := true } }
    refine ⟨a, i, ha, ?_⟩
    rw [exec_resetAssert_working hp, heq]
  · exact exec_resetAssert_idle hp
  · obtain ⟨a, i, ha, heq⟩ := settleWrite_eq s
    refine ⟨a, i, ha, ?_⟩
    rw [exec_powerLoss, heq]
    rfl
  · obtain ⟨a, i, ha, heq⟩ := settleWrite_eq s
    refine ⟨a, i, ha, ?_⟩
    intro invalidated banks lockout
    have hactive : Banks.active banks = _ := s.banks.poweredOn_active
    rw [← hactive, exec_powerOn, State.powerOn, heq]
    rfl

end Sys2Proof.Machine

/-! PROOFS. The records the part sends (O55). -/

namespace Sys2Proof.Machine

/-! ### The conventions of the records (R190, R197, R198) -/

/-- The check over bytes is the check over their bits, the most significant of each byte first. -/
theorem frameCheck_bits (bytes : List Byte) :
    frameCheck bytes = (bytes.flatMap fun b => [7, 6, 5, 4, 3, 2, 1, 0].map b.getLsbD).foldl crcBit 0xFFFF#16 := by
  unfold frameCheck
  rw [List.foldl_flatMap]
  rfl

theorem optional_eq (w : Nat) (v : Option Nat) : optional w v = be 1 v.isSome.toNat ++ be w (v.getD 0) := by
  cases v <;> rfl

/-- The outcome codes of a DISPOSITION, 5 where an ENTER was refused (R197). -/
theorem dispositionCode_eq (o : Option Disposition) :
    dispositionCode o = match o with
      | some .printed => 0
      | some .voided => 1
      | some .spoiled => 2
      | some (.diverted _) => 3
      | some .removed => 4
      | none => 5 := by
  unfold dispositionCode
  rfl

/-! ### The parts of a reply (R198) -/

theorem reply_payload_length (r : Reply) (k : Nat) : (r.payload k).length ≤ 60 := by
  have hlen : (r.payload k).length = 5 + ((r.results.bytes.drop (55 * k)).take 55).length := by
    rw [← reply_payload_drop, List.length_drop]
    have : 5 ≤ (r.payload k).length := by
      unfold Reply.payload
      simp only [List.length_append, be_length]
      omega
    omega
  have := List.length_take_le 55 (r.results.bytes.drop (55 * k))
  omega

theorem reply_whole (r : Reply) : (List.range r.parts).flatMap (fun k => (r.payload k).drop 5) = r.results.bytes := by
  simp only [reply_payload_drop, chunks_flatMap]
  exact List.take_of_length_le (reply_parts r).2.1

/-- Settles O55: each layout is its definition, once flags, optional numbers and the channels are written alike. -/
theorem outboundRecordsAreLaidOut : Obligations.OutboundRecordsAreLaidOut := by
  unfold Obligations.OutboundRecordsAreLaidOut
  intro flag present figures head each causes settings
  have hpresent (w : Nat) (v : Option Nat) : optional w v = present w v := optional_eq w v
  have heach (channels : Vector Channel 8) (f : Channel → Bool) : be 1 (bits (channels.toList.map f)) = each channels f := by
    rw [channel_bits]
  refine ⟨⟨fun w v => ⟨be_length w v, be_value w v⟩, bits_testBit, frameCheck_bits, fun _ _ => rfl⟩, ?codes, ?line, ?print, ?reply, ?results,
    fun r => ?accounts, ⟨rfl, fun c => ?capture⟩, fun r => ?status⟩
  case codes => decide
  case line =>
    refine ⟨fun _ _ _ _ => ⟨rfl, ?_⟩, fun _ _ _ => ?_, fun d => ?_, fun _ _ => ⟨rfl, rfl⟩, fun _ => ⟨rfl, rfl⟩⟩
    · exact (List.append_assoc _ _ _).symm
    · exact (List.append_assoc _ _ _).symm
    · intro outcome reason
      have hcode : dispositionCode d.outcome = outcome := dispositionCode_eq d.outcome
      refine ⟨rfl, ?_⟩
      show d.payload = _
      unfold DispositionRecord.payload
      rw [hcode] <;> rfl
  case print => exact ⟨fun _ => ⟨rfl, rfl⟩, fun _ _ => ⟨rfl, rfl⟩⟩
  case reply =>
    refine ⟨fun r => ?_, fun _ _ _ _ _ _ _ => ⟨rfl, rfl, rfl⟩, fun _ _ => rfl, fun _ _ => rfl⟩
    obtain ⟨hone, hfit, hfew⟩ := reply_parts r
    exact ⟨hone, hfit, hfew, fun k => ⟨rfl, reply_payload_length r k, rfl⟩, reply_whole r, fun _ => rfl⟩
  case results =>
    refine ⟨rfl, fun _ => rfl, fun _ _ => rfl, fun _ => rfl, fun _ => rfl, fun _ _ => rfl, fun _ _ => rfl, fun _ _ => rfl, fun _ => rfl, rfl, rfl,
      fun _ _ _ => rfl, fun _ _ _ => rfl, fun _ _ _ => rfl, fun _ _ => rfl, fun _ _ => rfl, fun channels gne => ?_, fun _ _ => rfl⟩
    exact congrArg (· ++ flag gne) (heach channels Channel.enable)
  case accounts =>
    intro a
    show accountBytes r = _
    simp only [accountBytes, hpresent] <;> rfl
  case capture =>
    show captureBytes (some c) = _
    simp only [captureBytes, hpresent] <;> rfl
  case status =>
    intro bank job pending monitor cause reported
    have hjob : headJobBytes r.headJob = job := by cases h : r.headJob <;> simp only [headJobBytes, job, h]
    have hpending : pendingSwitchBytes r.pendingSwitch = pending := by
      cases h : r.pendingSwitch <;> simp only [pendingSwitchBytes, pending, h]
    have hcause (x : ChannelReport) : causeBytes x.latest x.count = cause x := by
      cases h : x.latest <;> simp only [causeBytes, cause, h] <;> rfl
    have hreported : reportedBytes r.reported = reported := by
      cases h : r.reported <;> simp only [reportedBytes, reported, h, hcause]
    show statusBytes r = _
    unfold statusBytes
    rw [hpresent, heach, heach, heach, hjob, hpending, hreported, monitor_bytes]
    simp only [List.append_assoc]
    rfl

end Sys2Proof.Machine

/-! PROOFS. The completion of a COMMIT (O52). -/

namespace Sys2Proof.Machine

/-! ### The HOLD replies that wait (R166) -/

/-- Sending the replies leaves which of them wait to be sent. -/
theorem foldl_hold_waiting (f : FrankingState) (c : HoldCauses) (l hold : List Nat) (u : State) :
    ({ l.foldl (fun u number => u.accept number .hold (.franking f c)) u with holdWaiting := hold } : State) =
      l.foldl (fun u number => u.accept number .hold (.franking f c)) { u with holdWaiting := hold } := by
  induction l generalizing u with
  | nil => rfl
  | cons number l ih => exact ih (u.accept number .hold (.franking f c))

theorem answerHolds_first (u : State) :
    u.answerHolds =
      u.holdWaiting.foldl (fun t number => t.accept number .hold (.franking u.franking u.causes)) { u with holdWaiting := [] } := by
  rw [answerHolds_eq, foldl_hold_waiting]

/-! ### What becomes of the commit in the slot (R122, R123) -/

section
variable {s : State} {slot : CommitSlot}

theorem withheldCase_lineReset (h : slot.withheld = some .lineReset) : s.withheldCase slot = some .lineReset := if_pos h

theorem withheldCase_remove (h : slot.withheld ≠ some .lineReset)
    (hr : ((s.piece? slot.tag).map (·.flags.removeRequested)) = some true) : s.withheldCase slot = some .remove := by
  unfold State.withheldCase
  rw [if_neg h, if_pos (by rw [hr]; rfl)]

theorem not_removeRequested (hr : ((s.piece? slot.tag).map (·.flags.removeRequested)) ≠ some true) :
    ¬((s.piece? slot.tag).map (·.flags.removeRequested)).getD false = true := by
  cases h : (s.piece? slot.tag).map (·.flags.removeRequested) <;> simp_all

theorem withheldCase_lockout (h : slot.withheld ≠ some .lineReset)
    (hr : ((s.piece? slot.tag).map (·.flags.removeRequested)) ≠ some true) (hf : s.franking = .lockout) :
    s.withheldCase slot = some .lockout := by
  unfold State.withheldCase
  rw [if_neg h, if_neg (not_removeRequested hr), if_pos hf]

theorem withheldCase_none (h : slot.withheld ≠ some .lineReset)
    (hr : ((s.piece? slot.tag).map (·.flags.removeRequested)) ≠ some true) (hf : s.franking ≠ .lockout) : s.withheldCase slot = none := by
  unfold State.withheldCase
  rw [if_neg h, if_neg (not_removeRequested hr), if_neg hf]

theorem handCommit_withheld (hs : s.slot = some slot) {w : WithheldCause} (hw : s.withheldCase slot = some w) (c : CommitData) (date : Nat) :
    s.handCommit c date = s.withhold slot c w := by
  simp only [State.handCommit, hs, hw]

theorem handCommit_ordered (hs : s.slot = some slot) (hw : s.withheldCase slot = none) (c : CommitData) (date : Nat) :
    s.handCommit c date =
      (State.answerHolds { s.sendOrder slot c date with slot := none, pieces := atTag slot.tag (Piece.ordered c) s.pieces }).commitTest := by
  simp only [State.handCommit, hs, hw, ordered_eq]

theorem exec_commitComplete_head {tag p : Nat} {rest : List Write} (hp : s.power = .on) (hq : s.queue = .commit tag p :: rest) :
    exec .commitComplete s = .next (s.completeCommit tag p rest) := by
  show s.taken (fun s => match s.queue with
    | .commit tag p :: rest => s.completeCommit tag p rest
    | .close _ _ _ _ :: _ => s
    | .credit _ _ _ :: _ => s
    | [] => s) = _
  rw [taken_on hp]
  simp only [hq]

theorem withhold_settings (c : CommitData) (w : WithheldCause) : (s.withhold slot c w).settings = s.settings := by
  rw [withhold_eq]
  dsimp only
  split <;> rfl

theorem handCommit_settings (c : CommitData) (date : Nat) : (s.handCommit c date).settings = s.settings := by
  unfold State.handCommit
  split
  · rfl
  · split
    · exact withhold_settings c _
    · rw [ordered_eq, (commitTest_reach (Q := False) _ False.elim).settings_eq (by decide),
        (answerHolds_reach (Q := False) _).settings_eq (by decide)]
      rfl

end

/-- Settles O52: the case that withholds the order decides, LOW and the next write follow alike. -/
theorem commitCompletes : Obligations.CommitCompletes := by
  intro tag p day rest slot s hp hq hs hday a n k debited performed data filled finish removed queued withheld
  have hperformed : s.performHead (.commit tag p) rest = performed := by
    have hdebited : s.accounts.apply s.mailingDate (.commit tag p) = debited := by
      rw [hday]
      rfl
    rw [State.performHead, hdebited]
  have hdata : s.commitResult p = data := by
    simp only [State.commitResult, hday]
    rfl
  have hexec {u : State} (hu : performed.handCommit data day = u) : exec .commitComplete s = .next (finish u) := by
    have hsettings : u.settings = s.settings := by
      rw [← hu, handCommit_settings]
    rw [exec_commitComplete_head hp hq, State.completeCommit, hperformed, hdata, hday, Option.getD_some, hu]
    simp only [State.postLow, hsettings]
    rfl
  have htaken : performed.closeTaken n = !rest.any (Write.closes n) := by
    rw [State.closeTaken, List.any_append]
    simp [n, performed]
  have hqueued (kind : CloseKind) :
      (if performed.closeTaken n then rest ++ [.close kind slot.tag n .commitUnit] else rest) = queued kind rest := by
    rw [htaken]
    cases hany : rest.any (Write.closes n) with
    | true => exact (if_pos ((any_closes rest n).symm.trans hany)).symm
    | false => exact (if_neg (Bool.eq_false_iff.mp ((any_closes rest n).symm.trans hany))).symm
  have hfill (u : State) : u.fillCommitData slot.tag data = filled .committing u := by
    refine congrArg (u.updatePiece slot.tag) (funext fun q => ?_)
    split
    · next hc => rw [← hc]
    · rfl
  have hwithheld (w : WithheldCause) : performed.withhold slot data w =
      if w = .lineReset then withheld performed w w.closing else withheld (filled .committing performed) w w.closing := by
    rw [withhold_eq]
    simp only [hfill, withheld, ← hqueued]
    rfl
  refine ⟨fun hsafe kind => ?_, fun hl => ?_, fun hl hr => ?_, fun hl hr hf => ?_, fun hl hr hf => ?_, ?_⟩
  · have hnone : rest.any (Write.closes n) = false := by
      rw [Bool.eq_false_iff, ne_eq, ← mem_closings]
      exact fun hm => Nat.not_succ_le_self _ (hsafe.closings_le (n := n) (by rw [hq]; exact hm))
    exact (hqueued kind).symm.trans (if_pos (by rw [htaken, hnone]; rfl))
  · exact hexec ((handCommit_withheld (s := performed) hs (withheldCase_lineReset hl) data day).trans ((hwithheld _).trans (if_pos rfl)))
  · exact hexec ((handCommit_withheld (s := performed) hs (withheldCase_remove hl hr) data day).trans (hwithheld _))
  · exact hexec ((handCommit_withheld (s := performed) hs (withheldCase_lockout hl hr hf) data day).trans (hwithheld _))
  · intro ordered answered
    refine hexec ((handCommit_ordered (s := performed) hs (withheldCase_none hl hr hf) data day).trans (congrArg State.commitTest ?_))
    rw [answerHolds_first]
    rfl
  · exact Nat.le_of_lt_succ (Nat.mod_lt _ (by decide))

end Sys2Proof.Machine

/-! PROOFS. The start of a commit and the commit unit's tests (O54). -/

namespace Sys2Proof.Machine

/-! ### The start of a commit (R107, R120) -/

theorem Piece.orderFields_eq (p : Piece) :
    p.orderFields =
      { product := (p.rating.bind (·.ratedProduct)).getD 0, upgrades := (p.rating.bind (·.upgradeCount)).getD 0
        column := (p.rating.bind (·.zoneColumn)).getD 0, noReadDefault := (p.rating.bind (·.noReadDefault)).getD false
        rounded := (p.rating.bind (·.rounded)).getD false, tariffId := ((p.rating.bind (·.bank)).map (·.2)).getD 0
        estimate := p.flags.estimateCommitted } := by
  unfold Piece.orderFields
  cases p.rating <;> rfl

section
variable {s : State} {p : Piece}

theorem ceilingFailure_none (hhigh : s.accounts.a + s.accounts.e + p.postage ≤ 281474976710655) (hlast : s.accounts.n ≠ 4294967295) :
    s.accounts.ceilingFailure p.postage = none := by
  have h1 : decide (Config.aMax < s.accounts.a + s.accounts.e + p.postage) = false := decide_eq_false (Nat.not_lt.mpr hhigh)
  have h2 : decide (s.accounts.n = Config.nMax) = false := decide_eq_false hlast
  rw [Accounts.ceilingFailure, h1, h2]

theorem ceilingFailure_some (h : 281474976710655 < s.accounts.a + s.accounts.e + p.postage ∨ s.accounts.n = 4294967295) :
    s.accounts.ceilingFailure p.postage =
      some (if 281474976710655 < s.accounts.a + s.accounts.e + p.postage then (if s.accounts.n = 4294967295 then 2 else 0) else 1) := by
  unfold Accounts.ceilingFailure
  by_cases h1 : Config.aMax < s.accounts.a + s.accounts.e + p.postage
  · by_cases h2 : s.accounts.n = Config.nMax
    · rw [decide_eq_true h1, decide_eq_true h2]
      exact congrArg some ((if_pos h1).trans (if_pos h2)).symm
    · rw [decide_eq_true h1, decide_eq_false h2]
      exact congrArg some ((if_pos h1).trans (if_neg h2)).symm
  · have h2 : s.accounts.n = Config.nMax := h.resolve_left h1
    rw [decide_eq_false h1, decide_eq_true h2]
    exact congrArg some (if_neg h1).symm

theorem startCommit_taken (h : s.accounts.ceilingFailure p.postage = none) : s.startCommit p = s.takeCommit p := by
  simp only [State.startCommit, h]

theorem startCommit_failed {which : Nat} (h : s.accounts.ceilingFailure p.postage = some which) :
    s.startCommit p = (s.raiseAbort .accountCeiling (some p.tag) [some p.postage, some which]).finalize p.tag (.diverted .locked) := by
  simp only [State.startCommit, h]

/-- A ceiling check that fails locks a RUNNING part out and takes nothing (R107). -/
theorem startCommit_locks {which : Nat} (h : s.accounts.ceilingFailure p.postage = some which) (hf : s.franking = .running) :
    (s.startCommit p).franking = .lockout ∧ (s.startCommit p).lockoutFlag = true ∧ (s.startCommit p).queue = s.queue ∧
      (s.startCommit p).slot = s.slot := by
  rw [startCommit_failed h]
  have habort := raiseAbort_reach (Q := False) s .accountCeiling (some p.tag) [some p.postage, some which]
  obtain ⟨hlock, hflag⟩ := raiseAbort_locks (s := s) (by simp [hf]) .accountCeiling (some p.tag) [some p.postage, some which]
  generalize s.raiseAbort .accountCeiling (some p.tag) [some p.postage, some which] = u at habort hlock hflag ⊢
  have hend := finalize_reach (Q := False) u p.tag (.diverted .locked) False.elim
  exact ⟨(hend.franking_eq (by decide)).trans hlock, (hend.lockoutFlag_eq (by decide)).trans (hflag.resolve_left (by simp [hf])),
    (hend.queue_eq (by decide)).trans (habort.queue_eq (by decide)), (hend.slot_eq (by decide)).trans (habort.slot_eq (by decide))⟩

/-! ### The first unmet condition of the candidate (R118) -/

/-- Conditions 1, 2, 4 and 5 of R118: RUNNING, with a date, a ready printer and room for one more order. -/
def State.MayCommit (s : State) : Prop :=
  s.franking = .running ∧ s.mailingDate.isSome = true ∧ s.printer = .ready ∧ s.orders.length + s.slot.isSome.toNat < s.settings.maxOutstanding

theorem slot_count (s : State) : (if s.slot.isSome = true then 1 else 0) = s.slot.isSome.toNat := by
  cases s.slot.isSome <;> rfl

theorem firstUnmet_mayCommit (h : s.MayCommit) (ha : ∀ q ∈ s.ahead p.tag, q.state.settled = true) :
    s.firstUnmet p =
      if s.accounts.d < p.postage then some (.reason .fundsShort) else if s.slot.isSome = true then some .inFlight else none := by
  obtain ⟨hf, hd, hr, hroom⟩ := h
  rw [firstUnmet_running hf, if_neg (not_not_intro hd), if_neg (not_not_intro ha), if_neg (not_not_intro hr), slot_count,
    if_neg (not_not_intro hroom)]
  exact if_congr Nat.not_le rfl rfl

/-- Where a part may not commit, or a commit is in flight and the funds suffice, a condition other than the funds is unmet. -/
theorem firstUnmet_waits (h : ¬s.MayCommit ∨ (s.slot.isSome = true ∧ p.postage ≤ s.accounts.d)) :
    ∃ u, s.firstUnmet p = some u ∧ u ≠ .reason .fundsShort := by
  by_cases hf : s.franking = .running
  · rw [firstUnmet_running hf, slot_count]
    by_cases hd : s.mailingDate.isSome = true
    on_goal 2 => exact ⟨_, if_pos hd, nofun⟩
    rw [if_neg (not_not_intro hd)]
    by_cases ha : ∀ q ∈ s.ahead p.tag, q.state.settled = true
    on_goal 2 => exact ⟨_, if_pos ha, nofun⟩
    rw [if_neg (not_not_intro ha)]
    by_cases hr : s.printer = .ready
    on_goal 2 => exact ⟨_, if_pos hr, nofun⟩
    rw [if_neg (not_not_intro hr)]
    by_cases hroom : s.orders.length + s.slot.isSome.toNat < s.settings.maxOutstanding
    on_goal 2 => exact ⟨_, if_pos hroom, nofun⟩
    obtain ⟨hs, hp⟩ := h.resolve_left (not_not_intro ⟨hf, hd, hr, hroom⟩)
    rw [if_neg (not_not_intro hroom), if_neg (not_not_intro hp), if_pos hs]
    exact ⟨_, rfl, nofun⟩
  · have hreason : ∃ r, s.franking.gateReason = some r ∧ r ≠ .fundsShort := by
      cases hs : s.franking <;> simp_all [FrankingState.gateReason]
    obtain ⟨r, hr, hne⟩ := hreason
    exact ⟨_, firstUnmet_of_gateReason hr p, fun he => hne (Unmet.reason.inj he)⟩

theorem firstUnmet_slotFull (h : s.slot.isSome = true) : s.firstUnmet p ≠ none := by
  by_cases hf : s.franking = .running
  · rw [firstUnmet_running hf, if_pos h]
    split_ifs <;> simp
  · cases hs : s.franking <;> simp_all [State.firstUnmet, FrankingState.gateReason]

/-! ### One test of the candidate (R119, R121) -/

/-- The candidate is attempted as at its gate: it is gate-committed and the slot is empty (R121). -/
def State.checksGate (s : State) (p : Piece) : Bool := p.flags.gateCommitted && s.slot.isNone

theorem checksGate_false (h : p.flags.gateCommitted = false ∨ s.slot.isSome = true) : s.checksGate p = false := by
  rcases h with h | h
  · simp [State.checksGate, h]
  · obtain ⟨slot, hs⟩ := Option.isSome_iff_exists.mp h
    simp [State.checksGate, hs]

theorem commitTest_none (h : s.candidate = none) : s.commitTest = s := by
  simp only [State.commitTest, State.testCandidates, h]

variable (hc : s.candidate = some p)
include hc

theorem testCandidates_unrated (hr : p.state ≠ .rated) (fuel : Nat) : State.testCandidates fuel s = s := by
  cases fuel with
  | zero => rfl
  | succ fuel => simp [State.testCandidates, hc, hr]

theorem testCandidates_starts (hr : p.state = .rated) (hg : s.checksGate p = false) (hu : s.firstUnmet p = none) (fuel : Nat) :
    State.testCandidates (fuel + 1) s = State.testCandidates fuel (s.startCommit p) := by
  have hg' : (p.flags.gateCommitted && s.slot.isNone) = false := hg
  simp [State.testCandidates, hc, hr, hg', hu]

theorem testCandidates_short (hr : p.state = .rated) (hg : s.checksGate p = false) (hu : s.firstUnmet p = some (.reason .fundsShort)) (fuel : Nat) :
    State.testCandidates (fuel + 1) s = s.noteShort p := by
  have hg' : (p.flags.gateCommitted && s.slot.isNone) = false := hg
  simp [State.testCandidates, hc, hr, hg', hu]

theorem testCandidates_waits (hr : p.state = .rated) (hg : s.checksGate p = false) {u : Unmet} (hu : s.firstUnmet p = some u)
    (hne : u ≠ .reason .fundsShort) (fuel : Nat) : State.testCandidates (fuel + 1) s = s := by
  have hg' : (p.flags.gateCommitted && s.slot.isNone) = false := hg
  simp only [State.testCandidates, hc, hr, hg', hu, bne_self_eq_false, Bool.false_eq_true, if_false]

theorem testCandidates_gate (hr : p.state = .rated) (hg : s.checksGate p = true) (fuel : Nat) :
    State.testCandidates (fuel + 1) s = State.testCandidates fuel (s.attemptAtGate p.tag) := by
  have hg' : (p.flags.gateCommitted && s.slot.isNone) = true := hg
  simp [State.testCandidates, hc, hr, hg']

end

/-! ### The tests that follow (R119) -/

/-- With a commit in flight a test at most posts SHORT. -/
theorem testCandidates_slotFull {s : State} (h : s.slot.isSome = true) (fuel : Nat) :
    Reach False [.mark, .lineRecord, .notice] s (State.testCandidates fuel s) := by
  cases fuel with
  | zero => exact .refl s
  | succ fuel =>
    cases hc : s.candidate with
    | none =>
      simp only [State.testCandidates, hc]
      exact .refl s
    | some p =>
      by_cases hr : p.state = .rated
      · have hg := checksGate_false (p := p) (.inr h)
        cases hu : s.firstUnmet p with
        | none => exact absurd hu (firstUnmet_slotFull h)
        | some u =>
          by_cases hne : u = .reason .fundsShort
          · rw [testCandidates_short hc hr hg (hne ▸ hu)]
            exact noteShort_reach s p
          · rw [testCandidates_waits hc hr hg hu hne]
            exact .refl s
      · rw [testCandidates_unrated hc hr]
        exact .refl s

/-- In LOCKOUT a test at most ends the gate-committed pieces that are its candidates. -/
theorem testCandidates_locked (fuel : Nat) {s : State} (h : s.franking = .lockout) : Reach False pieceEffects s (State.testCandidates fuel s) := by
  induction fuel generalizing s with
  | zero => exact .refl s
  | succ fuel ih =>
    cases hc : s.candidate with
    | none =>
      simp only [State.testCandidates, hc]
      exact .refl s
    | some p =>
      have hunmet (q : Piece) : s.firstUnmet q = some (.reason .locked) := firstUnmet_of_gateReason (by rw [h]; rfl) q
      by_cases hr : p.state = .rated
      · cases hg : s.checksGate p with
        | true =>
          rw [testCandidates_gate hc hr hg]
          have hend : Reach False pieceEffects s (s.attemptAtGate p.tag) := by
            cases hp : s.piece? p.tag with
            | none =>
              simp only [State.attemptAtGate, hp]
              exact .refl s
            | some q =>
              simp only [State.attemptAtGate, hp, hunmet]
              exact finalize_reach s p.tag _ False.elim
          exact hend.trans (ih ((hend.franking_eq (by decide)).trans h))
        | false =>
          rw [testCandidates_waits hc hr hg (hunmet p) nofun]
          exact .refl s
      · rw [testCandidates_unrated hc hr]
        exact .refl s

/-- The piece of a commit that is taken is COMMITTING. -/
theorem takeCommit_committing {s : State} {p : Piece} (hp : p ∈ s.pieces) :
    ((s.takeCommit p).piece? p.tag).map (·.state) = some .committing := by
  obtain ⟨q, hq⟩ : ∃ q, s.piece? p.tag = some q := by
    rw [← Option.isSome_iff_exists, State.piece?, List.find?_isSome]
    exact ⟨p, hp, by simp⟩
  have hfind := updatePiece_find (s := { s with
    queue := s.queue ++ [.commit p.tag p.postage]
    slot := some { tag := p.tag, p := p.postage, phase := .commit, withheld := none, order := p.orderFields }
    fundsMark := none }) (tag := p.tag) (f := Piece.committing) fun _ => rfl
  have hq' : State.piece? { s with
    queue := s.queue ++ [.commit p.tag p.postage]
    slot := some { tag := p.tag, p := p.postage, phase := .commit, withheld := none, order := p.orderFields }
    fundsMark := none } p.tag = some q := hq
  rw [State.takeCommit, hfind, hq']
  rfl

theorem exec_commitStart (s : State) : exec .commitStart s = s.taken State.commitTest := rfl

theorem exec_writeBegin (s : State) : exec .writeBegin s = s.taken State.beginNext := rfl

theorem exec_gateCommittedCheck (s : State) : exec .gateCommittedCheck s = s.taken State.checkGateCommitted := rfl

theorem checkGateCommitted_some {s : State} {p : Piece} (hc : s.candidate = some p) :
    s.checkGateCommitted = if decide (p.state = .rated) && s.checksGate p then (s.attemptAtGate p.tag).commitTest else s := by
  simp only [State.checkGateCommitted, hc]
  exact if_congr (by rw [Bool.and_assoc]; rfl) rfl rfl

/-- Settles O54: the first unmet condition of the candidate decides each test. -/
theorem commitUnitStartsACommit : Obligations.CommitUnitStartsACommit := by
  unfold Obligations.CommitUnitStartsACommit
  intro kept
  refine ⟨fun p s => ⟨?_, ?_, fun h => ?_⟩, fun s hp => ⟨?_, ?_, fun hall => ?_, fun p hc => ⟨fun hr => ?_, fun hr hg => ?_, fun hr hg hs => ?_, ?_⟩⟩⟩
  · intro hhigh hlast
    rw [startCommit_taken (ceilingFailure_none (by simpa using hhigh) (by simpa using hlast)), State.takeCommit, Piece.orderFields_eq]
    rfl
  · intro h
    rw [startCommit_failed (ceilingFailure_some (by simpa using h))]
    simp only [decide_eq_true_eq]
  · exact attemptAtGate_found h
  · rw [exec_commitStart, taken_on hp]
  · rw [exec_writeBegin, taken_on hp]
    rfl
  · have hnone : s.candidate = none := List.find?_eq_none.mpr fun q hq => by simp [hall q hq]
    rw [exec_gateCommittedCheck, taken_on hp]
    simp only [State.checkGateCommitted, hnone]
    exact ⟨commitTest_none hnone, trivial⟩
  · have hc' : s.candidate = some p := hc
    rw [exec_gateCommittedCheck, taken_on hp, checkGateCommitted_some hc', decide_eq_false hr]
    exact ⟨testCandidates_unrated hc' hr _, rfl⟩
  · rw [exec_gateCommittedCheck, taken_on hp, checkGateCommitted_some hc, checksGate_false hg, Bool.and_false]
    rfl
  · have hgate : s.checksGate p = true := by simp [State.checksGate, hg, hs]
    rw [exec_gateCommittedCheck, taken_on hp, checkGateCommitted_some hc, hgate, decide_eq_true hr]
    exact ⟨rfl, fun hl => commitTest_settles hc hr hl.tags (.inl ⟨hg, hs, rfl⟩)⟩
  · intro hr hgate conditions
    have hg := checksGate_false hgate
    have hmem : p ∈ s.pieces := List.mem_of_find?_eq_some hc
    have hmay (ha : ∀ q ∈ s.ahead p.tag, q.state.settled = true) (hcond : conditions) (hd : p.postage ≤ s.accounts.d) (hs : s.slot = none) :
        s.firstUnmet p = none := by
      rw [firstUnmet_mayCommit hcond ha, if_neg (Nat.not_lt.mpr hd), hs]
      rfl
    refine ⟨fun ha hcond hd hs hhigh hlast => ?_, fun hcond hd hs ha hfail => ?_, fun hl hcond hd hs => ?_, fun ha hcond hd => ?_, fun hcond => ?_,
      fun hs hd => ?_⟩
    · have hstart : s.commitTest = State.testCandidates s.pieces.length (s.takeCommit p) := by
        rw [State.commitTest, testCandidates_starts hc hr hg (hmay ha hcond hd hs), startCommit_taken (ceilingFailure_none hhigh hlast)]
      have hreach := testCandidates_slotFull (s := s.takeCommit p) rfl s.pieces.length
      refine ⟨_, hstart, hreach.queue_eq (by decide), (hreach.slot_eq (by decide)).trans ?_, ?_, hreach.accounts_eq (by decide)⟩
      · show some _ = some _
        rw [Piece.orderFields_eq]
      · rw [State.piece?, hreach.pieces_eq (by decide)]
        exact takeCommit_committing hmem
    · have hstart : s.commitTest = State.testCandidates s.pieces.length (s.startCommit p) := by
        rw [State.commitTest, testCandidates_starts hc hr hg (hmay ha hcond hd hs)]
      obtain ⟨hlock, hflag, hqueue, hslot⟩ := startCommit_locks (ceilingFailure_some hfail) hcond.1
      have hreach := testCandidates_locked s.pieces.length hlock
      rw [hstart]
      exact ⟨(hreach.franking_eq (by decide)).trans hlock, (hreach.lockoutFlag_eq (by decide)).trans hflag,
        (hreach.queue_eq (by decide)).trans hqueue, (hreach.slot_eq (by decide)).trans (hslot.trans hs)⟩
    · have ha := (candidate_first hc hl.tags).2
      refine commitTest_settles hc hr hl.tags (.inr ⟨fun hx => ?_, hmay ha hcond hd hs, rfl⟩)
      rw [State.checksGate, hx.1, hs] at hg
      cases hg
    · exact testCandidates_short hc hr hg (by rw [firstUnmet_mayCommit hcond ha, if_pos hd]) _
    · obtain ⟨u, hu, hne⟩ := firstUnmet_waits (p := p) (.inl hcond)
      exact testCandidates_waits hc hr hg hu hne _
    · obtain ⟨u, hu, hne⟩ := firstUnmet_waits (.inr ⟨hs, hd⟩)
      exact testCandidates_waits hc hr hg hu hne _

end Sys2Proof.Machine

/-! PROOFS. The tests and the stages of a rating (O31). -/

namespace Sys2Proof.Machine

/-! ### The first tests (R30, R73) -/

theorem missingInput_isSome (i : RatingInputs) (zone : ZoneMode) :
    (missingInput i zone).isSome = true ↔
      i.weight.all (fun w => decide (w.quality = .fault)) = true ∨ i.dimension = none ∨ (zone = .read ∧ i.destination = none) := by
  unfold missingInput
  cases hw : i.weight with
  | none => simp
  | some w =>
    by_cases hq : w.quality = .fault
    · simp [hq]
    · by_cases hd : i.dimension = none
      · simp [hq, hd]
      · by_cases hz : zone = .read ∧ i.destination = none <;> simp [hq, hd, hz]

theorem rate_missing {i : RatingInputs} {j : JobValues} (h : (missingInput i j.zoneMode).isSome = true) (bank : Option (BankId × Bank)) :
    rate i j bank = .bare .incomplete (bank.map fun x => (x.1, x.2.tariffId)) := if_pos h

theorem rate_inBank {i : RatingInputs} {j : JobValues} {w : Weight} {d : Dimension} (h : ¬(missingInput i j.zoneMode).isSome = true)
    (hw : i.weight = some w) (hd : i.dimension = some d) (id : BankId) (b : Bank) : rate i j (some (id, b)) = rateInBank i w d j id b := by
  unfold rate
  rw [if_neg h]
  simp only [hw, hd]

/-! ### The upgrade chain (R76, R77) -/

/-- The product that a product is upgraded to. -/
def Bank.upgraded (b : Bank) (n : Nat) : Nat := (b.product n).upgrade.getD n

section
variable {b : Bank} {weff : Nat} {d : Dimension}

/-- What a walk from a product answers: the products checked follow the upgrades, each but the last unfit, and the walk ends at a product that
fits, has no upgrade or has had the last one allowed. -/
theorem formatWalk_chain (left n k : Nat) :
    ∃ m, m ≤ left ∧ formatWalk b weff d left n k = (formatFits (b.product (b.upgraded^[m] n)) weff d, b.upgraded^[m] n, k + m) ∧
      (∀ x, x < m → formatFits (b.product (b.upgraded^[x] n)) weff d = false ∧
        (b.product (b.upgraded^[x] n)).upgrade = some (b.upgraded^[x + 1] n)) ∧
      (formatFits (b.product (b.upgraded^[m] n)) weff d = false → m = left ∨ (b.product (b.upgraded^[m] n)).upgrade = none) := by
  induction left generalizing n k with
  | zero =>
    refine ⟨0, le_rfl, ?_, fun x hx => absurd hx (Nat.not_lt_zero x), fun _ => .inl rfl⟩
    unfold formatWalk
    cases hf : formatFits (b.product n) weff d with
    | true => simp [hf]
    | false => cases hu : (b.product n).upgrade <;> simp [hf]
  | succ left ih =>
    cases hf : formatFits (b.product n) weff d with
    | true =>
      refine ⟨0, Nat.zero_le _, ?_, fun x hx => absurd hx (Nat.not_lt_zero x), fun h => by simp [hf] at h⟩
      unfold formatWalk
      simp [hf]
    | false =>
      cases hu : (b.product n).upgrade with
      | none =>
        refine ⟨0, Nat.zero_le _, ?_, fun x hx => absurd hx (Nat.not_lt_zero x), fun _ => .inr hu⟩
        unfold formatWalk
        simp [hf, hu]
      | some next =>
        have hnext : b.upgraded n = next := by simp [Bank.upgraded, hu]
        obtain ⟨m, hm, hwalk, hpath, hend⟩ := ih next (k + 1)
        refine ⟨m + 1, Nat.succ_le_succ hm, ?_, fun x hx => ?_, fun h => ?_⟩
        · rw [Function.iterate_succ_apply, hnext, ← Nat.add_assoc, Nat.add_right_comm, ← hwalk]
          conv_lhs => unfold formatWalk
          simp [hf, hu]
        · cases x with
          | zero => exact ⟨hf, hu.trans (congrArg some hnext.symm)⟩
          | succ x =>
            rw [Function.iterate_succ_apply, Function.iterate_succ_apply, hnext]
            exact hpath x (Nat.lt_of_succ_lt_succ hx)
        · rw [Function.iterate_succ_apply, hnext] at h ⊢
          exact (hend h).imp_left (congrArg Nat.succ)

theorem formatFits_iff (p : Product) :
    formatFits p weff d = true ↔ weff ≤ p.maxWeight ∧ d.length ≤ p.maxLength ∧ d.height ≤ p.maxHeight ∧ d.thickness ≤ p.maxThickness := by
  simp only [formatFits, Bool.and_eq_true, decide_eq_true_eq, and_assoc]

end

/-! ### The surcharge walk (R82, R83) -/

/-- The entries the walk takes: those that apply, up to and with the first marked last. -/
def takenUpToLast (l : List Surcharge) : List Surcharge := l.takeWhile (fun e => !e.last) ++ (l.dropWhile fun e => !e.last).take 1

theorem takenUpToLast_cons (e : Surcharge) (l : List Surcharge) :
    takenUpToLast (e :: l) = e :: if e.last then [] else takenUpToLast l := by
  unfold takenUpToLast
  cases he : e.last <;> simp [he]

theorem surchargeWalk_eq (c product weff z : Nat) (d : Dimension) (dest : Option Destination) (sum : Nat) (l : List Surcharge) :
    surchargeWalk c product weff z d dest sum l =
      sum + ((takenUpToLast (l.filter fun e => e.applies product weff z d dest)).map (·.adds c)).sum := by
  induction l generalizing sum with
  | nil => rfl
  | cons e l ih =>
    unfold surchargeWalk
    by_cases ha : e.applies product weff z d dest = true
    · rw [if_pos ha, List.filter_cons, if_pos ha, takenUpToLast_cons]
      cases he : e.last with
      | true => simp
      | false => simp [ih, Nat.add_assoc]
    · rw [if_neg ha, List.filter_cons, if_neg ha, ih]

theorem Surcharge.adds_eq (e : Surcharge) (c : Nat) : e.adds c = if e.amountKind = .fixed then 1000 * e.amount else c * e.amount := by
  unfold Surcharge.adds
  cases e.amountKind <;> rfl

/-! ### The zone column (R79, R80) -/

section
variable {b : Bank} {p : Product} {j : JobValues} {dest : Option Destination}

theorem zoneOf_fixed (hz : j.zoneMode = .fixed) : zoneOf b p j dest = some (j.column, false) := by
  simp only [zoneOf, hz]

theorem zoneOf_noRead (hz : j.zoneMode = .read) (hd : dest = some .noRead) : zoneOf b p j dest = some (p.noReadColumn, true) := by
  simp only [zoneOf, hz, hd]

theorem zoneOf_code {code : Nat} (hz : j.zoneMode = .read) (hd : dest = some (.code code)) :
    zoneOf b p j dest =
      if (b.zoneMap p.zoneMap).entry code = 15 then none else some ((b.zoneMap p.zoneMap).entry code, false) := by
  simp only [zoneOf, hz, hd]
  rfl

/-- The zone column that the job, the destination or the product's default gives. -/
theorem zoneOf_some {z : Nat} {byDefault : Bool}
    (h : (j.zoneMode = .fixed ∧ z = j.column ∧ byDefault = false) ∨
      (j.zoneMode = .read ∧ dest = some .noRead ∧ z = p.noReadColumn ∧ byDefault = true) ∨
      (j.zoneMode = .read ∧ (∃ code, dest = some (.code code) ∧ (b.zoneMap p.zoneMap).entry code = z) ∧ z ≠ 15 ∧ byDefault = false)) :
    zoneOf b p j dest = some (z, byDefault) := by
  rcases h with ⟨hfixed, rfl, rfl⟩ | ⟨hread, hno, rfl, rfl⟩ | ⟨hread, ⟨code, hcode, rfl⟩, hserved, rfl⟩
  · exact zoneOf_fixed hfixed
  · exact zoneOf_noRead hread hno
  · exact (zoneOf_code hread hcode).trans (if_neg hserved)

end

/-! ### The limits, the price, the band (R78, R81, R85, R87) -/

/-- What a record may say of its outcome: it is not INCOMPLETE, RATED and PROVISIONAL follow the weight's quality, and both carry a postage within
the limits. -/
structure RatingRecord.Sound (r : RatingRecord) (b : Bank) (q : Quality) : Prop where
  complete : r.outcome ≠ .incomplete
  rated : r.outcome = .rated → q ≠ .estimate
  provisional : r.outcome = .provisional → q = .estimate
  postage : r.outcome = .rated ∨ r.outcome = .provisional →
    ∃ n p, r.ratedProduct = some n ∧ r.postage = some p ∧ p ≤ b.cap ∧ b.step ∣ p ∧ (p = 0 → (b.product n).zeroOk = true)

theorem RatingRecord.sound_of_unrateable {r : RatingRecord} {reason : DivertReason} (h : r.outcome = .unrateable reason) (b : Bank) (q : Quality) :
    r.Sound b q where
  complete := by simp [h]
  rated := by simp [h]
  provisional := by simp [h]
  postage := by simp [h]

/-- Two records agree in the fields of the stages before the band. -/
def RatingRecord.SameStart (r t : RatingRecord) : Prop :=
  t.effectiveWeight = r.effectiveWeight ∧ t.upgradeCount = r.upgradeCount ∧ t.ratedProduct = r.ratedProduct

section
variable {b : Bank} {p : Product} {q : Quality} {postage : Nat}

theorem limitsOutcome_overCap (h : b.cap < postage) : limitsOutcome b p q postage = .unrateable .overCap := if_pos h

theorem limitsOutcome_zero (h : postage ≤ b.cap) (h0 : postage = 0) (hz : p.zeroOk = false) :
    limitsOutcome b p q postage = .unrateable .zeroValue :=
  (if_neg (Nat.not_lt.mpr h)).trans (if_pos ⟨h0, hz⟩)

theorem limitsOutcome_within (h : postage ≤ b.cap) (h0 : postage ≠ 0 ∨ p.zeroOk = true) :
    limitsOutcome b p q postage = if q = .estimate then .provisional else .rated :=
  (if_neg (Nat.not_lt.mpr h)).trans (if_neg fun hx => by rcases h0 with h0 | h0 <;> simp_all)

/-- A record that ends with the limits is sound. -/
theorem limits_sound {r : RatingRecord} {n : Nat} (hn : r.ratedProduct = some n) (hp : r.postage = some postage)
    (ho : r.outcome = limitsOutcome b (b.product n) q postage) (hstep : b.step ∣ postage) : r.Sound b q := by
  by_cases hcap : b.cap < postage
  · exact RatingRecord.sound_of_unrateable (ho.trans (limitsOutcome_overCap hcap)) b q
  · have hle := Nat.not_lt.mp hcap
    by_cases hz : postage = 0 ∧ (b.product n).zeroOk = false
    · exact RatingRecord.sound_of_unrateable (ho.trans (limitsOutcome_zero hle hz.1 hz.2)) b q
    · have h0 : postage ≠ 0 ∨ (b.product n).zeroOk = true := by
        by_cases h : postage = 0
        · exact .inr (by simpa [h] using hz)
        · exact .inl h
      have hout := ho.trans (limitsOutcome_within hle h0)
      refine ⟨?_, ?_, ?_, fun _ => ⟨n, postage, hn, hp, hle, hstep, fun h => h0.resolve_left (not_not_intro h)⟩⟩
      all_goals rw [hout]; by_cases hq : q = .estimate <;> simp [hq]

variable {n weff band z : Nat} {d : Dimension} {dest : Option Destination} {r : RatingRecord} {j : JobValues}

theorem priceStages_notOffered (h : b.cell (flatIndex p.bandTable band z) = 65535) :
    priceStages b p n weff band z d dest q r = { r with outcome := .unrateable .notOffered } := if_pos h

theorem priceStages_offered (h : b.cell (flatIndex p.bandTable band z) ≠ 65535) :
    priceStages b p n weff band z d dest q r =
      (let c := b.cell (flatIndex p.bandTable band z)
       let s := surchargeWalk c n weff z d dest (1000 * c) b.surcharges
       { r with
         basePrice := some c, exactSum := some s, postage := some (roundSum b.rounding b.step s), rounded := some (isRounded b.step s)
         outcome := limitsOutcome b p q (roundSum b.rounding b.step s) }) := if_neg h

theorem bandStages_aboveTop (h : bandOf (b.bandTable (b.product n).bandTable) weff = none) :
    bandStages b j n weff d dest q r = { r with band := some .aboveTop, outcome := .unrateable .overweight } := by
  simp only [bandStages, h]

theorem bandStages_notServed (h : bandOf (b.bandTable (b.product n).bandTable) weff = some band) (hz : zoneOf b (b.product n) j dest = none) :
    bandStages b j n weff d dest q r = { r with band := some .within, bandIndex := some band, outcome := .unrateable .notServed } := by
  simp only [bandStages, h, hz]

theorem bandStages_priced {byDefault : Bool} (h : bandOf (b.bandTable (b.product n).bandTable) weff = some band)
    (hz : zoneOf b (b.product n) j dest = some (z, byDefault)) :
    bandStages b j n weff d dest q r =
      priceStages b (b.product n) n weff band z d dest q
        { r with band := some .within, bandIndex := some band, zoneColumn := some z, noReadDefault := some byDefault } := by
  simp only [bandStages, h, hz]

/-- Once the band is found, the record holds it whatever the later stages do. -/
theorem bandStages_within (h : bandOf (b.bandTable (b.product n).bandTable) weff = some band) :
    (bandStages b j n weff d dest q r).band = some .within ∧ (bandStages b j n weff d dest q r).bandIndex = some band := by
  rcases hz : zoneOf b (b.product n) j dest with _ | ⟨z, byDefault⟩
  · rw [bandStages_notServed h hz]
    exact ⟨rfl, rfl⟩
  · rw [bandStages_priced h hz]
    by_cases hc : b.cell (flatIndex (b.product n).bandTable band z) = 65535
    · rw [priceStages_notOffered hc]
      exact ⟨rfl, rfl⟩
    · rw [priceStages_offered hc]
      exact ⟨rfl, rfl⟩

/-- The stages from the band on keep the fields before them and end in a sound outcome. -/
theorem bandStages_sound (hn : r.ratedProduct = some n) :
    (bandStages b j n weff d dest q r).Sound b q ∧ r.SameStart (bandStages b j n weff d dest q r) := by
  cases h : bandOf (b.bandTable (b.product n).bandTable) weff with
  | none =>
    rw [bandStages_aboveTop h]
    exact ⟨RatingRecord.sound_of_unrateable rfl b q, rfl, rfl, rfl⟩
  | some band =>
    rcases hz : zoneOf b (b.product n) j dest with _ | ⟨z, byDefault⟩
    · rw [bandStages_notServed h hz]
      exact ⟨RatingRecord.sound_of_unrateable rfl b q, rfl, rfl, rfl⟩
    · rw [bandStages_priced h hz]
      by_cases hc : b.cell (flatIndex (b.product n).bandTable band z) = 65535
      · rw [priceStages_notOffered hc]
        exact ⟨RatingRecord.sound_of_unrateable rfl b q, rfl, rfl, rfl⟩
      · rw [priceStages_offered hc]
        exact ⟨limits_sound hn rfl rfl (step_dvd_roundSum _ _ _), rfl, rfl, rfl⟩

end

/-! ### A rating against a bank (R73, R75) -/

/-- The record before the stages: the fields that stage 1 and the starting product give. -/
def RatingRecord.atStart (id : BankId) (b : Bank) (weff start : Nat) : RatingRecord :=
  { RatingRecord.bare (.unrateable .outOfFormat) (some (id, b.tariffId)) with
    effectiveWeight := some weff, ratedProduct := some start, upgradeCount := some 0 }

section
variable {i : RatingInputs} {w : Weight} {d : Dimension} {j : JobValues} {id : BankId} {b : Bank}

theorem rateInBank_overload (h : w.quality = .overload) :
    rateInBank i w d j id b =
      { RatingRecord.atStart id b (effectiveWeight w.reading j.margin) (startingProduct i j) with
        outcome := .unrateable .overweight, band := some .unordered } := if_pos h

theorem rateInBank_undefined (h : w.quality ≠ .overload) (hd : (b.product (startingProduct i j)).defined = false) :
    rateInBank i w d j id b = .atStart id b (effectiveWeight w.reading j.margin) (startingProduct i j) :=
  (if_neg h).trans (if_pos hd)

theorem rateInBank_walked (h : w.quality ≠ .overload) (hd : (b.product (startingProduct i j)).defined = true) {fits : Bool} {n k : Nat}
    (hwalk : formatWalk b (effectiveWeight w.reading j.margin) d 3 (startingProduct i j) 0 = (fits, n, k)) :
    rateInBank i w d j id b =
      (let r : RatingRecord := { RatingRecord.atStart id b (effectiveWeight w.reading j.margin) n with upgradeCount := some k }
       if fits then bandStages b j n (effectiveWeight w.reading j.margin) d i.destination w.quality r else r) := by
  have hdef : ¬(b.product (startingProduct i j)).defined = false := by simp [hd]
  unfold rateInBank
  simp only [h, hdef, if_false, hwalk]
  rfl

/-- A rating against a bank is sound, upgrades at most three times, and keeps its effective weight. -/
theorem rateInBank_sound :
    (rateInBank i w d j id b).Sound b w.quality ∧ (∀ k, (rateInBank i w d j id b).upgradeCount = some k → k ≤ 3) ∧
      (rateInBank i w d j id b).effectiveWeight = some (effectiveWeight w.reading j.margin) := by
  by_cases hq : w.quality = .overload
  · rw [rateInBank_overload hq]
    exact ⟨RatingRecord.sound_of_unrateable rfl b w.quality, fun k hk => by cases hk; decide, rfl⟩
  · cases hd : (b.product (startingProduct i j)).defined with
    | false =>
      rw [rateInBank_undefined hq hd]
      exact ⟨RatingRecord.sound_of_unrateable rfl b w.quality, fun k hk => by cases hk; decide, rfl⟩
    | true =>
      obtain ⟨m, hm, hwalk, -, -⟩ := formatWalk_chain (b := b) (weff := effectiveWeight w.reading j.margin) (d := d) 3 (startingProduct i j) 0
      rw [rateInBank_walked hq hd hwalk]
      cases formatFits (b.product (b.upgraded^[m] (startingProduct i j))) (effectiveWeight w.reading j.margin) d with
      | false => exact ⟨RatingRecord.sound_of_unrateable rfl b w.quality, fun k hk => by cases hk; omega, rfl⟩
      | true =>
        obtain ⟨hsound, hweight, hcount, -⟩ := bandStages_sound (b := b) (j := j) (weff := effectiveWeight w.reading j.margin) (d := d)
          (dest := i.destination) (q := w.quality)
          (r := { RatingRecord.atStart id b (effectiveWeight w.reading j.margin) (b.upgraded^[m] (startingProduct i j)) with
            upgradeCount := some (0 + m) }) (n := b.upgraded^[m] (startingProduct i j)) rfl
        refine ⟨hsound, fun k hk => ?_, hweight⟩
        have := hcount.symm.trans hk
        cases this
        omega

/-- A weight that is not FAULT rates RATED only when it is SETTLED. -/
theorem rateInBank_rated (hfault : w.quality ≠ .fault) (ho : (rateInBank i w d j id b).outcome = .rated) : w.quality = .settled := by
  have hnotEstimate := rateInBank_sound.1.rated ho
  cases hq : w.quality with
  | settled => rfl
  | estimate => exact absurd hq hnotEstimate
  | overload =>
    rw [rateInBank_overload hq] at ho
    cases ho
  | fault => exact absurd hq hfault

/-- The product and the upgrades of a walk stay in the record. -/
theorem rateInBank_chain (h : w.quality ≠ .overload) (hd : (b.product (startingProduct i j)).defined = true) {fits : Bool} {n k : Nat}
    (hwalk : formatWalk b (effectiveWeight w.reading j.margin) d 3 (startingProduct i j) 0 = (fits, n, k)) :
    (rateInBank i w d j id b).ratedProduct = some n ∧ (rateInBank i w d j id b).upgradeCount = some k := by
  rw [rateInBank_walked h hd hwalk]
  cases fits with
  | false => exact ⟨rfl, rfl⟩
  | true =>
    obtain ⟨-, -, hcount, hproduct⟩ := bandStages_sound (b := b) (j := j) (weff := effectiveWeight w.reading j.margin) (d := d)
      (dest := i.destination) (q := w.quality)
      (r := { RatingRecord.atStart id b (effectiveWeight w.reading j.margin) n with upgradeCount := some k }) (n := n) rfl
    exact ⟨hproduct, hcount⟩

end

/-- An entry's condition, by the stages' figures (R82). -/
theorem Surcharge.holds_eq (e : Surcharge) (weff z : Nat) (d : Dimension) (dest : Option Destination) :
    e.holds weff z d dest =
      match e.condition with
      | .always => true
      | .thickOver => decide (e.threshold < d.thickness)
      | .lengthOver => decide (e.threshold < d.length)
      | .heightOver => decide (e.threshold < d.height)
      | .weightOver => decide (e.threshold < weff)
      | .nonMachinable => d.nonMachinable
      | .noRead => decide (dest = some .noRead)
      | .zoneAtLeast => decide (e.threshold ≤ z) := by
  unfold Surcharge.holds
  cases e.condition with
  | noRead => exact beq_eq_decide _ _
  | _ => rfl

/-- Settles O31: the tests first, then the walk through the stages field by field. -/
theorem ratingTestsAndStages : Obligations.RatingTestsAndStages := by
  refine ⟨fun i j bank => ?_, fun i j id b w d hw hfault hover hd hdest => ?_⟩
  · intro r missing
    have hmissing : (missingInput i j.zoneMode).isSome = true ↔ missing := missingInput_isSome i j.zoneMode
    have hpresent (hm : ¬missing) : ∃ w d, i.weight = some w ∧ w.quality ≠ .fault ∧ i.dimension = some d := by
      obtain ⟨hweight, hrest⟩ := not_or.mp hm
      obtain ⟨d, hd⟩ := Option.ne_none_iff_exists'.mp (not_or.mp hrest).1
      cases hw : i.weight with
      | none => simp [hw] at hweight
      | some w => exact ⟨w, d, rfl, by simpa [hw] using hweight, hd⟩
    have hrated {id : BankId} {b : Bank} {w : Weight} (hm : ¬missing) (hb : bank = some (id, b)) (hw : i.weight = some w) :
        ∃ d, r = rateInBank i w d j id b := by
      obtain ⟨w', d, hw', -, hd⟩ := hpresent hm
      exact ⟨d, (congrArg (rate i j) hb).trans (rate_inBank (mt hmissing.mp hm) hw hd id b)⟩
    have hnoBank (hm : ¬missing) (hb : bank = none) : r.outcome = .unrateable .noBank := by
      have hnone : missingInput i j.zoneMode = none := by simpa using mt hmissing.mp hm
      exact (congrArg (fun x => (rate i j x).outcome) hb).trans (rate_noBank hnone)
    refine ⟨⟨fun ho => ?_, fun hm => ?_⟩, hnoBank, fun id b w hm hb hw => ?_⟩
    · by_contra hm
      obtain ⟨w, d, hw, -, -⟩ := hpresent hm
      rcases hb : bank with _ | ⟨id, b⟩
      · cases (hnoBank hm hb).symm.trans ho
      · obtain ⟨d, hr⟩ := hrated hm hb hw
        exact (rateInBank_sound (i := i) (w := w) (d := d) (j := j) (id := id) (b := b)).1.complete (hr ▸ ho)
    · simp only [r, rate_missing (hmissing.mpr hm)]
      rfl
    · obtain ⟨d, hr⟩ := hrated hm hb hw
      obtain ⟨hsound, hcount, hweight⟩ := rateInBank_sound (i := i) (w := w) (d := d) (j := j) (id := id) (b := b)
      rw [← hr] at hsound hcount hweight
      refine ⟨fun hq => ?_, fun ho => ?_, hsound.provisional, hsound.postage, hcount, hweight⟩
      · rw [hr, rateInBank_overload hq]
        exact ⟨rfl, rfl⟩
      · obtain ⟨w', -, hw', hnotFault, -⟩ := hpresent hm
        obtain rfl : w' = w := Option.some.inj (hw'.symm.trans hw)
        exact rateInBank_rated hnotFault (hr ▸ ho)
  · intro r weff start fits
    have hr : r = rateInBank i w d j id b :=
      rate_inBank (by rw [missingInput_none hw hfault (by simp [hd]) hdest]; simp) hw hd id b
    refine ⟨fun hundef => ?_, fun hdef => ?_⟩
    · rw [hr, rateInBank_undefined hover hundef]
      exact ⟨rfl, rfl, rfl⟩
    · obtain ⟨k, hk, hwalk, hpath, hend⟩ := formatWalk_chain (b := b) (weff := weff) (d := d) 3 start 0
      rw [Nat.zero_add] at hwalk
      generalize hn : b.upgraded^[k] start = n at hwalk hend
      have hwalked := hr.trans (rateInBank_walked (i := i) (id := id) hover hdef hwalk)
      have hcommon := rateInBank_chain (i := i) (id := id) hover hdef hwalk
      rw [← hr] at hcommon
      have hfits (n : Nat) : fits n ↔ formatFits (b.product n) weff d = true := (formatFits_iff _).symm
      refine ⟨n, k, fun m => b.upgraded^[m] start, rfl, hn, hk, hcommon.1, hcommon.2, fun m hm => ?_, fun hno => ?_, fun hyes => ?_⟩
      · obtain ⟨hunfit, hup⟩ := hpath m hm
        exact ⟨mt (hfits _).mp (by simp [hunfit]), hup⟩
      · have hfalse : formatFits (b.product n) weff d = false := by simpa using mt (hfits n).mpr hno
        refine ⟨hend hfalse, ?_⟩
        rw [hwalked, hfalse]
        rfl
      · intro p
        have hstages : r = bandStages b j n weff d i.destination w.quality { RatingRecord.atStart id b weff n with upgradeCount := some k } := by
          rw [hwalked, (hfits n).mp hyes]
          rfl
        refine ⟨fun hband => ?_, fun band hband => ?_⟩
        · rw [hstages, bandStages_aboveTop hband]
          exact ⟨rfl, rfl⟩
        · have hwithin : r.band = some .within ∧ r.bandIndex = some band := by
            rw [hstages]
            exact bandStages_within hband
          refine ⟨hwithin.1, hwithin.2, fun code hread hcode hentry => ?_, fun z byDefault hzone => ?_⟩
          · rw [hstages, bandStages_notServed hband ((zoneOf_code hread hcode).trans (if_pos hentry))]
          · intro c holds applying taken sum postage
            have hz : zoneOf b (b.product n) j i.destination = some (z, byDefault) := zoneOf_some hzone
            have hsum : surchargeWalk c n weff z d i.destination (1000 * c) b.surcharges = sum := by
              rw [surchargeWalk_eq]
              simp only [Surcharge.applies, Surcharge.holds_eq, Surcharge.adds_eq]
              rfl
            rw [hstages, bandStages_priced hband hz]
            by_cases hc : c = 65535
            · rw [priceStages_notOffered hc]
              exact ⟨rfl, rfl, fun _ => rfl, fun h => absurd hc h⟩
            · rw [priceStages_offered hc]
              have hlimits := congrArg (fun x => limitsOutcome b p w.quality (roundSum b.rounding b.step x)) hsum
              exact ⟨rfl, rfl, fun h => absurd h hc, fun _ => ⟨rfl, congrArg some hsum, congrArg (fun x => some (roundSum b.rounding b.step x)) hsum,
                congrArg (fun x => some (isRounded b.step x)) hsum, fun h => hlimits.trans (limitsOutcome_overCap h),
                fun h h0 hz => hlimits.trans (limitsOutcome_zero h h0 hz), fun h h0 => hlimits.trans (limitsOutcome_within h h0)⟩⟩

end Sys2Proof.Machine

/-! PROOFS. The layouts of inbound records, written and read back (O13). -/

namespace Sys2Proof.Machine

/-! ### Fields at their places (R197) -/

/-- A number that fits its field is read back, whatever follows it. -/
theorem field_reads {w v : Nat} (h : fitsBytes w v = true) : (∀ rest, field (be w v ++ rest) 0 w = v) ∧ field (be w v) 0 w = v := by
  have hv : v < 256 ^ w := by simpa using h
  exact ⟨field_be hv, by simpa using field_be hv []⟩

/-- A field behind another is that of what follows it. -/
@[simp] theorem field_skip {w v i n : Nat} (h : w ≤ i) (rest : List Byte) : field (be w v ++ rest) i n = field rest (i - w) n := by
  rw [field_append rest (by simpa using h), be_length]

@[simp] theorem flagAt_skip {w v i : Nat} (h : w ≤ i) (rest : List Byte) (k : Nat) : flagAt (be w v ++ rest) i k = flagAt rest (i - w) k := by
  unfold flagAt
  rw [List.drop_append, List.drop_eq_nil_of_le (by simpa using h), be_length, List.nil_append]

theorem bits_lt (bs : List Bool) : bits bs < 2 ^ bs.length := by
  induction bs with
  | nil => decide
  | cons b bs ih =>
    have hb : b.toNat ≤ 1 := Bool.toNat_le b
    rw [bits, List.length_cons, pow_succ]
    omega

/-- A flag of at most eight is read back from its bit. -/
theorem flagAt_bits {bs : List Bool} (h : bs.length ≤ 8) (rest : List Byte) (k : Nat) :
    flagAt (be 1 (bits bs) ++ rest) 0 k = bs.getD k false := by
  have hlt : bits bs < 256 := (bits_lt bs).trans_le (Nat.pow_le_pow_right (by decide) h)
  have hbyte : (be 1 (bits bs) ++ rest).headD 0 = BitVec.ofNat 8 (bits bs) := by simp [be]
  unfold flagAt
  rw [List.drop_zero, hbyte, BitVec.getLsbD, BitVec.toNat_ofNat, Nat.mod_eq_of_lt hlt, bits_testBit]

@[simp] theorem flags16_word (word : Flags16) (rest : List Byte) : BitVec.ofNat 16 (field (be 2 word.toNat ++ rest) 0 2) = word := by
  rw [field_be word.isLt, BitVec.ofNat_toNat, BitVec.setWidth_eq]

/-! ### Which layout a record has (R191) -/

theorem decodeRecord_request {kind : Nat} {p : List Byte} (hlow : 0x40 ≤ kind) (hhigh : kind < 0x80) (hp : p.length ≠ 0) :
    decodeRecord .line kind p = decodeRequest kind p := by
  have hno : isUnknownRecord .line kind p.length = false := by
    simp [isUnknownRecord, Nat.not_lt.mpr hlow, hhigh, hp]
  simp [decodeRecord, hno, Nat.not_lt.mpr hlow]

theorem decodeRecord_sensor {kind : Nat} {p : List Byte} (hk : kind < 0x40) (hl : sensorLength kind = some p.length) :
    decodeRecord .line kind p = decodeSensor kind p := by
  have hno : isUnknownRecord .line kind p.length = false := by simp [isUnknownRecord, hk, hl]
  simp [decodeRecord, hno, hk]

theorem decodeRecord_print {kind : Nat} {p : List Byte} (hl : printLength kind = some p.length) :
    decodeRecord .print kind p = decodePrint kind p := by
  have hno : isUnknownRecord .print kind p.length = false := by simp [isUnknownRecord, hl]
  simp [decodeRecord, hno]

/-- A record fits a frame and is read back as the command. -/
structure CarriedBy (c : Instr) (link : Link) (kind : Nat) (payload : List Byte) : Prop where
  kindFits : kind < 256
  payloadFits : payload.length ≤ 60
  decoded : decodeRecord link kind payload = c

theorem requestRecord_some {h : ReqHead} {k kind : Nat} {rest payload : List Byte} {link : Link}
    (hr : requestRecord h k rest = some (link, kind, payload)) :
    h = { number := h.number, lenOk := true } ∧ link = .line ∧ kind = k ∧ payload = be 1 h.number ++ rest := by
  obtain ⟨number, lenOk⟩ := h
  cases lenOk with
  | false => cases hr
  | true =>
    cases hr
    exact ⟨rfl, rfl, rfl, rfl⟩

theorem carriedBy_request {c : Instr} {h : ReqHead} {k kind : Nat} {rest payload : List Byte} {link : Link}
    (hr : requestRecord h k rest = some (link, kind, payload)) (hlow : 0x40 ≤ k) (hhigh : k < 0x80) (hlen : rest.length ≤ 59)
    (hd : ∀ number, h = { number, lenOk := true } → decodeRequest k (be 1 number ++ rest) = c) : CarriedBy c link kind payload := by
  obtain ⟨hh, rfl, rfl, rfl⟩ := requestRecord_some hr
  refine ⟨by omega, by simp; omega, ?_⟩
  rw [decodeRecord_request hlow hhigh (by simp)]
  exact hd h.number hh

/-! ### The requests (R191, R192, R199) -/

section
variable {link : Link} {kind : Nat} {payload : List Byte} {h : ReqHead}

/-- A request with no bytes behind its number. -/
theorem carriedBy_bare {c : ReqHead → Instr} {k : Nat} (hlow : 0x40 ≤ k) (hhigh : k < 0x80)
    (hdec : ∀ p, decodeRequest k p = c { number := field p 0 1, lenOk := p.length == 1 }) (hn : h.wf = true)
    (hr : requestRecord h k [] = some (link, kind, payload)) : CarriedBy (c h) link kind payload := by
  refine carriedBy_request hr hlow hhigh (by simp) ?_
  rintro number rfl
  rw [hdec]
  simp [field_reads hn]

theorem carried_configure {v : ConfigureFields} (hwf : (Instr.configure h v).WellFormed = true)
    (hr : recordOf (.configure h v) = some (link, kind, payload)) : CarriedBy (.configure h v) link kind payload := by
  refine carriedBy_request hr (by decide) (by decide) (by simp) ?_
  rintro number rfl
  simp only [Instr.WellFormed, ConfigureFields.wf, Bool.and_eq_true] at hwf
  obtain ⟨hn, ⟨⟨⟨⟨h1, h2⟩, h3⟩, h4⟩, h5⟩, h6⟩ := hwf
  simp [decodeRequest, field_reads hn, field_reads h1, field_reads h2, field_reads h3, field_reads h4, field_reads h5, field_reads h6]

theorem carried_tableBegin {bank tid : Nat} (hwf : (Instr.tableBegin h bank tid).WellFormed = true)
    (hr : recordOf (.tableBegin h bank tid) = some (link, kind, payload)) : CarriedBy (.tableBegin h bank tid) link kind payload := by
  refine carriedBy_request hr (by decide) (by decide) (by simp) ?_
  rintro number rfl
  simp only [Instr.WellFormed, Bool.and_eq_true] at hwf
  obtain ⟨⟨hn, hb⟩, ht⟩ := hwf
  simp [decodeRequest, field_reads hn, field_reads hb, field_reads ht]

theorem carried_tableEnd {expected : Nat} (hwf : (Instr.tableEnd h expected).WellFormed = true)
    (hr : recordOf (.tableEnd h expected) = some (link, kind, payload)) : CarriedBy (.tableEnd h expected) link kind payload := by
  refine carriedBy_request hr (by decide) (by decide) (by simp) ?_
  rintro number rfl
  simp only [Instr.WellFormed, Bool.and_eq_true] at hwf
  obtain ⟨hn, he⟩ := hwf
  simp [decodeRequest, field_reads hn, field_reads he]

theorem carried_bankSwitchAtDate {bank : Nat} (hwf : (Instr.bankSwitchAtDate h bank).WellFormed = true)
    (hr : recordOf (.bankSwitchAtDate h bank) = some (link, kind, payload)) : CarriedBy (.bankSwitchAtDate h bank) link kind payload := by
  refine carriedBy_request hr (by decide) (by decide) (by simp) ?_
  rintro number rfl
  simp only [Instr.WellFormed, Bool.and_eq_true] at hwf
  obtain ⟨hn, hb⟩ := hwf
  simp [decodeRequest, field_reads hn, field_reads hb, field_reads (show fitsBytes 1 1 = true from rfl)]

theorem carried_bankSwitchAtJob {bank : Nat} (hwf : (Instr.bankSwitchAtJob h bank).WellFormed = true)
    (hr : recordOf (.bankSwitchAtJob h bank) = some (link, kind, payload)) : CarriedBy (.bankSwitchAtJob h bank) link kind payload := by
  refine carriedBy_request hr (by decide) (by decide) (by simp) ?_
  rintro number rfl
  simp only [Instr.WellFormed, Bool.and_eq_true] at hwf
  obtain ⟨hn, hb⟩ := hwf
  simp [decodeRequest, field_reads hn, field_reads hb, field_reads (show fitsBytes 1 2 = true from rfl)]

theorem carried_bankSwitchImmediate {bank mode : Nat} (hwf : (Instr.bankSwitchImmediate h bank mode).WellFormed = true)
    (hr : recordOf (.bankSwitchImmediate h bank mode) = some (link, kind, payload)) :
    CarriedBy (.bankSwitchImmediate h bank mode) link kind payload := by
  refine carriedBy_request hr (by decide) (by decide) (by simp) ?_
  rintro number rfl
  simp only [Instr.WellFormed, Bool.and_eq_true] at hwf
  obtain ⟨⟨⟨hn, hb⟩, hmode⟩, hm⟩ := hwf
  have hne : mode ≠ 1 ∧ mode ≠ 2 := by
    simp only [Bool.or_eq_true, beq_iff_eq, decide_eq_true_eq] at hmode
    omega
  simp [decodeRequest, field_reads hn, field_reads hb, field_reads hm, hne.1, hne.2]

theorem carried_credit {number amount : Nat} (hwf : (Instr.credit h number amount).WellFormed = true)
    (hr : recordOf (.credit h number amount) = some (link, kind, payload)) : CarriedBy (.credit h number amount) link kind payload := by
  refine carriedBy_request hr (by decide) (by decide) (by simp) ?_
  rintro request rfl
  simp only [Instr.WellFormed, Bool.and_eq_true] at hwf
  obtain ⟨⟨hn, hc⟩, ha⟩ := hwf
  simp [decodeRequest, field_reads hn, field_reads hc, field_reads ha]

theorem carried_date {day : Nat} (hwf : (Instr.date h day).WellFormed = true)
    (hr : recordOf (.date h day) = some (link, kind, payload)) : CarriedBy (.date h day) link kind payload := by
  refine carriedBy_request hr (by decide) (by decide) (by simp) ?_
  rintro number rfl
  simp only [Instr.WellFormed, Bool.and_eq_true] at hwf
  obtain ⟨hn, hd⟩ := hwf
  simp [decodeRequest, field_reads hn, field_reads hd]

theorem carried_jobAdd {v : JobFields} (hwf : (Instr.jobAdd h v).WellFormed = true)
    (hr : recordOf (.jobAdd h v) = some (link, kind, payload)) : CarriedBy (.jobAdd h v) link kind payload := by
  refine carriedBy_request hr (by decide) (by decide) (by simp) ?_
  rintro number rfl
  simp only [Instr.WellFormed, JobFields.wf, Bool.and_eq_true] at hwf
  obtain ⟨hn, ⟨⟨⟨⟨⟨h1, h2⟩, h3⟩, h4⟩, h5⟩, h6⟩, h7⟩ := hwf
  have hflag := flagAt_bits (bs := [v.overrideAllowed]) (by simp) [] 0
  rw [List.append_nil] at hflag
  simp [decodeRequest, field_reads hn, field_reads h1, field_reads h2, field_reads h3, field_reads h4, field_reads h5, field_reads h6,
    field_reads h7, hflag]

theorem carried_jobAbort {id : Nat} (hwf : (Instr.jobAbort h id).WellFormed = true)
    (hr : recordOf (.jobAbort h id) = some (link, kind, payload)) : CarriedBy (.jobAbort h id) link kind payload := by
  refine carriedBy_request hr (by decide) (by decide) (by simp) ?_
  rintro number rfl
  simp only [Instr.WellFormed, Bool.and_eq_true] at hwf
  obtain ⟨hn, hi⟩ := hwf
  simp [decodeRequest, field_reads hn, field_reads hi]

theorem carried_monitorSet {v : MonitorFields} (hwf : (Instr.monitorSet h v).WellFormed = true)
    (hr : recordOf (.monitorSet h v) = some (link, kind, payload)) : CarriedBy (.monitorSet h v) link kind payload := by
  refine carriedBy_request hr (by decide) (by decide) (by simp) ?_
  rintro number rfl
  simp only [Instr.WellFormed, MonitorFields.wf, Bool.and_eq_true] at hwf
  obtain ⟨hn, ⟨⟨h1, h2⟩, h3⟩, h4⟩ := hwf
  simp [decodeRequest, field_reads hn, field_reads h1, field_reads h2, field_reads h3, field_reads h4, flags16]

theorem carried_noticeEnable {value mask : Flags16} (hwf : (Instr.noticeEnable h value mask).WellFormed = true)
    (hr : recordOf (.noticeEnable h value mask) = some (link, kind, payload)) : CarriedBy (.noticeEnable h value mask) link kind payload := by
  refine carriedBy_request hr (by decide) (by decide) (by simp) ?_
  rintro number rfl
  have hmask := flags16_word mask []
  rw [List.append_nil] at hmask
  simp [decodeRequest, field_reads (show fitsBytes 1 number = true from hwf), flags16, hmask]

end

end Sys2Proof.Machine

/-! PROOFS. The segments, the sensor and print records, and what no kind names (O13). -/

namespace Sys2Proof.Machine

/-! ### The segments of a load (R55, R199) -/

section
variable {link : Link} {kind : Nat} {payload : List Byte} {h : ReqHead}

theorem decodeRequest_segment (p : List Byte) : decodeRequest 0x49 p = decodeSegment p := rfl

theorem carried_headerSegment {day mode step cap : Nat} (hwf : (Instr.headerSegment h day mode step cap).WellFormed = true)
    (hr : recordOf (.headerSegment h day mode step cap) = some (link, kind, payload)) :
    CarriedBy (.headerSegment h day mode step cap) link kind payload := by
  refine carriedBy_request hr (by decide) (by decide) (by simp) ?_
  rintro number rfl
  simp only [Instr.WellFormed, Bool.and_eq_true] at hwf
  obtain ⟨⟨⟨⟨hn, h1⟩, h2⟩, h3⟩, h4⟩ := hwf
  simp [decodeRequest_segment, decodeSegment, field_reads hn, field_reads h1, field_reads h2, field_reads h3, field_reads h4,
    field_reads (show fitsBytes 1 0 = true from rfl)]

theorem carried_productSegment {n : Nat} {p : Product} (hwf : (Instr.productSegment h n p).WellFormed = true)
    (hr : recordOf (.productSegment h n p) = some (link, kind, payload)) : CarriedBy (.productSegment h n p) link kind payload := by
  refine carriedBy_request hr (by decide) (by decide) (by simp) ?_
  rintro number rfl
  simp only [Instr.WellFormed, Product.wf, Bool.and_eq_true] at hwf
  obtain ⟨⟨hn, h1⟩, ⟨⟨⟨⟨⟨⟨h2, h3⟩, h4⟩, h5⟩, h6⟩, h7⟩, h8⟩, h9⟩ := hwf
  have hupgrade : (if p.upgrade.isSome = true then some (p.upgrade.getD 0) else none) = p.upgrade := by cases p.upgrade <;> rfl
  simp [decodeRequest_segment, decodeSegment, field_reads hn, field_reads h1, field_reads h2, field_reads h3, field_reads h4, field_reads h5,
    field_reads h6, field_reads h7, field_reads h8, field_reads h9, field_reads (show fitsBytes 1 1 = true from rfl),
    flagAt_bits (bs := [p.defined, p.zeroOk, p.upgrade.isSome]) (by simp), hupgrade]

theorem carried_bandTableSegment {t : Nat} {bs : List Nat} (hwf : (Instr.bandTableSegment h t bs).WellFormed = true)
    (hr : recordOf (.bandTableSegment h t bs) = some (link, kind, payload)) : CarriedBy (.bandTableSegment h t bs) link kind payload := by
  simp only [Instr.WellFormed, Bool.and_eq_true, List.all_eq_true] at hwf
  obtain ⟨⟨⟨hn, h1⟩, hle⟩, hfit⟩ := hwf
  have hlen : bs.length ≤ 28 := of_decide_eq_true hle
  have hall : ∀ v ∈ bs, v < 65536 := fun v hv => of_decide_eq_true (hfit v hv)
  have hcount : fitsBytes 1 bs.length = true := by simp; omega
  refine carriedBy_request hr (by decide) (by decide) (by simp; omega) ?_
  rintro number rfl
  have hvalues := values2_flatMap (pre := be 1 number ++ (be 1 2 ++ (be 1 t ++ be 1 bs.length))) (i := 4) (by simp) (vs := bs) hall
  simp only [List.append_assoc] at hvalues
  simp [decodeRequest_segment, decodeSegment, field_reads hn, field_reads h1, field_reads hcount, field_reads (show fitsBytes 1 2 = true from rfl),
    min_eq_left hlen, hvalues]
  omega

theorem carried_zoneBlockSegment {m first : Nat} {es : List Nat} (hwf : (Instr.zoneBlockSegment h m first es).WellFormed = true)
    (hr : recordOf (.zoneBlockSegment h m first es) = some (link, kind, payload)) :
    CarriedBy (.zoneBlockSegment h m first es) link kind payload := by
  simp only [Instr.WellFormed, Bool.and_eq_true, beq_iff_eq, List.all_eq_true] at hwf
  obtain ⟨⟨⟨⟨hn, h1⟩, h2⟩, hlen⟩, hfit⟩ := hwf
  have hall : ∀ v ∈ es, v < 16 := fun v hv => of_decide_eq_true (hfit v hv)
  have hpacked := (nibbles_packed (n := 16) (pre := []) rfl hlen hall).2
  refine carriedBy_request hr (by decide) (by decide) (by simp [hpacked]) ?_
  rintro number rfl
  have hentries := (nibbles_packed (n := 16) (pre := be 1 number ++ (be 1 3 ++ (be 1 m ++ be 1 first))) (i := 4) (by simp) hlen hall).1
  simp only [List.append_assoc] at hentries
  simp [decodeRequest_segment, decodeSegment, field_reads hn, field_reads h1, field_reads h2, field_reads (show fitsBytes 1 3 = true from rfl),
    hpacked, hentries]

theorem carried_surchargeSegment {position : Nat} {f : SurchargeFields} (hwf : (Instr.surchargeSegment h position f).WellFormed = true)
    (hr : recordOf (.surchargeSegment h position f) = some (link, kind, payload)) :
    CarriedBy (.surchargeSegment h position f) link kind payload := by
  refine carriedBy_request hr (by decide) (by decide) (by simp) ?_
  rintro number rfl
  simp only [Instr.WellFormed, SurchargeFields.wf, Bool.and_eq_true] at hwf
  obtain ⟨⟨hn, h1⟩, ⟨⟨h2, h3⟩, h4⟩, h5⟩ := hwf
  have hflag := flagAt_bits (bs := [f.last]) (by simp) [] 0
  rw [List.append_nil] at hflag
  simp [decodeRequest_segment, decodeSegment, field_reads hn, field_reads h1, field_reads h2, field_reads h3, field_reads h4, field_reads h5,
    field_reads (show fitsBytes 1 4 = true from rfl), flags16, hflag]

theorem carried_unknownSegmentGroup {group : Nat} (hwf : (Instr.unknownSegmentGroup h group).WellFormed = true)
    (hr : recordOf (.unknownSegmentGroup h group) = some (link, kind, payload)) : CarriedBy (.unknownSegmentGroup h group) link kind payload := by
  refine carriedBy_request hr (by decide) (by decide) (by simp) ?_
  rintro number rfl
  simp only [Instr.WellFormed, Bool.and_eq_true] at hwf
  obtain ⟨⟨hn, hgroup⟩, hfits⟩ := hwf
  obtain ⟨g, rfl⟩ := Nat.exists_eq_add_of_le' (of_decide_eq_true hgroup)
  simp [decodeRequest_segment, decodeSegment, field_reads hn, field_reads hfits]

theorem priceStartBytes_length (start : PriceStart) : (priceStartBytes start).length = 4 := by
  cases start <;> simp [priceStartBytes]

/-- The address of a PRICE_RUN is read back from its form and its bytes. -/
theorem priceStart_read {start : PriceStart} (h : start.wf = true) (rest : List Byte) :
    (match field (priceStartBytes start ++ rest) 0 1 with
      | 0 => PriceStart.coordinate (field (priceStartBytes start ++ rest) 1 1) (field (priceStartBytes start ++ rest) 2 1)
          (field (priceStartBytes start ++ rest) 3 1)
      | 1 => .flat (field (priceStartBytes start ++ rest) 1 2)
      | c => .unknownForm c) = start := by
  cases start with
  | coordinate t b z =>
    simp only [PriceStart.wf, Bool.and_eq_true] at h
    obtain ⟨⟨h1, h2⟩, h3⟩ := h
    simp [priceStartBytes, field_reads h1, field_reads h2, field_reads h3, field_reads (show fitsBytes 1 0 = true from rfl)]
  | flat f =>
    simp [priceStartBytes, field_reads (show fitsBytes 2 f = true from h), field_reads (show fitsBytes 1 1 = true from rfl)]
  | unknownForm c =>
    simp only [PriceStart.wf, Bool.and_eq_true, decide_eq_true_eq] at h
    obtain ⟨hc, hfits⟩ := h
    obtain ⟨k, rfl⟩ := Nat.exists_eq_add_of_le' hc
    simp [priceStartBytes, field_reads (show fitsBytes 1 (k + 2) = true by simpa using hfits)]

theorem carried_priceRunSegment {start : PriceStart} {vs : List Nat} (hwf : (Instr.priceRunSegment h start vs).WellFormed = true)
    (hr : recordOf (.priceRunSegment h start vs) = some (link, kind, payload)) : CarriedBy (.priceRunSegment h start vs) link kind payload := by
  simp only [Instr.WellFormed, Bool.and_eq_true, List.all_eq_true] at hwf
  obtain ⟨⟨⟨hn, hstart⟩, hle⟩, hfit⟩ := hwf
  have hlen : vs.length ≤ 26 := of_decide_eq_true hle
  have hall : ∀ v ∈ vs, v < 65536 := fun v hv => of_decide_eq_true (hfit v hv)
  have hcount : fitsBytes 1 vs.length = true := by simp; omega
  have hfour := priceStartBytes_length start
  refine carriedBy_request hr (by decide) (by decide) (by simp [hfour]; omega) ?_
  rintro number rfl
  have hvalues := values2_flatMap (pre := be 1 number ++ (be 1 5 ++ (priceStartBytes start ++ be 1 vs.length))) (i := 7) (by simp [hfour])
    (vs := vs) hall
  have hread := priceStart_read hstart (be 1 vs.length ++ vs.flatMap (be 2))
  have hbehind : field (priceStartBytes start ++ (be 1 vs.length ++ vs.flatMap (be 2))) 4 1 = vs.length := by
    rw [field_append _ hfour.le, hfour]
    exact (field_reads hcount).1 _
  simp only [List.append_assoc] at hvalues
  simp [decodeRequest_segment, decodeSegment, field_reads hn, field_reads (show fitsBytes 1 5 = true from rfl), hbehind, hfour, hvalues,
    min_eq_left hlen]
  exact ⟨by omega, hread⟩

end

/-! ### Sensor and print records (R197, R199) -/

section
variable {link : Link} {kind : Nat} {payload : List Byte}

theorem carriedBy_sensor {c : Instr} {k : Nat} {p : List Byte} (hk : k < 0x40) (hl : sensorLength k = some p.length) (h60 : p.length ≤ 60)
    (hd : decodeSensor k p = c) : CarriedBy c .line k p :=
  ⟨by omega, h60, (decodeRecord_sensor hk hl).trans hd⟩

theorem carriedBy_print {c : Instr} {k : Nat} {p : List Byte} (hk : k < 256) (hl : printLength k = some p.length) (h60 : p.length ≤ 60)
    (hd : decodePrint k p = c) : CarriedBy c .print k p :=
  ⟨hk, h60, (decodeRecord_print hl).trans hd⟩

theorem carried_dimension {tag l h t : Nat} {nm : Bool} (hwf : (Instr.dimension tag l h t nm).WellFormed = true)
    (hr : recordOf (.dimension tag l h t nm) = some (link, kind, payload)) : CarriedBy (.dimension tag l h t nm) link kind payload := by
  cases hr
  simp only [Instr.WellFormed, Bool.and_eq_true] at hwf
  obtain ⟨⟨⟨htag, h1⟩, h2⟩, h3⟩ := hwf
  have hflag := flagAt_bits (bs := [nm]) (by simp) [] 0
  rw [List.append_nil] at hflag
  refine carriedBy_sensor (by decide) (by simp [sensorLength]) (by simp) ?_
  simp [decodeSensor, field_reads htag, field_reads h1, field_reads h2, field_reads h3, hflag]

theorem carried_weight {tag reading quality : Nat} (hwf : (Instr.weight tag reading quality).WellFormed = true)
    (hr : recordOf (.weight tag reading quality) = some (link, kind, payload)) : CarriedBy (.weight tag reading quality) link kind payload := by
  cases hr
  simp only [Instr.WellFormed, Bool.and_eq_true] at hwf
  obtain ⟨⟨htag, h1⟩, h2⟩ := hwf
  refine carriedBy_sensor (by decide) (by simp [sensorLength]) (by simp) ?_
  simp [decodeSensor, field_reads htag, field_reads h1, field_reads h2]

theorem carried_destination {tag code : Nat} {noRead : Bool} {service : Option Nat}
    (hwf : (Instr.destination tag code noRead service).WellFormed = true)
    (hr : recordOf (.destination tag code noRead service) = some (link, kind, payload)) :
    CarriedBy (.destination tag code noRead service) link kind payload := by
  cases hr
  simp only [Instr.WellFormed, Bool.and_eq_true] at hwf
  obtain ⟨⟨htag, h1⟩, h2⟩ := hwf
  have hservice : (if service.isSome = true then some (service.getD 0) else none) = service := by cases service <;> rfl
  refine carriedBy_sensor (by decide) (by simp [sensorLength]) (by simp) ?_
  simp [decodeSensor, field_reads htag, field_reads h1, field_reads h2, flagAt_bits (bs := [noRead, service.isSome]) (by simp), hservice]

theorem carried_lineStatus {word : Flags16} (hr : recordOf (.lineStatus word) = some (link, kind, payload)) :
    CarriedBy (.lineStatus word) link kind payload := by
  cases hr
  have hword := flags16_word word []
  rw [List.append_nil] at hword
  refine carriedBy_sensor (by decide) (by simp [sensorLength]) (by simp) ?_
  simp [decodeSensor, flags16, hword]

/-- The records that carry a tag alone. -/
theorem carriedBy_tag {c : Nat → Instr} {k tag : Nat} (hk : k < 0x40) (hl : sensorLength k = some 2) (htag : fitsBytes 2 tag = true)
    (hd : ∀ p, decodeSensor k p = c (field p 0 2)) : CarriedBy (c tag) .line k (be 2 tag) :=
  carriedBy_sensor hk (by simp [hl]) (by simp) (by rw [hd, (field_reads htag).2])

theorem carried_printResult {tag outcome : Nat} (hwf : (Instr.printResult tag outcome).WellFormed = true)
    (hr : recordOf (.printResult tag outcome) = some (link, kind, payload)) : CarriedBy (.printResult tag outcome) link kind payload := by
  cases hr
  simp only [Instr.WellFormed, Bool.and_eq_true] at hwf
  obtain ⟨htag, h1⟩ := hwf
  refine carriedBy_print (by decide) (by simp [printLength]) (by simp) ?_
  simp [decodePrint, field_reads htag, field_reads h1]

/-! ### What no kind names (R191) -/

theorem decodeRequest_unknown {k : Nat} (h : requestKinds.contains k = false) (p : List Byte) :
    decodeRequest k p = .unknownRequest (field p 0 1) k := by
  unfold decodeRequest
  split <;> simp_all [requestKinds]

theorem carried_unknownRequest {number k : Nat} (hwf : (Instr.unknownRequest number k).WellFormed = true)
    (hr : recordOf (.unknownRequest number k) = some (link, kind, payload)) : CarriedBy (.unknownRequest number k) link kind payload := by
  cases hr
  simp only [Instr.WellFormed, Bool.and_eq_true, Bool.not_eq_true'] at hwf
  obtain ⟨⟨⟨hn, hlow⟩, hhigh⟩, hno⟩ := hwf
  have hlow := of_decide_eq_true hlow
  have hhigh := of_decide_eq_true hhigh
  refine ⟨by omega, by simp, ?_⟩
  rw [decodeRecord_request hlow hhigh (by simp), decodeRequest_unknown hno, (field_reads hn).2]

theorem carried_unknownRecord {l : Link} {k len : Nat} (hwf : (Instr.unknownRecord l k len).WellFormed = true)
    (hr : recordOf (.unknownRecord l k len) = some (link, kind, payload)) : CarriedBy (.unknownRecord l k len) link kind payload := by
  cases hr
  simp only [Instr.WellFormed, Bool.and_eq_true] at hwf
  obtain ⟨⟨hk, hlen⟩, hunknown⟩ := hwf
  refine ⟨by simpa using hk, by rw [List.length_replicate]; exact of_decide_eq_true hlen, ?_⟩
  simp [decodeRecord, hunknown]

end

/-- Every command that arrives on a link is read back from the record that carries it. -/
theorem recordOf_carried {c : Instr} {link : Link} {kind : Nat} {payload : List Byte} (hwf : c.WellFormed = true)
    (hr : recordOf c = some (link, kind, payload)) : CarriedBy c link kind payload := by
  cases c with
  | enter tag => cases hr; exact carriedBy_tag (c := .enter) (by decide) rfl hwf fun _ => rfl
  | gate tag => cases hr; exact carriedBy_tag (c := .gate) (by decide) rfl hwf fun _ => rfl
  | exit tag => cases hr; exact carriedBy_tag (c := .exit) (by decide) rfl hwf fun _ => rfl
  | remove tag => cases hr; exact carriedBy_tag (c := .remove) (by decide) rfl hwf fun _ => rfl
  | dimension => exact carried_dimension hwf hr
  | weight => exact carried_weight hwf hr
  | destination => exact carried_destination hwf hr
  | lineStatus => exact carried_lineStatus hr
  | configure => exact carried_configure hwf hr
  | tableBegin => exact carried_tableBegin hwf hr
  | headerSegment => exact carried_headerSegment hwf hr
  | productSegment => exact carried_productSegment hwf hr
  | bandTableSegment => exact carried_bandTableSegment hwf hr
  | zoneBlockSegment => exact carried_zoneBlockSegment hwf hr
  | surchargeSegment => exact carried_surchargeSegment hwf hr
  | priceRunSegment => exact carried_priceRunSegment hwf hr
  | unknownSegmentGroup => exact carried_unknownSegmentGroup hwf hr
  | tableEnd => exact carried_tableEnd hwf hr
  | bankSwitchImmediate => exact carried_bankSwitchImmediate hwf hr
  | bankSwitchAtDate => exact carried_bankSwitchAtDate hwf hr
  | bankSwitchAtJob => exact carried_bankSwitchAtJob hwf hr
  | credit => exact carried_credit hwf hr
  | date => exact carried_date hwf hr
  | jobAdd => exact carried_jobAdd hwf hr
  | jobAbort => exact carried_jobAbort hwf hr
  | monitorSet => exact carried_monitorSet hwf hr
  | noticeEnable => exact carried_noticeEnable hwf hr
  | lineReset => exact carriedBy_bare (c := .lineReset) (by decide) (by decide) (fun _ => rfl) hwf hr
  | identify => exact carriedBy_bare (c := .identify) (by decide) (by decide) (fun _ => rfl) hwf hr
  | accountQuery => exact carriedBy_bare (c := .accountQuery) (by decide) (by decide) (fun _ => rfl) hwf hr
  | hold => exact carriedBy_bare (c := .hold) (by decide) (by decide) (fun _ => rfl) hwf hr
  | resume => exact carriedBy_bare (c := .resume) (by decide) (by decide) (fun _ => rfl) hwf hr
  | clearHalt => exact carriedBy_bare (c := .clearHalt) (by decide) (by decide) (fun _ => rfl) hwf hr
  | fetchCapture => exact carriedBy_bare (c := .fetchCapture) (by decide) (by decide) (fun _ => rfl) hwf hr
  | status => exact carriedBy_bare (c := .status) (by decide) (by decide) (fun _ => rfl) hwf hr
  | peek => exact carriedBy_bare (c := .peek) (by decide) (by decide) (fun _ => rfl) hwf hr
  | endOfService => exact carriedBy_bare (c := .endOfService) (by decide) (by decide) (fun _ => rfl) hwf hr
  | unknownRequest => exact carried_unknownRequest hwf hr
  | unknownRecord => exact carried_unknownRecord hwf hr
  | printerState code =>
    cases hr
    exact carriedBy_print (by decide) (by simp [printLength]) (by simp) (congrArg Instr.printerState (field_reads hwf).2)
  | orderTaken tag =>
    cases hr
    exact carriedBy_print (by decide) (by simp [printLength]) (by simp) (congrArg Instr.orderTaken (field_reads hwf).2)
  | printResult => exact carried_printResult hwf hr
  | _ => cases hr

end Sys2Proof.Machine

/-! PROOFS. Frames become commands (O13). -/

namespace Sys2Proof.Machine

/-! ### One frame at the framer (R190) -/

theorem be_one (v : Nat) : be 1 v = [BitVec.ofNat 8 v] := by simp [be]

section
variable {payload : List Byte} (hl : payload.length ≤ 60) (kind c d : Byte)
include hl

/-- A whole frame whose check matches completes its record. -/
theorem feeds_matching (h : be 2 (frameCheck (BitVec.ofNat 8 payload.length :: kind :: payload)).toNat = [c, d]) :
    Feeds .idle (Config.sync :: BitVec.ofNat 8 payload.length :: kind :: payload ++ [c] ++ [d]) .idle [.record kind.toNat payload] := by
  have hlast := Framer.feed_last hl kind c d
  rw [if_pos h] at hlast
  exact (Feeds.frame hl kind c).append (.record hlast (.nil _))

/-- A whole frame whose check does not match is discarded, and its bytes but for SYNC are looked at again. -/
theorem feeds_mismatching (h : be 2 (frameCheck (BitVec.ofNat 8 payload.length :: kind :: payload)).toNat ≠ [c, d]) {g : Framer}
    {es : List FrameEvent} (hf : Feeds .idle (BitVec.ofNat 8 payload.length :: kind :: payload ++ [c, d]) g es) :
    Feeds .idle (Config.sync :: BitVec.ofNat 8 payload.length :: kind :: payload ++ [c] ++ [d]) g
      (.discarded (BitVec.ofNat 8 payload.length :: kind :: payload ++ [c, d]) :: es) := by
  have hlast := Framer.feed_last hl kind c d
  rw [if_neg h] at hlast
  exact (Feeds.frame hl kind c).append (.discarded hlast (by rwa [List.append_nil]))

end

/-- A LEN above 60 discards the frame, and the hunt resumes with it. -/
theorem feeds_overlong {length : Byte} (h : 60 < length.toNat) {g : Framer} {es : List FrameEvent} (hf : Feeds .idle [length] g es) :
    Feeds .idle [Config.sync, length] g (.discarded [length] :: es) := by
  have hlen : Framer.feed { phase := .length, bytes := [] } length = (.idle, some (.discarded [length])) := if_pos h
  exact .quiet (f' := { phase := .length, bytes := [] }) rfl (.discarded hlen hf)

/-- A byte that is no SYNC is dropped in HUNT. -/
theorem feeds_hunting {b : Byte} (h : b ≠ Config.sync) : Feeds .idle [b] .idle [] :=
  .quiet (f' := .idle) (if_neg h) (.nil _)

/-! ### The frames of a link as commands (R190, R191) -/

/-- Bytes received one by one. -/
def State.receiveAll (s : State) (link : Link) (bytes : List Byte) : State := bytes.foldl (fun u b => u.receive link b) s

section
variable {s : State} {link : Link} (hp : s.power = .on) (hi : s.framer link = .idle)
include hp hi

theorem receiveAll_feeds {bytes : List Byte} {g : Framer} {es : List FrameEvent} (hf : Feeds .idle bytes g es) :
    s.receiveAll link bytes = s.fed link g es :=
  State.receive_feeds hp (hi ▸ Framer.idle_holds) (hi ▸ hf)

/-- Bytes that leave the framer in HUNT put their commands at the end of the queue and change nothing else. -/
theorem receiveAll_idle {bytes : List Byte} {es : List FrameEvent} (hf : Feeds .idle bytes .idle es) :
    s.receiveAll link bytes = { s with pending := s.pending ++ es.map (decodeEvent link) } := by
  have hset : s.setFramer link .idle = s := by
    rw [← hi]
    cases link <;> rfl
  rw [receiveAll_feeds hp hi hf, State.fed, hset]

/-- A frame that is discarded counts as one, and the bytes looked at again are received after it. -/
theorem receiveAll_discarded {bytes again : List Byte}
    (hf : ∀ g es, Feeds .idle again g es → Feeds .idle bytes g (.discarded again :: es)) :
    s.receiveAll link bytes = State.receiveAll { s with pending := s.pending ++ [.discardedFrame link] } link again := by
  have hi' : State.framer { s with pending := s.pending ++ [.discardedFrame link] } link = .idle := by
    rw [← hi]
    cases link <;> rfl
  obtain ⟨g, es, hagain, -, heq⟩ :=
    State.receive_run (s := { s with pending := s.pending ++ [.discardedFrame link] }) hp (link := link) (bs := again) (hi' ▸ Framer.idle_holds)
  rw [hi'] at hagain
  rw [receiveAll_feeds hp hi (hf g es hagain), State.receiveAll, heq]
  unfold State.fed
  cases link <;> simp [State.setFramer, decodeEvent]

/-- A frame of a record puts the command of its layout at the end of the queue. -/
theorem receiveAll_frame {kind : Nat} {payload : List Byte} (hk : kind < 256) (hl : payload.length ≤ 60) :
    s.receiveAll link (frame kind payload) = { s with pending := s.pending ++ [decodeRecord link kind payload] } := by
  have hcovered : be 1 payload.length ++ be 1 kind ++ payload = BitVec.ofNat 8 payload.length :: BitVec.ofNat 8 kind :: payload := by
    simp [be_one]
  obtain ⟨c, d, hcheck⟩ : ∃ c d, be 2 (frameCheck (BitVec.ofNat 8 payload.length :: BitVec.ofNat 8 kind :: payload)).toNat = [c, d] := ⟨_, _, rfl⟩
  have hbytes : frame kind payload =
      Config.sync :: BitVec.ofNat 8 payload.length :: BitVec.ofNat 8 kind :: payload ++ [c] ++ [d] := by
    simp only [frame, hcovered, hcheck]
    simp
  have hbyte : (BitVec.ofNat 8 kind).toNat = kind := by rw [BitVec.toNat_ofNat]; exact Nat.mod_eq_of_lt hk
  have hfeeds := feeds_matching hl (BitVec.ofNat 8 kind) c d hcheck
  rw [← hbytes, hbyte] at hfeeds
  exact receiveAll_idle hp hi hfeeds

end

/-- A part that does not work takes no byte (R200). -/
theorem receive_off {s : State} (hp : s.power ≠ .on) (link : Link) (b : Byte) : s.receive link b = s := if_neg hp

/-! ### The head of a request (R191, R192) -/

theorem field_first (b : Byte) (rest : List Byte) : field (b :: rest) 0 1 = b.toNat := by simp [field]

/-- Settles O13: a frame completes its record, which is read back as the command. -/
theorem framesBecomeCommands : Obligations.FramesBecomeCommands := by
  unfold Obligations.FramesBecomeCommands
  intro received queued
  refine ⟨fun link s hp hi => ⟨fun c kind payload hwf hr => ?_, fun kind payload hk hl => receiveAll_frame hp hi hk hl, fun b hb => ?_,
    fun length hlen => ?_, fun kind payload check hl => ?_⟩, fun link b s hp => receive_off hp link b, fun k first rest hk => ?_⟩
  · obtain ⟨hk, hl, hd⟩ := recordOf_carried hwf hr
    have hframe := receiveAll_frame hp hi hk hl
    rw [hd] at hframe
    exact hframe
  · have hdrop := receiveAll_idle hp hi (feeds_hunting hb)
    rw [List.map_nil, List.append_nil] at hdrop
    exact hdrop
  · exact receiveAll_discarded hp hi fun g es hf => feeds_overlong hlen hf
  · intro covered hcheck hne
    obtain ⟨c, d, rfl⟩ := List.length_eq_two.mp hcheck
    have hcovered : covered = BitVec.ofNat 8 payload.length :: kind :: payload := by simp [covered, be_one]
    rw [hcovered] at hne ⊢
    have hdiscard := receiveAll_discarded hp hi
      (bytes := Config.sync :: BitVec.ofNat 8 payload.length :: kind :: payload ++ [c] ++ [d])
      (again := BitVec.ofNat 8 payload.length :: kind :: payload ++ [c, d])
      fun g es hf => feeds_mismatching hl kind c d hne.symm hf
    rw [List.append_assoc] at hdiscard
    exact hdiscard
  · intro length
    rw [decodeRecord_request (by cases k <;> decide) (by cases k <;> decide) (by simp)]
    have hfirst := field_first first rest
    cases k with
    | tableSegment => exact absurd rfl hk
    | bankSwitch =>
      show requestOf (match field (first :: rest) 2 1 with
        | 1 => .bankSwitchAtDate { number := field (first :: rest) 0 1, lenOk := (first :: rest).length == 3 } (field (first :: rest) 1 1)
        | 2 => .bankSwitchAtJob { number := field (first :: rest) 0 1, lenOk := (first :: rest).length == 3 } (field (first :: rest) 1 1)
        | m => .bankSwitchImmediate { number := field (first :: rest) 0 1, lenOk := (first :: rest).length == 3 } (field (first :: rest) 1 1) m) = _
      rw [hfirst]
      split <;> rfl
    | _ =>
      rw [← hfirst]
      rfl

end Sys2Proof.Machine
